-- ==== Sys2Proof/Word.lean ====
section
/-! DEFINITION. The word types of the block and their plainest arithmetic (00_scope.md R5, R7). -/

namespace Sys2Proof

/-- A symbol or a stream byte: SYMW = 8 bits, unsigned (R5). -/
abbrev Byte := BitVec 8

/-- A command word: CMDW = 16 bits (R5, R60). -/
abbrev Word := BitVec 16

/-- What the read port returns and what ERRINFO holds: 64 bits (R5, R15, R51). -/
abbrev Word64 := BitVec 64

/-- A node handle: HW = 9 bits (R5, R19). -/
abbrev Handle := BitVec 9

/-- A bit string, first bit first (R7): a sequence, not a number. -/
abbrev Bits := List Bool

/-- `ceil8(v)`: the least multiple of 8 that is at least `v` (R7). -/
def ceil8 (v : Nat) : Nat := (v + 7) / 8 * 8

/-- A symbol as an index into the 256-entry tables FREQ and CODE (R17, R23). -/
def symIdx (b : Byte) : Fin 256 := ⟨b.toNat, b.isLt⟩

end Sys2Proof
end

