-- ==== Sys2Proof/Syntax.lean ====
section
/-! DEFINITION. The command set: one constructor per row of the opcode map (30_encoding.md R62). -/

namespace Sys2Proof

/-- A command. CNT and ENC carry their symbol, CTL its operand byte (R61); every other command has no operand. -/
inductive Instr where
  /-- CLR (R80). -/
  | clr
  /-- CTL v (R81). `opd` is the whole operand byte, whose bits 7:4 must be 0 (log 18). -/
  | ctl (opd : Byte)
  /-- CNT s (R82). -/
  | cnt (sym : Byte)
  /-- FREQ (R83). -/
  | freq
  /-- LIST (R84). -/
  | list
  /-- MERGE (R90). -/
  | merge
  /-- TREE (R91). -/
  | tree
  /-- CODES (R100). -/
  | codes
  /-- CHECK (R101). -/
  | check
  /-- HDR (R110). -/
  | hdr
  /-- STREE (R111). -/
  | stree
  /-- ENC s (R112). -/
  | enc (sym : Byte)
  /-- PAYLOAD (R113). -/
  | payload
  /-- FLUSH (R114). -/
  | flush
  /-- COMP (R115). -/
  | comp
  /-- DHDR (R130). -/
  | dhdr
  /-- DTREE (R131). -/
  | dtree
  /-- DSYM (R132). -/
  | dsym
  /-- DPAYLOAD (R133). -/
  | dpayload
  /-- DECOMP (R134). -/
  | decomp
  deriving DecidableEq, Repr

end Sys2Proof
end

