-- ==== Sys2Proof/WellFormed.lean ====
section
/-! DEFINITION. Which terms of `Instr` are commands the block has: the one operand check of 30_encoding.md R61. -/

namespace Sys2Proof

/-- CTL's operand bits 7:4 must be 0 (R61, R81). -/
def ctlOperandOk (opd : Byte) : Bool := opd.extractLsb' 4 4 == 0#4

/-- A command is well formed when its operand is one the encoding admits (R61): any byte for CNT and ENC, a byte below 16 for
CTL, no operand for the rest. -/
def Instr.wellFormed : Instr → Bool
  | .ctl opd => ctlOperandOk opd
  | .clr | .cnt _ | .freq | .list | .merge | .tree | .codes | .check | .hdr | .stree | .enc _ | .payload | .flush | .comp
  | .dhdr | .dtree | .dsym | .dpayload | .decomp => true

end Sys2Proof
end

