-- ==== Sys2Proof/Decode.lean ====
section
/-! DEFINITION. The decoder of command words, by the rows of 30_encoding.md R62, and the encoder. -/

namespace Sys2Proof

/-- Why a word is no command (R64). -/
inductive Reject where
  /-- No row has this OPC. -/
  | unknownOpcode (opc : Byte)
  /-- A command without operand came with OPD ≠ 0. -/
  | operandNotZero (opc opd : Byte)
  /-- CTL came with some of OPD[7:4] set. -/
  | ctlHighBitsSet (opd : Byte)
  deriving DecidableEq, Repr

/-- What decoding a word gives: a command, or a rejection by name. -/
inductive Decoded where
  | instr (i : Instr)
  | reject (r : Reject)
  deriving DecidableEq, Repr

/-- One row of the opcode map: `match`, `mask`, and the command of an operand byte (R62). -/
structure Row where
  pat : Word
  mask : Word
  build : Byte → Instr

/-- A row whose OPD must be 0. -/
def Row.bare (pat : Word) (i : Instr) : Row := ⟨pat, 0xFFFF#16, fun _ => i⟩

/-- The twenty rows of R62, `match / mask` as the table has them. -/
def rows : List Row :=
  [ Row.bare 0x0000#16 .clr, ⟨0x0100#16, 0xFFF0#16, .ctl⟩,
    ⟨0x1000#16, 0xFF00#16, .cnt⟩, Row.bare 0x1100#16 .freq, Row.bare 0x1200#16 .list,
    Row.bare 0x2000#16 .merge, Row.bare 0x2100#16 .tree,
    Row.bare 0x3000#16 .codes, Row.bare 0x3100#16 .check,
    Row.bare 0x4000#16 .hdr, Row.bare 0x4100#16 .stree, ⟨0x4200#16, 0xFF00#16, .enc⟩,
    Row.bare 0x4300#16 .payload, Row.bare 0x4400#16 .flush, Row.bare 0x4F00#16 .comp,
    Row.bare 0x5000#16 .dhdr, Row.bare 0x5100#16 .dtree, Row.bare 0x5200#16 .dsym,
    Row.bare 0x5300#16 .dpayload, Row.bare 0x5F00#16 .decomp ]

/-- `(w and mask) = match` (R62). -/
def Row.hits (r : Row) (w : Word) : Bool := w &&& r.mask == r.pat

/-- OPC, bits 15:8 of a command word (R60). -/
def wordOpc (w : Word) : Byte := w.extractLsb' 8 8

/-- OPD, bits 7:0 of a command word (R60). -/
def wordOpd (w : Word) : Byte := w.extractLsb' 0 8

/-- The name under which a word that hits no row is rejected (R64). -/
def rejectOf (w : Word) : Reject :=
  if wordOpc w = 0x01#8 then .ctlHighBitsSet (wordOpd w)
  else if rows.any (fun r => wordOpc r.pat == wordOpc w) then .operandNotZero (wordOpc w) (wordOpd w)
  else .unknownOpcode (wordOpc w)

/-- Decoding (R63): the command of the row the word hits, reading no state; a word that hits none is illegal (R64). -/
def decode (w : Word) : Decoded :=
  match rows.find? (·.hits w) with
  | some r => .instr (r.build (wordOpd w))
  | none => .reject (rejectOf w)

/-- A word of opcode `opc` and operand byte `opd` (R60). -/
def mkWord (opc opd : Byte) : Word := opc ++ opd

/-- The OPC of a command (R62). -/
def Instr.opcode : Instr → Byte
  | .clr => 0x00#8
  | .ctl _ => 0x01#8
  | .cnt _ => 0x10#8
  | .freq => 0x11#8
  | .list => 0x12#8
  | .merge => 0x20#8
  | .tree => 0x21#8
  | .codes => 0x30#8
  | .check => 0x31#8
  | .hdr => 0x40#8
  | .stree => 0x41#8
  | .enc _ => 0x42#8
  | .payload => 0x43#8
  | .flush => 0x44#8
  | .comp => 0x4F#8
  | .dhdr => 0x50#8
  | .dtree => 0x51#8
  | .dsym => 0x52#8
  | .dpayload => 0x53#8
  | .decomp => 0x5F#8

/-- The OPD of a command: its operand, 0 where it has none (R61). -/
def Instr.operand : Instr → Byte
  | .ctl opd => opd
  | .cnt sym => sym
  | .enc sym => sym
  | .clr | .freq | .list | .merge | .tree | .codes | .check | .hdr | .stree | .payload | .flush | .comp
  | .dhdr | .dtree | .dsym | .dpayload | .decomp => 0#8

/-- The word of a command, format C (R60 to R62). -/
def encode (i : Instr) : Word := mkWord i.opcode i.operand

/-- The command the decoder reads from an opcode-table word: every row has one 16-bit word (R60). -/
def decodeTableWord (nbits w : Nat) : Option Instr :=
  match decode (BitVec.ofNat 16 (w % 2 ^ nbits)) with
  | .instr i => some i
  | .reject _ => none

end Sys2Proof
end

