-- ==== Sys2Proof/Config.lean ====
section
/-! DEFINITION. What an implementation of the block fixes (00_scope.md R5), and the one free value. -/

namespace Sys2Proof

/-- The two parameters of R5 a model takes as arguments: CW, the width of a count or weight, and FRAME_BYTES, the framing
allowance of the size estimate (log 3). -/
structure Config where
  cw : Nat
  frameBytes : Nat
  deriving DecidableEq, Repr

namespace Config

/-- The defaults of R5: CW = 32, FRAME_BYTES = 6. -/
def default : Config := ⟨32, 6⟩

/-- `1 ≤ CW ≤ 48` (R5); 93_implementation_defined.md U4 says to refuse any other CW. -/
def valid (c : Config) : Bool := decide (1 ≤ c.cw) && decide (c.cw ≤ 48)

/-- The greatest count or weight, `2^CW - 1` (R82). -/
def maxCount (c : Config) : Nat := 2 ^ c.cw - 1

/-- NODE_CAP, the number of entries of the NODE memory (R5, R19). -/
def nodeCap : Nat := 511

/-- NIL, the handle of no entry (R5, R19). -/
def nil : Handle := 511#9

/-- 'H', the first byte of the magic (R5; log 13). -/
def magic0 : Byte := 0x48#8

/-- 'F', the second byte of the magic (R5; log 13). -/
def magic1 : Byte := 0x46#8

/-- FREE VALUE (log 6). What the read port shows of the WEIGHT of a NODE entry that holds no value: unspecified (R20, R52).
It is applied to the whole state `s` of the machine and to the entry's number, so no two states need agree. -/
opaque freeWeight {σ : Type} (s : σ) (n : Nat) : Nat

/-- FREE VALUE (log 6). What the read port shows of the links and symbol of a NODE entry that holds no value: unspecified, in
the 35 bits the field has (R19, R52). -/
opaque freeLinks {σ : Type} (s : σ) (n : Nat) : BitVec 35

end Config

end Sys2Proof
end

