-- ==== Sys2Proof/Machine/State.lean ====
section
/-! DEFINITION. The state of the block (10_state.md R10), its reset value (R28), and why a step can stop. -/

namespace Sys2Proof.Machine

open Sys2Proof

/-- PHASE, the sequencer (R12). The reserved value 14 is never taken and has no constructor (log 21). -/
inductive Phase where
  | idle | count | listed | treed | coded | checked | hdrDone | treeOut | encoding | payDone | done
  | dhdrOk | dtreeOk | ddone | fault
  deriving DecidableEq, Repr

/-- ERR, the fault code (60_exceptions.md R151). Codes 11 to 15 are never written and have no constructor (log 21). -/
inductive ErrCode where
  | none | illegalCmd | sequence | emptyInput | countOverflow | notCompressible | degenerate | noCode
  | corruptHeader | unexpectedEos | nodeOverflow
  deriving DecidableEq, Repr

/-- One entry of the NODE memory (R19). WEIGHT is a count of CW bits held as a number (log 7). -/
structure NodeEntry where
  sym : Byte
  weight : Nat
  left : Handle
  right : Handle
  next : Handle
  deriving DecidableEq, Repr

/-- The NODE memory: entries by handle, handles strictly rising. An unlisted entry holds no value: R28 leaves it unspecified
(log 4). -/
abbrev Memory := List (Nat × NodeEntry)

/-- What the host does to the block between commands (00_scope.md R6; log 1). -/
inductive HostAct where
  /-- Writes a word to the command port (R60, R150). -/
  | command (w : Word)
  /-- Asserts and releases reset (R180; log 11). -/
  | reset
  /-- Binds the input stream (R40, R182; log 10). -/
  | bind (bytes : List Byte)
  deriving DecidableEq, Repr

/-- The whole state of the block (R10), with the parameters (`cfg`, log 3) and what the host has yet to present (`host`,
log 1). IN_LEN and OUT_LEN are the lengths of `inp` and `out` (log 9); STATUS is a view (R14). -/
structure State where
  cfg : Config
  host : List HostAct
  force : Bool
  tailskip : BitVec 3
  phase : Phase
  err : ErrCode
  errinfo : Word64
  degen : Bool
  notSmaller : Bool
  outFinal : Bool
  padcnt : BitVec 3
  freq : Vector Nat 256
  total : Nat
  nsym : Nat
  node : Memory
  nnodes : Nat
  head : Handle
  nlist : Nat
  root : Handle
  code : Vector Bits 256
  treebits : Nat
  paybits : Nat
  estbits : Nat
  uncbits : Nat
  inp : List Byte
  inPos : Nat
  bitPos : Nat
  out : List Byte
  acc : BitVec 8
  nbits : BitVec 3
  deriving DecidableEq, Repr

/-- Where the machine itself stops. The spec's own faults (R151) are no member of this type: they are next states in phase
FAULT. -/
inductive Fault where
  /-- A command read NODE[h] where no value is held: R28 and 93_implementation_defined.md U7 ("treat as stuck"). Raised by
  `State.needNode`. Safe: the model stops. Not reachable from a state of `Safety.Inv`. -/
  | unallocatedNode (h : Handle)
  /-- A command needs a NODE entry with handle 511 or more, which does not exist (R19). Raised by `takeHandle`. Safe. -/
  | noSuchNode
  /-- Links of the NODE memory form a cycle, so that the pseudocode of the command never ends (log 17). Raised by the walks.
  Safe. -/
  | endlessWalk
  deriving DecidableEq, Repr

/-- Where the model gives no meaning. -/
inductive Refusal where
  /-- A command whose meaning is not written yet: raised by `exec` only. Safe. -/
  | notModelled (mnemonic : String)
  /-- CW outside 1 to 48 (93_implementation_defined.md U4 "refuse"): raised by `step`. Safe. -/
  | badConfig
  /-- The host binds IN during a run (R186; 93_implementation_defined.md U11 "refuse"): raised by `step` (log 10). Safe. -/
  | inputChangedDuringRun
  /-- The host binds an IN whose length or bit count does not fit the 64-bit registers (R25): raised by `step` (log 19).
  Safe. -/
  | inputTooLong
  deriving DecidableEq, Repr

/-- How a piece of a command's pseudocode ends: it goes on with a result, it ends the command (a `raise`, or DSYM at
exhaustion), or the machine stops. -/
inductive Flow (α : Type) where
  | go (a : α) (s : State)
  | ended (s : State)
  | stuck (f : Fault)
  deriving DecidableEq, Repr

/-- Every piece of state at its value after reset (R28, R180). -/
def State.reset : State where
  cfg := Config.default
  host := []
  force := false
  tailskip := 0
  phase := .idle
  err := .none
  errinfo := 0
  degen := false
  notSmaller := false
  outFinal := false
  padcnt := 0
  freq := Vector.replicate 256 0
  total := 0
  nsym := 0
  node := []
  nnodes := 0
  head := Config.nil
  nlist := 0
  root := Config.nil
  code := Vector.replicate 256 []
  treebits := 0
  paybits := 0
  estbits := 0
  uncbits := 0
  inp := []
  inPos := 0
  bitPos := 0
  out := []
  acc := 0
  nbits := 0

end Sys2Proof.Machine
end

