-- ==== Sys2Proof/Machine/Operands.lean ====
section
/-! DEFINITION. The operand forms (30_encoding.md R61) and the numbers of the named codes (10_state.md R12,
60_exceptions.md R151). -/

namespace Sys2Proof.Machine

open Sys2Proof

/-- FORCE of a CTL operand: OPD[0] (R61). -/
def ctlForce (opd : Byte) : Bool := opd.getLsbD 0

/-- TAILSKIP of a CTL operand: OPD[3:1] (R61). -/
def ctlTailskip (opd : Byte) : BitVec 3 := opd.extractLsb' 1 3

/-- The value of PHASE (R12). -/
def Phase.num : Phase → Nat
  | .idle => 0
  | .count => 1
  | .listed => 2
  | .treed => 3
  | .coded => 4
  | .checked => 5
  | .hdrDone => 6
  | .treeOut => 7
  | .encoding => 8
  | .payDone => 9
  | .done => 10
  | .dhdrOk => 11
  | .dtreeOk => 12
  | .ddone => 13
  | .fault => 15

/-- The value of ERR (R151). -/
def ErrCode.num : ErrCode → Nat
  | .none => 0
  | .illegalCmd => 1
  | .sequence => 2
  | .emptyInput => 3
  | .countOverflow => 4
  | .notCompressible => 5
  | .degenerate => 6
  | .noCode => 7
  | .corruptHeader => 8
  | .unexpectedEos => 9
  | .nodeOverflow => 10

/-- A run is over, or none has begun: the phases in which the host may bind another IN (00_scope.md R9 "run", R40, R186;
log 10). -/
def Phase.betweenRuns : Phase → Bool
  | .idle | .done | .ddone | .fault => true
  | .count | .listed | .treed | .coded | .checked | .hdrDone | .treeOut | .encoding | .payDone | .dhdrOk | .dtreeOk => false

end Sys2Proof.Machine
end

