-- ==== Sys2Proof/Machine/Flags.lean ====
section
/-! DEFINITION. The three flags DEGEN, NOTSMALLER and OUT_FINAL (10_state.md R16), PADCNT, and the two status words they and
CTRL are read in (R13, R14). -/

namespace Sys2Proof.Machine

open Sys2Proof

/-- `isleaf(n)` of an entry: LEFT and RIGHT are both NIL (00_scope.md R7). -/
def NodeEntry.isLeaf (e : NodeEntry) : Bool := e.left == Config.nil && e.right == Config.nil

/-- NOTSMALLER: the estimate is not strictly smaller than the uncompressed size (42_code_table.md R101). -/
def notSmallerFlag (estbits uncbits : Nat) : Bool := !decide (estbits < uncbits)

/-- PADCNT: how many zero bits bring `nbits` held bits to a byte, 0 when none is held (20_memory.md R46). -/
def padCount (nbits : BitVec 3) : BitVec 3 := BitVec.ofNat 3 (8 - nbits.toNat)

/-- CTRL as the read port shows it: FORCE in bit 0, TAILSKIP in bits 3:1 (R13). -/
def State.ctrlWord (s : State) : BitVec 4 := s.tailskip ++ BitVec.ofBool s.force

/-- STATUS: PHASE 3:0, ERR 7:4, DEGEN 8, NOTSMALLER 9, OUT_FINAL 10, PADCNT 13:11 (R14). -/
def State.statusWord (s : State) : BitVec 14 :=
  s.padcnt ++ BitVec.ofBool s.outFinal ++ BitVec.ofBool s.notSmaller ++ BitVec.ofBool s.degen
    ++ BitVec.ofNat 4 s.err.num ++ BitVec.ofNat 4 s.phase.num

end Sys2Proof.Machine
end

