-- ==== Sys2Proof/Machine/Ops.lean ====
section
/-! DEFINITION. The named operations the commands share: sequencing of pseudocode, the fault (R152) and the return from it
(R80), how a command is taken (R150), the NODE memory, the sorted merge list's insertion, the stream primitives (R42 to R46). -/

namespace Sys2Proof.Machine

open Sys2Proof

/-! ## Sequencing -/

/-- Pseudocode in sequence: what follows runs only if what came before goes on (R7, R152). -/
def Flow.bind {α β : Type} (x : Flow α) (k : α → State → Flow β) : Flow β :=
  match x with
  | .go a s => k a s
  | .ended s => .ended s
  | .stuck f => .stuck f

/-- The outcome of a whole command. -/
def Flow.toOutcome {α : Type} (x : Flow α) : Host.Outcome State Fault Refusal :=
  match x with
  | .go _ s => .next s
  | .ended s => .next s
  | .stuck f => .fault f

/-! ## Faults and how a command is taken -/

/-- `raise F(info)`: three writes and nothing else (60_exceptions.md R152). The command that raises ends. -/
def State.raise (c : ErrCode) (info : Word64) (s : State) : State :=
  { s with err := c, errinfo := info, phase := .fault }

/-- ERRINFO of the two command faults: the word in bits 15:0, the PHASE before in bits 19:16 (R151). -/
def wordInfo (w : Word) (p : Phase) : Word64 := w.setWidth 64 + BitVec.ofNat 64 p.num <<< 16

/-- ERRINFO of a fault that records a symbol in bits 7:0 (R151). -/
def symInfo (b : Byte) : Word64 := b.setWidth 64

/-- Steps 1 and 3 of R150, then the pseudocode: in FAULT a command other than CLR is dropped; a command that is not legal in
the present state raises ERR_SEQUENCE with its own word (log 16). -/
def command (i : Instr) (legal : State → Bool) (body : State → Flow Unit) (s : State) : Host.Outcome State Fault Refusal :=
  if s.phase = .fault then .next s
  else if legal s then (body s).toOutcome
  else .next (s.raise .sequence (wordInfo (encode i) s.phase))

/-- The command's legal phases (70_reset_and_hazards.md R184) as a test. -/
def inPhases (ps : List Phase) (s : State) : Bool := ps.contains s.phase

/-- CLR's pseudocode, which is also the one return from a fault (R80, R168): the working state at its CLR values, CTRL, NODE
and IN kept. -/
def State.cleared (s : State) : State :=
  { s with
    phase := .idle, err := .none, errinfo := 0
    degen := false, notSmaller := false, outFinal := false, padcnt := 0
    freq := Vector.replicate 256 0, code := Vector.replicate 256 []
    total := 0, nsym := 0, nnodes := 0, nlist := 0, head := Config.nil, root := Config.nil
    treebits := 0, paybits := 0, estbits := 0, uncbits := 0
    inPos := 0, bitPos := 0, out := [], acc := 0, nbits := 0 }

/-- The reset input (R180): every piece of the block's state at its reset value; IN and the parameters are not the block's
(R28; log 11). -/
def State.assertReset (s : State) : State :=
  { State.reset with cfg := s.cfg, host := s.host, inp := s.inp }

/-! ## Widths of the streams' registers -/

/-- IN_LEN (R25). -/
def State.inLen (s : State) : Nat := s.inp.length

/-- OUT_LEN (R25). -/
def State.outLen (s : State) : Nat := s.out.length

/-- IN_LEN and the bit cursor over IN fit their 64-bit registers (R25; log 19). -/
def inputFits (bytes : List Byte) : Bool := decide (8 * bytes.length < 2 ^ 64)

/-! ## The NODE memory -/

/-- NODE[k] as the memory holds it: none where no value is held. -/
def Memory.read : Memory → Nat → Option NodeEntry
  | [], _ => none
  | (k', e) :: m, k => if k = k' then some e else Memory.read m k

/-- `NODE[k] <- e`, in the memory's one form. -/
def Memory.write : Memory → Nat → NodeEntry → Memory
  | [], k, e => [(k, e)]
  | (k', e') :: m, k, e =>
    if k < k' then (k, e) :: (k', e') :: m
    else if k = k' then (k, e) :: m
    else (k', e') :: Memory.write m k e

/-- Handles strictly rising from `lo` on, all below NODE_CAP. -/
def Memory.wfFrom : Nat → Memory → Bool
  | _, [] => true
  | lo, (k, _) :: m => decide (lo ≤ k) && decide (k < Config.nodeCap) && Memory.wfFrom (k + 1) m

/-- The memory's canonical form: handles strictly rising, all below NODE_CAP. -/
def Memory.wf (m : Memory) : Bool := Memory.wfFrom 0 m

/-- NODE[h] as a command may read it: an entry the current run has allocated and written (R20, R28). -/
def State.readNode (s : State) (h : Handle) : Option NodeEntry :=
  if h.toNat < s.nnodes then s.node.read h.toNat else none

/-- A command's read of NODE[h]: where no value is held the machine stops (R28, U7; log 4). -/
def State.needNode (h : Handle) (s : State) : Flow NodeEntry :=
  match s.readNode h with
  | some e => .go e s
  | none => .stuck (.unallocatedNode h)

/-- `n <- NNODES; NNODES <- NNODES + 1` (R84, R90, R131). There is no entry beyond NODE_CAP (R19; log 22). -/
def State.takeHandle (s : State) : Flow Handle :=
  if s.nnodes < Config.nodeCap then .go (BitVec.ofNat 9 s.nnodes) { s with nnodes := s.nnodes + 1 }
  else .stuck .noSuchNode

/-- `NODE[h] <- e`, for a handle that `takeHandle` gave (R19). -/
def State.putNode (h : Handle) (e : NodeEntry) (s : State) : State := { s with node := s.node.write h.toNat e }

/-- A write of some fields of an entry that is there. -/
def State.changeNode (h : Handle) (f : NodeEntry → NodeEntry) (s : State) : Flow Unit :=
  (s.needNode h).bind fun e s => .go () (s.putNode h (f e))

/-- `NODE[h].NEXT <- v`. -/
def State.setNext (h v : Handle) (s : State) : Flow Unit := s.changeNode h fun e => { e with next := v }

/-- How many entries a walk without repetition can meet, and one more for the NIL at its end: a walk that is longer follows a
cycle and never ends (log 17). -/
def walkFuel : Nat := 512

/-- The scan of R84 and R90: from `cur` along NEXT past every node whose weight `pass` accepts. It gives the last node passed
(`prev`) and the node it stopped at, NIL at the end of the list. -/
def State.findSlot (s : State) (pass : Nat → Bool) : Nat → Handle → Handle → Flow (Handle × Handle)
  | 0, _, _ => .stuck .endlessWalk
  | fuel + 1, prev, cur =>
    if cur = Config.nil then .go (prev, cur) s
    else (s.needNode cur).bind fun e s' =>
      if pass e.weight then s.findSlot pass fuel cur e.next else .go (prev, cur) s'

/-- The insertion of R84 and R90: node `n` goes before the first node that `pass` rejects. -/
def State.insertSorted (n : Handle) (pass : Nat → Bool) (s : State) : Flow Unit :=
  (s.findSlot pass walkFuel Config.nil s.head).bind fun (prev, cur) s =>
    (s.setNext n cur).bind fun _ s =>
      if prev = Config.nil then .go () { s with head := n } else s.setNext prev n

/-! ## The byte reader and writer (R42, R43) -/

/-- `InByte()` under the test `InAtEnd()`: the next byte of IN, none at the end (R42). -/
def State.inByte (s : State) : Option (Byte × State) :=
  match s.inp[s.inPos]? with
  | some b => some (b, { s with inPos := s.inPos + 1 })
  | none => none

/-- How many bytes the byte reader has yet to give. -/
def State.bytesLeft (s : State) : Nat := s.inp.length - s.inPos

/-- `Rewind()` (R42). -/
def State.rewind (s : State) : State := { s with inPos := 0 }

/-- `Emit(b)` (R43). -/
def State.emit (b : Byte) (s : State) : State := { s with out := s.out ++ [b] }

/-! ## The bit unpacker (R44, R45) -/

/-- LIMIT: the bits of IN less the TAILSKIP last ones, never negative (R45). -/
def State.limit (s : State) : Nat := 8 * s.inp.length - s.tailskip.toNat

/-- `BitsLeft()` (R45). -/
def State.bitsLeft (s : State) : Nat := s.limit - s.bitPos

/-- Bit `k` of a byte stream: bit `7 - (k mod 8)` of byte `k div 8`, most significant first (R44). -/
def streamBit (bytes : List Byte) (k : Nat) : Option Bool := bytes[k / 8]?.map fun b => b.getLsbD (7 - k % 8)

/-- `ReadBit()` under the test `BitsLeft() ≥ 1`: none when the stream is exhausted (R45). -/
def State.readBit (s : State) : Option (Bool × State) :=
  if s.bitsLeft = 0 then none
  else (streamBit s.inp s.bitPos).map fun b => (b, { s with bitPos := s.bitPos + 1 })

/-- The repetition of R45's `Read8`: `v <- (v << 1) | ReadBit()`, `n` times. -/
def State.readBitsInto : Nat → Byte → State → Option (Byte × State)
  | 0, v, s => some (v, s)
  | n + 1, v, s =>
    match s.readBit with
    | some (b, s) => s.readBitsInto n (v <<< 1 ||| (BitVec.ofBool b).setWidth 8)
    | none => none

/-- `Read8()` under the test `BitsLeft() ≥ 8`: none, and nothing consumed, with fewer left (R45). -/
def State.read8 (s : State) : Option (Byte × State) := if s.bitsLeft < 8 then none else s.readBitsInto 8 0#8

/-! ## The bit packer (R46) -/

/-- `WriteBit(b)` (R46): the bit goes below those held; a full byte is emitted. -/
def State.writeBit (b : Bool) (s : State) : State :=
  let acc := s.acc <<< 1 ||| (BitVec.ofBool b).setWidth 8
  if s.nbits = 7#3 then { s.emit acc with acc := 0#8, nbits := 0#3 } else { s with acc := acc, nbits := s.nbits + 1#3 }

/-- A bit string through the packer, first bit first. -/
def State.writeBits : Bits → State → State
  | [], s => s
  | b :: bs, s => State.writeBits bs (s.writeBit b)

/-- `sym8(v)`: the 8 bits of a byte, most significant first (R44, 30_encoding.md R71). -/
def byteBits (v : Byte) : Bits :=
  [v.getLsbD 7, v.getLsbD 6, v.getLsbD 5, v.getLsbD 4, v.getLsbD 3, v.getLsbD 2, v.getLsbD 1, v.getLsbD 0]

/-- `Write8(v)` (R46). -/
def State.write8 (v : Byte) (s : State) : State := s.writeBits (byteBits v)

/-- `Pad()` (R46): the held bits go to the top of a byte whose rest is zeros; nothing is emitted at a byte boundary. -/
def State.pad (s : State) : State :=
  if s.nbits = 0#3 then { s with padcnt := 0#3 }
  else { s.emit (s.acc <<< (8 - s.nbits.toNat)) with padcnt := padCount s.nbits, acc := 0#8, nbits := 0#3 }

end Sys2Proof.Machine
end

