-- ==== Sys2Proof/Machine/Control.lean ====
section
/-! DEFINITION. The control commands CLR and CTL (40_frequency_and_list.md R80, R81). -/

namespace Sys2Proof.Machine

open Sys2Proof

/-- CLR (R80): legal in every phase, FAULT included; it cannot fail. -/
def execClr (s : State) : Host.Outcome State Fault Refusal := .next s.cleared

/-- CTL's pseudocode (R81). -/
def ctlBody (opd : Byte) (s : State) : Flow Unit :=
  .go () { s with force := ctlForce opd, tailskip := ctlTailskip opd }

/-- CTL v (R81). An operand with OPD[7:4] ≠ 0 is an illegal word, reported before the phase is looked at (R150; log 18). -/
def execCtl (opd : Byte) (s : State) : Host.Outcome State Fault Refusal :=
  if ctlOperandOk opd then command (.ctl opd) (inPhases [.idle]) (ctlBody opd) s
  else if s.phase = .fault then .next s
  else .next (s.raise .illegalCmd (wordInfo (encode (.ctl opd)) s.phase))

end Sys2Proof.Machine
end

