-- ==== Sys2Proof/Machine/CodeTable.lean ====
section
/-! DEFINITION. The code-table generator and the size check: CODES and CHECK (42_code_table.md R100, R101). -/

namespace Sys2Proof.Machine

open Sys2Proof

/-- `walk(n, path)` (R100), in preorder, left before right; `fuel` bounds the depth (log 17). -/
def codesWalk : Nat → Handle → Bits → State → Flow Unit
  | 0, _, _, _ => .stuck .endlessWalk
  | fuel + 1, n, path, s =>
    (s.needNode n).bind fun e s =>
      if e.isLeaf then .go () { s with code := s.code.set (symIdx e.sym) path, treebits := s.treebits + 9 }
      else
        (codesWalk fuel e.left (path ++ [false]) { s with treebits := s.treebits + 1 }).bind fun _ s =>
          codesWalk fuel e.right (path ++ [true]) s

/-- CODES's pseudocode (R100). -/
def codesBody (s : State) : Flow Unit :=
  (codesWalk walkFuel s.root [] { s with code := Vector.replicate 256 [], treebits := 0 }).bind fun _ s =>
    .go () { s with phase := .coded }

/-- CODES (R100). -/
def execCodes (s : State) : Host.Outcome State Fault Refusal := command .codes (inPhases [.treed]) codesBody s

/-- `sum over s in 0..255 of len(CODE[s]) * FREQ[s]` (R101). -/
def payloadBits (code : Vector Bits 256) (freq : Vector Nat 256) : Nat :=
  (List.zipWith (fun c f => c.length * f) code.toList freq.toList).sum

/-- CHECK's pseudocode (R101). The sizes and NOTSMALLER are recorded whether or not FORCE is set. -/
def checkBody (s : State) : Flow Unit :=
  let pay := payloadBits s.code s.freq
  let est := ceil8 (s.treebits + 8 * s.cfg.frameBytes + pay)
  let unc := 8 * s.total
  let s := { s with paybits := pay, estbits := est, uncbits := unc, notSmaller := notSmallerFlag est unc }
  if s.notSmaller && !s.force then .ended (s.raise .notCompressible 0) else .go () { s with phase := .checked }

/-- CHECK (R101). -/
def execCheck (s : State) : Host.Outcome State Fault Refusal := command .check (inPhases [.coded]) checkBody s

end Sys2Proof.Machine
end

