-- ==== Sys2Proof/Machine/Frequency.lean ====
section
/-! DEFINITION. The frequency table and the sorted merge list: CNT, FREQ, LIST (40_frequency_and_list.md R82 to R84). -/

namespace Sys2Proof.Machine

open Sys2Proof

/-- One step of the frequency pass (R82, R83): no count changes when TOTAL is already `2^CW - 1`. -/
def countSymbol (sym : Byte) (s : State) : Flow Unit :=
  if s.total = s.cfg.maxCount then .ended (s.raise .countOverflow (symInfo sym))
  else .go () { s with freq := s.freq.set (symIdx sym) (s.freq[symIdx sym] + 1), total := s.total + 1 }

/-- CNT's pseudocode (R82). -/
def cntBody (sym : Byte) (s : State) : Flow Unit :=
  (countSymbol sym s).bind fun _ s => .go () { s with phase := .count }

/-- CNT s (R82). -/
def execCnt (sym : Byte) (s : State) : Host.Outcome State Fault Refusal :=
  command (.cnt sym) (inPhases [.idle, .count]) (cntBody sym) s

/-- FREQ's loop (R83), `fuel` being the number of bytes left. -/
def freqLoop : Nat → State → Flow Unit
  | 0, s => .go () s
  | fuel + 1, s =>
    match s.inByte with
    | none => .go () s
    | some (b, s) => (countSymbol b s).bind fun _ s => freqLoop fuel s

/-- FREQ's pseudocode (R83). -/
def freqBody (s : State) : Flow Unit :=
  (freqLoop s.bytesLeft s).bind fun _ s => .go () { s with phase := .count }

/-- FREQ (R83). -/
def execFreq (s : State) : Host.Outcome State Fault Refusal := command .freq (inPhases [.idle]) freqBody s

/-- The body of LIST's loop for a symbol with a non-zero count `w` (R84): a new leaf, put after every node not heavier. -/
def listLeaf (sym : Byte) (w : Nat) (s : State) : Flow Unit :=
  s.takeHandle.bind fun n s =>
    ((s.putNode n ⟨sym, w, Config.nil, Config.nil, Config.nil⟩).insertSorted n fun x => decide (x ≤ w)).bind fun _ s =>
      .go () { s with nlist := s.nlist + 1 }

/-- LIST's loop over the counts of the symbols `k`, `k + 1`, … in ascending value (R84). -/
def listLoop : List Nat → Nat → State → Flow Unit
  | [], _, s => .go () s
  | w :: ws, k, s =>
    (if w > 0 then listLeaf (BitVec.ofNat 8 k) w s else .go () s).bind fun _ s => listLoop ws (k + 1) s

/-- LIST's pseudocode (R84). -/
def listBody (s : State) : Flow Unit :=
  (listLoop s.freq.toList 0 { s with nnodes := 0, head := Config.nil, nlist := 0 }).bind fun _ s =>
    let s := { s with nsym := s.nlist }
    if s.nlist = 0 then .ended (s.raise .emptyInput 0) else .go () { s with phase := .listed }

/-- LIST (R84). -/
def execList (s : State) : Host.Outcome State Fault Refusal := command .list (inPhases [.count]) listBody s

end Sys2Proof.Machine
end

