-- ==== Sys2Proof/Machine/TreeBuilder.lean ====
section
/-! DEFINITION. The tree builder: MERGE and TREE (41_tree_builder.md R90, R91). -/

namespace Sys2Proof.Machine

open Sys2Proof

/-- One step of the greedy merge (R90): the two first nodes become the children of a new parent, left the former head, which
is re-inserted before the first node that is not strictly lighter. -/
def mergeStep (s : State) : Flow Unit :=
  let a := s.head
  (s.needNode a).bind fun ea s =>
    let b := ea.next
    (s.needNode b).bind fun eb s =>
      s.takeHandle.bind fun p s =>
        let w := ea.weight + eb.weight
        let s := { s.putNode p ⟨0#8, w, a, b, Config.nil⟩ with head := eb.next }
        (s.setNext a Config.nil).bind fun _ s =>
          (s.setNext b Config.nil).bind fun _ s =>
            (s.insertSorted p fun x => decide (x < w)).bind fun _ s =>
              .go () { s with nlist := s.nlist - 1 }

/-- MERGE (R90): legal in LISTED when NLIST ≥ 2; it leaves the phase as it is. -/
def execMerge (s : State) : Host.Outcome State Fault Refusal :=
  command .merge (fun s => inPhases [.listed] s && decide (2 ≤ s.nlist)) mergeStep s

/-- TREE's loop `while NLIST > 1` (R91); every merge lowers NLIST by one, so NLIST is fuel enough. -/
def mergeLoop : Nat → State → Flow Unit
  | 0, s => .go () s
  | fuel + 1, s => if s.nlist > 1 then (mergeStep s).bind fun _ s => mergeLoop fuel s else .go () s

/-- TREE's pseudocode (R91). -/
def treeBody (s : State) : Flow Unit :=
  (mergeLoop s.nlist s).bind fun _ s =>
    let s := { s with root := s.head }
    (s.setNext s.root Config.nil).bind fun _ s =>
      let s := { s with head := Config.nil }
      (s.needNode s.root).bind fun e s => .go () { s with degen := e.isLeaf, phase := .treed }

/-- TREE (R91). -/
def execTree (s : State) : Host.Outcome State Fault Refusal := command .tree (inPhases [.listed]) treeBody s

end Sys2Proof.Machine
end

