-- ==== Sys2Proof/Machine/Encoder.lean ====
section
/-! DEFINITION. The encoder: HDR, STREE, ENC, PAYLOAD, FLUSH and the whole compression run COMP (43_encoder.md R110 to R115). -/

namespace Sys2Proof.Machine

open Sys2Proof

/-- `raise ERR_DEGENERATE(NODE[ROOT].SYM)` (R110, R132). -/
def raiseDegenerate {α : Type} (s : State) : Flow α :=
  (s.needNode s.root).bind fun e s => .ended (s.raise .degenerate (symInfo e.sym))

/-- HDR's pseudocode (R110): a single-leaf tree is refused before anything is emitted. -/
def hdrBody (s : State) : Flow Unit :=
  if s.degen then raiseDegenerate s
  else .go () { (s.write8 Config.magic0).write8 Config.magic1 with phase := .hdrDone }

/-- HDR (R110). -/
def execHdr (s : State) : Host.Outcome State Fault Refusal := command .hdr (inPhases [.checked]) hdrBody s

/-- `ser(n)` (R111), in preorder, left before right; `fuel` bounds the depth (log 17). -/
def serWalk : Nat → Handle → State → Flow Unit
  | 0, _, _ => .stuck .endlessWalk
  | fuel + 1, n, s =>
    (s.needNode n).bind fun e s =>
      if e.isLeaf then .go () ((s.writeBit false).write8 e.sym)
      else (serWalk fuel e.left (s.writeBit true)).bind fun _ s => serWalk fuel e.right s

/-- STREE's pseudocode (R111). -/
def streeBody (s : State) : Flow Unit :=
  (serWalk walkFuel s.root s).bind fun _ s => .go () { s with phase := .treeOut }

/-- STREE (R111). -/
def execStree (s : State) : Host.Outcome State Fault Refusal := command .stree (inPhases [.hdrDone]) streeBody s

/-- The symbol-to-code mapper (R112, R113): the code's bits in order; a symbol with the empty code faults and writes nothing. -/
def encodeSymbol (sym : Byte) (s : State) : Flow Unit :=
  let c := s.code[symIdx sym]
  if c.length = 0 then .ended (s.raise .noCode (symInfo sym)) else .go () (s.writeBits c)

/-- ENC's pseudocode (R112). -/
def encBody (sym : Byte) (s : State) : Flow Unit :=
  (encodeSymbol sym s).bind fun _ s => .go () { s with phase := .encoding }

/-- ENC s (R112). -/
def execEnc (sym : Byte) (s : State) : Host.Outcome State Fault Refusal :=
  command (.enc sym) (inPhases [.treeOut, .encoding]) (encBody sym) s

/-- PAYLOAD's loop (R113), `fuel` being the number of bytes left. -/
def payloadLoop : Nat → State → Flow Unit
  | 0, s => .go () s
  | fuel + 1, s =>
    match s.inByte with
    | none => .go () s
    | some (b, s) => (encodeSymbol b s).bind fun _ s => payloadLoop fuel s

/-- PAYLOAD's pseudocode (R113). -/
def payloadBody (s : State) : Flow Unit :=
  (payloadLoop s.rewind.bytesLeft s.rewind).bind fun _ s => .go () { s with phase := .payDone }

/-- PAYLOAD (R113). -/
def execPayload (s : State) : Host.Outcome State Fault Refusal := command .payload (inPhases [.treeOut]) payloadBody s

/-- FLUSH's pseudocode (R114). -/
def flushBody (s : State) : Flow Unit := .go () { s.pad with outFinal := true, phase := .done }

/-- FLUSH (R114). -/
def execFlush (s : State) : Host.Outcome State Fault Refusal :=
  command .flush (inPhases [.encoding, .payDone]) flushBody s

/-- COMP's pseudocode (R115): the nine steps in order; if one raises a fault, the rest are not run (log 14). -/
def compBody (s : State) : Flow Unit :=
  (freqBody s).bind fun _ s => (listBody s).bind fun _ s => (treeBody s).bind fun _ s => (codesBody s).bind fun _ s =>
    (checkBody s).bind fun _ s => (hdrBody s).bind fun _ s => (streeBody s).bind fun _ s =>
      (payloadBody s).bind fun _ s => flushBody s

/-- COMP (R115). -/
def execComp (s : State) : Host.Outcome State Fault Refusal := command .comp (inPhases [.idle]) compBody s

end Sys2Proof.Machine
end

