-- ==== Sys2Proof/Machine/Decoder.lean ====
section
/-! DEFINITION. The decoder: DHDR, DTREE, DSYM, DPAYLOAD and the whole decompression run DECOMP (44_decoder.md R130 to R134). -/

namespace Sys2Proof.Machine

open Sys2Proof

/-- `raise ERR_UNEXPECTED_EOS(BITPOS)` (R130, R131). -/
def raiseEos {α : Type} (s : State) : Flow α := .ended (s.raise .unexpectedEos (BitVec.ofNat 64 s.bitPos))

/-- `Read8()` where the command needs it: too few bits are an unexpected end of stream (R130, R131). -/
def needByte (s : State) : Flow Byte :=
  match s.read8 with
  | some (b, s) => .go b s
  | none => raiseEos s

/-- DHDR's pseudocode (R130): the bytes one at a time. ERRINFO[8] tells which byte was wrong. -/
def dhdrBody (s : State) : Flow Unit :=
  (needByte s).bind fun b0 s =>
    if b0 = Config.magic0 then
      (needByte s).bind fun b1 s =>
        if b1 = Config.magic1 then .go () { s with phase := .dhdrOk }
        else .ended (s.raise .corruptHeader (symInfo b1 + 0x100#64))
    else .ended (s.raise .corruptHeader (symInfo b0))

/-- DHDR (R130). -/
def execDhdr (s : State) : Host.Outcome State Fault Refusal := command .dhdr (inPhases [.idle]) dhdrBody s

/-- `build()` (R131), which returns the handle of the subtree it read. Every call on one path of the recursion has allocated a
node, so `walkFuel` levels are enough. -/
def buildTree : Nat → State → Flow Handle
  | 0, _ => .stuck .endlessWalk
  | fuel + 1, s =>
    match s.readBit with
    | none => raiseEos s
    | some (f, s) =>
      if s.nnodes = Config.nodeCap then .ended (s.raise .nodeOverflow (BitVec.ofNat 64 s.bitPos))
      else s.takeHandle.bind fun n s =>
        if f then
          let s := s.putNode n ⟨0#8, 0, Config.nil, Config.nil, Config.nil⟩
          (buildTree fuel s).bind fun l s =>
            (s.changeNode n fun e => { e with left := l }).bind fun _ s =>
              (buildTree fuel s).bind fun r s =>
                (s.changeNode n fun e => { e with right := r }).bind fun _ s => .go n s
        else
          (needByte s).bind fun sym s => .go n (s.putNode n ⟨sym, 0, Config.nil, Config.nil, Config.nil⟩)

/-- DTREE's pseudocode (R131). -/
def dtreeBody (s : State) : Flow Unit :=
  (buildTree walkFuel { s with nnodes := 0 }).bind fun r s =>
    let s := { s with root := r }
    (s.needNode s.root).bind fun e s => .go () { s with degen := e.isLeaf, phase := .dtreeOk }

/-- DTREE (R131). -/
def execDtree (s : State) : Host.Outcome State Fault Refusal := command .dtree (inPhases [.dhdrOk]) dtreeBody s

/-- The tree walker's loop (R132): from `cur` one branch a bit, to a leaf, whose symbol is emitted, or to the end of the
stream, which ends the run with nothing emitted. Every turn reads a bit, so `BitsLeft() + 1` turns are enough. -/
def symbolWalk : Nat → Handle → State → Flow Unit
  | 0, _, _ => .stuck .endlessWalk
  | fuel + 1, cur, s =>
    (s.needNode cur).bind fun e s =>
      if e.isLeaf then .go () (s.emit e.sym)
      else
        match s.readBit with
        | none => .ended { s with outFinal := true, phase := .ddone }
        | some (b, s) => symbolWalk fuel (if b then e.right else e.left) s

/-- DSYM's pseudocode (R132). -/
def dsymBody (s : State) : Flow Unit :=
  if s.degen then raiseDegenerate s else symbolWalk (s.bitsLeft + 1) s.root s

/-- DSYM (R132). -/
def execDsym (s : State) : Host.Outcome State Fault Refusal := command .dsym (inPhases [.dtreeOk]) dsymBody s

/-- DPAYLOAD's loop `while PHASE = DTREEOK` (R133): a DSYM step ends it at exhaustion or by a fault. Every step that does not
end it reads at least one bit, so `BitsLeft() + 1` steps are enough. -/
def dpayloadLoop : Nat → State → Flow Unit
  | 0, _ => .stuck .endlessWalk
  | fuel + 1, s => (dsymBody s).bind fun _ s => dpayloadLoop fuel s

/-- DPAYLOAD's pseudocode (R133). -/
def dpayloadBody (s : State) : Flow Unit := dpayloadLoop (s.bitsLeft + 1) s

/-- DPAYLOAD (R133). -/
def execDpayload (s : State) : Host.Outcome State Fault Refusal := command .dpayload (inPhases [.dtreeOk]) dpayloadBody s

/-- DECOMP's pseudocode (R134): the three steps in order; if one raises a fault, the rest are not run (log 14). -/
def decompBody (s : State) : Flow Unit :=
  (dhdrBody s).bind fun _ s => (dtreeBody s).bind fun _ s => dpayloadBody s

/-- DECOMP (R134). -/
def execDecomp (s : State) : Host.Outcome State Fault Refusal := command .decomp (inPhases [.idle]) decompBody s

end Sys2Proof.Machine
end

