-- ==== Sys2Proof/Machine/Dispatch.lean ====
section
/-! DEFINITION. Which meaning each command has: one arm per constructor of `Instr`. -/

namespace Sys2Proof.Machine

open Sys2Proof

def exec (i : Instr) (s : State) : Host.Outcome State Fault Refusal :=
  match i with
  | .clr => Sys2Proof.Machine.execClr s
  | .ctl opd => Sys2Proof.Machine.execCtl opd s
  | .cnt sym => Sys2Proof.Machine.execCnt sym s
  | .freq => Sys2Proof.Machine.execFreq s
  | .list => Sys2Proof.Machine.execList s
  | .merge => Sys2Proof.Machine.execMerge s
  | .tree => Sys2Proof.Machine.execTree s
  | .codes => Sys2Proof.Machine.execCodes s
  | .check => Sys2Proof.Machine.execCheck s
  | .hdr => Sys2Proof.Machine.execHdr s
  | .stree => Sys2Proof.Machine.execStree s
  | .enc sym => Sys2Proof.Machine.execEnc sym s
  | .payload => Sys2Proof.Machine.execPayload s
  | .flush => Sys2Proof.Machine.execFlush s
  | .comp => Sys2Proof.Machine.execComp s
  | .dhdr => Sys2Proof.Machine.execDhdr s
  | .dtree => Sys2Proof.Machine.execDtree s
  | .dsym => Sys2Proof.Machine.execDsym s
  | .dpayload => Sys2Proof.Machine.execDpayload s
  | .decomp => Sys2Proof.Machine.execDecomp s

end Sys2Proof.Machine
end

