-- ==== Sys2Proof/Machine/Port.lean ====
section
/-! DEFINITION. The host's side of the block: the command port (60_exceptions.md R150), the binding of IN (20_memory.md R40) and
the read port (R51, R52). -/

namespace Sys2Proof.Machine

open Sys2Proof

/-- The common steps of R150 on a word written to the command port: dropped in FAULT unless it is CLR's word, then decoded
(an illegal word raises ERR_ILLEGAL_CMD), then taken as the command it spells. -/
def takeWord (w : Word) (s : State) : Host.Outcome State Fault Refusal :=
  if s.phase = .fault ∧ w ≠ encode .clr then .next s
  else
    match decode w with
    | .reject _ => .next (s.raise .illegalCmd (wordInfo w s.phase))
    | .instr i => exec i s

/-- The host binds IN and IN_LEN (R40, R182): between runs only, a change during a run being outside the model (R186, U11;
log 10), and only what the 64-bit registers can count (log 19). -/
def bindInput (bytes : List Byte) (s : State) : Host.Outcome State Fault Refusal :=
  if s.phase.betweenRuns then
    if inputFits bytes then .next { s with inp := bytes } else .refused .inputTooLong
  else .refused .inputChangedDuringRun

/-- One act of the host. -/
def takeAct (a : HostAct) (s : State) : Host.Outcome State Fault Refusal :=
  match a with
  | .command w => takeWord w s
  | .reset => .next s.assertReset
  | .bind bytes => bindInput bytes s

/-! ## The read port -/

/-- CODE[s].BITS: code bit `j` is vector bit `255 - j`, the bits below the code are 0 (10_state.md R23). -/
def codeVector (c : Bits) : BitVec 256 := BitVec.ofBoolListBE ((c ++ List.replicate (256 - c.length) false).take 256) |>.setWidth 256

/-- Word `w` of CODE[s].BITS: vector bits `255 - 64w` down to `192 - 64w` (R23). -/
def codeWord (c : Bits) (w : Nat) : Word64 := (codeVector c).extractLsb' (192 - 64 * w) 64

/-- The links and symbol of an entry: LEFT 8:0, RIGHT 17:9, NEXT 26:18, SYM 34:27 (R19). -/
def NodeEntry.linkWord (e : NodeEntry) : BitVec 35 := e.sym ++ e.next ++ e.right ++ e.left

/-- The entry the read port shows: one with a number below NNODES that holds a value (R20, R52; log 4, log 5). -/
def State.shownNode (s : State) (n : Nat) : Option NodeEntry := if n < s.nnodes then s.node.read n else none

/-- The first word of a NODE entry: WEIGHT, zero-extended from CW bits; a free value where the entry holds none (R52; log 6). -/
def State.nodeWeightWord (s : State) (n : Nat) : Word64 :=
  match s.shownNode n with
  | some e => BitVec.ofNat 64 e.weight
  | none => BitVec.ofNat 64 (Config.freeWeight s n % 2 ^ s.cfg.cw)

/-- The second word of a NODE entry, zero-extended from 35 bits; a free value where the entry holds none (R52; log 6). -/
def State.nodeLinkWord (s : State) (n : Nat) : Word64 :=
  match s.shownNode n with
  | some e => e.linkWord.setWidth 64
  | none => (Config.freeLinks s n).setWidth 64

/-- The scalar registers, read-port addresses 0x000 to 0x011; the rest up to 0x0FF is unmapped (R52). -/
def State.readScalar (s : State) (a : Nat) : Word64 :=
  match a with
  | 0x000 => s.ctrlWord.setWidth 64
  | 0x001 => s.statusWord.setWidth 64
  | 0x002 => s.errinfo
  | 0x003 => BitVec.ofNat 64 s.total
  | 0x004 => BitVec.ofNat 64 s.nsym
  | 0x005 => BitVec.ofNat 64 s.nlist
  | 0x006 => BitVec.ofNat 64 s.nnodes
  | 0x007 => s.head.setWidth 64
  | 0x008 => s.root.setWidth 64
  | 0x009 => BitVec.ofNat 64 s.treebits
  | 0x00A => BitVec.ofNat 64 s.paybits
  | 0x00B => BitVec.ofNat 64 s.estbits
  | 0x00C => BitVec.ofNat 64 s.uncbits
  | 0x00D => BitVec.ofNat 64 s.inPos
  | 0x00E => BitVec.ofNat 64 s.bitPos
  | 0x00F => BitVec.ofNat 64 s.inLen
  | 0x010 => BitVec.ofNat 64 s.outLen
  | 0x011 => (s.nbits ++ s.acc).setWidth 64
  | _ => 0

/-- A read-port read (R51, R52): no effect on the state, any phase, unmapped addresses read 0. -/
def State.readPort (s : State) (addr : BitVec 12) : Word64 :=
  let a := addr.toNat
  if a < 0x100 then s.readScalar a
  else if a < 0x200 then BitVec.ofNat 64 (s.freq[a - 0x100]?.getD 0)
  else if a < 0x300 then BitVec.ofNat 64 (s.code[a - 0x200]?.getD []).length
  else if a < 0x400 then 0
  else if a < 0x800 then codeWord (s.code[(a - 0x400) / 4]?.getD []) ((a - 0x400) % 4)
  else if a < 0xBFE then
    if a % 2 = 0 then s.nodeWeightWord ((a - 0x800) / 2) else s.nodeLinkWord ((a - 0x800) / 2)
  else 0

end Sys2Proof.Machine
end

