-- ==== Sys2Proof/Machine/Step.lean ====
section
/-! DEFINITION. One step of the machine: it takes the next act of the host (00_scope.md R6; log 1). -/

namespace Sys2Proof.Machine

open Sys2Proof

/-- One step. A configuration outside R5 is refused (U4). With nothing to take the block changes nothing (log 2). -/
def step (s : State) : Host.Outcome State Fault Refusal :=
  if s.cfg.valid then
    match s.host with
    | [] => .next s
    | a :: rest => takeAct a { s with host := rest }
  else .refused .badConfig

/-- `s` with a command word next in line at the command port (log 15). -/
def State.withFetchWord (s : State) (nbits w : Nat) : State :=
  { s with host := .command (BitVec.ofNat 16 (w % 2 ^ nbits)) :: s.host }

end Sys2Proof.Machine
end

