-- ==== Sys2Proof/Machine/Abstract.lean ====
section
/-! DEFINITION. The abstract objects the state represents (00_scope.md R8): trees, lists of trees, bit strings. No meaning uses
them; statements are written over them. -/

namespace Sys2Proof.Machine

open Sys2Proof

/-- A tree: `Leaf(sym, w)` or `Node(w, left, right)` (R8). -/
inductive Tree where
  | leaf (sym : Byte) (weight : Nat)
  | node (weight : Nat) (left right : Tree)
  deriving DecidableEq, Repr

/-- The weight at the root of a tree. -/
def Tree.weight : Tree → Nat
  | .leaf _ w => w
  | .node w _ _ => w

/-- A tree of exactly one node. -/
def Tree.isLeaf : Tree → Bool
  | .leaf _ _ => true
  | .node _ _ _ => false

/-- How many nodes a tree has. -/
def Tree.size : Tree → Nat
  | .leaf _ _ => 1
  | .node _ l r => 1 + l.size + r.size

/-- The symbols of the leaves, in preorder. -/
def Tree.syms : Tree → List Byte
  | .leaf s _ => [s]
  | .node _ l r => l.syms ++ r.syms

/-- The serialized tree (30_encoding.md R71). -/
def Tree.ser : Tree → Bits
  | .leaf s _ => false :: byteBits s
  | .node _ l r => true :: (l.ser ++ r.ser)

/-- The serialized tree, node by node in preorder: a leaf takes 9 bits, an internal node 1 (R71). -/
def Tree.serNodes : Tree → List Bits
  | .leaf s _ => [false :: byteBits s]
  | .node _ l r => [true] :: (l.serNodes ++ r.serNodes)

/-- Every subtree, in preorder: a node, then its left subtree's, then its right subtree's (R9). DTREE numbers its nodes so
(44_decoder.md R131). -/
def Tree.preorder : Tree → List Tree
  | .leaf s w => [.leaf s w]
  | .node w l r => .node w l r :: (l.preorder ++ r.preorder)

/-- How many bits the first `n` nodes take in the serialized tree (R71). -/
def Tree.serBefore (t : Tree) (n : Nat) : Nat := (t.serNodes.take n).flatten.length

/-- Every leaf with its path from the root, `false` for a left branch, in preorder (42_code_table.md R100). -/
def Tree.paths : Tree → List (Byte × Bits)
  | .leaf s _ => [(s, [])]
  | .node _ l r => l.paths.map (fun p => (p.1, false :: p.2)) ++ r.paths.map (fun p => (p.1, true :: p.2))

/-- The code table of a tree: the path of each leaf at its symbol, the empty string elsewhere (R100). -/
def Tree.codeTable (t : Tree) : Vector Bits 256 :=
  t.paths.foldl (fun c p => c.set (symIdx p.1) p.2) (Vector.replicate 256 [])

/-- The same tree with every weight 0, which is how DTREE builds it (44_decoder.md R131, R137). -/
def Tree.zeroed : Tree → Tree
  | .leaf s _ => .leaf s 0
  | .node _ l r => .node 0 l.zeroed r.zeroed

/-- Every node's weight is the sum of the counts of the symbols of the leaves under it (41_tree_builder.md R94). -/
def Tree.weighted (freq : Vector Nat 256) : Tree → Prop
  | .leaf s w => w = freq[symIdx s]
  | .node w l r => w = (l.syms.map (fun s => freq[symIdx s])).sum + (r.syms.map (fun s => freq[symIdx s])).sum
      ∧ l.weighted freq ∧ r.weighted freq

/-- The symbol and the depth of the leftmost leaf (44_decoder.md R136). -/
def Tree.leftmost : Tree → Byte × Nat
  | .leaf s _ => (s, 0)
  | .node _ l _ => (l.leftmost.1, l.leftmost.2 + 1)

/-- One walk from the root, left on `false` and right on `true`: the symbol reached and the bits not used; none when the bits
end inside the walk (44_decoder.md R132). -/
def Tree.walk : Tree → Bits → Option (Byte × Bits)
  | .leaf s _, bs => some (s, bs)
  | .node _ _ _, [] => none
  | .node _ l r, b :: bs => if b then r.walk bs else l.walk bs

/-- Walk after walk, at most `fuel` of them, until the bits end; a walk the end cuts short gives nothing (R132, R133). -/
def Tree.decodeUpTo : Nat → Tree → Bits → List Byte
  | 0, _, _ => []
  | fuel + 1, t, bs =>
    match t.walk bs with
    | some (s, rest) => s :: Tree.decodeUpTo fuel t rest
    | none => []

/-- The symbols a payload decodes to: every walk from an internal root uses a bit, so its length is fuel enough. -/
def Tree.decodeAll (t : Tree) (bs : Bits) : List Byte := Tree.decodeUpTo bs.length t bs

/-! ## What the state represents -/

/-- `tree(n)` (R8), read to a depth of at most `fuel` nodes; none where the NODE memory holds no such tree. -/
def State.treeAt (s : State) : Nat → Handle → Option Tree
  | 0, _ => none
  | fuel + 1, h =>
    match s.readNode h with
    | none => none
    | some e =>
      if e.isLeaf then some (.leaf e.sym e.weight)
      else
        match s.treeAt fuel e.left, s.treeAt fuel e.right with
        | some l, some r => some (.node e.weight l r)
        | _, _ => none

/-- `tree(ROOT)` (R8). -/
def State.tree? (s : State) : Option Tree := s.treeAt walkFuel s.root

/-- The handles of the sorted merge list from `h` on, along NEXT to NIL. -/
def State.chainAt (s : State) : Nat → Handle → Option (List Handle)
  | 0, _ => none
  | fuel + 1, h =>
    if h = Config.nil then some []
    else
      match s.readNode h with
      | none => none
      | some e => (s.chainAt fuel e.next).map (h :: ·)

/-- The handles of the sorted merge list, head first (10_state.md R21). -/
def State.chain? (s : State) : Option (List Handle) := s.chainAt walkFuel s.head

/-- The trees at some handles, none if one of them has none. -/
def State.treesAt (s : State) : List Handle → Option (List Tree)
  | [] => some []
  | h :: hs =>
    match s.treeAt walkFuel h, s.treesAt hs with
    | some t, some ts => some (t :: ts)
    | _, _ => none

/-- `list(HEAD)` (R8): the trees of the sorted merge list, head first. -/
def State.list? (s : State) : Option (List Tree) :=
  match s.chain? with
  | some hs => s.treesAt hs
  | none => none

/-- WEIGHT of an entry, 0 where there is none. -/
def State.weightAt (s : State) (h : Handle) : Nat :=
  match s.readNode h with
  | some e => e.weight
  | none => 0

/-- The children of the allocated internal nodes, in the order of the parents' handles. -/
def State.childHandles (s : State) : List Handle :=
  (List.range s.nnodes).flatMap fun n =>
    match s.node.read n with
    | some e => if e.isLeaf then [] else [e.left, e.right]
    | none => []

/-- The symbols with a non-zero count, in ascending value. -/
def presentSyms (freq : Vector Nat 256) : List Byte :=
  ((List.finRange 256).filter fun i => decide (freq[i] > 0)).map fun i => BitVec.ofNat 8 i.val

/-- The bit view of a byte stream (R7, 20_memory.md R44). -/
def streamBits (bytes : List Byte) : Bits := bytes.flatMap byteBits

/-- The bits of IN the unpacker has yet to deliver (R45). -/
def State.unread (s : State) : Bits := ((streamBits s.inp).take s.limit).drop s.bitPos

/-- The bits the packer holds, first written first (10_state.md R26). -/
def State.held (s : State) : Bits := (List.range s.nbits.toNat).map fun i => s.acc.getLsbD (s.nbits.toNat - 1 - i)

/-- Every bit the run has produced: those OUT shows, then those the packer holds. -/
def State.packed (s : State) : Bits := streamBits s.out ++ s.held

/-- The payload of an input under the state's code table (30_encoding.md R72). -/
def State.payloadOf (s : State) (bytes : List Byte) : Bits := bytes.flatMap fun b => s.code[symIdx b]

/-- The two bytes that open a compressed stream, as bits (30_encoding.md R70). -/
def magicBits : Bits := streamBits [Config.magic0, Config.magic1]

/-- Commands issued one after the other, as far as each ends in a next state. -/
def execAll : List Instr → State → Host.Outcome State Fault Refusal
  | [], s => .next s
  | i :: is, s =>
    match exec i s with
    | .next t => execAll is t
    | .fault f => .fault f
    | .refused r => .refused r

end Sys2Proof.Machine
end

