-- ==== Sys2Proof/Safety.lean ====
section
/-! DEFINITION. What counts as a safe state: the phase table (70_reset_and_hazards.md R184) and the invariant every run keeps. -/

namespace Sys2Proof.Safety

open Sys2Proof Sys2Proof.Machine

/-! ## The phase table (R184) -/

/-- Every phase. -/
def allPhases : List Phase :=
  [.idle, .count, .listed, .treed, .coded, .checked, .hdrDone, .treeOut, .encoding, .payDone, .done, .dhdrOk, .dtreeOk, .ddone,
    .fault]

/-- The phases in which a command is legal: the middle column of R184. -/
def legalPhases : Instr → List Phase
  | .clr => allPhases
  | .ctl _ => [.idle]
  | .cnt _ => [.idle, .count]
  | .freq => [.idle]
  | .list => [.count]
  | .merge => [.listed]
  | .tree => [.listed]
  | .codes => [.treed]
  | .check => [.coded]
  | .hdr => [.checked]
  | .stree => [.hdrDone]
  | .enc _ => [.treeOut, .encoding]
  | .payload => [.treeOut]
  | .flush => [.encoding, .payDone]
  | .comp => [.idle]
  | .dhdr => [.idle]
  | .dtree => [.dhdrOk]
  | .dsym => [.dtreeOk]
  | .dpayload => [.dtreeOk]
  | .decomp => [.idle]

/-- What a command needs beside its phase: MERGE needs NLIST ≥ 2 (R184, R150). -/
def legalExtra : Instr → State → Prop
  | .merge, s => 2 ≤ s.nlist
  | _, _ => True

/-- The command may run in this state (R150 step 3). -/
def Legal (i : Instr) (s : State) : Prop := s.phase ∈ legalPhases i ∧ legalExtra i s

/-- In every phase but FAULT and those of `ps` the command raises ERR_SEQUENCE and changes nothing else (the "Legal in" of its
rule, R150 step 3, R156). That in DONE and DDONE nothing else changes, OUT_FINAL = 1 among it, is the model's choice: R152's
three writes, against R172's "After a fault OUT_FINAL = 0" (log 12). -/
def OnlyLegalIn (i : Instr) (ps : List Phase) : Prop :=
  ∀ s : State, s.phase ≠ .fault → s.phase ∉ ps →
    ∃ t, exec i s = .next t ∧ t.err = .sequence ∧ t.errinfo.toNat = (encode i).toNat + 65536 * s.phase.num ∧
      t = { s with err := .sequence, errinfo := t.errinfo, phase := .fault }

/-- The phases a command leaves when it does not fault: the last column of R184. -/
def leaves : Instr → List Phase
  | .clr => [.idle]
  | .ctl _ => [.idle]
  | .cnt _ => [.count]
  | .freq => [.count]
  | .list => [.listed]
  | .merge => [.listed]
  | .tree => [.treed]
  | .codes => [.coded]
  | .check => [.checked]
  | .hdr => [.hdrDone]
  | .stree => [.treeOut]
  | .enc _ => [.encoding]
  | .payload => [.payDone]
  | .flush => [.done]
  | .comp => [.done]
  | .dhdr => [.dhdrOk]
  | .dtree => [.dtreeOk]
  | .dsym => [.dtreeOk, .ddone]
  | .dpayload => [.ddone]
  | .decomp => [.ddone]

/-- The phases in which ROOT is the tree TREE finalized. -/
def builtPhases : List Phase := [.treed, .coded, .checked, .hdrDone, .treeOut, .encoding, .payDone, .done]

/-- The phases in which ROOT is the tree DTREE read. -/
def readPhases : List Phase := [.dtreeOk, .ddone]

/-! ## The parts of the invariant -/

/-- TOTAL is the sum of the counts and fits its CW bits (10_state.md R18). -/
structure CountsOk (s : State) : Prop where
  sum : s.total = s.freq.toList.sum
  fits : s.total ≤ s.cfg.maxCount

/-- The bits of ACC at and above bit NBITS are 0 (20_memory.md R46). -/
def PackerOk (s : State) : Prop := s.acc.toNat < 2 ^ s.nbits.toNat

/-- The NODE memory has its canonical form and NNODES is at most NODE_CAP (10_state.md R20). -/
structure MemoryOk (s : State) : Prop where
  wf : s.node.wf = true
  cap : s.nnodes ≤ Config.nodeCap

/-- PHASE is FAULT exactly when a fault is on record, and ERRINFO is 0 when none is (60_exceptions.md R151, R152). -/
structure FaultOk (s : State) : Prop where
  recorded : s.phase = .fault ↔ s.err ≠ .none
  info : s.err = .none → s.errinfo = 0

/-- In IDLE everything is as CLR leaves it (R80 "CLR in IDLE changes nothing"). -/
def IdleOk (s : State) : Prop := s.phase = .idle → s.cleared = s

/-- Every allocated entry holds a value with a property of its handle and contents. -/
def EveryNode (s : State) (P : Nat → NodeEntry → Prop) : Prop := ∀ n, n < s.nnodes → ∃ e, s.node.read n = some e ∧ P n e

/-- A node the builder made: a leaf, or a parent of nodes made before it (41_tree_builder.md R93). -/
def BuilderNode (n : Nat) (e : NodeEntry) : Prop := e.isLeaf = true ∨ (e.left.toNat < n ∧ e.right.toNat < n)

/-- The leaves come first, in ascending symbol order, the parents after them (R93). -/
structure LeavesFirst (s : State) : Prop where
  count : s.nsym = (presentSyms s.freq).length
  leaf : ∀ n, n < s.nsym → ∃ e, s.node.read n = some e ∧ e.isLeaf = true ∧ (presentSyms s.freq)[n]? = some e.sym
  parent : EveryNode s fun n e => s.nsym ≤ n → e.isLeaf = false

/-- Some trees hold the present symbols, each in one leaf, with the weights of R94. -/
structure TreesOk (s : State) (ts : List Tree) : Prop where
  symbols : (ts.flatMap Tree.syms).Perm (presentSyms s.freq)
  weights : ∀ t ∈ ts, t.weighted s.freq

/-- The state between LIST and TREE (10_state.md R21, R22; R92 to R94), `hs` being the handles of the list and `ts` its trees. -/
structure ListedBy (s : State) (hs : List Handle) (ts : List Tree) : Prop where
  chain : s.chain? = some hs
  list : s.list? = some ts
  length : hs.length = s.nlist
  nonempty : 1 ≤ s.nlist
  nodes : s.nnodes + s.nlist = 2 * s.nsym
  last : s.nlist = 1 → s.head.toNat + 1 = s.nnodes
  built : EveryNode s BuilderNode
  leaves : LeavesFirst s
  linked : EveryNode s fun n e => BitVec.ofNat 9 n ∉ hs → e.next = Config.nil
  sorted : (hs.map s.weightAt).Pairwise (· ≤ ·)
  owned : (hs ++ s.childHandles).Nodup
  trees : TreesOk s ts

/-- The state after TREE, `t` being the tree of ROOT (R22, R91, R93, R94). -/
structure BuiltBy (s : State) (t : Tree) : Prop where
  tree : s.tree? = some t
  root : s.root.toNat + 1 = s.nnodes
  nodes : s.nnodes + 1 = 2 * s.nsym
  nlist : s.nlist = 1
  head : s.head = Config.nil
  built : EveryNode s BuilderNode
  leaves : LeavesFirst s
  unlinked : EveryNode s fun _ e => e.next = Config.nil
  owned : (s.root :: s.childHandles).Nodup
  trees : TreesOk s [t]
  degen : s.degen = t.isLeaf

/-- A node DTREE made: a leaf, or a parent of nodes made after it (44_decoder.md R131). -/
def ReaderNode (s : State) (n : Nat) (e : NodeEntry) : Prop :=
  e.isLeaf = true ∨ (n < e.left.toNat ∧ e.left.toNat < s.nnodes ∧ n < e.right.toNat ∧ e.right.toNat < s.nnodes)

/-- The state after DTREE, `t` being the tree of ROOT (R22, R131). -/
structure ReadBy (s : State) (t : Tree) : Prop where
  tree : s.tree? = some t
  root : s.root = 0#9
  built : EveryNode s (ReaderNode s)
  unlinked : EveryNode s fun _ e => e.next = Config.nil ∧ e.weight = 0
  owned : (s.root :: s.childHandles).Nodup
  degen : s.degen = t.isLeaf

/-- The invariant: it holds at reset and every step keeps it. -/
structure Inv (s : State) : Prop where
  counts : CountsOk s
  packer : PackerOk s
  memory : MemoryOk s
  fault : FaultOk s
  idle : IdleOk s
  listed : s.phase = .listed → ∃ hs ts, ListedBy s hs ts
  built : s.phase ∈ builtPhases → ∃ t, BuiltBy s t
  read : s.phase ∈ readPhases → ∃ t, ReadBy s t

/-- Every register whose value is held as a number fits the width the spec gives it (10_state.md R17 to R25; log 7). The last
field bounds the parameter FRAME_BYTES, which the spec leaves open (R5). -/
structure Fits (s : State) : Prop where
  freq : ∀ x : Byte, s.freq[symIdx x] ≤ s.cfg.maxCount
  total : s.total ≤ s.cfg.maxCount
  weight : ∀ n e, s.node.read n = some e → e.weight ≤ s.cfg.maxCount
  nsym : s.nsym ≤ 256
  nlist : s.nlist ≤ 256
  nnodes : s.nnodes ≤ 511
  code : ∀ x : Byte, s.code[symIdx x].length ≤ 255
  treebits : s.treebits ≤ 2559
  paybits : s.paybits < 2 ^ 64
  estbits : s.estbits < 2 ^ 64
  uncbits : s.uncbits < 2 ^ 64
  input : 8 * s.inLen < 2 ^ 64
  inPos : s.inPos < 2 ^ 64
  bitPos : s.bitPos < 2 ^ 64
  frame : s.cfg.frameBytes < 2 ^ 48

end Sys2Proof.Safety
end

