-- ==== Sys2Proof/Certificates/Slice0/Obligations.lean ====
section
/-! DEFINITION. The statements about the block, for the provers. Each docstring names the rule it formalises. -/

open Sys2Proof Sys2Proof.Machine Sys2Proof.Safety

/-! ## Command words -/

/-- R61 to R63: decoding the word of a well-formed command gives it back, with every operand. -/
def Obligations.DecodeOfEncodeIsTheCommand : Prop :=
  ∀ i : Instr, i.wellFormed = true → decode (encode i) = .instr i

/-- R62, R63: a word that decodes to a command is the word of that command, and the command is well formed, so that each legal
word has one meaning and no bit of it is ignored. -/
def Obligations.EncodeOfDecodeIsTheWord : Prop :=
  ∀ (w : Word) (i : Instr), decode w = .instr i → i.wellFormed = true ∧ encode i = w

/-- R62: words written out from the opcode map decode to their commands; 0x2001 and 0x0110 (R64's examples) to none. -/
def Obligations.WordsOfTheOpcodeMapDecode : Prop :=
  decode 0x0000#16 = .instr .clr ∧ decode 0x010A#16 = .instr (.ctl 0x0A#8) ∧ decode 0x1061#16 = .instr (.cnt 0x61#8) ∧
  decode 0x2000#16 = .instr .merge ∧ decode 0x3100#16 = .instr .check ∧ decode 0x42FF#16 = .instr (.enc 0xFF#8) ∧
  decode 0x4F00#16 = .instr .comp ∧ decode 0x5200#16 = .instr .dsym ∧ decode 0x5F00#16 = .instr .decomp ∧
  decode 0x2001#16 = .reject (.operandNotZero 0x20#8 0x01#8) ∧ decode 0x0110#16 = .reject (.ctlHighBitsSet 0x10#8)

/-- R64, R155, R151, R152: a word that matches no row raises ERR_ILLEGAL_CMD in any phase but FAULT, with the word and the PHASE
before in ERRINFO, and changes nothing else. That in DONE and DDONE OUT_FINAL stays 1 too is the model's choice (log 12): R152's
three writes, against R172's "After a fault OUT_FINAL = 0". -/
def Obligations.IllegalWordRaises : Prop :=
  ∀ (s : State) (w : Word) (rest : List HostAct), s.cfg.valid = true → s.host = .command w :: rest → s.phase ≠ .fault →
    (∀ r ∈ rows, w &&& r.mask ≠ r.pat) →
    ∃ t, step s = .next t ∧ t.err = .illegalCmd ∧ t.errinfo.toNat = w.toNat + 65536 * s.phase.num ∧ t.phase = .fault ∧
      t = { s with host := rest, err := t.err, errinfo := t.errinfo, phase := t.phase }

/-- R150: when the next word decodes to a command and the word is not dropped, the step runs that command, on the state whose
command port has moved past the word. -/
def Obligations.StepRunsTheDecodedCommand : Prop :=
  ∀ (s : State) (w : Word) (rest : List HostAct) (i : Instr), s.cfg.valid = true → s.host = .command w :: rest →
    decode w = .instr i → (s.phase ≠ .fault ∨ w = 0x0000#16) → step s = exec i { s with host := rest }

/-- R150 step 1, R168: in FAULT every word but CLR's is dropped, and no state changes; CLR is not dropped. -/
def Obligations.FaultDropsEveryWordButClr : Prop :=
  ∀ (s : State) (w : Word) (rest : List HostAct), s.cfg.valid = true → s.host = .command w :: rest → s.phase = .fault →
    (w ≠ 0x0000#16 → step s = .next { s with host := rest }) ∧
    (w = 0x0000#16 → ∃ t, step s = .next t ∧ t.phase = .idle ∧ t.err = .none ∧ t.errinfo = 0)

/-- R156, R151, R152 and the phase table R184: a command that may not run in the present state raises ERR_SEQUENCE, with its word
and the PHASE before in ERRINFO, and changes nothing else. That in DONE and DDONE OUT_FINAL stays 1 too is the model's choice
(log 12): R152's three writes, against R172's "After a fault OUT_FINAL = 0". -/
def Obligations.WrongPhaseRaisesSequence : Prop :=
  ∀ (i : Instr) (s : State), i.wellFormed = true → s.phase ≠ .fault → ¬ Legal i s →
    ∃ t, exec i s = .next t ∧ t.err = .sequence ∧ t.errinfo.toNat = (encode i).toNat + 65536 * s.phase.num ∧
      t.phase = .fault ∧ t = { s with err := t.err, errinfo := t.errinfo, phase := t.phase }

/-- R184: a legal command that does not fault leaves a phase of the last column of the phase table. -/
def Obligations.CommandLeavesItsPhase : Prop :=
  ∀ (i : Instr) (s t : State), i.wellFormed = true → Legal i s → exec i s = .next t → t.phase ≠ .fault → t.phase ∈ leaves i

/-! ## Reset and control -/

/-- R28, R180: the value of every piece of the block's state after reset. That IN is empty is the model's choice (log 9). -/
def Obligations.ResetValues : Prop :=
  State.reset.force = false ∧ State.reset.tailskip = 0 ∧ State.reset.phase.num = 0 ∧ State.reset.err.num = 0 ∧
  State.reset.errinfo = 0 ∧ State.reset.degen = false ∧ State.reset.notSmaller = false ∧ State.reset.outFinal = false ∧
  State.reset.padcnt = 0 ∧ (∀ x : Byte, State.reset.freq[symIdx x] = 0) ∧ State.reset.total = 0 ∧ State.reset.nsym = 0 ∧
  (∀ n, State.reset.node.read n = none) ∧ State.reset.nnodes = 0 ∧ State.reset.head.toNat = 511 ∧
  State.reset.root.toNat = 511 ∧ State.reset.nlist = 0 ∧ (∀ x : Byte, State.reset.code[symIdx x] = []) ∧
  State.reset.treebits = 0 ∧ State.reset.paybits = 0 ∧ State.reset.estbits = 0 ∧ State.reset.uncbits = 0 ∧
  State.reset.inPos = 0 ∧ State.reset.bitPos = 0 ∧ State.reset.out = [] ∧ State.reset.acc = 0 ∧ State.reset.nbits = 0

/-- R180: "Reset differs from CLR only in also clearing CTRL" and leaving NODE unspecified (R28), which the
model shows as no entry holding a value (log 11); IN stays the host's. -/
def Obligations.ResetIsClrThatClearsCtrl : Prop :=
  ∀ (s : State) (rest : List HostAct), s.cfg.valid = true → s.host = .reset :: rest →
    ∃ t u, step s = .next t ∧ exec .clr s = .next u ∧
      t = { u with host := rest, force := false, tailskip := 0, node := [] }

/-- R80: CLR, in every phase, FAULT included; no other command leaves FAULT, and CLR in IDLE changes nothing. -/
def Obligations.ClrClearsAllButCtrl : Prop :=
  (∀ s : State, ∃ t, exec .clr s = .next t ∧
    t.phase = .idle ∧ t.err = .none ∧ t.errinfo = 0 ∧ t.degen = false ∧ t.notSmaller = false ∧ t.outFinal = false ∧
    t.padcnt = 0 ∧ (∀ x : Byte, t.freq[symIdx x] = 0 ∧ t.code[symIdx x] = []) ∧ t.total = 0 ∧ t.nsym = 0 ∧ t.nnodes = 0 ∧
    t.nlist = 0 ∧ t.head.toNat = 511 ∧ t.root.toNat = 511 ∧ t.treebits = 0 ∧ t.paybits = 0 ∧ t.estbits = 0 ∧ t.uncbits = 0 ∧
    t.inPos = 0 ∧ t.bitPos = 0 ∧ t.out = [] ∧ t.acc = 0 ∧ t.nbits = 0 ∧
    t.force = s.force ∧ t.tailskip = s.tailskip ∧ t.node = s.node ∧ t.inp = s.inp ∧ t.cfg = s.cfg ∧ t.host = s.host) ∧
  (∀ (i : Instr) (s t : State), i ≠ .clr → s.phase = .fault → exec i s = .next t → t = s) ∧
  (∀ s : State, Inv s → s.phase = .idle → exec .clr s = .next s)

/-- R81: CTL v in IDLE writes FORCE = v[0] and TAILSKIP = v[3:1] and nothing else; with OPD[7:4] ≠ 0 it is an illegal word, in
any phase but FAULT; in another phase it raises ERR_SEQUENCE. -/
def Obligations.CtlWritesCtrl : Prop :=
  (∀ (s : State) (v : Byte), s.phase = .idle → v.toNat < 16 →
    ∃ t, exec (.ctl v) s = .next t ∧ (t.force = true ↔ v.toNat % 2 = 1) ∧ t.tailskip.toNat = v.toNat / 2 ∧
      t = { s with force := t.force, tailskip := t.tailskip }) ∧
  (∀ (s : State) (v : Byte), s.phase ≠ .fault → 16 ≤ v.toNat →
    ∃ t, exec (.ctl v) s = .next t ∧ t.err = .illegalCmd ∧ t.errinfo.toNat = 0x100 + v.toNat + 65536 * s.phase.num ∧
      t.phase = .fault ∧ t = { s with err := t.err, errinfo := t.errinfo, phase := t.phase }) ∧
  (∀ v : Byte, v.toNat < 16 → OnlyLegalIn (.ctl v) [.idle])

/-! ## Frequency table and sorted merge list -/

/-- R82: CNT s counts one occurrence of s, or raises ERR_COUNT_OVERFLOW(s) when TOTAL is already `2^CW - 1`. -/
def Obligations.CntCountsOneSymbol : Prop :=
  (∀ (s : State) (sym : Byte), (s.phase = .idle ∨ s.phase = .count) →
    (s.total ≠ 2 ^ s.cfg.cw - 1 → ∃ t, exec (.cnt sym) s = .next t ∧ t.freq[symIdx sym] = s.freq[symIdx sym] + 1 ∧
      (∀ x : Byte, x ≠ sym → t.freq[symIdx x] = s.freq[symIdx x]) ∧ t.total = s.total + 1 ∧ t.phase = .count ∧
      t = { s with freq := t.freq, total := t.total, phase := t.phase }) ∧
    (s.total = 2 ^ s.cfg.cw - 1 → ∃ t, exec (.cnt sym) s = .next t ∧ t.err = .countOverflow ∧
      t.errinfo.toNat = sym.toNat ∧ t.phase = .fault ∧ t = { s with err := t.err, errinfo := t.errinfo, phase := t.phase })) ∧
  (∀ sym : Byte, OnlyLegalIn (.cnt sym) [.idle, .count])

/-- R83: FREQ counts every byte of IN from the cursor on, consumes IN and leaves COUNT; where the counts have no room it raises
ERR_COUNT_OVERFLOW "at the byte that would pass the bound, with the counts of the bytes before it in place", that byte read. -/
def Obligations.FreqCountsTheInput : Prop :=
  (∀ s : State, s.phase = .idle → s.inPos ≤ s.inp.length → s.total + (s.inp.length - s.inPos) ≤ 2 ^ s.cfg.cw - 1 →
    ∃ t, exec .freq s = .next t ∧
      (∀ x : Byte, t.freq[symIdx x] = s.freq[symIdx x] + (s.inp.drop s.inPos).count x) ∧
      t.total = s.total + (s.inp.length - s.inPos) ∧ t.inPos = s.inp.length ∧ t.phase = .count ∧
      t = { s with freq := t.freq, total := t.total, inPos := t.inPos, phase := t.phase }) ∧
  (∀ s : State, s.phase = .idle → s.inPos ≤ s.inp.length → s.total ≤ 2 ^ s.cfg.cw - 1 →
    2 ^ s.cfg.cw - 1 < s.total + (s.inp.length - s.inPos) →
    ∃ t b, exec .freq s = .next t ∧ s.inp[s.inPos + (2 ^ s.cfg.cw - 1 - s.total)]? = some b ∧
      t.err = .countOverflow ∧ t.errinfo.toNat = b.toNat ∧ t.phase = .fault ∧ t.total = 2 ^ s.cfg.cw - 1 ∧
      t.inPos = s.inPos + (2 ^ s.cfg.cw - 1 - s.total) + 1 ∧
      (∀ x : Byte, t.freq[symIdx x] =
        s.freq[symIdx x] + ((s.inp.drop s.inPos).take (2 ^ s.cfg.cw - 1 - s.total)).count x) ∧
      t = { s with freq := t.freq, total := t.total, inPos := t.inPos, err := t.err, errinfo := t.errinfo, phase := t.phase }) ∧
  OnlyLegalIn .freq [.idle]

/-- R83: the effect of FREQ on FREQ, TOTAL and the fault record is that of CNT IN[0], CNT IN[1], … in order. -/
def Obligations.FreqIsCntOfEveryByte : Prop :=
  ∀ s t u : State, s.phase = .idle → s.inPos = 0 → s.inp ≠ [] → exec .freq s = .next t →
    execAll (s.inp.map .cnt) s = .next u → t = { u with inPos := t.inPos }

/-- R84, R85: LIST in COUNT with some count not zero builds the list of one leaf for each present symbol, in ascending order of
(WEIGHT, SYM), the leaf of the i-th smallest present symbol at handle i; with every count zero it raises ERR_EMPTY_INPUT(0). -/
def Obligations.ListSortsTheLeaves : Prop :=
  (∀ s : State, s.phase = .count → (∃ x : Byte, s.freq[symIdx x] > 0) →
    ∃ t ts, exec .list s = .next t ∧ t.list? = some ts ∧
      ts.Perm ((presentSyms s.freq).map fun x => Tree.leaf x s.freq[symIdx x]) ∧
      ts.Pairwise (fun a b => a.weight < b.weight ∨ (a.weight = b.weight ∧ ∃ x y, a.syms = [x] ∧ b.syms = [y] ∧ x.toNat < y.toNat)) ∧
      (∀ n x, (presentSyms s.freq)[n]? = some x → ∃ e, t.node.read n = some e ∧ e.sym = x ∧ e.weight = s.freq[symIdx x] ∧
        e.left.toNat = 511 ∧ e.right.toNat = 511) ∧
      t.nsym = (presentSyms s.freq).length ∧ t.nlist = t.nsym ∧ t.nnodes = t.nsym ∧ t.phase = .listed ∧
      (∀ n, t.nnodes ≤ n → t.node.read n = s.node.read n) ∧
      t = { s with node := t.node, nnodes := t.nnodes, head := t.head, nlist := t.nlist, nsym := t.nsym, phase := t.phase }) ∧
  (∀ s : State, s.phase = .count → (∀ x : Byte, s.freq[symIdx x] = 0) →
    ∃ t, exec .list s = .next t ∧ t.err = .emptyInput ∧ t.errinfo = 0 ∧ t.phase = .fault ∧ t.nnodes = 0 ∧
      t.head.toNat = 511 ∧ t.nlist = 0 ∧ t.nsym = 0 ∧
      t = { s with nnodes := t.nnodes, head := t.head, nlist := t.nlist, nsym := t.nsym, err := t.err, errinfo := t.errinfo,
                   phase := t.phase }) ∧
  OnlyLegalIn .list [.count]

/-! ## Tree builder -/

/-- R90, R95: MERGE in LISTED, for a list `a, b, rest`: the new parent takes handle NNODES, weighs the sum, has `a` on the left
and `b` on the right, and stands before the first node of `rest` that is not strictly lighter. Only the parent's entry and NEXT
links of `a`, `b` and the node before the parent change. With NLIST < 2 it raises ERR_SEQUENCE. -/
def Obligations.MergeJoinsTheTwoFirst : Prop :=
  (∀ (s : State) (a b : Handle) (rest : List Handle), s.phase = .listed → s.chain? = some (a :: b :: rest) → 2 ≤ s.nlist →
    s.nnodes < 511 →
    ∃ t, exec .merge s = .next t ∧
      t.chain? = some (rest.takeWhile (fun h => s.weightAt h < s.weightAt a + s.weightAt b) ++ BitVec.ofNat 9 s.nnodes ::
        rest.dropWhile (fun h => s.weightAt h < s.weightAt a + s.weightAt b)) ∧
      (∃ e, t.node.read s.nnodes = some e ∧ e.sym = 0 ∧ e.weight = s.weightAt a + s.weightAt b ∧ e.left = a ∧ e.right = b) ∧
      (∃ ea eb, s.node.read a.toNat = some ea ∧ t.node.read a.toNat = some { ea with next := 511#9 } ∧
        s.node.read b.toNat = some eb ∧ t.node.read b.toNat = some { eb with next := 511#9 }) ∧
      (∀ n e, n ≠ s.nnodes → s.node.read n = some e → ∃ v, t.node.read n = some { e with next := v }) ∧
      (∀ n, n ≠ s.nnodes → n ≠ a.toNat → n ≠ b.toNat →
        ((rest.takeWhile (fun h => s.weightAt h < s.weightAt a + s.weightAt b)).getLast?.map BitVec.toNat) ≠ some n →
        t.node.read n = s.node.read n) ∧
      t.nlist = s.nlist - 1 ∧ t.nnodes = s.nnodes + 1 ∧
      t = { s with node := t.node, nnodes := t.nnodes, head := t.head, nlist := t.nlist }) ∧
  (∀ s : State, s.phase = .listed → s.nlist < 2 →
    ∃ t, exec .merge s = .next t ∧ t.err = .sequence ∧ t.errinfo.toNat = 0x22000 ∧ t.phase = .fault ∧
      t = { s with err := t.err, errinfo := t.errinfo, phase := t.phase }) ∧
  OnlyLegalIn .merge [.listed]

/-- R93, R94, R91: from every state of the invariant in LISTED, TREE finalizes one tree: ROOT is the last node made, every NEXT
is NIL, NNODES = 2 NSYM - 1, the leaves come first in symbol order, every weight is the sum of the counts under it and none
passes `2^CW - 1`, the root weighs TOTAL, and DEGEN says whether the root is a leaf. -/
def Obligations.TreeFinalizesOneTree : Prop :=
  ∀ s : State, Inv s → s.phase = .listed →
    ∃ t T, exec .tree s = .next t ∧ t.tree? = some T ∧ T.weight = s.total ∧ T.weighted s.freq ∧
      T.syms.Perm (presentSyms s.freq) ∧
      t.nnodes + 1 = 2 * s.nsym ∧ t.root.toNat + 2 = 2 * s.nsym ∧ t.nlist = 1 ∧ t.head.toNat = 511 ∧
      t.degen = T.isLeaf ∧ (t.degen = true ↔ s.nsym = 1) ∧ t.phase = .treed ∧
      EveryNode t (fun n e => e.next.toNat = 511 ∧ e.weight ≤ 2 ^ s.cfg.cw - 1 ∧
        ((∃ x, (presentSyms s.freq)[n]? = some x ∧ e.sym = x ∧ e.isLeaf = true) ∨
          (s.nsym ≤ n ∧ e.left.toNat < n ∧ e.right.toNat < n))) ∧
      (∀ n, t.nnodes ≤ n → t.node.read n = s.node.read n) ∧
      t = { s with node := t.node, nnodes := t.nnodes, head := t.head, nlist := t.nlist, root := t.root, degen := t.degen,
                   phase := t.phase }

/-- R91: a MERGE before TREE changes nothing of what TREE comes to ("The state after LIST; TREE equals the state after LIST;
MERGE; ...; MERGE; TREE"), and with one node left TREE finalizes that node: ROOT, its NEXT, HEAD, DEGEN and PHASE. -/
def Obligations.TreeMergesUntilOneNodeRemains : Prop :=
  OnlyLegalIn .tree [.listed] ∧
  (∀ s t : State, s.phase = .listed → 2 ≤ s.nlist → exec .merge s = .next t → exec .tree s = exec .tree t) ∧
  (∀ (s : State) (e : NodeEntry), s.phase = .listed → s.nlist = 1 → s.readNode s.head = some e →
    ∃ t, exec .tree s = .next t ∧ t.root = s.head ∧ t.head.toNat = 511 ∧ t.degen = e.isLeaf ∧ t.phase = .treed ∧
      t.node.read s.head.toNat = some { e with next := 511#9 } ∧
      (∀ n, n ≠ s.head.toNat → t.node.read n = s.node.read n) ∧
      t = { s with node := t.node, root := t.root, head := t.head, degen := t.degen, phase := t.phase })

/-! ## Code table and size check -/

/-- R100: CODES records the path of each leaf as its symbol's code, and the length of the serialized tree. -/
def Obligations.CodesRecordsThePaths : Prop :=
  OnlyLegalIn .codes [.treed] ∧
  ∀ (s : State) (T : Tree), s.phase = .treed → s.tree? = some T →
    exec .codes s = .next { s with code := T.codeTable, treebits := T.ser.length, phase := .coded }

/-- R102: after CODES on a tree with DEGEN = 0 no code is the beginning of another symbol's code, a symbol has a code exactly
when its count is not zero, the code of a symbol is the path of its leaf, codes differ, and every code is shorter than NSYM. -/
def Obligations.CodesAreAPrefixCode : Prop :=
  ∀ s t : State, Inv s → s.phase = .treed → s.degen = false → exec .codes s = .next t →
    (∀ x : Byte, t.code[symIdx x] ≠ [] ↔ t.freq[symIdx x] > 0) ∧
    (∀ x : Byte, t.code[symIdx x].length < t.nsym) ∧
    (∃ T, t.tree? = some T ∧ T.syms.Perm (presentSyms t.freq) ∧ ∀ p ∈ T.paths, t.code[symIdx p.1] = p.2) ∧
    (∀ x y : Byte, x ≠ y → t.code[symIdx x] ≠ [] → t.code[symIdx y] ≠ [] →
      t.code[symIdx x] ≠ t.code[symIdx y] ∧ ¬ t.code[symIdx x] <+: t.code[symIdx y])

/-- R103: after CODES, TREEBITS = 10 NSYM - 1, between 9 and 2559, and it is the length of ser(ROOT). -/
def Obligations.TreeBitsCountsTheTree : Prop :=
  ∀ s t : State, Inv s → s.phase = .treed → exec .codes s = .next t →
    t.treebits + 1 = 10 * t.nsym ∧ 9 ≤ t.treebits ∧ t.treebits ≤ 2559 ∧ ∃ T, t.tree? = some T ∧ t.treebits = T.ser.length

/-- R101: CHECK computes the three sizes and NOTSMALLER; it raises ERR_NOT_COMPRESSIBLE(0) exactly when the estimate is not
strictly smaller and FORCE = 0. -/
def Obligations.CheckComparesTheSizes : Prop :=
  OnlyLegalIn .check [.coded] ∧
  ∀ s : State, s.phase = .coded →
    ∃ t, exec .check s = .next t ∧
      t.paybits = ((List.finRange 256).map fun i => s.code[i].length * s.freq[i]).sum ∧
      t.estbits = ceil8 (s.treebits + 8 * s.cfg.frameBytes + t.paybits) ∧ t.uncbits = 8 * s.total ∧
      (t.notSmaller = true ↔ t.uncbits ≤ t.estbits) ∧
      (t.notSmaller = false ∨ s.force = true → t.phase = .checked ∧
        t = { s with paybits := t.paybits, estbits := t.estbits, uncbits := t.uncbits, notSmaller := t.notSmaller,
                     phase := .checked }) ∧
      (t.notSmaller = true ∧ s.force = false →
        t = { s with paybits := t.paybits, estbits := t.estbits, uncbits := t.uncbits, notSmaller := true,
                     err := .notCompressible, errinfo := 0, phase := .fault })

/-! ## Encoder -/

/-- R110: HDR writes 0x48, 0x46, two whole bytes of OUT when the packer is empty; on a single-leaf tree it raises ERR_DEGENERATE(symbol) and emits nothing. -/
def Obligations.HdrWritesTheMagic : Prop :=
  OnlyLegalIn .hdr [.checked] ∧
  ∀ s : State, s.phase = .checked →
    (s.degen = false → ∃ t, exec .hdr s = .next t ∧ t.packed = s.packed ++ streamBits [0x48#8, 0x46#8] ∧
      (s.acc = 0 → s.nbits = 0 → t.out = s.out ++ [0x48#8, 0x46#8] ∧ t.acc = 0 ∧ t.nbits = 0) ∧
      t.phase = .hdrDone ∧ t = { s with out := t.out, acc := t.acc, nbits := t.nbits, phase := t.phase }) ∧
    (∀ e, s.degen = true → s.readNode s.root = some e → ∃ t, exec .hdr s = .next t ∧ t.err = .degenerate ∧
      t.errinfo.toNat = e.sym.toNat ∧ t.phase = .fault ∧ t = { s with err := t.err, errinfo := t.errinfo, phase := t.phase })

/-- R111, R71: STREE appends ser(ROOT) to what the run has produced, and changes OUT, the packer and PHASE only. -/
def Obligations.StreeWritesTheTree : Prop :=
  OnlyLegalIn .stree [.hdrDone] ∧
  ∀ (s : State) (T : Tree), s.phase = .hdrDone → s.tree? = some T →
    ∃ t, exec .stree s = .next t ∧ t.packed = s.packed ++ T.ser ∧ t.phase = .treeOut ∧ s.out <+: t.out ∧
      t = { s with out := t.out, acc := t.acc, nbits := t.nbits, phase := t.phase }

/-- R112: ENC s appends CODE[s], or raises ERR_NO_CODE(s) and writes nothing when the code is empty. -/
def Obligations.EncWritesTheCode : Prop :=
  (∀ x : Byte, OnlyLegalIn (.enc x) [.treeOut, .encoding]) ∧
  ∀ (s : State) (sym : Byte), (s.phase = .treeOut ∨ s.phase = .encoding) →
    (s.code[symIdx sym] ≠ [] → ∃ t, exec (.enc sym) s = .next t ∧ t.packed = s.packed ++ s.code[symIdx sym] ∧
      t.phase = .encoding ∧ s.out <+: t.out ∧ t = { s with out := t.out, acc := t.acc, nbits := t.nbits, phase := t.phase }) ∧
    (s.code[symIdx sym] = [] → ∃ t, exec (.enc sym) s = .next t ∧ t.err = .noCode ∧ t.errinfo.toNat = sym.toNat ∧
      t.phase = .fault ∧ t = { s with err := t.err, errinfo := t.errinfo, phase := t.phase })

/-- R113: PAYLOAD reads IN from its start and appends the code of every byte; at the first byte without a code it raises
ERR_NO_CODE, with the codes of the bytes before it written. -/
def Obligations.PayloadWritesTheCodes : Prop :=
  OnlyLegalIn .payload [.treeOut] ∧
  ∀ s : State, s.phase = .treeOut →
    ((∀ b ∈ s.inp, s.code[symIdx b] ≠ []) → ∃ t, exec .payload s = .next t ∧ t.packed = s.packed ++ s.payloadOf s.inp ∧
      t.inPos = s.inp.length ∧ t.phase = .payDone ∧ s.out <+: t.out ∧
      t = { s with out := t.out, acc := t.acc, nbits := t.nbits, inPos := t.inPos, phase := t.phase }) ∧
    (∀ before b after, s.inp = before ++ b :: after → (∀ x ∈ before, s.code[symIdx x] ≠ []) → s.code[symIdx b] = [] →
      ∃ t, exec .payload s = .next t ∧ t.packed = s.packed ++ s.payloadOf before ∧ t.inPos = before.length + 1 ∧
        t.err = .noCode ∧ t.errinfo.toNat = b.toNat ∧ t.phase = .fault ∧ s.out <+: t.out ∧
        t = { s with out := t.out, acc := t.acc, nbits := t.nbits, inPos := t.inPos, err := t.err, errinfo := t.errinfo,
                     phase := t.phase })

/-- R113: the effect of PAYLOAD on the packer, OUT and the fault record is that of ENC IN[0], ..., ENC IN[IN_LEN - 1]. -/
def Obligations.PayloadIsEncOfEveryByte : Prop :=
  ∀ s t u : State, s.phase = .treeOut → s.inp ≠ [] → exec .payload s = .next t → execAll (s.inp.map .enc) s = .next u →
    t = { u with inPos := t.inPos, phase := t.phase } ∧ (t.phase = .fault ↔ u.phase = .fault)

/-- R114, R46: FLUSH pads with PADCNT zeros, 0 to 7, to a byte boundary, after which OUT shows every bit produced. -/
def Obligations.FlushPadsToAByte : Prop :=
  OnlyLegalIn .flush [.encoding, .payDone] ∧
  ∀ s : State, (s.phase = .encoding ∨ s.phase = .payDone) → PackerOk s →
    ∃ t, exec .flush s = .next t ∧ streamBits t.out = s.packed ++ List.replicate t.padcnt.toNat false ∧
      (s.packed.length + t.padcnt.toNat) % 8 = 0 ∧ t.padcnt.toNat < 8 ∧ t.acc = 0 ∧ t.nbits = 0 ∧ t.outFinal = true ∧
      t.phase = .done ∧
      t = { s with out := t.out, acc := t.acc, nbits := t.nbits, padcnt := t.padcnt, outFinal := t.outFinal, phase := t.phase }

/-- R115: the state after COMP is exactly the state after the nine commands issued one by one, faults included. -/
def Obligations.CompIsTheNineCommands : Prop :=
  OnlyLegalIn .comp [.idle] ∧
  ∀ s : State, s.phase = .idle →
    exec .comp s = execAll [.freq, .list, .tree, .codes, .check, .hdr, .stree, .payload, .flush] s

/-- R115, R70 to R73: with FORCE = 1, room for the counts and two distinct byte values, COMP ends in DONE, and OUT is the
magic, the serialized tree, one code per input byte in order, and the zero padding. -/
def Obligations.CompWritesTheStream : Prop :=
  ∀ s : State, Inv s → s.phase = .idle → s.force = true → s.inp.length ≤ 2 ^ s.cfg.cw - 1 →
    (∃ x ∈ s.inp, ∃ y ∈ s.inp, x ≠ y) →
    ∃ t T, exec .comp s = .next t ∧ t.phase = .done ∧ t.outFinal = true ∧ t.tree? = some T ∧ t.code = T.codeTable ∧
      (∀ x : Byte, t.freq[symIdx x] = s.inp.count x) ∧ t.total = s.inp.length ∧ T.syms.Perm (presentSyms t.freq) ∧
      streamBits t.out = magicBits ++ T.ser ++ t.payloadOf s.inp ++ List.replicate t.padcnt.toNat false

/-- R101, R159, D32: FORCE decides only whether a run goes on: where a forced COMP reaches DONE, the same COMP with FORCE = 0
reaches the same state if the estimate is strictly smaller, and otherwise faults with ERR_NOT_COMPRESSIBLE and an empty OUT. -/
def Obligations.CompWithoutForce : Prop :=
  ∀ s t : State, Inv s → s.phase = .idle → exec .comp { s with force := true } = .next t → t.phase = .done →
    (t.estbits < t.uncbits → exec .comp { s with force := false } = .next { t with force := false }) ∧
    (t.uncbits ≤ t.estbits → ∃ u, exec .comp { s with force := false } = .next u ∧ u.phase = .fault ∧
      u.err = .notCompressible ∧ u.errinfo = 0 ∧ u.out = [] ∧ u.outFinal = false ∧ u.estbits = t.estbits ∧
      u.uncbits = t.uncbits ∧ u.code = t.code)

/-- R115: a COMP that faults does so with one of four codes, ERR_NO_CODE not among them, with OUT empty and OUT_FINAL = 0. -/
def Obligations.CompFaultsWithNoOutput : Prop :=
  ∀ s t : State, Inv s → s.phase = .idle → exec .comp s = .next t → t.phase = .fault →
    t.err ∈ [ErrCode.countOverflow, .emptyInput, .notCompressible, .degenerate] ∧ t.out = [] ∧ t.outFinal = false

/-- R116: size accounting after a COMP that reached DONE, or after its nine commands issued singly; OUT is the stream of R70. -/
def Obligations.SizeAccounting : Prop :=
  ∀ s t : State, Inv s → s.phase = .idle →
    (exec .comp s = .next t ∨ execAll [.freq, .list, .tree, .codes, .check, .hdr, .stree, .payload, .flush] s = .next t) →
    t.phase = .done →
    8 * t.out.length = ceil8 (16 + t.treebits + t.paybits) ∧
    t.padcnt.toNat + (16 + t.treebits + t.paybits) = 8 * t.out.length ∧
    t.estbits + 16 = 8 * t.out.length + 8 * s.cfg.frameBytes ∧
    ∃ T, t.tree? = some T ∧
      streamBits t.out = magicBits ++ T.ser ++ t.payloadOf s.inp ++ List.replicate t.padcnt.toNat false

/-- R117: after COMP, OUT and every register and table are a function of IN and FORCE (and the parameters) alone: what an
earlier run left in the NODE memory, TAILSKIP and what the host does next do not show. -/
def Obligations.CompDependsOnInputAndForceOnly : Prop :=
  ∀ s s' t t' : State, Inv s → Inv s' → s.phase = .idle → s'.phase = .idle → s.inp = s'.inp → s.force = s'.force →
    s.cfg = s'.cfg → exec .comp s = .next t → exec .comp s' = .next t' →
    t' = { t with tailskip := s'.tailskip, host := s'.host, node := t'.node } ∧
    ∀ n, n < t.nnodes → t'.node.read n = t.node.read n

/-! ## Decoder -/

/-- R130: DHDR takes the two magic bytes one at a time. -/
def Obligations.DhdrChecksTheMagic : Prop :=
  OnlyLegalIn .dhdr [.idle] ∧
  ∀ s : State, s.phase = .idle → s.bitPos = 0 →
    (s.limit < 8 → ∃ t, exec .dhdr s = .next t ∧ t.errinfo = 0 ∧
      t = { s with err := .unexpectedEos, errinfo := t.errinfo, phase := .fault }) ∧
    (∀ b, 8 ≤ s.limit → s.inp[0]? = some b → b ≠ 0x48#8 → ∃ t, exec .dhdr s = .next t ∧ t.errinfo.toNat = b.toNat ∧
      t = { s with bitPos := 8, err := .corruptHeader, errinfo := t.errinfo, phase := .fault }) ∧
    (8 ≤ s.limit → s.limit < 16 → s.inp[0]? = some 0x48#8 → ∃ t, exec .dhdr s = .next t ∧ t.errinfo.toNat = 8 ∧
      t = { s with bitPos := 8, err := .unexpectedEos, errinfo := t.errinfo, phase := .fault }) ∧
    (∀ b, 16 ≤ s.limit → s.inp[0]? = some 0x48#8 → s.inp[1]? = some b → b ≠ 0x46#8 →
      ∃ t, exec .dhdr s = .next t ∧ t.errinfo.toNat = 0x100 + b.toNat ∧
        t = { s with bitPos := 16, err := .corruptHeader, errinfo := t.errinfo, phase := .fault }) ∧
    (16 ≤ s.limit → s.inp[0]? = some 0x48#8 → s.inp[1]? = some 0x46#8 →
      exec .dhdr s = .next { s with bitPos := 16, phase := .dhdrOk })

/-- R131, R137: where the unread bits begin with the serialized form of a tree of at most 511 nodes, DTREE builds that tree
with all weights 0 and consumes exactly those bits. Handles are given in preorder, the root's being 0 and a left child's its
parent's plus 1; an internal node has SYM = 0, and every WEIGHT is 0 and every NEXT is NIL. -/
def Obligations.DtreeInvertsTheSerialization : Prop :=
  OnlyLegalIn .dtree [.dhdrOk] ∧
  ∀ (s : State) (T : Tree) (rest : Bits), s.phase = .dhdrOk → s.unread = T.ser ++ rest → T.size ≤ 511 →
    ∃ t, exec .dtree s = .next t ∧ t.tree? = some T.zeroed ∧ t.root.toNat = 0 ∧ t.nnodes = T.size ∧
      t.bitPos = s.bitPos + T.ser.length ∧ t.unread = rest ∧ t.degen = T.isLeaf ∧ t.phase = .dtreeOk ∧
      EveryNode t (fun _ e => e.next.toNat = 511 ∧ e.weight = 0) ∧
      (∀ n x w, T.preorder[n]? = some (.leaf x w) → t.node.read n = some ⟨x, 0, 511#9, 511#9, 511#9⟩) ∧
      (∀ n w l r, T.preorder[n]? = some (.node w l r) →
        t.node.read n = some ⟨0#8, 0, BitVec.ofNat 9 (n + 1), BitVec.ofNat 9 (n + 1 + l.size), 511#9⟩) ∧
      (∀ n, t.nnodes ≤ n → t.node.read n = s.node.read n) ∧
      t = { s with node := t.node, nnodes := t.nnodes, root := t.root, bitPos := t.bitPos, degen := t.degen, phase := t.phase }

/-- R164, R163, R131, R151: whatever tree `T` the unread bits begin or are the beginning of. Of a tree of more than 511 nodes
DTREE can read 511 nodes and the flag of the next, and then raises ERR_NODE_OVERFLOW(BITPOS). Where the bits end before what it
needs it raises ERR_UNEXPECTED_EOS(BITPOS): `n` being the number of whole nodes there are bits for, either the bits end with
them, at the flag of the next node, which takes no handle; or its flag is read and its handle taken, and of the symbol's bits,
too few, none is consumed. Nothing but the nodes, BITPOS and the fault record changes: ROOT and OUT are as before. -/
def Obligations.DtreeFaultsOnCutOrLargeTrees : Prop :=
  ∀ (s : State) (T : Tree) (more rest : Bits), s.phase = .dhdrOk → s.unread ++ more = T.ser ++ rest →
    (511 < T.size → T.serBefore 511 + 1 ≤ s.unread.length →
      ∃ t, exec .dtree s = .next t ∧ t.err = .nodeOverflow ∧ t.errinfo = BitVec.ofNat 64 t.bitPos ∧ t.phase = .fault ∧
        t.nnodes = 511 ∧ t.bitPos = s.bitPos + T.serBefore 511 + 1 ∧
        t = { s with node := t.node, nnodes := t.nnodes, bitPos := t.bitPos, err := t.err, errinfo := t.errinfo,
                     phase := t.phase }) ∧
    ((T.size ≤ 511 ∧ s.unread.length < T.ser.length) ∨ (511 < T.size ∧ s.unread.length < T.serBefore 511 + 1) →
      ∃ t n, exec .dtree s = .next t ∧ t.err = .unexpectedEos ∧ t.errinfo = BitVec.ofNat 64 t.bitPos ∧ t.phase = .fault ∧
        T.serBefore n ≤ s.unread.length ∧ s.unread.length < T.serBefore (n + 1) ∧
        (s.unread.length = T.serBefore n → t.nnodes = n ∧ t.bitPos = s.bitPos + T.serBefore n) ∧
        (T.serBefore n < s.unread.length → t.nnodes = n + 1 ∧ t.bitPos = s.bitPos + T.serBefore n + 1) ∧
        t.unread.length < 8 ∧
        t = { s with node := t.node, nnodes := t.nnodes, bitPos := t.bitPos, err := t.err, errinfo := t.errinfo,
                     phase := t.phase })

/-- R132: DSYM walks the tree by the unread bits: it emits the symbol reached, or ends the run in DDONE with the walk dropped;
on a single-leaf tree it raises ERR_DEGENERATE(symbol). -/
def Obligations.DsymWalksTheTree : Prop :=
  OnlyLegalIn .dsym [.dtreeOk] ∧
  ∀ (s : State) (T : Tree), s.phase = .dtreeOk → s.tree? = some T →
    (∀ x rest, s.degen = false → T.isLeaf = false → T.walk s.unread = some (x, rest) →
      ∃ t, exec .dsym s = .next t ∧ t.out = s.out ++ [x] ∧ t.unread = rest ∧
        t.bitPos + rest.length = s.bitPos + s.unread.length ∧ t = { s with out := t.out, bitPos := t.bitPos }) ∧
    (s.degen = false → T.isLeaf = false → T.walk s.unread = none →
      exec .dsym s = .next { s with bitPos := s.bitPos + s.unread.length, outFinal := true, phase := .ddone }) ∧
    (∀ e, s.degen = true → s.readNode s.root = some e → ∃ t, exec .dsym s = .next t ∧ t.err = .degenerate ∧
      t.errinfo.toNat = e.sym.toNat ∧ t.phase = .fault ∧ t = { s with err := t.err, errinfo := t.errinfo, phase := t.phase })

/-- R133: DPAYLOAD emits the symbols of all unread bits, walk after walk, and ends the run in DDONE; on a single-leaf tree it
raises ERR_DEGENERATE(symbol) before anything is emitted. -/
def Obligations.DpayloadDecodesTheRest : Prop :=
  OnlyLegalIn .dpayload [.dtreeOk] ∧
  (∀ (s : State) (T : Tree), s.phase = .dtreeOk → s.tree? = some T → s.degen = false → T.isLeaf = false →
    exec .dpayload s = .next { s with
      out := s.out ++ T.decodeAll s.unread, bitPos := s.bitPos + s.unread.length, outFinal := true, phase := .ddone }) ∧
  (∀ (s : State) (e : NodeEntry), s.phase = .dtreeOk → s.degen = true → s.readNode s.root = some e →
    ∃ t, exec .dpayload s = .next t ∧ t.err = .degenerate ∧ t.errinfo.toNat = e.sym.toNat ∧ t.phase = .fault ∧
      t = { s with err := t.err, errinfo := t.errinfo, phase := t.phase })

/-- R133: the effect of DPAYLOAD is that of issuing DSYM until PHASE leaves DTREEOK. -/
def Obligations.DpayloadIsRepeatedDsym : Prop :=
  ∀ s t : State, s.phase = .dtreeOk → exec .dsym s = .next t →
    exec .dpayload s = if t.phase = .dtreeOk then exec .dpayload t else .next t

/-- R134: the state after DECOMP is exactly the state after the three commands issued one by one. -/
def Obligations.DecompIsTheThreeCommands : Prop :=
  OnlyLegalIn .decomp [.idle] ∧
  ∀ s : State, s.phase = .idle → exec .decomp s = execAll [.dhdr, .dtree, .dpayload] s

/-- R134, R75: on a stream of the magic, a serialized tree of two or more leaves and at most 511 nodes, and any further bits,
DECOMP ends in DDONE with the symbols of those further bits. -/
def Obligations.DecompDecodesAStream : Prop :=
  ∀ (s : State) (T : Tree) (rest : Bits), s.phase = .idle → s.bitPos = 0 → s.unread = magicBits ++ T.ser ++ rest →
    T.isLeaf = false → T.size ≤ 511 →
    ∃ t, exec .decomp s = .next t ∧ t.out = s.out ++ T.decodeAll rest ∧ t.bitPos = s.limit ∧ t.outFinal = true ∧
      t.phase = .ddone ∧ t.tree? = some T.zeroed ∧
      t = { s with node := t.node, nnodes := t.nnodes, root := t.root, degen := false, out := t.out, bitPos := t.bitPos,
                   outFinal := t.outFinal, phase := t.phase }

/-- R134: a DECOMP that faults does so before the first symbol is emitted, with one of four codes. -/
def Obligations.DecompFaultsWithNoOutput : Prop :=
  ∀ s t : State, s.phase = .idle → exec .decomp s = .next t → t.phase = .fault →
    t.err ∈ [ErrCode.unexpectedEos, .corruptHeader, .nodeOverflow, .degenerate] ∧ t.out = s.out ∧ t.outFinal = s.outFinal

/-- R135: round trip. A DECOMP of the OUT of a COMP that reached DONE gives the input back with TAILSKIP = PADCNT; with
TAILSKIP = 0 exactly when the leftmost leaf lies deeper than PADCNT (R136). -/
def Obligations.DecompInvertsComp : Prop :=
  ∀ s t s' : State, Inv s → s.phase = .idle → exec .comp s = .next t → t.phase = .done →
    Inv s' → s'.phase = .idle → s'.inp = t.out →
    ∃ u T, exec .decomp s' = .next u ∧ t.tree? = some T ∧
      (s'.tailskip = t.padcnt → u.phase = .ddone ∧ u.outFinal = true ∧ u.out = s.inp) ∧
      (s'.tailskip = 0 → (u.out = s.inp ↔ t.padcnt.toNat < T.leftmost.2))

/-- R136: with TAILSKIP = k ≤ PADCNT the output is the input followed by (PADCNT - k) div d copies of the symbol of the leftmost
leaf, d ≥ 1 being its depth; with k > PADCNT the end of the input is lost. -/
def Obligations.PaddingDecodesAsTheLeftmostLeaf : Prop :=
  ∀ s t s' : State, Inv s → s.phase = .idle → exec .comp s = .next t → t.phase = .done →
    Inv s' → s'.phase = .idle → s'.inp = t.out →
    ∃ u T, t.tree? = some T ∧ 1 ≤ T.leftmost.2 ∧ exec .decomp s' = .next u ∧
      (s'.tailskip.toNat ≤ t.padcnt.toNat → u.phase = .ddone ∧
        u.out = s.inp ++ List.replicate ((t.padcnt.toNat - s'.tailskip.toNat) / T.leftmost.2) T.leftmost.1) ∧
      (t.padcnt.toNat < s'.tailskip.toNat → u.out <+: s.inp ∧ u.out ≠ s.inp)

/-! ## Frames: what each command leaves alone -/

/-- R13 to R16, R50: the control and status registers change only by the commands the rules name; ERR and ERRINFO only by a
fault or CLR; the parameters and the host's list by none. That a fault raised in DONE or DDONE leaves OUT_FINAL = 1 is log 12. -/
def Obligations.FrameOfControlAndFlags : Prop :=
  ∀ (i : Instr) (s t : State), i.wellFormed = true → exec i s = .next t →
    t.cfg = s.cfg ∧ t.host = s.host ∧
    ((t.force = s.force ∧ t.tailskip = s.tailskip) ∨ ∃ v, i = .ctl v) ∧
    ((t.err = s.err ∧ t.errinfo = s.errinfo) ∨ t.phase = .fault ∨ i = .clr) ∧
    (t.degen = s.degen ∨ i ∈ [.clr, .tree, .dtree, .comp, .decomp]) ∧
    (t.notSmaller = s.notSmaller ∨ i ∈ [.clr, .check, .comp]) ∧
    (t.outFinal = s.outFinal ∨ i ∈ [.clr, .flush, .dsym, .dpayload, .comp, .decomp]) ∧
    (t.padcnt = s.padcnt ∨ i ∈ [.clr, .flush, .comp])

/-- R17 to R24, R49, R50: the tables and the registers of the list, the tree, the codes and the sizes change only by the
commands the rules name. -/
def Obligations.FrameOfTables : Prop :=
  ∀ (i : Instr) (s t : State), i.wellFormed = true → exec i s = .next t →
    ((t.freq = s.freq ∧ t.total = s.total) ∨ i ∈ [.clr, .freq, .comp] ∨ ∃ x, i = .cnt x) ∧
    (t.nsym = s.nsym ∨ i ∈ [.clr, .list, .comp]) ∧
    (t.node = s.node ∨ i ∈ [.list, .merge, .tree, .dtree, .comp, .decomp]) ∧
    (t.nnodes = s.nnodes ∨ i ∈ [.clr, .list, .merge, .tree, .dtree, .comp, .decomp]) ∧
    ((t.head = s.head ∧ t.nlist = s.nlist) ∨ i ∈ [.clr, .list, .merge, .tree, .comp]) ∧
    (t.root = s.root ∨ i ∈ [.clr, .tree, .dtree, .comp, .decomp]) ∧
    ((t.code = s.code ∧ t.treebits = s.treebits) ∨ i ∈ [.clr, .codes, .comp]) ∧
    ((t.paybits = s.paybits ∧ t.estbits = s.estbits ∧ t.uncbits = s.uncbits) ∨ i ∈ [.clr, .check, .comp])

/-- R25, R26, R41, R49: IN is changed by no command; the cursors, OUT and the packer only by the commands the rules name; and
every command but CLR only appends to OUT. IN is the host's to bind (R40, R186): a binding between runs changes IN and nothing
else, and one in a run is refused; which phases lie between runs is the model's choice (log 10), as is the refusal of an IN that
64-bit registers cannot count (log 19). -/
def Obligations.FrameOfStreams : Prop :=
  (∀ (i : Instr) (s t : State), i.wellFormed = true → exec i s = .next t →
    t.inp = s.inp ∧
    (t.inPos = s.inPos ∨ i ∈ [.clr, .freq, .payload, .comp]) ∧
    (t.bitPos = s.bitPos ∨ i ∈ [.clr, .dhdr, .dtree, .dsym, .dpayload, .decomp]) ∧
    ((t.acc = s.acc ∧ t.nbits = s.nbits) ∨ i ∈ [.clr, .hdr, .stree, .payload, .flush, .comp] ∨ ∃ x, i = .enc x) ∧
    (t.out = s.out ∨ i ∈ [.clr, .hdr, .stree, .payload, .flush, .comp, .dsym, .dpayload, .decomp] ∨ ∃ x, i = .enc x) ∧
    (s.out <+: t.out ∨ i = .clr)) ∧
  (∀ (s : State) (bytes : List Byte) (rest : List HostAct), s.cfg.valid = true → s.host = .bind bytes :: rest →
    (s.phase ∈ [.idle, .done, .ddone, .fault] → 8 * bytes.length < 2 ^ 64 →
      step s = .next { s with host := rest, inp := bytes }) ∧
    (s.phase ∈ [.idle, .done, .ddone, .fault] → 2 ^ 64 ≤ 8 * bytes.length → step s = .refused .inputTooLong) ∧
    (s.phase ∉ [.idle, .done, .ddone, .fault] → step s = .refused .inputChangedDuringRun))

/-- R19, R20: no command touches a NODE entry beyond those the run has allocated. -/
def Obligations.FrameOfUnallocatedNodes : Prop :=
  ∀ (i : Instr) (s t : State), exec i s = .next t → ∀ n, t.nnodes ≤ n → t.node.read n = s.node.read n

/-! ## Invariants -/

/-- The invariant holds at reset. -/
def Obligations.InvHoldsAtReset : Prop := Inv State.reset

/-- R18: TOTAL stays the sum of the counts and never passes `2^CW - 1`. -/
def Obligations.StepKeepsTotalTheSum : Prop :=
  ∀ s t : State, CountsOk s → step s = .next t → CountsOk t

/-- R46: the bits of ACC at and above bit NBITS stay 0. R19, R20: the NODE memory keeps its canonical form, and NNODES stays at
most NODE_CAP. -/
def Obligations.StepKeepsPackerAndNodeMemory : Prop :=
  ∀ s t : State, step s = .next t → (PackerOk s → PackerOk t) ∧ (MemoryOk s → MemoryOk t)

/-- R166, R168: a fault on record stays as it is until CLR or reset, which clear it; and PHASE is FAULT exactly while one is on
record. -/
def Obligations.FirstFaultStays : Prop :=
  ∀ s t : State, FaultOk s → step s = .next t → FaultOk t ∧
    (s.phase = .fault → (t.phase = .fault ∧ t.err = s.err ∧ t.errinfo = s.errinfo) ∨
      (t.phase = .idle ∧ t.err = .none ∧ ∃ rest, s.host = .command 0x0000#16 :: rest ∨ s.host = .reset :: rest))

/-- R18, R20 to R22, R46, R92 to R94: every step keeps the invariant. -/
def Obligations.StepKeepsInv : Prop :=
  ∀ s t : State, Inv s → step s = .next t → Inv t

/-- R20 "no rule reads such an entry", R195 "every command ending after finitely many steps": from a state of the invariant no
step is stuck. -/
def Obligations.InvIsNeverStuck : Prop :=
  ∀ (s : State) (f : Fault), Inv s → step s ≠ .fault f

/-- R24, R82, R94: no register held as a number passes its width: every step keeps `Fits` on states of the invariant. -/
def Obligations.StepKeepsEveryWidth : Prop :=
  ∀ s t : State, s.cfg.valid = true → Inv s → Fits s → step s = .next t → Fits t

/-! ## The read port -/

/-- R13, R14, R51, R52: the scalar registers at the read port, STATUS and CTRL assembled from their fields; a value held as a
number is shown in 64 bits (log 7); an address the map does not map reads 0. -/
def Obligations.RegistersAtTheReadPort : Prop :=
  ∀ s : State,
    (s.readPort 0x000#12).toNat = s.force.toNat + 2 * s.tailskip.toNat ∧
    (s.readPort 0x001#12).toNat =
      s.phase.num + 16 * s.err.num + 256 * s.degen.toNat + 512 * s.notSmaller.toNat + 1024 * s.outFinal.toNat +
        2048 * s.padcnt.toNat ∧
    s.readPort 0x002#12 = s.errinfo ∧ s.readPort 0x003#12 = BitVec.ofNat 64 s.total ∧
    s.readPort 0x004#12 = BitVec.ofNat 64 s.nsym ∧ s.readPort 0x005#12 = BitVec.ofNat 64 s.nlist ∧
    s.readPort 0x006#12 = BitVec.ofNat 64 s.nnodes ∧ (s.readPort 0x007#12).toNat = s.head.toNat ∧
    (s.readPort 0x008#12).toNat = s.root.toNat ∧ s.readPort 0x009#12 = BitVec.ofNat 64 s.treebits ∧
    s.readPort 0x00A#12 = BitVec.ofNat 64 s.paybits ∧ s.readPort 0x00B#12 = BitVec.ofNat 64 s.estbits ∧
    s.readPort 0x00C#12 = BitVec.ofNat 64 s.uncbits ∧ s.readPort 0x00D#12 = BitVec.ofNat 64 s.inPos ∧
    s.readPort 0x00E#12 = BitVec.ofNat 64 s.bitPos ∧ s.readPort 0x00F#12 = BitVec.ofNat 64 s.inp.length ∧
    s.readPort 0x010#12 = BitVec.ofNat 64 s.out.length ∧
    (s.readPort 0x011#12).toNat = s.acc.toNat + 256 * s.nbits.toNat ∧
    (∀ x : Byte, s.readPort (BitVec.ofNat 12 (0x100 + x.toNat)) = BitVec.ofNat 64 s.freq[symIdx x]) ∧
    (∀ a : BitVec 12, ((0x012 ≤ a.toNat ∧ a.toNat < 0x100) ∨ (0x300 ≤ a.toNat ∧ a.toNat < 0x400) ∨ 0xBFE ≤ a.toNat) →
      s.readPort a = 0)

/-- R23, R52: at 0x200 + s the length of CODE[s]; in word w at 0x400 + 4s + w, bit 63 - j is code bit 64 w + j, and 0 below the
code. For codes of at most 255 bits (R23). -/
def Obligations.CodeAtTheReadPort : Prop :=
  ∀ (s : State) (x : Byte) (w j : Nat), s.code[symIdx x].length ≤ 255 → w < 4 → j < 64 →
    (s.readPort (BitVec.ofNat 12 (0x200 + x.toNat))).toNat = s.code[symIdx x].length ∧
    (s.readPort (BitVec.ofNat 12 (0x400 + 4 * x.toNat + w))).getLsbD (63 - j) = s.code[symIdx x].getD (64 * w + j) false

/-- R19, R52: at 0x800 + 2n the WEIGHT of an allocated entry, at 0x801 + 2n its LEFT in 8:0, RIGHT in 17:9, NEXT in 26:18 and
SYM in 34:27. For weights that fit 64 bits, which CW ≤ 48 gives (R5). -/
def Obligations.NodeAtTheReadPort : Prop :=
  ∀ (s : State) (n : Nat) (e : NodeEntry), n < 511 → n < s.nnodes → s.node.read n = some e → e.weight < 2 ^ 64 →
    (s.readPort (BitVec.ofNat 12 (0x800 + 2 * n))).toNat = e.weight ∧
    (s.readPort (BitVec.ofNat 12 (0x801 + 2 * n))).toNat =
      e.left.toNat + 2 ^ 9 * e.right.toNat + 2 ^ 18 * e.next.toNat + 2 ^ 27 * e.sym.toNat
end

