-- ==== Sys2Proof/Laws/Decode.lean ====
section
/-! SUPPORT. The opcode map: its rows are disjoint (30_encoding.md R62), and what a hit says. -/

namespace Sys2Proof

/-- Two rows differ on a bit that both fix, so no word hits both. -/
def Row.apart (a b : Row) : Bool := (a.pat ^^^ b.pat) &&& (a.mask &&& b.mask) != 0#16

/-- No two rows of the opcode map overlap (R62 "The rows are disjoint"). -/
theorem rows_apart : rows.Pairwise fun a b => a.apart b = true := by decide

/-- The map has twenty rows (R62). -/
theorem rows_length : rows.length = 20 := rfl

/-- A word that decodes to a command hits a row of the map, and the command is that row's (R63). -/
theorem decode_instr {w : Word} {i : Instr} (h : decode w = .instr i) :
    ∃ r ∈ rows, r.hits w = true ∧ i = r.build (wordOpd w) := by
  unfold decode at h
  split at h
  · rename_i r hr
    exact ⟨r, List.mem_of_find?_eq_some hr, by simpa using List.find?_some hr, by simpa [eq_comm] using h⟩
  · simp at h

/-- A word is rejected exactly when it hits no row (R64). -/
theorem decode_reject_iff {w : Word} : (∃ r, decode w = .reject r) ↔ ∀ r ∈ rows, r.hits w = false := by
  unfold decode
  cases h : rows.find? (·.hits w) with
  | none => simpa using h
  | some r =>
    have h1 := List.mem_of_find?_eq_some h
    have h2 := List.find?_some h
    constructor
    · rintro ⟨q, hq⟩
      simp at hq
    · intro hall
      simp [hall r h1] at h2

end Sys2Proof
end

