-- ==== Sys2Proof/Laws/State.lean ====
section
/-! SUPPORT. One lemma per field per update, true by rfl: what each plain update of the state leaves in each field. -/

namespace Sys2Proof.Machine

open Sys2Proof

/-! ## raise -/

@[simp] theorem State.raise_cfg (s : State) (c : ErrCode) (i : Word64) : (s.raise c i).cfg = s.cfg := rfl
@[simp] theorem State.raise_host (s : State) (c : ErrCode) (i : Word64) : (s.raise c i).host = s.host := rfl
@[simp] theorem State.raise_force (s : State) (c : ErrCode) (i : Word64) : (s.raise c i).force = s.force := rfl
@[simp] theorem State.raise_tailskip (s : State) (c : ErrCode) (i : Word64) : (s.raise c i).tailskip = s.tailskip := rfl
@[simp] theorem State.raise_phase (s : State) (c : ErrCode) (i : Word64) : (s.raise c i).phase = .fault := rfl
@[simp] theorem State.raise_err (s : State) (c : ErrCode) (i : Word64) : (s.raise c i).err = c := rfl
@[simp] theorem State.raise_errinfo (s : State) (c : ErrCode) (i : Word64) : (s.raise c i).errinfo = i := rfl
@[simp] theorem State.raise_degen (s : State) (c : ErrCode) (i : Word64) : (s.raise c i).degen = s.degen := rfl
@[simp] theorem State.raise_notSmaller (s : State) (c : ErrCode) (i : Word64) : (s.raise c i).notSmaller = s.notSmaller := rfl
@[simp] theorem State.raise_outFinal (s : State) (c : ErrCode) (i : Word64) : (s.raise c i).outFinal = s.outFinal := rfl
@[simp] theorem State.raise_padcnt (s : State) (c : ErrCode) (i : Word64) : (s.raise c i).padcnt = s.padcnt := rfl
@[simp] theorem State.raise_freq (s : State) (c : ErrCode) (i : Word64) : (s.raise c i).freq = s.freq := rfl
@[simp] theorem State.raise_total (s : State) (c : ErrCode) (i : Word64) : (s.raise c i).total = s.total := rfl
@[simp] theorem State.raise_nsym (s : State) (c : ErrCode) (i : Word64) : (s.raise c i).nsym = s.nsym := rfl
@[simp] theorem State.raise_node (s : State) (c : ErrCode) (i : Word64) : (s.raise c i).node = s.node := rfl
@[simp] theorem State.raise_nnodes (s : State) (c : ErrCode) (i : Word64) : (s.raise c i).nnodes = s.nnodes := rfl
@[simp] theorem State.raise_head (s : State) (c : ErrCode) (i : Word64) : (s.raise c i).head = s.head := rfl
@[simp] theorem State.raise_nlist (s : State) (c : ErrCode) (i : Word64) : (s.raise c i).nlist = s.nlist := rfl
@[simp] theorem State.raise_root (s : State) (c : ErrCode) (i : Word64) : (s.raise c i).root = s.root := rfl
@[simp] theorem State.raise_code (s : State) (c : ErrCode) (i : Word64) : (s.raise c i).code = s.code := rfl
@[simp] theorem State.raise_treebits (s : State) (c : ErrCode) (i : Word64) : (s.raise c i).treebits = s.treebits := rfl
@[simp] theorem State.raise_paybits (s : State) (c : ErrCode) (i : Word64) : (s.raise c i).paybits = s.paybits := rfl
@[simp] theorem State.raise_estbits (s : State) (c : ErrCode) (i : Word64) : (s.raise c i).estbits = s.estbits := rfl
@[simp] theorem State.raise_uncbits (s : State) (c : ErrCode) (i : Word64) : (s.raise c i).uncbits = s.uncbits := rfl
@[simp] theorem State.raise_inp (s : State) (c : ErrCode) (i : Word64) : (s.raise c i).inp = s.inp := rfl
@[simp] theorem State.raise_inPos (s : State) (c : ErrCode) (i : Word64) : (s.raise c i).inPos = s.inPos := rfl
@[simp] theorem State.raise_bitPos (s : State) (c : ErrCode) (i : Word64) : (s.raise c i).bitPos = s.bitPos := rfl
@[simp] theorem State.raise_out (s : State) (c : ErrCode) (i : Word64) : (s.raise c i).out = s.out := rfl
@[simp] theorem State.raise_acc (s : State) (c : ErrCode) (i : Word64) : (s.raise c i).acc = s.acc := rfl
@[simp] theorem State.raise_nbits (s : State) (c : ErrCode) (i : Word64) : (s.raise c i).nbits = s.nbits := rfl

/-! ## emit -/

@[simp] theorem State.emit_cfg (s : State) (b : Byte) : (s.emit b).cfg = s.cfg := rfl
@[simp] theorem State.emit_host (s : State) (b : Byte) : (s.emit b).host = s.host := rfl
@[simp] theorem State.emit_force (s : State) (b : Byte) : (s.emit b).force = s.force := rfl
@[simp] theorem State.emit_tailskip (s : State) (b : Byte) : (s.emit b).tailskip = s.tailskip := rfl
@[simp] theorem State.emit_phase (s : State) (b : Byte) : (s.emit b).phase = s.phase := rfl
@[simp] theorem State.emit_err (s : State) (b : Byte) : (s.emit b).err = s.err := rfl
@[simp] theorem State.emit_errinfo (s : State) (b : Byte) : (s.emit b).errinfo = s.errinfo := rfl
@[simp] theorem State.emit_degen (s : State) (b : Byte) : (s.emit b).degen = s.degen := rfl
@[simp] theorem State.emit_notSmaller (s : State) (b : Byte) : (s.emit b).notSmaller = s.notSmaller := rfl
@[simp] theorem State.emit_outFinal (s : State) (b : Byte) : (s.emit b).outFinal = s.outFinal := rfl
@[simp] theorem State.emit_padcnt (s : State) (b : Byte) : (s.emit b).padcnt = s.padcnt := rfl
@[simp] theorem State.emit_freq (s : State) (b : Byte) : (s.emit b).freq = s.freq := rfl
@[simp] theorem State.emit_total (s : State) (b : Byte) : (s.emit b).total = s.total := rfl
@[simp] theorem State.emit_nsym (s : State) (b : Byte) : (s.emit b).nsym = s.nsym := rfl
@[simp] theorem State.emit_node (s : State) (b : Byte) : (s.emit b).node = s.node := rfl
@[simp] theorem State.emit_nnodes (s : State) (b : Byte) : (s.emit b).nnodes = s.nnodes := rfl
@[simp] theorem State.emit_head (s : State) (b : Byte) : (s.emit b).head = s.head := rfl
@[simp] theorem State.emit_nlist (s : State) (b : Byte) : (s.emit b).nlist = s.nlist := rfl
@[simp] theorem State.emit_root (s : State) (b : Byte) : (s.emit b).root = s.root := rfl
@[simp] theorem State.emit_code (s : State) (b : Byte) : (s.emit b).code = s.code := rfl
@[simp] theorem State.emit_treebits (s : State) (b : Byte) : (s.emit b).treebits = s.treebits := rfl
@[simp] theorem State.emit_paybits (s : State) (b : Byte) : (s.emit b).paybits = s.paybits := rfl
@[simp] theorem State.emit_estbits (s : State) (b : Byte) : (s.emit b).estbits = s.estbits := rfl
@[simp] theorem State.emit_uncbits (s : State) (b : Byte) : (s.emit b).uncbits = s.uncbits := rfl
@[simp] theorem State.emit_inp (s : State) (b : Byte) : (s.emit b).inp = s.inp := rfl
@[simp] theorem State.emit_inPos (s : State) (b : Byte) : (s.emit b).inPos = s.inPos := rfl
@[simp] theorem State.emit_bitPos (s : State) (b : Byte) : (s.emit b).bitPos = s.bitPos := rfl
@[simp] theorem State.emit_out (s : State) (b : Byte) : (s.emit b).out = s.out ++ [b] := rfl
@[simp] theorem State.emit_acc (s : State) (b : Byte) : (s.emit b).acc = s.acc := rfl
@[simp] theorem State.emit_nbits (s : State) (b : Byte) : (s.emit b).nbits = s.nbits := rfl

/-! ## rewind -/

@[simp] theorem State.rewind_cfg (s : State) : (s.rewind).cfg = s.cfg := rfl
@[simp] theorem State.rewind_host (s : State) : (s.rewind).host = s.host := rfl
@[simp] theorem State.rewind_force (s : State) : (s.rewind).force = s.force := rfl
@[simp] theorem State.rewind_tailskip (s : State) : (s.rewind).tailskip = s.tailskip := rfl
@[simp] theorem State.rewind_phase (s : State) : (s.rewind).phase = s.phase := rfl
@[simp] theorem State.rewind_err (s : State) : (s.rewind).err = s.err := rfl
@[simp] theorem State.rewind_errinfo (s : State) : (s.rewind).errinfo = s.errinfo := rfl
@[simp] theorem State.rewind_degen (s : State) : (s.rewind).degen = s.degen := rfl
@[simp] theorem State.rewind_notSmaller (s : State) : (s.rewind).notSmaller = s.notSmaller := rfl
@[simp] theorem State.rewind_outFinal (s : State) : (s.rewind).outFinal = s.outFinal := rfl
@[simp] theorem State.rewind_padcnt (s : State) : (s.rewind).padcnt = s.padcnt := rfl
@[simp] theorem State.rewind_freq (s : State) : (s.rewind).freq = s.freq := rfl
@[simp] theorem State.rewind_total (s : State) : (s.rewind).total = s.total := rfl
@[simp] theorem State.rewind_nsym (s : State) : (s.rewind).nsym = s.nsym := rfl
@[simp] theorem State.rewind_node (s : State) : (s.rewind).node = s.node := rfl
@[simp] theorem State.rewind_nnodes (s : State) : (s.rewind).nnodes = s.nnodes := rfl
@[simp] theorem State.rewind_head (s : State) : (s.rewind).head = s.head := rfl
@[simp] theorem State.rewind_nlist (s : State) : (s.rewind).nlist = s.nlist := rfl
@[simp] theorem State.rewind_root (s : State) : (s.rewind).root = s.root := rfl
@[simp] theorem State.rewind_code (s : State) : (s.rewind).code = s.code := rfl
@[simp] theorem State.rewind_treebits (s : State) : (s.rewind).treebits = s.treebits := rfl
@[simp] theorem State.rewind_paybits (s : State) : (s.rewind).paybits = s.paybits := rfl
@[simp] theorem State.rewind_estbits (s : State) : (s.rewind).estbits = s.estbits := rfl
@[simp] theorem State.rewind_uncbits (s : State) : (s.rewind).uncbits = s.uncbits := rfl
@[simp] theorem State.rewind_inp (s : State) : (s.rewind).inp = s.inp := rfl
@[simp] theorem State.rewind_inPos (s : State) : (s.rewind).inPos = 0 := rfl
@[simp] theorem State.rewind_bitPos (s : State) : (s.rewind).bitPos = s.bitPos := rfl
@[simp] theorem State.rewind_out (s : State) : (s.rewind).out = s.out := rfl
@[simp] theorem State.rewind_acc (s : State) : (s.rewind).acc = s.acc := rfl
@[simp] theorem State.rewind_nbits (s : State) : (s.rewind).nbits = s.nbits := rfl

/-! ## putNode -/

@[simp] theorem State.putNode_cfg (s : State) (h : Handle) (e : NodeEntry) : (s.putNode h e).cfg = s.cfg := rfl
@[simp] theorem State.putNode_host (s : State) (h : Handle) (e : NodeEntry) : (s.putNode h e).host = s.host := rfl
@[simp] theorem State.putNode_force (s : State) (h : Handle) (e : NodeEntry) : (s.putNode h e).force = s.force := rfl
@[simp] theorem State.putNode_tailskip (s : State) (h : Handle) (e : NodeEntry) : (s.putNode h e).tailskip = s.tailskip := rfl
@[simp] theorem State.putNode_phase (s : State) (h : Handle) (e : NodeEntry) : (s.putNode h e).phase = s.phase := rfl
@[simp] theorem State.putNode_err (s : State) (h : Handle) (e : NodeEntry) : (s.putNode h e).err = s.err := rfl
@[simp] theorem State.putNode_errinfo (s : State) (h : Handle) (e : NodeEntry) : (s.putNode h e).errinfo = s.errinfo := rfl
@[simp] theorem State.putNode_degen (s : State) (h : Handle) (e : NodeEntry) : (s.putNode h e).degen = s.degen := rfl
@[simp] theorem State.putNode_notSmaller (s : State) (h : Handle) (e : NodeEntry) : (s.putNode h e).notSmaller = s.notSmaller := rfl
@[simp] theorem State.putNode_outFinal (s : State) (h : Handle) (e : NodeEntry) : (s.putNode h e).outFinal = s.outFinal := rfl
@[simp] theorem State.putNode_padcnt (s : State) (h : Handle) (e : NodeEntry) : (s.putNode h e).padcnt = s.padcnt := rfl
@[simp] theorem State.putNode_freq (s : State) (h : Handle) (e : NodeEntry) : (s.putNode h e).freq = s.freq := rfl
@[simp] theorem State.putNode_total (s : State) (h : Handle) (e : NodeEntry) : (s.putNode h e).total = s.total := rfl
@[simp] theorem State.putNode_nsym (s : State) (h : Handle) (e : NodeEntry) : (s.putNode h e).nsym = s.nsym := rfl
@[simp] theorem State.putNode_node (s : State) (h : Handle) (e : NodeEntry) : (s.putNode h e).node = s.node.write h.toNat e := rfl
@[simp] theorem State.putNode_nnodes (s : State) (h : Handle) (e : NodeEntry) : (s.putNode h e).nnodes = s.nnodes := rfl
@[simp] theorem State.putNode_head (s : State) (h : Handle) (e : NodeEntry) : (s.putNode h e).head = s.head := rfl
@[simp] theorem State.putNode_nlist (s : State) (h : Handle) (e : NodeEntry) : (s.putNode h e).nlist = s.nlist := rfl
@[simp] theorem State.putNode_root (s : State) (h : Handle) (e : NodeEntry) : (s.putNode h e).root = s.root := rfl
@[simp] theorem State.putNode_code (s : State) (h : Handle) (e : NodeEntry) : (s.putNode h e).code = s.code := rfl
@[simp] theorem State.putNode_treebits (s : State) (h : Handle) (e : NodeEntry) : (s.putNode h e).treebits = s.treebits := rfl
@[simp] theorem State.putNode_paybits (s : State) (h : Handle) (e : NodeEntry) : (s.putNode h e).paybits = s.paybits := rfl
@[simp] theorem State.putNode_estbits (s : State) (h : Handle) (e : NodeEntry) : (s.putNode h e).estbits = s.estbits := rfl
@[simp] theorem State.putNode_uncbits (s : State) (h : Handle) (e : NodeEntry) : (s.putNode h e).uncbits = s.uncbits := rfl
@[simp] theorem State.putNode_inp (s : State) (h : Handle) (e : NodeEntry) : (s.putNode h e).inp = s.inp := rfl
@[simp] theorem State.putNode_inPos (s : State) (h : Handle) (e : NodeEntry) : (s.putNode h e).inPos = s.inPos := rfl
@[simp] theorem State.putNode_bitPos (s : State) (h : Handle) (e : NodeEntry) : (s.putNode h e).bitPos = s.bitPos := rfl
@[simp] theorem State.putNode_out (s : State) (h : Handle) (e : NodeEntry) : (s.putNode h e).out = s.out := rfl
@[simp] theorem State.putNode_acc (s : State) (h : Handle) (e : NodeEntry) : (s.putNode h e).acc = s.acc := rfl
@[simp] theorem State.putNode_nbits (s : State) (h : Handle) (e : NodeEntry) : (s.putNode h e).nbits = s.nbits := rfl

/-! ## cleared -/

@[simp] theorem State.cleared_cfg (s : State) : (s.cleared).cfg = s.cfg := rfl
@[simp] theorem State.cleared_host (s : State) : (s.cleared).host = s.host := rfl
@[simp] theorem State.cleared_force (s : State) : (s.cleared).force = s.force := rfl
@[simp] theorem State.cleared_tailskip (s : State) : (s.cleared).tailskip = s.tailskip := rfl
@[simp] theorem State.cleared_phase (s : State) : (s.cleared).phase = .idle := rfl
@[simp] theorem State.cleared_err (s : State) : (s.cleared).err = .none := rfl
@[simp] theorem State.cleared_errinfo (s : State) : (s.cleared).errinfo = 0 := rfl
@[simp] theorem State.cleared_degen (s : State) : (s.cleared).degen = false := rfl
@[simp] theorem State.cleared_notSmaller (s : State) : (s.cleared).notSmaller = false := rfl
@[simp] theorem State.cleared_outFinal (s : State) : (s.cleared).outFinal = false := rfl
@[simp] theorem State.cleared_padcnt (s : State) : (s.cleared).padcnt = 0 := rfl
@[simp] theorem State.cleared_freq (s : State) : (s.cleared).freq = Vector.replicate 256 0 := rfl
@[simp] theorem State.cleared_total (s : State) : (s.cleared).total = 0 := rfl
@[simp] theorem State.cleared_nsym (s : State) : (s.cleared).nsym = 0 := rfl
@[simp] theorem State.cleared_node (s : State) : (s.cleared).node = s.node := rfl
@[simp] theorem State.cleared_nnodes (s : State) : (s.cleared).nnodes = 0 := rfl
@[simp] theorem State.cleared_head (s : State) : (s.cleared).head = Config.nil := rfl
@[simp] theorem State.cleared_nlist (s : State) : (s.cleared).nlist = 0 := rfl
@[simp] theorem State.cleared_root (s : State) : (s.cleared).root = Config.nil := rfl
@[simp] theorem State.cleared_code (s : State) : (s.cleared).code = Vector.replicate 256 [] := rfl
@[simp] theorem State.cleared_treebits (s : State) : (s.cleared).treebits = 0 := rfl
@[simp] theorem State.cleared_paybits (s : State) : (s.cleared).paybits = 0 := rfl
@[simp] theorem State.cleared_estbits (s : State) : (s.cleared).estbits = 0 := rfl
@[simp] theorem State.cleared_uncbits (s : State) : (s.cleared).uncbits = 0 := rfl
@[simp] theorem State.cleared_inp (s : State) : (s.cleared).inp = s.inp := rfl
@[simp] theorem State.cleared_inPos (s : State) : (s.cleared).inPos = 0 := rfl
@[simp] theorem State.cleared_bitPos (s : State) : (s.cleared).bitPos = 0 := rfl
@[simp] theorem State.cleared_out (s : State) : (s.cleared).out = [] := rfl
@[simp] theorem State.cleared_acc (s : State) : (s.cleared).acc = 0 := rfl
@[simp] theorem State.cleared_nbits (s : State) : (s.cleared).nbits = 0 := rfl

/-! ## assertReset -/

@[simp] theorem State.assertReset_cfg (s : State) : (s.assertReset).cfg = s.cfg := rfl
@[simp] theorem State.assertReset_host (s : State) : (s.assertReset).host = s.host := rfl
@[simp] theorem State.assertReset_force (s : State) : (s.assertReset).force = State.reset.force := rfl
@[simp] theorem State.assertReset_tailskip (s : State) : (s.assertReset).tailskip = State.reset.tailskip := rfl
@[simp] theorem State.assertReset_phase (s : State) : (s.assertReset).phase = State.reset.phase := rfl
@[simp] theorem State.assertReset_err (s : State) : (s.assertReset).err = State.reset.err := rfl
@[simp] theorem State.assertReset_errinfo (s : State) : (s.assertReset).errinfo = State.reset.errinfo := rfl
@[simp] theorem State.assertReset_degen (s : State) : (s.assertReset).degen = State.reset.degen := rfl
@[simp] theorem State.assertReset_notSmaller (s : State) : (s.assertReset).notSmaller = State.reset.notSmaller := rfl
@[simp] theorem State.assertReset_outFinal (s : State) : (s.assertReset).outFinal = State.reset.outFinal := rfl
@[simp] theorem State.assertReset_padcnt (s : State) : (s.assertReset).padcnt = State.reset.padcnt := rfl
@[simp] theorem State.assertReset_freq (s : State) : (s.assertReset).freq = State.reset.freq := rfl
@[simp] theorem State.assertReset_total (s : State) : (s.assertReset).total = State.reset.total := rfl
@[simp] theorem State.assertReset_nsym (s : State) : (s.assertReset).nsym = State.reset.nsym := rfl
@[simp] theorem State.assertReset_node (s : State) : (s.assertReset).node = State.reset.node := rfl
@[simp] theorem State.assertReset_nnodes (s : State) : (s.assertReset).nnodes = State.reset.nnodes := rfl
@[simp] theorem State.assertReset_head (s : State) : (s.assertReset).head = State.reset.head := rfl
@[simp] theorem State.assertReset_nlist (s : State) : (s.assertReset).nlist = State.reset.nlist := rfl
@[simp] theorem State.assertReset_root (s : State) : (s.assertReset).root = State.reset.root := rfl
@[simp] theorem State.assertReset_code (s : State) : (s.assertReset).code = State.reset.code := rfl
@[simp] theorem State.assertReset_treebits (s : State) : (s.assertReset).treebits = State.reset.treebits := rfl
@[simp] theorem State.assertReset_paybits (s : State) : (s.assertReset).paybits = State.reset.paybits := rfl
@[simp] theorem State.assertReset_estbits (s : State) : (s.assertReset).estbits = State.reset.estbits := rfl
@[simp] theorem State.assertReset_uncbits (s : State) : (s.assertReset).uncbits = State.reset.uncbits := rfl
@[simp] theorem State.assertReset_inp (s : State) : (s.assertReset).inp = s.inp := rfl
@[simp] theorem State.assertReset_inPos (s : State) : (s.assertReset).inPos = State.reset.inPos := rfl
@[simp] theorem State.assertReset_bitPos (s : State) : (s.assertReset).bitPos = State.reset.bitPos := rfl
@[simp] theorem State.assertReset_out (s : State) : (s.assertReset).out = State.reset.out := rfl
@[simp] theorem State.assertReset_acc (s : State) : (s.assertReset).acc = State.reset.acc := rfl
@[simp] theorem State.assertReset_nbits (s : State) : (s.assertReset).nbits = State.reset.nbits := rfl

end Sys2Proof.Machine
end

