-- ==== Sys2Proof/Laws/Flow.lean ====
section
/-! SUPPORT. Sequencing: what `Flow.bind`, `Flow.toOutcome` and `command` can answer, said once. -/

namespace Sys2Proof.Machine

open Sys2Proof

@[simp] theorem Flow.bind_go {α β : Type} (a : α) (s : State) (k : α → State → Flow β) : (Flow.go a s).bind k = k a s := rfl
@[simp] theorem Flow.bind_ended {α β : Type} (s : State) (k : α → State → Flow β) : (Flow.ended s : Flow α).bind k = .ended s := rfl
@[simp] theorem Flow.bind_stuck {α β : Type} (f : Fault) (k : α → State → Flow β) : (Flow.stuck f : Flow α).bind k = .stuck f := rfl
@[simp] theorem Flow.toOutcome_go {α : Type} (a : α) (s : State) : (Flow.go a s).toOutcome = .next s := rfl
@[simp] theorem Flow.toOutcome_ended {α : Type} (s : State) : (Flow.ended s : Flow α).toOutcome = .next s := rfl
@[simp] theorem Flow.toOutcome_stuck {α : Type} (f : Fault) : (Flow.stuck f : Flow α).toOutcome = .fault f := rfl

theorem Flow.bind_assoc {α β γ : Type} (x : Flow α) (k : α → State → Flow β) (l : β → State → Flow γ) :
    (x.bind k).bind l = x.bind fun a s => (k a s).bind l := by
  cases x <;> rfl

/-- A sequence goes on only if its first part does. -/
theorem Flow.bind_eq_go {α β : Type} {x : Flow α} {k : α → State → Flow β} {b : β} {t : State} :
    x.bind k = .go b t ↔ ∃ a s, x = .go a s ∧ k a s = .go b t := by
  cases x <;> simp [Flow.bind]

/-- A sequence ends the command where its first part does, or where what follows does. -/
theorem Flow.bind_eq_ended {α β : Type} {x : Flow α} {k : α → State → Flow β} {t : State} :
    x.bind k = .ended t ↔ x = .ended t ∨ ∃ a s, x = .go a s ∧ k a s = .ended t := by
  cases x <;> simp [Flow.bind]

/-- A sequence is stuck where its first part is, or where what follows is. -/
theorem Flow.bind_eq_stuck {α β : Type} {x : Flow α} {k : α → State → Flow β} {f : Fault} :
    x.bind k = .stuck f ↔ x = .stuck f ∨ ∃ a s, x = .go a s ∧ k a s = .stuck f := by
  cases x <;> simp [Flow.bind]

/-- The next state of a whole command is the one its pseudocode went on or ended with. -/
theorem Flow.toOutcome_eq_next {x : Flow Unit} {t : State} : x.toOutcome = .next t ↔ x = .go () t ∨ x = .ended t := by
  cases x <;> simp [Flow.toOutcome]

theorem Flow.toOutcome_eq_fault {x : Flow Unit} {f : Fault} : x.toOutcome = .fault f ↔ x = .stuck f := by
  cases x <;> simp [Flow.toOutcome]

theorem Flow.toOutcome_ne_refused {x : Flow Unit} {r : Refusal} : x.toOutcome ≠ .refused r := by
  cases x <;> simp [Flow.toOutcome]

/-- A property of states that the first part gives and what follows keeps holds of every state a sequence comes to. -/
theorem Flow.bind_next {α β : Type} {x : Flow α} {k : α → State → Flow β} {t : State}
    (h : (x.bind k).toOutcome = .next t) :
    x = .ended t ∨ ∃ a s, x = .go a s ∧ (k a s).toOutcome = .next t := by
  cases x with
  | go a s => exact .inr ⟨a, s, rfl, h⟩
  | ended s => exact .inl (by simpa using h)
  | stuck f => simp at h

/-- How a command is taken (R150 steps 1 and 3): dropped, rejected with ERR_SEQUENCE, or run. -/
theorem command_cases (i : Instr) (legal : State → Bool) (body : State → Flow Unit) (s : State) :
    (s.phase = .fault ∧ command i legal body s = .next s) ∨
    (s.phase ≠ .fault ∧ legal s = false ∧
      command i legal body s = .next (s.raise .sequence (wordInfo (encode i) s.phase))) ∨
    (s.phase ≠ .fault ∧ legal s = true ∧ command i legal body s = (body s).toOutcome) := by
  by_cases hf : s.phase = .fault
  · exact .inl ⟨hf, by simp [command, hf]⟩
  · cases hl : legal s with
    | false => exact .inr (.inl ⟨hf, rfl, by simp [command, hf, hl]⟩)
    | true => exact .inr (.inr ⟨hf, rfl, by simp [command, hf, hl]⟩)

/-- A command that is legal runs its pseudocode. -/
theorem command_legal {i : Instr} {legal : State → Bool} {body : State → Flow Unit} {s : State}
    (hf : s.phase ≠ .fault) (hl : legal s = true) : command i legal body s = (body s).toOutcome := by
  simp [command, hf, hl]

@[simp] theorem inPhases_iff (ps : List Phase) (s : State) : inPhases ps s = true ↔ s.phase ∈ ps := by
  simp [inPhases]

end Sys2Proof.Machine
end

