-- ==== Sys2Proof/Laws/Memory.lean ====
section
/-! SUPPORT. The NODE memory: read after write, and that every operation keeps the canonical form. -/

namespace Sys2Proof.Machine

open Sys2Proof

@[simp] theorem Memory.read_nil (k : Nat) : Memory.read [] k = none := rfl

/-- A read after a write to the same handle gives the entry written. -/
@[simp] theorem Memory.read_write_same (m : Memory) (k : Nat) (e : NodeEntry) : (m.write k e).read k = some e := by
  induction m with
  | nil => simp [Memory.write, Memory.read]
  | cons p m ih =>
    obtain ⟨k', e'⟩ := p
    simp only [Memory.write]
    split
    · simp [Memory.read]
    · split
      · simp [Memory.read]
      · simp [Memory.read, *]

/-- A write leaves every other handle alone. -/
theorem Memory.read_write_other (m : Memory) {k j : Nat} (e : NodeEntry) (h : j ≠ k) : (m.write k e).read j = m.read j := by
  induction m with
  | nil => simp [Memory.write, Memory.read, h]
  | cons p m ih =>
    obtain ⟨k', e'⟩ := p
    simp only [Memory.write]
    split
    · simp [Memory.read, h]
    · split
      · rename_i hk
        subst hk
        simp [Memory.read, h]
      · simp [Memory.read, ih]

/-- Read after write, both cases. -/
theorem Memory.read_write (m : Memory) (k j : Nat) (e : NodeEntry) :
    (m.write k e).read j = if j = k then some e else m.read j := by
  split
  · subst_vars
    simp
  · exact m.read_write_other e ‹_›

/-- Handles listed in a canonical memory are below NODE_CAP, and not below the bound they rise from. -/
theorem Memory.read_bounds {m : Memory} {lo k : Nat} {e : NodeEntry} (h : Memory.wfFrom lo m = true)
    (hr : m.read k = some e) : lo ≤ k ∧ k < Config.nodeCap := by
  induction m generalizing lo with
  | nil => simp at hr
  | cons p m ih =>
    obtain ⟨k', e'⟩ := p
    simp only [Memory.wfFrom, Bool.and_eq_true, decide_eq_true_eq] at h
    simp only [Memory.read] at hr
    split at hr
    · subst_vars
      exact h.1
    · have := ih h.2 hr
      omega

theorem Memory.wfFrom_write {m : Memory} {lo k : Nat} (e : NodeEntry) (h : Memory.wfFrom lo m = true) (hlo : lo ≤ k)
    (hk : k < Config.nodeCap) : Memory.wfFrom lo (m.write k e) = true := by
  induction m generalizing lo with
  | nil => simp [Memory.write, Memory.wfFrom, hlo, hk]
  | cons p m ih =>
    obtain ⟨k', e'⟩ := p
    simp only [Memory.wfFrom, Bool.and_eq_true, decide_eq_true_eq] at h
    simp only [Memory.write]
    split
    · simp only [Memory.wfFrom, Bool.and_eq_true, decide_eq_true_eq]
      exact ⟨⟨hlo, hk⟩, ⟨by omega, h.1.2⟩, h.2⟩
    · split
      · simp only [Memory.wfFrom, Bool.and_eq_true, decide_eq_true_eq]
        exact ⟨⟨hlo, hk⟩, by simp [*]⟩
      · simp only [Memory.wfFrom, Bool.and_eq_true, decide_eq_true_eq]
        exact ⟨h.1, ih h.2 (by omega)⟩

/-- A write of an existing handle keeps the canonical form. -/
theorem Memory.wf_write {m : Memory} {k : Nat} (e : NodeEntry) (h : m.wf = true) (hk : k < Config.nodeCap) :
    (m.write k e).wf = true := Memory.wfFrom_write e h (Nat.zero_le k) hk

/-- Reset's memory has the canonical form. -/
theorem Memory.wf_reset : State.reset.node.wf = true := rfl

/-! ## Reads and writes of entries by a command -/

theorem State.readNode_eq_some {s : State} {h : Handle} {e : NodeEntry} :
    s.readNode h = some e ↔ h.toNat < s.nnodes ∧ s.node.read h.toNat = some e := by
  simp [State.readNode]

/-- A command's read goes on with the entry and the state unchanged, or is stuck where there is none. -/
theorem State.needNode_cases (s : State) (h : Handle) :
    (∃ e, s.readNode h = some e ∧ s.needNode h = .go e s) ∨
    (s.readNode h = none ∧ s.needNode h = .stuck (.unallocatedNode h)) := by
  cases hr : s.readNode h with
  | none => exact .inr ⟨rfl, by simp [State.needNode, hr]⟩
  | some e => exact .inl ⟨e, rfl, by simp [State.needNode, hr]⟩

theorem State.needNode_some {s : State} {h : Handle} {e : NodeEntry} (hr : s.readNode h = some e) :
    s.needNode h = .go e s := by
  simp [State.needNode, hr]

theorem State.needNode_eq_go {s t : State} {h : Handle} {e : NodeEntry} :
    s.needNode h = .go e t ↔ s.readNode h = some e ∧ t = s := by
  cases hr : s.readNode h <;> simp [State.needNode, hr, eq_comm]

theorem State.needNode_ne_ended {s t : State} {h : Handle} : s.needNode h ≠ .ended t := by
  cases hr : s.readNode h <;> simp [State.needNode, hr]

/-- A handle is taken while there is one (R19, R20). -/
theorem State.takeHandle_eq_go {s t : State} {n : Handle} :
    s.takeHandle = .go n t ↔
      s.nnodes < Config.nodeCap ∧ n = BitVec.ofNat 9 s.nnodes ∧ t = { s with nnodes := s.nnodes + 1 } := by
  by_cases h : s.nnodes < Config.nodeCap
  · simp [State.takeHandle, h, eq_comm]
  · simp [State.takeHandle, h]

theorem State.takeHandle_ne_ended {s t : State} : s.takeHandle ≠ .ended t := by
  unfold State.takeHandle
  split <;> simp

/-- The handle taken is the number of the entry taken. -/
theorem handle_toNat {n : Nat} (h : n < Config.nodeCap) : (BitVec.ofNat 9 n).toNat = n := by
  have : n < 511 := h
  simp only [BitVec.toNat_ofNat]
  omega

/-- A change of an entry goes on exactly when the entry holds a value, and writes that entry only. -/
theorem State.changeNode_eq_go {s t : State} {h : Handle} {f : NodeEntry → NodeEntry} :
    s.changeNode h f = .go () t ↔ ∃ e, s.readNode h = some e ∧ t = s.putNode h (f e) := by
  cases hr : s.readNode h <;> simp [State.changeNode, State.needNode, hr, eq_comm]

theorem State.changeNode_ne_ended {s t : State} {h : Handle} {f : NodeEntry → NodeEntry} : s.changeNode h f ≠ .ended t := by
  cases hr : s.readNode h <;> simp [State.changeNode, State.needNode, hr]

/-- Writing an entry keeps the canonical form when the handle is that of an entry. -/
theorem State.putNode_wf {s : State} {h : Handle} (e : NodeEntry) (hw : s.node.wf = true) (hh : h.toNat < Config.nodeCap) :
    (s.putNode h e).node.wf = true := Memory.wf_write e hw hh

/-- Changing an entry keeps the canonical form. -/
theorem State.changeNode_wf {s t : State} {h : Handle} {f : NodeEntry → NodeEntry} (hw : s.node.wf = true)
    (hc : s.changeNode h f = .go () t) : t.node.wf = true := by
  obtain ⟨e, he, rfl⟩ := State.changeNode_eq_go.mp hc
  exact State.putNode_wf _ hw (Memory.read_bounds hw (State.readNode_eq_some.mp he).2).2

theorem State.readNode_putNode (s : State) (h j : Handle) (e : NodeEntry) :
    (s.putNode h e).readNode j = if j = h ∧ j.toNat < s.nnodes then some e else s.readNode j := by
  by_cases hn : j.toNat < s.nnodes
  · by_cases hj : j = h
    · subst hj
      simp [State.readNode, hn]
    · have : j.toNat ≠ h.toNat := fun hc => hj (BitVec.eq_of_toNat_eq hc)
      simp [State.readNode, hn, hj, Memory.read_write_other _ _ this]
  · simp [State.readNode, hn]

end Sys2Proof.Machine
end

