-- ==== Sys2Proof/Laws/Lists.lean ====
section
/-! SUPPORT. The sorted merge list: where the scan of LIST and MERGE stops, and what an insertion leaves alone. -/

namespace Sys2Proof.Machine

open Sys2Proof

/-- A command's walk along a list that ends reads entries only. -/
theorem State.chainAt_succ (s : State) (fuel : Nat) (h : Handle) :
    s.chainAt (fuel + 1) h =
      if h = Config.nil then some [] else (s.readNode h).bind fun e => (s.chainAt fuel e.next).map (h :: ·) := by
  cases hr : s.readNode h <;> simp [State.chainAt, hr]

/-- The scan (R84, R90) along a list that ends: it passes the nodes `pass` accepts and stops at the first it does not, giving
that node (NIL where there is none) and the last one passed; it changes nothing. -/
theorem State.findSlot_chain {s : State} (pass : Nat → Bool) {fuel : Nat} {prev cur : Handle} {hs : List Handle}
    (h : s.chainAt fuel cur = some hs) :
    s.findSlot pass fuel prev cur =
      .go ((hs.takeWhile fun n => pass (s.weightAt n)).getLast?.getD prev,
        (hs.dropWhile fun n => pass (s.weightAt n)).head?.getD Config.nil) s := by
  induction fuel generalizing prev cur hs with
  | zero => simp [State.chainAt] at h
  | succ fuel ih =>
    rw [State.chainAt_succ] at h
    split at h
    · rename_i hc
      obtain rfl : [] = hs := by simpa using h
      simp [State.findSlot, hc]
    · rename_i hc
      cases hr : s.readNode cur with
      | none => simp [hr] at h
      | some e =>
        simp only [hr, Option.bind_some] at h
        obtain ⟨tl, ht, rfl⟩ := Option.map_eq_some_iff.mp h
        have hw : s.weightAt cur = e.weight := by simp [State.weightAt, hr]
        simp only [State.findSlot, hc, if_false, State.needNode_some hr, Flow.bind_go]
        cases hp : pass e.weight with
        | false => simp [hw, hp]
        | true =>
          rw [if_pos rfl, ih ht]
          simp [hw, hp, List.getLast?_cons]

/-- The scan changes no state, whatever it comes to. -/
theorem State.findSlot_eq_go {s t : State} {pass : Nat → Bool} {fuel : Nat} {prev cur : Handle} {r : Handle × Handle}
    (h : s.findSlot pass fuel prev cur = .go r t) : t = s := by
  induction fuel generalizing prev cur with
  | zero => simp [State.findSlot] at h
  | succ fuel ih =>
    unfold State.findSlot at h
    split at h
    · simp only [Flow.go.injEq] at h
      exact h.2.symm
    · obtain ⟨e, u, he, hk⟩ := Flow.bind_eq_go.mp h
      obtain ⟨-, rfl⟩ := State.needNode_eq_go.mp he
      split at hk
      · exact ih hk
      · simp only [Flow.go.injEq] at hk
        exact hk.2.symm

/-- The scan never ends a command. -/
theorem State.findSlot_ne_ended {s t : State} {pass : Nat → Bool} {fuel : Nat} {prev cur : Handle} :
    s.findSlot pass fuel prev cur ≠ .ended t := by
  induction fuel generalizing prev cur with
  | zero => simp [State.findSlot]
  | succ fuel ih =>
    intro h
    unfold State.findSlot at h
    split at h
    · simp at h
    · obtain he | ⟨e, u, he, hk⟩ := Flow.bind_eq_ended.mp h
      · exact State.needNode_ne_ended he
      · obtain ⟨-, rfl⟩ := State.needNode_eq_go.mp he
        split at hk
        · exact ih hk
        · simp at hk

/-- An entry but for its NEXT link. -/
def NodeEntry.unlinked (e : NodeEntry) : NodeEntry := { e with next := Config.nil }

/-- `NODE[h].NEXT <- v` changes one NEXT link and nothing else. -/
theorem State.setNext_frame {s t : State} {h v : Handle} (hg : s.setNext h v = .go () t) :
    t = { s with node := t.node } ∧ (s.node.wf = true → t.node.wf = true) ∧
    (∀ n, n ≠ h.toNat → t.node.read n = s.node.read n) ∧
    ∀ n, (t.node.read n).map NodeEntry.unlinked = (s.node.read n).map NodeEntry.unlinked := by
  obtain ⟨e, he, rfl⟩ := State.changeNode_eq_go.mp hg
  refine ⟨rfl, fun hw => State.changeNode_wf hw hg, fun n hn => Memory.read_write_other _ _ hn, fun n => ?_⟩
  have he' := (State.readNode_eq_some.mp he).2
  simp only [State.putNode, Memory.read_write]
  split
  · subst_vars
    simp [he', NodeEntry.unlinked]
  · rfl

/-- An insertion changes HEAD and NEXT links and nothing else. -/
theorem State.insertSorted_frame {s t : State} {n : Handle} {pass : Nat → Bool} (h : s.insertSorted n pass = .go () t) :
    t = { s with node := t.node, head := t.head } ∧ (s.node.wf = true → t.node.wf = true) ∧
    ∀ k, (t.node.read k).map NodeEntry.unlinked = (s.node.read k).map NodeEntry.unlinked := by
  obtain ⟨⟨prev, cur⟩, s1, hf, hk⟩ := Flow.bind_eq_go.mp h
  obtain rfl := State.findSlot_eq_go hf
  obtain ⟨⟨⟩, s2, hs, hk⟩ := Flow.bind_eq_go.mp hk
  obtain ⟨-, w2, -, r2⟩ := State.setNext_frame hs
  obtain ⟨e2, -, rfl⟩ := State.changeNode_eq_go.mp hs
  split at hk
  · simp only [Flow.go.injEq, true_and] at hk
    subst hk
    exact ⟨rfl, w2, r2⟩
  · obtain ⟨-, w3, -, r3⟩ := State.setNext_frame hk
    obtain ⟨e3, -, rfl⟩ := State.changeNode_eq_go.mp hk
    exact ⟨rfl, fun hw => w3 (w2 hw), fun k => (r3 k).trans (r2 k)⟩

/-- An insertion never ends a command. -/
theorem State.insertSorted_ne_ended {s t : State} {n : Handle} {pass : Nat → Bool} : s.insertSorted n pass ≠ .ended t := by
  intro h
  obtain he | ⟨⟨prev, cur⟩, s1, hf, hk⟩ := Flow.bind_eq_ended.mp h
  · exact State.findSlot_ne_ended he
  · obtain he | ⟨⟨⟩, s2, hs, hk⟩ := Flow.bind_eq_ended.mp hk
    · exact State.changeNode_ne_ended he
    · split at hk
      · simp at hk
      · exact State.changeNode_ne_ended hk

end Sys2Proof.Machine
end

