-- ==== Sys2Proof/Laws/PerInstr.lean ====
section
/-! SUPPORT. The statements made for every command as syntax, one lemma per constructor. -/

namespace Sys2Proof.Laws

/-- `match / mask` of a command's row, as 30_encoding.md R62 prints them. -/
def tableRow : Instr → Word × Word
  | .clr => (0x0000#16, 0xFFFF#16)
  | .ctl _ => (0x0100#16, 0xFFF0#16)
  | .cnt _ => (0x1000#16, 0xFF00#16)
  | .freq => (0x1100#16, 0xFFFF#16)
  | .list => (0x1200#16, 0xFFFF#16)
  | .merge => (0x2000#16, 0xFFFF#16)
  | .tree => (0x2100#16, 0xFFFF#16)
  | .codes => (0x3000#16, 0xFFFF#16)
  | .check => (0x3100#16, 0xFFFF#16)
  | .hdr => (0x4000#16, 0xFFFF#16)
  | .stree => (0x4100#16, 0xFFFF#16)
  | .enc _ => (0x4200#16, 0xFF00#16)
  | .payload => (0x4300#16, 0xFFFF#16)
  | .flush => (0x4400#16, 0xFFFF#16)
  | .comp => (0x4F00#16, 0xFFFF#16)
  | .dhdr => (0x5000#16, 0xFFFF#16)
  | .dtree => (0x5100#16, 0xFFFF#16)
  | .dsym => (0x5200#16, 0xFFFF#16)
  | .dpayload => (0x5300#16, 0xFFFF#16)
  | .decomp => (0x5F00#16, 0xFFFF#16)

namespace RowHit

/-- The word of a well-formed command hits the row the opcode map prints for it: `(w and mask) = match` (R62). -/
def Statement (i : Instr) : Prop := i.wellFormed = true → encode i &&& (tableRow i).2 = (tableRow i).1

theorem clr : Statement .clr := by unfold Statement; decide
theorem ctl (opd : Byte) : Statement (.ctl opd) := by unfold Statement; revert opd; decide
theorem cnt (sym : Byte) : Statement (.cnt sym) := by unfold Statement; revert sym; decide
theorem freq : Statement .freq := by unfold Statement; decide
theorem list : Statement .list := by unfold Statement; decide
theorem merge : Statement .merge := by unfold Statement; decide
theorem tree : Statement .tree := by unfold Statement; decide
theorem codes : Statement .codes := by unfold Statement; decide
theorem check : Statement .check := by unfold Statement; decide
theorem hdr : Statement .hdr := by unfold Statement; decide
theorem stree : Statement .stree := by unfold Statement; decide
theorem enc (sym : Byte) : Statement (.enc sym) := by unfold Statement; revert sym; decide
theorem payload : Statement .payload := by unfold Statement; decide
theorem flush : Statement .flush := by unfold Statement; decide
theorem comp : Statement .comp := by unfold Statement; decide
theorem dhdr : Statement .dhdr := by unfold Statement; decide
theorem dtree : Statement .dtree := by unfold Statement; decide
theorem dsym : Statement .dsym := by unfold Statement; decide
theorem dpayload : Statement .dpayload := by unfold Statement; decide
theorem decomp : Statement .decomp := by unfold Statement; decide

end RowHit

end Sys2Proof.Laws
end

