-- ==== Sys2Proof/Laws/Safety.lean ====
section
/-! SUPPORT. The invariant as a test that can be run, and that a state which passes it meets the invariant. -/

namespace Sys2Proof.Safety

open Sys2Proof Sys2Proof.Machine

/-- Everything a reset state has is in order. -/
theorem cleared_reset : State.reset.cleared = State.reset := rfl

/-- `EveryNode` as a test. -/
def everyNodeCheck (s : State) (P : Nat → NodeEntry → Bool) : Bool :=
  (List.range s.nnodes).all fun n =>
    match s.node.read n with
    | some e => P n e
    | none => false

theorem everyNode_of_check {s : State} {P : Nat → NodeEntry → Bool} {Q : Nat → NodeEntry → Prop}
    (h : everyNodeCheck s P = true) (hq : ∀ n e, P n e = true → Q n e) : EveryNode s Q := by
  intro n hn
  have h1 := List.all_eq_true.mp h n (List.mem_range.mpr hn)
  cases hr : s.node.read n with
  | none => simp [hr] at h1
  | some e => exact ⟨e, rfl, hq n e (by simpa [hr] using h1)⟩

theorem EveryNode.mono {s : State} {P Q : Nat → NodeEntry → Prop} (h : EveryNode s P) (hq : ∀ n e, P n e → Q n e) :
    EveryNode s Q := fun n hn => let ⟨e, he, hp⟩ := h n hn; ⟨e, he, hq n e hp⟩

/-- `Tree.weighted` as a test. -/
def weightedCheck (freq : Vector Nat 256) : Tree → Bool
  | .leaf s w => decide (w = freq[symIdx s])
  | .node w l r =>
    decide (w = (l.syms.map (fun s => freq[symIdx s])).sum + (r.syms.map (fun s => freq[symIdx s])).sum) &&
      (weightedCheck freq l && weightedCheck freq r)

theorem weighted_of_check {freq : Vector Nat 256} {t : Tree} (h : weightedCheck freq t = true) : t.weighted freq := by
  induction t with
  | leaf s w => simpa [weightedCheck, Tree.weighted] using h
  | node w l r hl hr =>
    simp only [weightedCheck, Bool.and_eq_true, decide_eq_true_eq] at h
    exact ⟨h.1, hl h.2.1, hr h.2.2⟩

/-- `LeavesFirst` as a test. -/
def leavesFirstCheck (s : State) : Bool :=
  decide (s.nsym = (presentSyms s.freq).length) &&
  ((List.range s.nsym).all fun n =>
    match s.node.read n with
    | some e => e.isLeaf && decide ((presentSyms s.freq)[n]? = some e.sym)
    | none => false) &&
  everyNodeCheck s fun n e => decide (s.nsym ≤ n → e.isLeaf = false)

theorem leavesFirst_of_check {s : State} (h : leavesFirstCheck s = true) : LeavesFirst s := by
  simp only [leavesFirstCheck, Bool.and_eq_true, decide_eq_true_eq] at h
  refine ⟨h.1.1, fun n hn => ?_, everyNode_of_check h.2 fun n e hp => of_decide_eq_true hp⟩
  have h1 := List.all_eq_true.mp h.1.2 n (List.mem_range.mpr hn)
  cases hr : s.node.read n with
  | none => simp [hr] at h1
  | some e =>
    simp only [hr, Bool.and_eq_true, decide_eq_true_eq] at h1
    exact ⟨e, rfl, h1.1, h1.2⟩

/-- `TreesOk` as a test. -/
def treesCheck (s : State) (ts : List Tree) : Bool :=
  decide ((ts.flatMap Tree.syms).Perm (presentSyms s.freq)) && ts.all (weightedCheck s.freq)

theorem treesOk_of_check {s : State} {ts : List Tree} (h : treesCheck s ts = true) : TreesOk s ts := by
  simp only [treesCheck, Bool.and_eq_true, decide_eq_true_eq] at h
  exact ⟨h.1, fun t ht => weighted_of_check (List.all_eq_true.mp h.2 t ht)⟩

/-- `BuilderNode` as a test. -/
def builderNodeCheck (n : Nat) (e : NodeEntry) : Bool := e.isLeaf || decide (e.left.toNat < n ∧ e.right.toNat < n)

theorem builderNode_of_check (n : Nat) (e : NodeEntry) (h : builderNodeCheck n e = true) : BuilderNode n e := by
  simpa [builderNodeCheck, BuilderNode] using h

/-- `ListedBy` as a test, on the list and the trees the state holds. -/
def listedCheck (s : State) : Bool :=
  match s.chain?, s.list? with
  | some hs, some ts =>
    decide (hs.length = s.nlist) && (decide (1 ≤ s.nlist) && (decide (s.nnodes + s.nlist = 2 * s.nsym) &&
      (decide (s.nlist = 1 → s.head.toNat + 1 = s.nnodes) && (everyNodeCheck s builderNodeCheck && (leavesFirstCheck s &&
        (everyNodeCheck s (fun n e => decide (BitVec.ofNat 9 n ∉ hs → e.next = Config.nil)) &&
          (decide ((hs.map s.weightAt).Pairwise (· ≤ ·)) && (decide (hs ++ s.childHandles).Nodup && treesCheck s ts))))))))
  | _, _ => false

theorem listedBy_of_check {s : State} (h : listedCheck s = true) : ∃ hs ts, ListedBy s hs ts := by
  unfold listedCheck at h
  split at h
  · rename_i hs ts hc hl
    simp only [Bool.and_eq_true, decide_eq_true_eq] at h
    obtain ⟨h1, h2, h3, h4, h5, h6, h7, h8, h9, h10⟩ := h
    exact ⟨hs, ts, hc, hl, h1, h2, h3, h4, everyNode_of_check h5 builderNode_of_check, leavesFirst_of_check h6,
      everyNode_of_check h7 fun n e hp => of_decide_eq_true hp, h8, h9, treesOk_of_check h10⟩
  · simp at h

/-- `BuiltBy` as a test, on the tree the state holds. -/
def builtCheck (s : State) : Bool :=
  match s.tree? with
  | some t =>
    decide (s.root.toNat + 1 = s.nnodes) && (decide (s.nnodes + 1 = 2 * s.nsym) && (decide (s.nlist = 1) &&
      (decide (s.head = Config.nil) && (everyNodeCheck s builderNodeCheck && (leavesFirstCheck s &&
        (everyNodeCheck s (fun _ e => decide (e.next = Config.nil)) &&
          (decide (s.root :: s.childHandles).Nodup && (treesCheck s [t] && decide (s.degen = t.isLeaf)))))))))
  | none => false

theorem builtBy_of_check {s : State} (h : builtCheck s = true) : ∃ t, BuiltBy s t := by
  unfold builtCheck at h
  split at h
  · rename_i t ht
    simp only [Bool.and_eq_true, decide_eq_true_eq] at h
    obtain ⟨h1, h2, h3, h4, h5, h6, h7, h8, h9, h10⟩ := h
    exact ⟨t, ht, h1, h2, h3, h4, everyNode_of_check h5 builderNode_of_check, leavesFirst_of_check h6,
      everyNode_of_check h7 fun n e hp => by simpa using hp, h8, treesOk_of_check h9, h10⟩
  · simp at h

/-- `ReadBy` as a test, on the tree the state holds. -/
def readCheck (s : State) : Bool :=
  match s.tree? with
  | some t =>
    decide (s.root = 0#9) && (everyNodeCheck s (fun n e => e.isLeaf ||
        decide (n < e.left.toNat ∧ e.left.toNat < s.nnodes ∧ n < e.right.toNat ∧ e.right.toNat < s.nnodes)) &&
      (everyNodeCheck s (fun _ e => decide (e.next = Config.nil ∧ e.weight = 0)) &&
        (decide (s.root :: s.childHandles).Nodup && decide (s.degen = t.isLeaf))))
  | none => false

theorem readBy_of_check {s : State} (h : readCheck s = true) : ∃ t, ReadBy s t := by
  unfold readCheck at h
  split at h
  · rename_i t ht
    simp only [Bool.and_eq_true, decide_eq_true_eq] at h
    obtain ⟨h1, h2, h3, h4, h5⟩ := h
    exact ⟨t, ht, h1, everyNode_of_check h2 fun n e hp => by simpa [ReaderNode] using hp,
      everyNode_of_check h3 fun n e hp => by simpa using hp, h4, h5⟩
  · simp at h

/-- The invariant as a test, but for what IDLE asks. -/
def invCheck (s : State) : Bool :=
  decide (s.total = s.freq.toList.sum) && (decide (s.total ≤ s.cfg.maxCount) &&
    (decide (s.acc.toNat < 2 ^ s.nbits.toNat) && (s.node.wf && (decide (s.nnodes ≤ Config.nodeCap) &&
      (decide (s.phase = .fault ↔ s.err ≠ .none) && (decide (s.err = .none → s.errinfo = 0) &&
        (decide (s.phase = .listed → listedCheck s = true) && (decide (s.phase ∈ builtPhases → builtCheck s = true) &&
          decide (s.phase ∈ readPhases → readCheck s = true)))))))))

/-- A state that passes the test, and is as CLR leaves it when in IDLE, meets the invariant. -/
theorem inv_of_check {s : State} (h : invCheck s = true) (hi : s.phase = .idle → s.cleared = s) : Inv s := by
  simp only [invCheck, Bool.and_eq_true, decide_eq_true_eq] at h
  obtain ⟨h1, h2, h3, h4, h5, h6, h7, h8, h9, h10⟩ := h
  exact ⟨⟨h1, h2⟩, h3, ⟨h4, h5⟩, ⟨h6, h7⟩, hi, fun hp => listedBy_of_check (h8 hp), fun hp => builtBy_of_check (h9 hp),
    fun hp => readBy_of_check (h10 hp)⟩

/-- A state as CLR leaves it fits its widths, once what CLR keeps does: the NODE memory, IN and the parameters (R80). -/
theorem fits_of_cleared {s : State} (hc : s.cleared = s) (hw : ∀ n e, s.node.read n = some e → e.weight ≤ s.cfg.maxCount)
    (hi : 8 * s.inLen < 2 ^ 64) (hf : s.cfg.frameBytes < 2 ^ 48) : Fits s where
  freq x := by rw [← hc]; simp
  total := by rw [← hc]; simp
  weight := hw
  nsym := by rw [← hc]; simp
  nlist := by rw [← hc]; simp
  nnodes := by rw [← hc]; simp
  code x := by rw [← hc]; simp
  treebits := by rw [← hc]; simp
  paybits := by rw [← hc]; simp
  estbits := by rw [← hc]; simp
  uncbits := by rw [← hc]; simp
  input := hi
  inPos := by rw [← hc]; simp
  bitPos := by rw [← hc]; simp
  frame := hf

end Sys2Proof.Safety
end

