-- ==== Sys2Proof/Laws/Steps.lean ====
section
/-! SUPPORT. What one step can do, said once. -/

namespace Sys2Proof.Machine

open Sys2Proof

/-- Taking a word (R150): it is dropped, it is illegal, or it is run. -/
theorem takeWord_cases (w : Word) (s : State) :
    (s.phase = .fault ∧ w ≠ encode .clr ∧ takeWord w s = .next s) ∨
    (¬ (s.phase = .fault ∧ w ≠ encode .clr) ∧ (∃ r, decode w = .reject r) ∧
      takeWord w s = .next (s.raise .illegalCmd (wordInfo w s.phase))) ∨
    (¬ (s.phase = .fault ∧ w ≠ encode .clr) ∧ ∃ i, decode w = .instr i ∧ takeWord w s = exec i s) := by
  by_cases hf : s.phase = .fault ∧ w ≠ encode .clr
  · exact .inl ⟨hf.1, hf.2, by simp only [takeWord, hf, and_self, ne_eq, not_false_eq_true, if_true]⟩
  · cases hd : decode w with
    | reject r => exact .inr (.inl ⟨hf, ⟨r, rfl⟩, by simp only [takeWord, if_neg hf, hd]⟩)
    | instr i => exact .inr (.inr ⟨hf, i, rfl, by simp only [takeWord, if_neg hf, hd]⟩)

/-- What a step that answers a next state did: nothing was there to take; a word was dropped, was illegal, or was run; the
host reset the block, or bound IN. -/
theorem step_cases {s t : State} (h : step s = .next t) :
    s.cfg.valid = true ∧
    ((s.host = [] ∧ t = s) ∨
     (∃ w rest, s.host = .command w :: rest ∧ s.phase = .fault ∧ w ≠ encode .clr ∧ t = { s with host := rest }) ∨
     (∃ w rest, s.host = .command w :: rest ∧ s.phase ≠ .fault ∧ (∃ r, decode w = .reject r) ∧
       t = ({ s with host := rest } : State).raise .illegalCmd (wordInfo w s.phase)) ∨
     (∃ w rest i, s.host = .command w :: rest ∧ decode w = .instr i ∧ exec i { s with host := rest } = .next t) ∨
     (∃ rest, s.host = .reset :: rest ∧ t = ({ s with host := rest } : State).assertReset) ∨
     (∃ bytes rest, s.host = .bind bytes :: rest ∧ s.phase.betweenRuns = true ∧ inputFits bytes = true ∧
       t = { s with host := rest, inp := bytes })) := by
  unfold step at h
  split at h
  · refine ⟨‹_›, ?_⟩
    split at h
    · exact .inl ⟨‹_›, by simpa using h.symm⟩
    · rename_i a rest ha
      right
      cases a with
      | command w =>
        obtain ⟨hf, hw, ht⟩ | ⟨hf, hr, ht⟩ | ⟨hf, i, hi, ht⟩ := takeWord_cases w { s with host := rest }
        · exact .inl ⟨w, rest, ha, hf, hw, by simpa [takeAct, ht, eq_comm] using h⟩
        · refine .inr (.inl ⟨w, rest, ha, fun hp => ?_, hr, by simpa [takeAct, ht, eq_comm] using h⟩)
          obtain ⟨r, hr⟩ := hr
          by_cases hw : w = encode .clr
          · subst hw
            simp [show decode (encode .clr) = .instr .clr by decide] at hr
          · exact hf ⟨hp, hw⟩
        · exact .inr (.inr (.inl ⟨w, rest, i, ha, hi, by simpa [takeAct, ht] using h⟩))
      | reset => exact .inr (.inr (.inr (.inl ⟨rest, ha, by simpa [takeAct, eq_comm] using h⟩)))
      | bind bytes =>
        refine .inr (.inr (.inr (.inr ⟨bytes, rest, ha, ?_⟩)))
        simp only [takeAct, bindInput] at h
        split at h
        · split at h
          · exact ⟨‹_›, ‹_›, by simpa [eq_comm] using h⟩
          · simp at h
        · simp at h
  · simp at h

end Sys2Proof.Machine
end

