-- ==== Sys2Proof/Laws/Streams.lean ====
section
/-! SUPPORT. The stream primitives: what each can answer, and the bit views of OUT, the packer and IN. -/

namespace Sys2Proof.Machine

open Sys2Proof

/-! ## The byte reader -/

/-- `InByte` gives the byte at the cursor and moves the cursor, or nothing at the end (R42). -/
theorem State.inByte_eq_some {s t : State} {b : Byte} :
    s.inByte = some (b, t) ↔ s.inp[s.inPos]? = some b ∧ t = { s with inPos := s.inPos + 1 } := by
  cases h : s.inp[s.inPos]? <;> simp [State.inByte, h, eq_comm]

theorem State.inByte_eq_none {s : State} : s.inByte = none ↔ s.inp.length ≤ s.inPos := by
  cases h : s.inp[s.inPos]? with
  | none => simpa [State.inByte, h] using List.getElem?_eq_none_iff.mp h
  | some b =>
    have := (List.getElem?_eq_some_iff.mp h).1
    simp only [State.inByte, h]
    simp
    omega

/-! ## The bit unpacker -/

/-- `ReadBit` gives the bit at the cursor and moves the cursor (R45). -/
theorem State.readBit_eq_some {s t : State} {b : Bool} :
    s.readBit = some (b, t) ↔
      s.bitsLeft ≠ 0 ∧ streamBit s.inp s.bitPos = some b ∧ t = { s with bitPos := s.bitPos + 1 } := by
  by_cases h : s.bitsLeft = 0
  · simp [State.readBit, h]
  · cases hb : streamBit s.inp s.bitPos <;> simp [State.readBit, h, hb, eq_comm]

/-- The stream is exhausted exactly when no bit is left (R45). -/
theorem State.readBit_eq_none {s : State} : s.readBit = none ↔ s.bitsLeft = 0 := by
  by_cases h : s.bitsLeft = 0
  · simp [State.readBit, h]
  · have hlt : s.bitPos / 8 < s.inp.length := by
      simp only [State.bitsLeft, State.limit] at h
      omega
    simp [State.readBit, h, streamBit, List.getElem?_eq_getElem hlt]

/-- Reading a bit leaves one fewer. -/
theorem State.readBit_bitsLeft {s t : State} {b : Bool} (h : s.readBit = some (b, t)) : t.bitsLeft + 1 = s.bitsLeft := by
  obtain ⟨hl, -, rfl⟩ := State.readBit_eq_some.mp h
  simp only [State.bitsLeft, State.limit] at *
  omega

@[simp] theorem byteBits_length (v : Byte) : (byteBits v).length = 8 := rfl

theorem streamBits_nil : streamBits [] = [] := rfl

@[simp] theorem streamBits_append (a b : List Byte) : streamBits (a ++ b) = streamBits a ++ streamBits b := by
  simp [streamBits]

@[simp] theorem streamBits_singleton (b : Byte) : streamBits [b] = byteBits b := by
  simp [streamBits]

@[simp] theorem streamBits_length (bytes : List Byte) : (streamBits bytes).length = 8 * bytes.length := by
  induction bytes with
  | nil => rfl
  | cons b bs ih =>
    have : streamBits (b :: bs) = byteBits b ++ streamBits bs := rfl
    simp only [this, List.length_append, ih, byteBits_length, List.length_cons]
    omega

/-- Bit `i` of a byte, most significant first (R44). -/
theorem byteBits_getElem? (v : Byte) {i : Nat} (h : i < 8) : (byteBits v)[i]? = some (v.getLsbD (7 - i)) := by
  unfold byteBits
  match i, h with
  | 0, _ | 1, _ | 2, _ | 3, _ | 4, _ | 5, _ | 6, _ | 7, _ => rfl

/-- The bit view of a byte stream has at position `k` the bit the unpacker reads there (R7, R44). -/
theorem streamBits_getElem? (bytes : List Byte) (k : Nat) : (streamBits bytes)[k]? = streamBit bytes k := by
  induction bytes generalizing k with
  | nil => simp [streamBits, streamBit]
  | cons b bs ih =>
    have hcons : streamBits (b :: bs) = byteBits b ++ streamBits bs := rfl
    rw [hcons]
    by_cases h : k < 8
    · rw [List.getElem?_append_left (by simpa using h), byteBits_getElem? b h]
      have h0 : k / 8 = 0 := by omega
      have h1 : k % 8 = k := by omega
      simp [streamBit, h0, h1]
    · rw [List.getElem?_append_right (by simpa using h), ih]
      have h0 : k / 8 = (k - 8) / 8 + 1 := by omega
      have h1 : (k - 8) % 8 = k % 8 := by omega
      simp [streamBit, h0, h1]

/-- What `ReadBit` gives is the first of the unread bits, and the rest stay unread. -/
theorem State.readBit_unread {s t : State} {b : Bool} (h : s.readBit = some (b, t)) : s.unread = b :: t.unread := by
  obtain ⟨hl, hb, rfl⟩ := State.readBit_eq_some.mp h
  have hlim : s.bitPos < s.limit := by
    simp only [State.bitsLeft] at hl
    omega
  rw [← streamBits_getElem?] at hb
  have htake : ((streamBits s.inp).take s.limit)[s.bitPos]? = some b := by
    rw [List.getElem?_take_of_lt hlim]
    exact hb
  obtain ⟨hlt, hval⟩ := List.getElem?_eq_some_iff.mp htake
  change ((streamBits s.inp).take s.limit).drop s.bitPos = b :: ((streamBits s.inp).take s.limit).drop (s.bitPos + 1)
  rw [List.drop_eq_getElem_cons hlt, hval]

/-- `BitsLeft()` counts the unread bits. -/
theorem State.unread_length (s : State) : s.unread.length = s.bitsLeft := by
  simp only [State.unread, List.length_drop, List.length_take, streamBits_length, State.bitsLeft, State.limit]
  omega

/-- Reading `n` bits takes the `n` first unread bits, shifts them in one by one, and moves the cursor (R45). -/
theorem State.readBitsInto_eq_some {n : Nat} {v v' : Byte} {s t : State} (h : s.readBitsInto n v = some (v', t)) :
    ∃ bs : Bits, bs.length = n ∧ s.unread = bs ++ t.unread ∧ t = { s with bitPos := s.bitPos + n } ∧
      v' = bs.foldl (fun (v : Byte) (b : Bool) => v <<< 1 ||| (BitVec.ofBool b).setWidth 8) v := by
  induction n generalizing v s with
  | zero =>
    obtain ⟨rfl, rfl⟩ : v = v' ∧ s = t := by simpa [State.readBitsInto] using h
    exact ⟨[], rfl, rfl, rfl, rfl⟩
  | succ n ih =>
    simp only [State.readBitsInto] at h
    split at h
    · rename_i b u hb
      obtain ⟨bs, hl, hu, ht, hv⟩ := ih h
      have hun := State.readBit_unread hb
      obtain ⟨-, -, rfl⟩ := State.readBit_eq_some.mp hb
      refine ⟨b :: bs, by simp [hl], by rw [hun, hu]; rfl, ?_, hv⟩
      rw [ht]
      simp [Nat.add_assoc, Nat.add_comm 1 n]
    · simp at h

/-- Bits shifted into a byte one by one are its bits, the first the most significant (R44, R45). -/
theorem byteBits_shiftIn (bs : Bits) (h : bs.length = 8) :
    byteBits (bs.foldl (fun (v : Byte) (b : Bool) => v <<< 1 ||| (BitVec.ofBool b).setWidth 8) 0#8) = bs := by
  obtain ⟨b0, b1, b2, b3, b4, b5, b6, b7, rfl⟩ : ∃ b0 b1 b2 b3 b4 b5 b6 b7, bs = [b0, b1, b2, b3, b4, b5, b6, b7] := by
    match bs, h with
    | [b0, b1, b2, b3, b4, b5, b6, b7], _ => exact ⟨b0, b1, b2, b3, b4, b5, b6, b7, rfl⟩
  clear h
  cases b0 <;> cases b1 <;> cases b2 <;> cases b3 <;> cases b4 <;> cases b5 <;> cases b6 <;> cases b7 <;> rfl

/-- `Read8` takes the next eight unread bits as a byte (R45). -/
theorem State.read8_eq_some {v : Byte} {s t : State} (h : s.read8 = some (v, t)) :
    8 ≤ s.bitsLeft ∧ s.unread = byteBits v ++ t.unread ∧ t = { s with bitPos := s.bitPos + 8 } := by
  unfold State.read8 at h
  split at h
  · simp at h
  · obtain ⟨bs, hl, hu, ht, rfl⟩ := State.readBitsInto_eq_some h
    exact ⟨by omega, by rw [byteBits_shiftIn bs hl, hu], ht⟩

/-- `n` bits can be read when there are `n` (R45). -/
theorem State.readBitsInto_isSome {n : Nat} {v : Byte} {s : State} (h : n ≤ s.bitsLeft) : (s.readBitsInto n v).isSome := by
  induction n generalizing v s with
  | zero => rfl
  | succ n ih =>
    cases hb : s.readBit with
    | none =>
      have := State.readBit_eq_none.mp hb
      omega
    | some p =>
      have hl := State.readBit_bitsLeft hb
      simpa [State.readBitsInto, hb] using ih (v := v <<< 1 ||| (BitVec.ofBool p.1).setWidth 8) (s := p.2) (by omega)

/-- `Read8` gives nothing exactly when fewer than eight bits are left (R45). -/
theorem State.read8_eq_none {s : State} : s.read8 = none ↔ s.bitsLeft < 8 := by
  unfold State.read8
  split
  · simpa using ‹_›
  · have := State.readBitsInto_isSome (v := 0#8) (s := s) (n := 8) (by omega)
    cases h : s.readBitsInto 8 0#8 <;> simp_all

/-! ## The bit packer -/

/-- The held bits as a function of ACC and NBITS. -/
theorem State.held_def (s : State) :
    s.held = (List.range s.nbits.toNat).map fun i => s.acc.getLsbD (s.nbits.toNat - 1 - i) := rfl

/-- Shifting a bit in below the held ones appends it to them. -/
theorem shiftIn_bits (acc : BitVec 8) (b : Bool) (n : Nat) (hn : n < 8) :
    ((List.range (n + 1)).map fun i => (acc <<< 1 ||| (BitVec.ofBool b).setWidth 8).getLsbD (n + 1 - 1 - i)) =
      ((List.range n).map fun i => acc.getLsbD (n - 1 - i)) ++ [b] := by
  rw [List.range_succ, List.map_append]
  congr 1
  · apply List.map_congr_left
    intro i hi
    have hi : i < n := List.mem_range.mp hi
    have h8 : n - i < 8 := by omega
    have h1 : ¬ (n - i < 1) := by omega
    have hne : ¬ (n - i = 0) := by omega
    have hsub : n - i - 1 = n - 1 - i := by omega
    rw [show n + 1 - 1 - i = n - i by omega, BitVec.getLsbD_or, BitVec.getLsbD_shiftLeft, BitVec.getLsbD_setWidth,
      BitVec.getLsbD_ofBool]
    simp only [h8, h1, hne, hsub, decide_true, decide_false, Bool.not_false, Bool.true_and, Bool.false_and, Bool.and_false,
      Bool.or_false]
  · simp [BitVec.getLsbD_or, BitVec.getLsbD_shiftLeft, BitVec.getLsbD_setWidth, BitVec.getLsbD_ofBool]

/-- A byte's bits are its eight low bits read downwards. -/
theorem byteBits_eq_range (v : Byte) : byteBits v = (List.range 8).map fun i => v.getLsbD (8 - 1 - i) := rfl

/-- `WriteBit` appends one bit to what the run has produced (R46). -/
theorem State.writeBit_packed (s : State) (b : Bool) : (s.writeBit b).packed = s.packed ++ [b] := by
  have hlt : s.nbits.toNat < 8 := s.nbits.isLt
  have hshift := shiftIn_bits s.acc b s.nbits.toNat hlt
  by_cases h : s.nbits = 7#3
  · have h7 : s.nbits.toNat = 7 := by simp [h]
    rw [h7] at hshift
    have hh : s.held = (List.range 7).map fun i => s.acc.getLsbD (7 - 1 - i) := by rw [State.held_def, h7]
    simp only [State.writeBit, h, if_true, State.packed, State.emit, streamBits_append, streamBits_singleton,
      byteBits_eq_range, hh]
    rw [hshift]
    simp [State.held]
  · have h7 : s.nbits.toNat ≠ 7 := fun hc => h (BitVec.eq_of_toNat_eq (by simpa using hc))
    have hn : (s.nbits + 1#3).toNat = s.nbits.toNat + 1 := by
      rw [BitVec.toNat_add]
      simp only [BitVec.toNat_ofNat]
      omega
    simp only [State.writeBit, h, if_false, State.packed, State.held_def, hn, hshift, List.append_assoc]

theorem State.writeBits_packed (bs : Bits) (s : State) : (s.writeBits bs).packed = s.packed ++ bs := by
  induction bs generalizing s with
  | nil => simp [State.writeBits]
  | cons b bs ih => simp [State.writeBits, ih, State.writeBit_packed]

/-- What `WriteBit` leaves alone: everything but OUT, ACC and NBITS; OUT is only appended to (R41, R46). -/
theorem State.writeBit_frame (s : State) (b : Bool) :
    ∃ more a n, s.writeBit b = { s with out := s.out ++ more, acc := a, nbits := n } := by
  unfold State.writeBit
  split
  · exact ⟨_, _, _, rfl⟩
  · exact ⟨[], s.acc <<< 1 ||| (BitVec.ofBool b).setWidth 8, s.nbits + 1#3, by simp⟩

theorem State.writeBits_frame (bs : Bits) (s : State) :
    ∃ more a n, s.writeBits bs = { s with out := s.out ++ more, acc := a, nbits := n } := by
  induction bs generalizing s with
  | nil => exact ⟨[], s.acc, s.nbits, by simp [State.writeBits]⟩
  | cons b bs ih =>
    obtain ⟨m1, a1, n1, h1⟩ := s.writeBit_frame b
    obtain ⟨m2, a2, n2, h2⟩ := ih (s.writeBit b)
    exact ⟨m1 ++ m2, a2, n2, by rw [State.writeBits, h2, h1]; simp⟩

/-- The packer's invariant (R46): a bit written keeps ACC below `2 ^ NBITS`. -/
theorem State.writeBit_acc {s : State} (b : Bool) (h : s.acc.toNat < 2 ^ s.nbits.toNat) :
    (s.writeBit b).acc.toNat < 2 ^ (s.writeBit b).nbits.toNat := by
  unfold State.writeBit
  split
  · simp
  · rename_i h7
    have hlt : s.nbits.toNat < 8 := s.nbits.isLt
    have hne : s.nbits.toNat ≠ 7 := fun hc => h7 (BitVec.eq_of_toNat_eq (by simpa using hc))
    have hn : (s.nbits + 1#3).toNat = s.nbits.toNat + 1 := by
      rw [BitVec.toNat_add]
      simp only [BitVec.toNat_ofNat]
      omega
    have hb : ((BitVec.ofBool b).setWidth 8).toNat < 2 ^ (s.nbits.toNat + 1) := by
      have : 2 ^ 1 ≤ 2 ^ (s.nbits.toNat + 1) := Nat.pow_le_pow_right (by omega) (by omega)
      cases b <;> simp
    have hs : (s.acc <<< 1).toNat < 2 ^ (s.nbits.toNat + 1) := by
      rw [BitVec.toNat_shiftLeft, Nat.shiftLeft_eq, Nat.pow_succ]
      exact lt_of_le_of_lt (Nat.mod_le _ _) (by omega)
    simp only [hn, BitVec.toNat_or]
    exact Nat.or_lt_two_pow hs hb

theorem State.writeBits_acc {s : State} (bs : Bits) (h : s.acc.toNat < 2 ^ s.nbits.toNat) :
    (s.writeBits bs).acc.toNat < 2 ^ (s.writeBits bs).nbits.toNat := by
  induction bs generalizing s with
  | nil => exact h
  | cons b bs ih => exact ih (State.writeBit_acc b h)

end Sys2Proof.Machine
end

