-- ==== Sys2Proof/Tests/Slice0.lean ====
section
/-! SUPPORT. The model's own tests: the operand check, words of the opcode map, single steps with results taken from
spec/95_test_vectors.md (V1 to V12, P1 to P6), and for every statement with hypotheses a state that meets them. -/

namespace Sys2Proof.Tests

open Sys2Proof Sys2Proof.Machine Sys2Proof.Safety

set_option Elab.async false

/-! ## Helpers -/

/-- The next state of an outcome. -/
def nextOf (o : Host.Outcome State Fault Refusal) : Option State :=
  match o with
  | .next t => some t
  | .fault _ => none
  | .refused _ => none

/-- The refusal of an outcome. -/
def refusalOf (o : Host.Outcome State Fault Refusal) : Option Refusal :=
  match o with
  | .next _ => none
  | .fault _ => none
  | .refused r => some r

theorem exists_next {o : Host.Outcome State Fault Refusal} {p : State → Bool} (h : (nextOf o).any p = true) :
    ∃ t, o = .next t ∧ p t = true := by
  cases o <;> simp_all [nextOf]

/-- The state after some command words. -/
def after (ws : List Word) (s : State) : State :=
  ws.foldl (fun s w => (nextOf (step { s with host := [.command w] })).getD s) s

/-- The state after reset, IN bound and FORCE = 1. -/
def input (bytes : List Byte) : State := { State.reset with inp := bytes, force := true }

def aabbcc : List Byte := [0x61#8, 0x61#8, 0x62#8, 0x62#8, 0x63#8, 0x63#8]
def aaaa : List Byte := [0x61#8, 0x61#8, 0x61#8, 0x61#8]
def abracadabra : List Byte :=
  [0x61#8, 0x62#8, 0x72#8, 0x61#8, 0x63#8, 0x61#8, 0x64#8, 0x61#8, 0x62#8, 0x72#8, 0x61#8]

def idleAb : State := input aabbcc
def countedAb : State := after [0x1100#16] idleAb
def listedAb : State := after [0x1100#16, 0x1200#16] idleAb
def mergedAb : State := after [0x1100#16, 0x1200#16, 0x2000#16] idleAb
def oneLeftAb : State := after [0x1100#16, 0x1200#16, 0x2000#16, 0x2000#16] idleAb
def treedAb : State := after [0x1100#16, 0x1200#16, 0x2100#16] idleAb
def codedAb : State := after [0x1100#16, 0x1200#16, 0x2100#16, 0x3000#16] idleAb
def checkedAb : State := after [0x1100#16, 0x1200#16, 0x2100#16, 0x3000#16, 0x3100#16] idleAb
def hdrAb : State := after [0x4000#16] checkedAb
def treeOutAb : State := after [0x4000#16, 0x4100#16] checkedAb
def payDoneAb : State := after [0x4000#16, 0x4100#16, 0x4300#16] checkedAb

/-- The state of "aaaa" with FORCE = 1 in CHECKED. -/
def checkedA : State := after [0x1100#16, 0x1200#16, 0x2100#16, 0x3000#16, 0x3100#16] (input aaaa)

/-- A decompression over IN with TAILSKIP = k. -/
def stream (k : BitVec 3) (bytes : List Byte) : State := { State.reset with inp := bytes, tailskip := k }

/-- The stream of P1. -/
def abStream : List Byte := [0x48#8, 0x46#8, 0x98#8, 0xE6#8, 0x13#8, 0x15#8, 0x78#8]

def dhdrAb : State := after [0x5000#16] (stream 1#3 abStream)
def dtreeAb : State := after [0x5000#16, 0x5100#16] (stream 1#3 abStream)

/-- One leaf, 0x61 (V12). -/
def dtreeA : State := after [0x5000#16, 0x5100#16] (stream 0#3 [0x48#8, 0x46#8, 0x30#8, 0x80#8])

/-! ## The operand check (30_encoding.md R61) -/

theorem test_wellFormed_refuses_ctl_16 : (Instr.ctl 0x10#8).wellFormed = false := by decide
theorem test_wellFormed_refuses_ctl_bit_7 : (Instr.ctl 0x80#8).wellFormed = false := by decide
theorem test_wellFormed_takes_ctl_15 : (Instr.ctl 0x0F#8).wellFormed = true := by decide
theorem test_wellFormed_takes_symbols : (Instr.cnt 0xFF#8).wellFormed && (Instr.enc 0x00#8).wellFormed = true := by decide

/-! ## Words written out from the opcode map (R62), OPC then OPD -/

theorem test_decode_control :
    decode 0b00000000_00000000#16 = .instr .clr ∧ decode 0b00000001_00001010#16 = .instr (.ctl 0x0A#8) := by decide
theorem test_decode_frequency :
    decode 0b00010000_01100001#16 = .instr (.cnt 0x61#8) ∧ decode 0b00010001_00000000#16 = .instr .freq ∧
    decode 0b00010010_00000000#16 = .instr .list := by decide
theorem test_decode_tree_builder :
    decode 0b00100000_00000000#16 = .instr .merge ∧ decode 0b00100001_00000000#16 = .instr .tree := by decide
theorem test_decode_code_table :
    decode 0b00110000_00000000#16 = .instr .codes ∧ decode 0b00110001_00000000#16 = .instr .check := by decide
theorem test_decode_encoder :
    decode 0b01000000_00000000#16 = .instr .hdr ∧ decode 0b01000001_00000000#16 = .instr .stree ∧
    decode 0b01000010_11111111#16 = .instr (.enc 0xFF#8) ∧ decode 0b01000011_00000000#16 = .instr .payload ∧
    decode 0b01000100_00000000#16 = .instr .flush ∧ decode 0b01001111_00000000#16 = .instr .comp := by decide
theorem test_decode_decoder :
    decode 0b01010000_00000000#16 = .instr .dhdr ∧ decode 0b01010001_00000000#16 = .instr .dtree ∧
    decode 0b01010010_00000000#16 = .instr .dsym ∧ decode 0b01010011_00000000#16 = .instr .dpayload ∧
    decode 0b01011111_00000000#16 = .instr .decomp := by decide
theorem test_decode_rejects :
    decode 0x0200#16 = .reject (.unknownOpcode 0x02#8) ∧ decode 0x2001#16 = .reject (.operandNotZero 0x20#8 0x01#8) ∧
    decode 0x0110#16 = .reject (.ctlHighBitsSet 0x10#8) := by decide
theorem test_decodeTableWord : decodeTableWord 16 0x4261 = some (.enc 0x61#8) ∧ decodeTableWord 16 0x4301 = none := by decide
/-- R64: of the 65536 words 545 are legal: 17 + 2 * 256 + 16. -/
theorem test_legal_words : (rows.map fun r => 2 ^ (16 - r.mask.cpop.toNat)).sum = 545 := by decide

/-! ## One step of each command: results from spec/95_test_vectors.md -/

/-- V1, second row. -/
theorem test_clr : (nextOf (execClr { idleAb with phase := .fault, err := .notCompressible, total := 6 })).map
    (fun t => (t.phase, t.err, t.force, t.total)) = some (.idle, .none, true, 0) := by decide +kernel
/-- V1: 0x010A. -/
theorem test_ctl : (nextOf (step { State.reset with host := [.command 0x010A#16] })).map (fun t => (t.force, t.tailskip)) =
    some (false, 5#3) := by decide +kernel
/-- V11: 0x0110 in COUNT. -/
theorem test_ctl_illegal : (nextOf (step { countedAb with host := [.command 0x0110#16] })).map (fun t => (t.err, t.errinfo)) =
    some (.illegalCmd, 0x10110#64) := by decide +kernel
/-- V2. -/
theorem test_cnt : (fun t : State => (t.freq[0x61], t.freq[0x62], t.total, t.phase)) (after [0x1061#16, 0x1061#16, 0x1062#16] State.reset) =
    (2, 1, 3, .count) := by decide +kernel
/-- V2, CW = 2: the fourth CNT 'a'. -/
theorem test_cnt_overflow : (fun t : State => (t.freq[0x61], t.total, t.err, t.errinfo))
    (after [0x1061#16, 0x1061#16, 0x1061#16, 0x1061#16] { State.reset with cfg := ⟨2, 6⟩ }) = (3, 3, .countOverflow, 0x61#64) := by
  decide +kernel
/-- V2. -/
theorem test_freq : (fun t : State => (t.freq[0x61], t.freq[0x63], t.total, t.inPos, t.phase)) countedAb = (2, 2, 6, 6, .count) := by
  decide +kernel
/-- V2, CW = 2. -/
theorem test_freq_overflow : (fun t : State => (t.freq[0x63], t.freq[0x64], t.total, t.inPos, t.errinfo))
    (after [0x1100#16] { input [0x61#8, 0x62#8, 0x63#8, 0x64#8] with cfg := ⟨2, 6⟩ }) = (1, 0, 3, 4, 0x64#64) := by decide +kernel
/-- V3, "abracadabra". -/
theorem test_list : (fun t : State => (t.chain?, t.nsym)) (after [0x1100#16, 0x1200#16] (input abracadabra)) =
    (some [2#9, 3#9, 1#9, 4#9, 0#9], 5) := by decide +kernel
/-- V3, every count zero. -/
theorem test_list_empty : (fun t : State => (t.err, t.errinfo, t.phase)) (after [0x1100#16, 0x1200#16] State.reset) =
    (.emptyInput, 0#64, .fault) := by decide +kernel
/-- V4, "abracadabra", the second MERGE. -/
theorem test_merge : (after [0x1100#16, 0x1200#16, 0x2000#16, 0x2000#16] (input abracadabra)).chain? = some [4#9, 6#9, 0#9] := by
  decide +kernel
/-- V4: a third MERGE on "aabbcc". -/
theorem test_merge_one_node : (fun t : State => (t.err, t.errinfo)) (after [0x2000#16] oneLeftAb) = (.sequence, 0x22000#64) := by
  decide +kernel
/-- V4, the second scenario of R95: (d, ((a, b), c)). -/
theorem test_tree : (after [0x1100#16, 0x1200#16, 0x2100#16] (input [0x61#8, 0x62#8, 0x63#8, 0x63#8, 0x64#8, 0x64#8])).tree? =
    some (.node 6 (.leaf 0x64#8 2) (.node 4 (.node 2 (.leaf 0x61#8 1) (.leaf 0x62#8 1)) (.leaf 0x63#8 2))) := by decide +kernel
/-- V4, one symbol. -/
theorem test_tree_one_symbol : (fun t : State => (t.root, t.nnodes, t.degen)) (after [0x1100#16, 0x1200#16, 0x2100#16] (input aaaa)) =
    (0#9, 1, true) := by decide +kernel
/-- V5, "aabbcc". -/
theorem test_codes : (fun t : State => (t.code[0x61], t.code[0x62], t.code[0x63], t.treebits)) codedAb =
    ([true, false], [true, true], [false], 29) := by decide +kernel
/-- V6, nine a and one b: equal is not smaller. -/
theorem test_check_equal : (fun t : State => (t.estbits, t.uncbits, t.notSmaller, t.err))
    (after [0x1100#16, 0x1200#16, 0x2100#16, 0x3000#16, 0x3100#16]
      { input (List.replicate 9 0x61#8 ++ [0x62#8]) with force := false }) = (80, 80, true, .notCompressible) := by decide +kernel
/-- V6, "aabbcc" with FORCE = 1. -/
theorem test_check_force : (fun t : State => (t.paybits, t.estbits, t.uncbits, t.phase)) checkedAb = (10, 88, 48, .checked) := by
  decide +kernel
/-- V8. -/
theorem test_hdr : (fun t : State => (t.out, t.nbits)) hdrAb = ([0x48#8, 0x46#8], 0#3) := by decide +kernel
/-- V8: "aaaa". -/
theorem test_hdr_degenerate : (fun t : State => (t.err, t.errinfo, t.out)) (after [0x4000#16] checkedA) =
    (.degenerate, 0x61#64, []) := by decide +kernel
/-- V8. -/
theorem test_stree : (fun t : State => (t.out, t.acc, t.nbits)) treeOutAb =
    ([0x48#8, 0x46#8, 0x98#8, 0xE6#8, 0x13#8], 0b00010#8, 5#3) := by decide +kernel
/-- V8: ENC 'a' after STREE. -/
theorem test_enc : (fun t : State => (t.acc, t.nbits, t.out.length)) (after [0x4261#16] treeOutAb) = (0b0001010#8, 7#3, 5) := by
  decide +kernel
/-- V8: ENC 'z' after STREE. -/
theorem test_enc_no_code : (fun t : State => (t.err, t.errinfo, t.nbits)) (after [0x427A#16] treeOutAb) =
    (.noCode, 0x7A#64, 5#3) := by decide +kernel
/-- V8. -/
theorem test_payload : (fun t : State => (t.out.getLast?, t.acc, t.nbits)) payDoneAb = (some 0x15#8, 0b0111100#8, 7#3) := by
  decide +kernel
/-- V8. -/
theorem test_flush : (fun t : State => (t.out, t.padcnt, t.outFinal)) (after [0x4400#16] payDoneAb) = (abStream, 1#3, true) := by
  decide +kernel
/-- V10: STATUS = 0xE0A. -/
theorem test_comp : (fun t : State => (t.out, t.statusWord)) (after [0x4F00#16] idleAb) = (abStream, 0xE0A#14) := by decide +kernel
/-- V10: FORCE = 0, STATUS = 0x25F. -/
theorem test_comp_not_compressible : (fun t : State => (t.out, t.statusWord)) (after [0x4F00#16] { idleAb with force := false }) =
    ([], 0x25F#14) := by decide +kernel
/-- V12: 48 58. -/
theorem test_dhdr_second_byte : (fun t : State => (t.err, t.errinfo, t.bitPos)) (after [0x5000#16] (stream 0#3 [0x48#8, 0x58#8])) =
    (.corruptHeader, 0x158#64, 16) := by decide +kernel
/-- V12: 48 46 with TAILSKIP = 1. -/
theorem test_dhdr_tailskip : (fun t : State => (t.err, t.errinfo)) (after [0x5000#16] (stream 1#3 [0x48#8, 0x46#8])) =
    (.unexpectedEos, 8#64) := by decide +kernel
/-- V9. -/
theorem test_dtree : (fun t : State => (t.tree?, t.nnodes, t.bitPos)) dtreeAb =
    (some (.node 0 (.leaf 0x63#8 0) (.node 0 (.leaf 0x61#8 0) (.leaf 0x62#8 0))), 5, 45) := by decide +kernel
/-- V12: 48 46 80. -/
theorem test_dtree_cut : (fun t : State => (t.err, t.errinfo, t.nnodes))
    (after [0x5000#16, 0x5100#16] (stream 0#3 [0x48#8, 0x46#8, 0x80#8])) = (.unexpectedEos, 18#64, 2) := by decide +kernel
/-- V9. -/
theorem test_dsym : (fun t : State => (t.out, t.bitPos)) (after [0x5200#16] dtreeAb) = ([0x61#8], 47) := by decide +kernel
/-- V12: one leaf. -/
theorem test_dsym_degenerate : (fun t : State => (t.err, t.errinfo)) (after [0x5200#16] dtreeA) = (.degenerate, 0x61#64) := by
  decide +kernel
/-- V9. -/
theorem test_dpayload : (fun t : State => (t.out, t.bitPos, t.phase)) (after [0x5300#16] dtreeAb) = (aabbcc, 55, .ddone) := by
  decide +kernel
/-- V9: TAILSKIP = 0, one spurious c. -/
theorem test_dpayload_padding : (after [0x5000#16, 0x5100#16, 0x5300#16] (stream 0#3 abStream)).out = aabbcc ++ [0x63#8] := by
  decide +kernel
/-- V10: STATUS = 0x40D. -/
theorem test_decomp : (fun t : State => (t.out, t.statusWord)) (after [0x5F00#16] (stream 1#3 abStream)) = (aabbcc, 0x40D#14) := by
  decide +kernel
/-- P5: STATUS = 0x8F. -/
theorem test_decomp_corrupt : (fun t : State => (t.out, t.statusWord, t.errinfo))
    (after [0x5F00#16] (stream 0#3 [0x48#8, 0x47#8, 0x98#8])) = ([], 0x08F#14, 0x147#64) := by decide +kernel
/-- V5: the read port on CODE['c'] and NODE[8] of "abracadabra". -/
theorem test_readPort : (fun t : State => (t.readPort 0x263#12, t.readPort 0x58C#12, t.readPort 0x810#12, t.readPort 0x811#12))
    (after [0x1100#16, 0x1200#16, 0x2100#16, 0x3000#16] (input abracadabra)) =
    (4#64, 0xC000000000000000#64, 11#64, 0x7FC0E00#64) := by decide +kernel
/-- R180, R186: reset in mid-run, and a binding of IN in mid-run. -/
theorem test_reset_and_bind :
    (nextOf (step { listedAb with host := [.reset] })).map (fun t => (t.phase, t.force, t.nsym, t.inp)) =
      some (.idle, false, 0, aabbcc) ∧
    refusalOf (step { listedAb with host := [.bind []] }) = some .inputChangedDuringRun := by decide +kernel

/-! ## States that meet the hypotheses of the statements

One theorem per statement (or per clause), named after it; where the clause needs a run, `exec … = .next t` is part of it. -/

theorem inv_idleAb : Inv idleAb := inv_of_check (by decide +kernel) fun _ => rfl
theorem inv_listedAb : Inv listedAb := inv_of_check (by decide +kernel) fun h => absurd h (by decide +kernel)
theorem inv_treedAb : Inv treedAb := inv_of_check (by decide +kernel) fun h => absurd h (by decide +kernel)
theorem inv_dtreeAb : Inv dtreeAb := inv_of_check (by decide +kernel) fun h => absurd h (by decide +kernel)
/-- The invariant of the state a stream is decompressed from, whatever the stream and TAILSKIP. -/
theorem inv_stream (k : BitVec 3) (bytes : List Byte) : Inv (stream k bytes) :=
  ⟨⟨show (0 : Nat) = State.reset.freq.toList.sum by decide +kernel, Nat.zero_le _⟩, show (0 : Nat) < 1 by decide, ⟨rfl, Nat.zero_le _⟩,
    ⟨⟨fun h => absurd h (show Phase.idle ≠ .fault by decide), fun h => absurd rfl h⟩, fun _ => rfl⟩, fun _ => rfl,
    fun h => absurd h (show Phase.idle ≠ .listed by decide),
    fun h => absurd (show Phase.idle ∈ builtPhases from h) (by decide),
    fun h => absurd (show Phase.idle ∈ readPhases from h) (by decide)⟩

/-- A fault on record, and one act of the host to come. -/
def faulted (a : HostAct) : State := { idleAb with phase := .fault, err := .sequence, errinfo := 0x2100#64, host := [a] }

theorem witness_DecodeOfEncodeIsTheCommand :
    (Instr.ctl 0x0F#8).wellFormed = true ∧ (Instr.cnt 0xFF#8).wellFormed = true ∧ Instr.decomp.wellFormed = true := by decide
theorem witness_EncodeOfDecodeIsTheWord : decode 0x010F#16 = .instr (.ctl 0x0F#8) ∧ decode 0x42FF#16 = .instr (.enc 0xFF#8) := by
  decide
theorem witness_IllegalWordRaises :
    let s : State := { countedAb with host := [.command 0xFFFF#16] }
    s.cfg.valid = true ∧ s.host = [.command 0xFFFF#16] ∧ s.phase ≠ .fault ∧ ∀ r ∈ rows, 0xFFFF#16 &&& r.mask ≠ r.pat := by
  decide +kernel
theorem witness_StepRunsTheDecodedCommand :
    let s : State := { idleAb with host := [.command 0x1100#16] }
    let f : State := { idleAb with host := [.command 0x0000#16], phase := .fault, err := .sequence }
    (s.cfg.valid = true ∧ s.host = [.command 0x1100#16] ∧ decode 0x1100#16 = .instr .freq ∧ s.phase ≠ .fault) ∧
    (f.cfg.valid = true ∧ f.host = [.command 0x0000#16] ∧ decode 0x0000#16 = .instr .clr ∧ f.phase = .fault) := by decide +kernel
theorem witness_FaultDropsEveryWordButClr :
    (∀ w, (faulted (.command w)).cfg.valid = true ∧ (faulted (.command w)).host = [.command w] ∧
      (faulted (.command w)).phase = .fault) ∧ 0x0001#16 ≠ 0x0000#16 := ⟨fun _ => ⟨rfl, rfl, rfl⟩, by decide⟩
/-- `OnlyLegalIn`: a phase in which no command but CLR is legal, and one for every command but CLR and those legal in IDLE. -/
theorem witness_OnlyLegalIn :
    (∀ i ∈ [Instr.ctl 0x00#8, .ctl 0x0F#8, .cnt 0x00#8, .cnt 0xFF#8, .freq, .list, .merge, .tree, .codes, .check, .hdr, .stree,
      .enc 0x00#8, .enc 0xFF#8, .payload, .flush, .comp, .dhdr, .dtree, .dsym, .dpayload, .decomp],
      Phase.done ≠ .fault ∧ Phase.done ∉ legalPhases i ∧ Phase.ddone ∉ legalPhases i) := by decide
theorem witness_WrongPhaseRaisesSequence :
    (Instr.tree.wellFormed = true ∧ idleAb.phase ≠ .fault ∧ ¬ Legal .tree idleAb) ∧
    (Instr.merge.wellFormed = true ∧ oneLeftAb.phase ≠ .fault ∧ ¬ Legal .merge oneLeftAb) :=
  ⟨⟨rfl, by decide, fun h => absurd h.1 (by decide)⟩, rfl, by decide +kernel, fun h =>
    absurd (show 2 ≤ oneLeftAb.nlist from h.2) (by decide +kernel)⟩
theorem witness_CommandLeavesItsPhase :
    Instr.merge.wellFormed = true ∧ Legal .merge listedAb ∧ ∃ t, exec .merge listedAb = .next t ∧ decide (t.phase ≠ .fault) = true :=
  ⟨rfl, ⟨by decide +kernel, show 2 ≤ listedAb.nlist by decide +kernel⟩, exists_next (by decide +kernel)⟩

theorem witness_ResetIsClrThatClearsCtrl :
    let s : State := { mergedAb with host := [.reset, .command 0x0000#16] }
    s.cfg.valid = true ∧ s.host = .reset :: [.command 0x0000#16] := by decide +kernel
theorem witness_ClrClearsAllButCtrl :
    (∃ t, exec .tree { idleAb with phase := .fault, err := .sequence } = .next t ∧ (fun _ => true) t = true) ∧
    Inv idleAb ∧ idleAb.phase = .idle := ⟨exists_next (by decide +kernel), inv_idleAb, rfl⟩
theorem witness_CtlWritesCtrl :
    idleAb.phase = .idle ∧ (0x00#8).toNat < 16 ∧ (0x0F#8).toNat < 16 ∧ countedAb.phase ≠ .fault ∧ 16 ≤ (0x10#8).toNat ∧
    16 ≤ (0xFF#8).toNat := by decide +kernel

/-- At the bound and one below it (CW = 2). -/
theorem witness_CntCountsOneSymbol :
    let s (n : Nat) : State := { State.reset with cfg := ⟨2, 6⟩, total := n, phase := .count }
    ((s 2).phase = .count ∧ (s 2).total ≠ 2 ^ (s 2).cfg.cw - 1) ∧ ((s 3).phase = .count ∧ (s 3).total = 2 ^ (s 3).cfg.cw - 1) := by
  decide
/-- A byte more than fits, and as many as fit (CW = 2); the empty input. -/
theorem witness_FreqCountsTheInput :
    let s (bytes : List Byte) : State := { input bytes with cfg := ⟨2, 6⟩ }
    (∀ b ∈ [[], [1#8, 2#8, 3#8]], (s b).phase = .idle ∧ (s b).inPos ≤ (s b).inp.length ∧
      (s b).total + ((s b).inp.length - (s b).inPos) ≤ 2 ^ (s b).cfg.cw - 1) ∧
    (∀ b ∈ [[1#8, 2#8, 3#8, 4#8]], (s b).phase = .idle ∧ (s b).inPos ≤ (s b).inp.length ∧ (s b).total ≤ 2 ^ (s b).cfg.cw - 1 ∧
      2 ^ (s b).cfg.cw - 1 < (s b).total + ((s b).inp.length - (s b).inPos)) := by decide +kernel
theorem witness_FreqIsCntOfEveryByte :
    idleAb.phase = .idle ∧ idleAb.inPos = 0 ∧ idleAb.inp ≠ [] ∧ (∃ t, exec .freq idleAb = .next t ∧ decide (t.total = 6) = true) ∧
    ∃ t, execAll (idleAb.inp.map .cnt) idleAb = .next t ∧ decide (t.total = 6) = true :=
  ⟨rfl, rfl, by decide, exists_next (by decide +kernel), exists_next (by decide +kernel)⟩
theorem witness_ListSortsTheLeaves :
    (countedAb.phase = .count ∧ ∃ x : Byte, countedAb.freq[symIdx x] > 0) ∧
    ∀ x : Byte, ({ State.reset with phase := .count } : State).freq[symIdx x] = 0 :=
  ⟨⟨by decide +kernel, 0x61#8, by decide +kernel⟩, by decide +kernel⟩

/-- Three nodes in the list, two, and the last handle but none to spare; one node, and none. -/
theorem witness_MergeJoinsTheTwoFirst :
    (listedAb.phase = .listed ∧ listedAb.chain? = some (0#9 :: 1#9 :: [2#9]) ∧ 2 ≤ listedAb.nlist ∧ listedAb.nnodes < 511) ∧
    (mergedAb.phase = .listed ∧ mergedAb.chain? = some (2#9 :: 3#9 :: []) ∧ 2 ≤ mergedAb.nlist ∧ mergedAb.nnodes < 511) ∧
    (let s : State := { listedAb with nnodes := 510 };
      s.phase = .listed ∧ s.chain? = some (0#9 :: 1#9 :: [2#9]) ∧ 2 ≤ s.nlist ∧ s.nnodes < 511) ∧
    (oneLeftAb.phase = .listed ∧ oneLeftAb.nlist < 2) ∧ ({ idleAb with phase := .listed } : State).nlist < 2 := by decide +kernel
theorem witness_TreeFinalizesOneTree : Inv listedAb ∧ listedAb.phase = .listed := ⟨inv_listedAb, by decide +kernel⟩
theorem witness_TreeMergesUntilOneNodeRemains :
    (listedAb.phase = .listed ∧ 2 ≤ listedAb.nlist ∧ ∃ t, exec .merge listedAb = .next t ∧ decide (t.nlist = 2) = true) ∧
    (oneLeftAb.phase = .listed ∧ oneLeftAb.nlist = 1 ∧ (oneLeftAb.readNode oneLeftAb.head).isSome = true) :=
  ⟨⟨by decide +kernel, by decide +kernel, exists_next (by decide +kernel)⟩, by decide +kernel⟩

theorem witness_CodesRecordsThePaths : treedAb.phase = .treed ∧ treedAb.tree?.isSome = true := by decide +kernel
theorem witness_CodesAreAPrefixCode :
    Inv treedAb ∧ treedAb.phase = .treed ∧ treedAb.degen = false ∧
    ∃ t, exec .codes treedAb = .next t ∧ decide (t.phase = .coded) = true :=
  ⟨inv_treedAb, by decide +kernel, by decide +kernel, exists_next (by decide +kernel)⟩
/-- One symbol: TREEBITS = 9 (V5). -/
theorem witness_TreeBitsCountsTheTree :
    let s := after [0x1100#16, 0x1200#16, 0x2100#16] (input aaaa)
    Inv s ∧ s.phase = .treed ∧ ∃ t, exec .codes s = .next t ∧ decide (t.treebits = 9) = true :=
  ⟨inv_of_check (by decide +kernel) fun h => absurd h (by decide +kernel), by decide +kernel, exists_next (by decide +kernel)⟩
theorem witness_CheckComparesTheSizes :
    codedAb.phase = .coded ∧ ({ codedAb with force := false } : State).phase = .coded := by decide +kernel

theorem witness_HdrWritesTheMagic :
    (checkedAb.phase = .checked ∧ checkedAb.degen = false ∧ checkedAb.acc = 0 ∧ checkedAb.nbits = 0) ∧
    (checkedA.phase = .checked ∧ checkedA.degen = true ∧ (checkedA.readNode checkedA.root).isSome = true) := by decide +kernel
theorem witness_StreeWritesTheTree : hdrAb.phase = .hdrDone ∧ hdrAb.tree?.isSome = true := by decide +kernel
theorem witness_EncWritesTheCode :
    treeOutAb.phase = .treeOut ∧ treeOutAb.code[symIdx 0x61#8] ≠ [] ∧ treeOutAb.code[symIdx 0x7A#8] = [] ∧
    (after [0x4261#16] treeOutAb).phase = .encoding := by decide +kernel
/-- Every byte with a code, and a byte without one after one that has. -/
theorem witness_PayloadWritesTheCodes :
    let z : State := { treeOutAb with inp := [0x61#8] ++ 0x7A#8 :: [0x62#8] }
    (treeOutAb.phase = .treeOut ∧ ∀ b ∈ treeOutAb.inp, treeOutAb.code[symIdx b] ≠ []) ∧
    (z.phase = .treeOut ∧ z.inp = [0x61#8] ++ 0x7A#8 :: [0x62#8] ∧ (∀ x ∈ [0x61#8], z.code[symIdx x] ≠ []) ∧
      z.code[symIdx 0x7A#8] = []) := by decide +kernel
theorem witness_PayloadIsEncOfEveryByte :
    treeOutAb.phase = .treeOut ∧ treeOutAb.inp ≠ [] ∧ (∃ t, exec .payload treeOutAb = .next t ∧ decide (t.phase = .payDone) = true) ∧
    ∃ t, execAll (treeOutAb.inp.map .enc) treeOutAb = .next t ∧ decide (t.phase = .encoding) = true :=
  ⟨by decide +kernel, by decide +kernel, exists_next (by decide +kernel), exists_next (by decide +kernel)⟩
theorem witness_FlushPadsToAByte :
    (payDoneAb.phase = .payDone ∧ PackerOk payDoneAb) ∧
    ((after [0x4261#16] treeOutAb).phase = .encoding ∧ PackerOk (after [0x4261#16] treeOutAb)) := by
  unfold PackerOk
  decide +kernel
theorem witness_CompIsTheNineCommands : idleAb.phase = .idle := rfl
theorem witness_CompWritesTheStream :
    Inv idleAb ∧ idleAb.phase = .idle ∧ idleAb.force = true ∧ idleAb.inp.length ≤ 2 ^ idleAb.cfg.cw - 1 ∧
    ∃ x ∈ idleAb.inp, ∃ y ∈ idleAb.inp, x ≠ y := ⟨inv_idleAb, by decide +kernel⟩
theorem next_comp_idleAb : ∃ t, exec .comp idleAb = .next t ∧ decide (t.phase = .done ∧ t.out = abStream ∧ t.padcnt = 1#3) = true :=
  exists_next (by decide +kernel)
/-- "aabbcc", whose estimate is not smaller, and twelve a with four b, whose estimate is (V6). -/
theorem witness_CompWithoutForce :
    let s := input (List.replicate 12 0x61#8 ++ List.replicate 4 0x62#8)
    (Inv idleAb ∧ idleAb.phase = .idle ∧
      ∃ t, exec .comp { idleAb with force := true } = .next t ∧ decide (t.phase = .done ∧ t.uncbits ≤ t.estbits) = true) ∧
    (Inv s ∧ s.phase = .idle ∧
      ∃ t, exec .comp { s with force := true } = .next t ∧ decide (t.phase = .done ∧ t.estbits < t.uncbits) = true) :=
  ⟨⟨inv_idleAb, rfl, exists_next (by decide +kernel)⟩, inv_of_check (by decide +kernel) fun _ => rfl, rfl,
    exists_next (by decide +kernel)⟩
theorem witness_CompFaultsWithNoOutput :
    Inv (input []) ∧ (input []).phase = .idle ∧ ∃ t, exec .comp (input []) = .next t ∧ decide (t.phase = .fault) = true :=
  ⟨inv_of_check (by decide +kernel) fun _ => rfl, rfl, exists_next (by decide +kernel)⟩
theorem witness_SizeAccounting :
    Inv idleAb ∧ idleAb.phase = .idle ∧ (∃ t, exec .comp idleAb = .next t ∧ decide (t.phase = .done) = true) ∧
    ∃ t, execAll [.freq, .list, .tree, .codes, .check, .hdr, .stree, .payload, .flush] idleAb = .next t ∧
      decide (t.phase = .done) = true :=
  ⟨inv_idleAb, rfl, exists_next (by decide +kernel), exists_next (by decide +kernel)⟩
/-- Two states that differ in TAILSKIP and in what the NODE memory still holds. -/
theorem witness_CompDependsOnInputAndForceOnly :
    let s' : State := { idleAb with tailskip := 7#3, node := [(0, ⟨1#8, 2, 3#9, 4#9, 5#9⟩)] }
    Inv idleAb ∧ Inv s' ∧ idleAb.phase = .idle ∧ s'.phase = .idle ∧ idleAb.inp = s'.inp ∧ idleAb.force = s'.force ∧
    idleAb.cfg = s'.cfg ∧ (∃ t, exec .comp idleAb = .next t ∧ decide (t.phase = .done) = true) ∧
    ∃ t, exec .comp s' = .next t ∧ decide (t.phase = .done) = true :=
  ⟨inv_idleAb, inv_of_check (by decide +kernel) fun _ => rfl, rfl, rfl, rfl, rfl, rfl, exists_next (by decide +kernel),
    exists_next (by decide +kernel)⟩

/-- The five clauses in order: no byte, a wrong first byte, one byte and TAILSKIP's bits short of two, a wrong second byte,
the magic. -/
theorem witness_DhdrChecksTheMagic :
    (stream 0#3 []).limit < 8 ∧ (stream 1#3 [0x48#8]).limit < 8 ∧
    (8 ≤ (stream 0#3 [0x58#8]).limit ∧ (stream 0#3 [0x58#8]).inp[0]? = some 0x58#8) ∧
    (8 ≤ (stream 1#3 [0x48#8, 0x46#8]).limit ∧ (stream 1#3 [0x48#8, 0x46#8]).limit < 16) ∧
    (16 ≤ (stream 0#3 [0x48#8, 0x58#8]).limit ∧ (stream 0#3 [0x48#8, 0x58#8]).inp[1]? = some 0x58#8) ∧
    (16 ≤ (stream 0#3 [0x48#8, 0x46#8]).limit ∧ (stream 0#3 [0x48#8, 0x46#8]).phase = .idle ∧
      (stream 0#3 [0x48#8, 0x46#8]).bitPos = 0) := by decide +kernel

/-- The tree of "aabbcc" as DTREE builds it (V9). -/
def treeAb : Tree := .node 0 (.leaf 0x63#8 0) (.node 0 (.leaf 0x61#8 0) (.leaf 0x62#8 0))

/-- A tree whose left branches go `n` deep. -/
def comb : Nat → Tree
  | 0 => .leaf 0#8 0
  | n + 1 => .node 0 (comb n) (.leaf 0#8 0)

theorem witness_DtreeInvertsTheSerialization :
    dhdrAb.phase = .dhdrOk ∧
    dhdrAb.unread = treeAb.ser ++ [true, false, true, false, true, true, true, true, false, false] ∧ treeAb.size ≤ 511 := by
  decide +kernel
theorem comb_ser (n : Nat) : ∃ r, (comb n).ser = List.replicate n true ++ r := by
  induction n with
  | zero => exact ⟨_, rfl⟩
  | succ n ih =>
    obtain ⟨r, hr⟩ := ih
    exact ⟨r ++ (Tree.leaf 0#8 0).ser, by simp [comb, Tree.ser, hr, List.replicate_succ]⟩

theorem comb_serNodes (n : Nat) : ∃ r, (comb n).serNodes = List.replicate n [true] ++ r := by
  induction n with
  | zero => exact ⟨_, rfl⟩
  | succ n ih =>
    obtain ⟨r, hr⟩ := ih
    exact ⟨r ++ (Tree.leaf 0#8 0).serNodes, by simp [comb, Tree.serNodes, hr, List.replicate_succ]⟩

theorem comb_size (n : Nat) : (comb n).size = 2 * n + 1 := by
  induction n with
  | zero => rfl
  | succ n ih => simp only [comb, Tree.size, ih]; omega

/-- The first nodes of a comb are internal, one bit each. -/
theorem comb_need {n k : Nat} (h : k ≤ n) : (comb n).serBefore k = k := by
  obtain ⟨r, hr⟩ := comb_serNodes n
  rw [Tree.serBefore, hr, List.take_append_of_le_length (by simpa using h), List.take_replicate, Nat.min_eq_left h, List.length_flatten]
  simp

/-- Fewer ones than a comb has levels begin its serialized form. -/
theorem comb_begins {n k : Nat} (h : k ≤ n) : ∃ more, List.replicate k true ++ more = (comb n).ser ++ [] := by
  obtain ⟨r, hr⟩ := comb_ser n
  refine ⟨List.replicate (n - k) true ++ r, ?_⟩
  rw [hr, List.append_nil, ← List.append_assoc, List.replicate_append_replicate, Nat.add_sub_cancel' h]

/-- 64 bytes FF after the magic (V12), whose last TAILSKIP = `k` bits are withheld. -/
def onesAfterMagic (k : BitVec 3) : State := after [0x5000#16] (stream k (0x48#8 :: 0x46#8 :: List.replicate 64 0xFF#8))

/-- The flag of a 512th node, and 511 flags and no more. -/
theorem witness_DtreeFaultsOnLargeTrees :
    (∃ more, (onesAfterMagic 0#3).unread ++ more = (comb 512).ser ++ []) ∧
    (∃ more, (onesAfterMagic 1#3).unread ++ more = (comb 512).ser ++ []) ∧
    (onesAfterMagic 0#3).phase = .dhdrOk ∧ (onesAfterMagic 1#3).phase = .dhdrOk ∧ 511 < (comb 512).size ∧
    (comb 512).serBefore 511 + 1 ≤ (onesAfterMagic 0#3).unread.length ∧
    (onesAfterMagic 1#3).unread.length < (comb 512).serBefore 511 + 1 := by
  have h0 : (onesAfterMagic 0#3).unread = List.replicate 512 true := by decide +kernel
  have h1 : (onesAfterMagic 1#3).unread = List.replicate 511 true := by decide +kernel
  refine ⟨?_, ?_, by decide +kernel, by decide +kernel, by rw [comb_size]; decide, ?_, ?_⟩
  · rw [h0]
    exact comb_begins (Nat.le_refl _)
  · rw [h1]
    exact comb_begins (Nat.le_succ _)
  · rw [comb_need (Nat.le_succ _), h0, List.length_replicate]
  · rw [comb_need (Nat.le_succ _), h1, List.length_replicate]
    exact Nat.lt_succ_self _

/-- The tree of "aabbcc" cut after its first byte, and cut by its last bit (V12: 48 46 98). -/
theorem witness_DtreeFaultsOnCutTrees :
    let s := after [0x5000#16] (stream 0#3 [0x48#8, 0x46#8, 0x98#8])
    let l := after [0x5000#16] (stream 4#3 [0x48#8, 0x46#8, 0x98#8, 0xE6#8, 0x13#8, 0x10#8])
    treeAb.size ≤ 511 ∧
    (s.phase = .dhdrOk ∧ s.unread ++ treeAb.ser.drop 8 = treeAb.ser ++ [] ∧ s.unread.length < treeAb.ser.length) ∧
    (l.phase = .dhdrOk ∧ l.unread ++ [false] = treeAb.ser ++ [] ∧ l.unread.length < treeAb.ser.length) := by decide +kernel

/-- A symbol; the end of the stream at a symbol's boundary; the end inside a walk; one leaf. -/
theorem witness_DsymWalksTheTree :
    let e := after [0x5200#16, 0x5200#16, 0x5200#16, 0x5200#16, 0x5200#16, 0x5200#16] dtreeAb
    let c := after [0x5000#16, 0x5100#16, 0x5200#16, 0x5200#16] (stream 6#3 abStream)
    (dtreeAb.phase = .dtreeOk ∧ dtreeAb.degen = false ∧ dtreeAb.tree? = some treeAb ∧ treeAb.isLeaf = false ∧
      treeAb.walk dtreeAb.unread = some (0x61#8, [true, false, true, true, true, true, false, false])) ∧
    (e.phase = .dtreeOk ∧ e.degen = false ∧ e.tree? = some treeAb ∧ treeAb.walk e.unread = none) ∧
    (c.phase = .dtreeOk ∧ c.degen = false ∧ c.tree? = some treeAb ∧ c.unread = [true] ∧ treeAb.walk [true] = none) ∧
    (dtreeA.phase = .dtreeOk ∧ dtreeA.degen = true ∧ dtreeA.tree? = some (.leaf 0x61#8 0) ∧
      (dtreeA.readNode dtreeA.root).isSome = true) := by decide +kernel
theorem witness_DpayloadDecodesTheRest :
    (dtreeAb.phase = .dtreeOk ∧ dtreeAb.tree? = some treeAb ∧ dtreeAb.degen = false ∧ treeAb.isLeaf = false) ∧
    (dtreeA.phase = .dtreeOk ∧ dtreeA.degen = true ∧ (dtreeA.readNode dtreeA.root).isSome = true) := by decide +kernel
theorem witness_DpayloadIsRepeatedDsym :
    dtreeAb.phase = .dtreeOk ∧ (∃ t, exec .dsym dtreeAb = .next t ∧ decide (t.phase = .dtreeOk) = true) ∧
    ∃ t, exec .dsym (after [0x5300#16] { dtreeA with degen := false }) = .next t ∧ (fun _ => true) t = true :=
  ⟨by decide +kernel, exists_next (by decide +kernel), exists_next (by decide +kernel)⟩
theorem witness_DecompIsTheThreeCommands : (stream 1#3 abStream).phase = .idle := rfl
theorem witness_DecompDecodesAStream :
    (stream 1#3 abStream).phase = .idle ∧ (stream 1#3 abStream).bitPos = 0 ∧
    (stream 1#3 abStream).unread = magicBits ++ treeAb.ser ++ [true, false, true, false, true, true, true, true, false, false] ∧
    treeAb.isLeaf = false ∧ treeAb.size ≤ 511 := by decide +kernel
theorem witness_DecompFaultsWithNoOutput :
    (stream 0#3 []).phase = .idle ∧ ∃ t, exec .decomp (stream 0#3 []) = .next t ∧ decide (t.phase = .fault) = true :=
  ⟨rfl, exists_next (by decide +kernel)⟩
/-- "abracadabra" has no padding (V8): TAILSKIP = PADCNT = 0, where the two clauses meet. -/
theorem witness_DecompInvertsComp_no_padding :
    let s := input abracadabra
    let z : List Byte := [0x48#8, 0x46#8, 0x98#8, 0x67#8, 0x2C#8, 0xC6#8, 0x64#8, 0x31#8, 0x3C#8, 0xC6#8, 0xBC#8]
    Inv s ∧ s.phase = .idle ∧
    (∃ t, exec .comp s = .next t ∧
      decide (t.phase = .done ∧ (stream 0#3 z).inp = t.out ∧ (stream 0#3 z).tailskip = t.padcnt) = true) ∧
    Inv (stream 0#3 z) ∧ (stream 0#3 z).phase = .idle :=
  ⟨inv_of_check (by decide +kernel) fun _ => rfl, rfl, exists_next (by decide +kernel), inv_stream _ _, rfl⟩
/-- TAILSKIP = PADCNT = 1, and TAILSKIP = 0. -/
theorem witness_DecompInvertsComp :
    Inv idleAb ∧ idleAb.phase = .idle ∧
    (∃ t, exec .comp idleAb = .next t ∧ t.phase = .done ∧ (stream 1#3 abStream).inp = t.out ∧
      (stream 1#3 abStream).tailskip = t.padcnt) ∧
    Inv (stream 1#3 abStream) ∧ (stream 1#3 abStream).phase = .idle ∧
    Inv (stream 0#3 abStream) ∧ (stream 0#3 abStream).tailskip = 0 :=
  let ⟨t, ht, h⟩ := next_comp_idleAb
  have h := of_decide_eq_true h
  ⟨inv_idleAb, rfl, ⟨t, ht, h.1, h.2.1.symm, h.2.2.symm⟩, inv_stream 1#3 abStream, rfl, inv_stream 0#3 abStream, rfl⟩
/-- TAILSKIP below, at and above PADCNT. -/
theorem witness_PaddingDecodesAsTheLeftmostLeaf :
    Inv idleAb ∧ idleAb.phase = .idle ∧
    (∃ t, exec .comp idleAb = .next t ∧ t.phase = .done ∧ t.out = abStream ∧ (0#3).toNat ≤ t.padcnt.toNat ∧
      (1#3).toNat ≤ t.padcnt.toNat ∧ t.padcnt.toNat < (2#3).toNat ∧ t.padcnt.toNat < (7#3).toNat) ∧
    ∀ k, Inv (stream k abStream) ∧ (stream k abStream).phase = .idle ∧ (stream k abStream).inp = abStream :=
  let ⟨t, ht, h⟩ := next_comp_idleAb
  have h := of_decide_eq_true h
  ⟨inv_idleAb, rfl, ⟨t, ht, h.1, h.2.1, by simp [h.2.2], by simp [h.2.2], by simp [h.2.2], by simp [h.2.2]⟩,
    fun k => ⟨inv_stream k abStream, rfl, rfl⟩⟩

/-- The four frames: a well-formed command with a next state, here CNT's, ENC's and MERGE's. -/
theorem witness_Frames :
    (∃ t, exec (.cnt 0xFF#8) idleAb = .next t ∧ decide (t.phase = .count) = true) ∧
    (∃ t, exec (.enc 0x61#8) treeOutAb = .next t ∧ decide (t.phase = .encoding) = true) ∧
    (∃ t, exec .merge listedAb = .next t ∧ decide (t.nnodes = 4) = true) ∧
    (Instr.cnt 0xFF#8).wellFormed = true ∧ (Instr.enc 0x61#8).wellFormed = true ∧ Instr.merge.wellFormed = true :=
  ⟨exists_next (by decide +kernel), exists_next (by decide +kernel), exists_next (by decide +kernel), rfl, rfl, rfl⟩

theorem exists_length (k : Nat) : ∃ bytes : List Byte, bytes.length = k := ⟨List.replicate k 0#8, List.length_replicate⟩
/-- A binding between runs, of the longest IN that can be bound and of one byte more, and a binding in a run. -/
theorem witness_FrameOfStreams_bind :
    (∀ bytes rest, let s : State := { faulted (.bind bytes) with host := .bind bytes :: rest }
      s.cfg.valid = true ∧ s.phase ∈ [Phase.idle, .done, .ddone, .fault]) ∧
    (∃ bytes : List Byte, bytes.length = 2 ^ 61 - 1) ∧ 8 * (2 ^ 61 - 1) < 2 ^ 64 ∧
    (∃ bytes : List Byte, bytes.length = 2 ^ 61) ∧ 2 ^ 64 ≤ 8 * 2 ^ 61 ∧
    listedAb.phase ∉ [Phase.idle, .done, .ddone, .fault] :=
  ⟨fun _ _ => ⟨rfl, show Phase.fault ∈ [Phase.idle, .done, .ddone, .fault] by decide⟩, exists_length _, by decide,
    exists_length _, by decide, by decide +kernel⟩

/-- A step of a state of the invariant that is not the reset state. -/
theorem witness_StepKeepsInv :
    let s : State := { listedAb with host := [.command 0x2000#16] }
    Inv s ∧ ∃ t, step s = .next t ∧ decide (t.nlist = 2) = true :=
  ⟨inv_of_check (by decide +kernel) fun h => absurd h (by decide +kernel), exists_next (by decide +kernel)⟩
theorem witness_StepKeepsTotalTheSum :
    let s : State := { listedAb with host := [.command 0x2000#16] }
    CountsOk s ∧ PackerOk s ∧ MemoryOk s ∧ FaultOk s ∧ ∃ t, step s = .next t ∧ decide (t.nlist = 2) = true :=
  let ⟨i, n⟩ := witness_StepKeepsInv
  ⟨i.counts, i.packer, i.memory, i.fault, n⟩
/-- A fault on record, a word that is dropped, CLR and reset. -/
theorem witness_FirstFaultStays :
    (∀ a, FaultOk (faulted a) ∧ (faulted a).phase = .fault) ∧
    ∀ a ∈ [HostAct.command 0x1100#16, .command 0x0000#16, .reset], (nextOf (step (faulted a))).isSome = true :=
  ⟨fun a => ⟨⟨by simp [faulted], by simp [faulted]⟩, rfl⟩, by decide +kernel⟩
theorem witness_InvIsNeverStuck : Inv dtreeAb ∧ Inv treedAb := ⟨inv_dtreeAb, inv_treedAb⟩
theorem witness_StepKeepsEveryWidth :
    let s : State := { idleAb with host := [.command 0x1100#16] }
    s.cfg.valid = true ∧ Inv s ∧ Fits s ∧ ∃ t, step s = .next t ∧ decide (t.total = 6) = true :=
  ⟨rfl, inv_of_check (by decide +kernel) fun _ => rfl, fits_of_cleared rfl (fun _ _ h => nomatch h) (by decide) (by decide),
    exists_next (by decide +kernel)⟩

/-- The ends of the three unmapped ranges. -/
theorem witness_RegistersAtTheReadPort :
    ∀ a ∈ [0x012#12, 0x0FF#12, 0x300#12, 0x3FF#12, 0xBFE#12, 0xFFF#12],
      (0x012 ≤ a.toNat ∧ a.toNat < 0x100) ∨ (0x300 ≤ a.toNat ∧ a.toNat < 0x400) ∨ 0xBFE ≤ a.toNat := by decide +kernel
/-- The longest code, the empty one, the first and the last word and bit. -/
theorem witness_CodeAtTheReadPort :
    let s : State := { State.reset with code := State.reset.code.set 255 (List.replicate 255 true) }
    s.code[symIdx 0xFF#8].length ≤ 255 ∧ s.code[symIdx 0xFF#8].length = 255 ∧ s.code[symIdx 0x00#8].length ≤ 255 ∧
    0 < 4 ∧ 3 < 4 ∧ 0 < 64 ∧ 63 < 64 := by decide +kernel
/-- The first and the last entry, with the greatest weight CW ≤ 48 allows. -/
theorem witness_NodeAtTheReadPort :
    let e : NodeEntry := ⟨0xFF#8, 2 ^ 48 - 1, 0#9, 511#9, 510#9⟩
    let s : State := { State.reset with nnodes := 511, node := [(0, e), (510, e)] }
    (0 < 511 ∧ 0 < s.nnodes ∧ s.node.read 0 = some e) ∧ (510 < 511 ∧ 510 < s.nnodes ∧ s.node.read 510 = some e) ∧
    e.weight < 2 ^ 64 := by decide +kernel

end Sys2Proof.Tests
end

/-! PROOFS. Where a piece of pseudocode may come to, and what it may have changed on the way. -/

namespace Sys2Proof.Machine

open Sys2Proof Sys2Proof.Safety

-- A use of a lemma with default proofs (`:= by rfl`) waits until the lemma is checked. Proofs elaborated side by side would
-- each hold a thread while they wait, and pass the check's memory limit together.
set_option Elab.async false

/-! ## Where pseudocode may come to -/

/-- Where a piece of pseudocode may come to: `Q` where it goes on, `E` where it ends the command, `F` where the machine is
stuck. -/
def Flow.Spec {α : Type} (x : Flow α) (Q : α → State → Prop) (E : State → Prop) (F : Prop) : Prop :=
  match x with
  | .go a t => Q a t
  | .ended t => E t
  | .stuck _ => F

section
variable {α β : Type} {Q Q' : α → State → Prop} {E E' : State → Prop} {F F' : Prop}

@[simp] theorem Flow.spec_go (a : α) (t : State) : (Flow.go a t).Spec Q E F ↔ Q a t := Iff.rfl
@[simp] theorem Flow.spec_ended (t : State) : (Flow.ended t : Flow α).Spec Q E F ↔ E t := Iff.rfl
@[simp] theorem Flow.spec_stuck (f : Fault) : (Flow.stuck f : Flow α).Spec Q E F ↔ F := Iff.rfl

/-- Sequencing: what follows starts where the first part goes on. -/
theorem Flow.Spec.bind {x : Flow α} {k : α → State → Flow β} {R : β → State → Prop} (hx : x.Spec Q E F)
    (hk : ∀ a t, Q a t → (k a t).Spec R E F) : (x.bind k).Spec R E F := by
  cases x with
  | go a t => exact hk a t hx
  | ended t => exact hx
  | stuck f => exact hx

theorem Flow.Spec.mono {x : Flow α} (hx : x.Spec Q E F) (hq : ∀ a t, Q a t → Q' a t) (he : ∀ t, E t → E' t)
    (hf : F → F') : x.Spec Q' E' F' := by
  cases x with
  | go a t => exact hq a t hx
  | ended t => exact he t hx
  | stuck f => exact hf hx

theorem Flow.Spec.and {x : Flow α} (hx : x.Spec Q E F) (hx' : x.Spec Q' E' F') :
    x.Spec (fun a t => Q a t ∧ Q' a t) (fun t => E t ∧ E' t) (F ∧ F') := by
  cases x with
  | go a t => exact ⟨hx, hx'⟩
  | ended t => exact ⟨hx, hx'⟩
  | stuck f => exact ⟨hx, hx'⟩

/-- The next state of a command is one its pseudocode goes on or ends with. -/
theorem Flow.Spec.next {x : Flow Unit} {P : State → Prop} {t : State} (hx : x.Spec (fun _ => P) P F)
    (h : x.toOutcome = .next t) : P t := by
  obtain rfl | rfl := Flow.toOutcome_eq_next.mp h
  · exact hx
  · exact hx

theorem Flow.Spec.not_fault {x : Flow Unit} {Q : Unit → State → Prop} {f : Fault} (hx : x.Spec Q E False) :
    x.toOutcome ≠ .fault f := by
  intro h
  rw [Flow.toOutcome_eq_fault.mp h] at hx
  exact hx

end

/-! ## The groups of registers and what a piece of pseudocode may do to them -/

/-- The groups of state that the frames of the commands speak of (10_state.md R10). PHASE and the fault record stand apart:
every command may write them. -/
inductive Field where
  | ctrl | degen | notSmaller | outFinal | padcnt | counts | nsym | node | nnodes | list | root | codes | sizes | inPos | bitPos
  | packer | out
  deriving DecidableEq

/-- The group has the same value in both states. -/
def Field.Same (s t : State) : Field → Prop
  | .ctrl => t.force = s.force ∧ t.tailskip = s.tailskip
  | .degen => t.degen = s.degen
  | .notSmaller => t.notSmaller = s.notSmaller
  | .outFinal => t.outFinal = s.outFinal
  | .padcnt => t.padcnt = s.padcnt
  | .counts => t.freq = s.freq ∧ t.total = s.total
  | .nsym => t.nsym = s.nsym
  | .node => t.node = s.node
  | .nnodes => t.nnodes = s.nnodes
  | .list => t.head = s.head ∧ t.nlist = s.nlist
  | .root => t.root = s.root
  | .codes => t.code = s.code ∧ t.treebits = s.treebits
  | .sizes => t.paybits = s.paybits ∧ t.estbits = s.estbits ∧ t.uncbits = s.uncbits
  | .inPos => t.inPos = s.inPos
  | .bitPos => t.bitPos = s.bitPos
  | .packer => t.acc = s.acc ∧ t.nbits = s.nbits
  | .out => t.out = s.out

theorem Field.Same.refl (s : State) (f : Field) : f.Same s s := by
  cases f <;> simp [Field.Same]

theorem Field.Same.trans {s t u : State} {f : Field} (h : f.Same s t) (h' : f.Same t u) : f.Same s u := by
  cases f <;> simp_all [Field.Same]

/-- What pseudocode that writes only the groups `fs` may do: other groups, the parameters, the host's list and IN stay; OUT is
only appended to; the cursors stay within IN; and the parts of the invariant that hold in every phase are kept. -/
structure Effect (fs : List Field) (s t : State) : Prop where
  same : ∀ f, f ∉ fs → f.Same s t
  cfg : t.cfg = s.cfg
  host : t.host = s.host
  inp : t.inp = s.inp
  out : s.out <+: t.out
  inPos : t.inPos ≤ max s.inPos s.inp.length
  bitPos : t.bitPos ≤ max s.bitPos (8 * s.inp.length)
  counts : CountsOk s → CountsOk t
  packer : PackerOk s → PackerOk t
  memory : MemoryOk s → MemoryOk t

/-- An effect from what it does to the groups it writes: what the others owe follows from their being the same. -/
theorem Effect.of {fs : List Field} {s t : State}
    (same : ∀ f, f ∉ fs → f.Same s t := by rintro ⟨⟩ <;> simp [Field.Same])
    (cfg : t.cfg = s.cfg := by rfl) (host : t.host = s.host := by rfl) (inp : t.inp = s.inp := by rfl)
    (out : Field.out ∈ fs → s.out <+: t.out := by simp)
    (inPos : Field.inPos ∈ fs → t.inPos ≤ max s.inPos s.inp.length := by simp)
    (bitPos : Field.bitPos ∈ fs → t.bitPos ≤ max s.bitPos (8 * s.inp.length) := by simp)
    (counts : Field.counts ∈ fs → CountsOk s → CountsOk t := by simp)
    (packer : Field.packer ∈ fs → PackerOk s → PackerOk t := by simp)
    (memory : Field.node ∈ fs ∨ Field.nnodes ∈ fs → MemoryOk s → MemoryOk t := by simp) : Effect fs s t where
  same := same
  cfg := cfg
  host := host
  inp := inp
  out := by
    by_cases h : Field.out ∈ fs
    · exact out h
    · rw [show t.out = s.out from same .out h]
  inPos := by
    by_cases h : Field.inPos ∈ fs
    · exact inPos h
    · exact (show t.inPos = s.inPos from same .inPos h) ▸ le_max_left _ _
  bitPos := by
    by_cases h : Field.bitPos ∈ fs
    · exact bitPos h
    · exact (show t.bitPos = s.bitPos from same .bitPos h) ▸ le_max_left _ _
  counts hs := by
    by_cases h : Field.counts ∈ fs
    · exact counts h hs
    · obtain ⟨hf, ht⟩ : t.freq = s.freq ∧ t.total = s.total := same .counts h
      exact ⟨by rw [hf, ht, hs.sum], by rw [ht, cfg]; exact hs.fits⟩
  packer hs := by
    by_cases h : Field.packer ∈ fs
    · exact packer h hs
    · obtain ⟨ha, hn⟩ : t.acc = s.acc ∧ t.nbits = s.nbits := same .packer h
      simpa only [PackerOk, ha, hn] using hs
  memory hs := by
    by_cases h : Field.node ∈ fs ∨ Field.nnodes ∈ fs
    · exact memory h hs
    · rw [not_or] at h
      have hm : t.node = s.node := same .node h.1
      have hn : t.nnodes = s.nnodes := same .nnodes h.2
      exact ⟨by rw [hm, hs.wf], by rw [hn]; exact hs.cap⟩

theorem Effect.refl (fs : List Field) (s : State) : Effect fs s s where
  same f _ := .refl s f
  cfg := rfl
  host := rfl
  inp := rfl
  out := List.prefix_refl _
  inPos := le_max_left _ _
  bitPos := le_max_left _ _
  counts := id
  packer := id
  memory := id

theorem Effect.trans {fs : List Field} {s t u : State} (h : Effect fs s t) (h' : Effect fs t u) : Effect fs s u where
  same f hf := (h.same f hf).trans (h'.same f hf)
  cfg := h'.cfg.trans h.cfg
  host := h'.host.trans h.host
  inp := h'.inp.trans h.inp
  out := h.out.trans h'.out
  inPos := by
    have h1 := h.inPos
    have h2 := h'.inPos
    rw [h.inp] at h2
    omega
  bitPos := by
    have h1 := h.bitPos
    have h2 := h'.bitPos
    rw [h.inp] at h2
    omega
  counts := h'.counts ∘ h.counts
  packer := h'.packer ∘ h.packer
  memory := h'.memory ∘ h.memory

theorem Effect.mono {fs gs : List Field} {s t : State} (h : Effect fs s t) (hg : fs ⊆ gs) : Effect gs s t :=
  { h with same := fun f hf => h.same f fun hc => hf (hg hc) }

/-! ## The plain updates -/

theorem effect_phase (fs : List Field) (s : State) (p : Phase) : Effect fs s { s with phase := p } :=
  (Effect.of (fs := [])).mono (by simp)

theorem effect_raise (fs : List Field) (s : State) (c : ErrCode) (i : Word64) : Effect fs s (s.raise c i) :=
  (Effect.of (fs := [])).mono (by simp)

theorem effect_emit (s : State) (b : Byte) : Effect [.out] s (s.emit b) :=
  Effect.of (out := fun _ => List.prefix_append _ _)

theorem effect_writeBits (bs : Bits) (s : State) : Effect [.packer, .out] s (s.writeBits bs) := by
  obtain ⟨more, a, n, h⟩ := s.writeBits_frame bs
  exact Effect.of (same := by rw [h]; rintro ⟨⟩ <;> simp [Field.Same]) (cfg := by rw [h]) (host := by rw [h])
    (inp := by rw [h]) (out := fun _ => by rw [h]; exact List.prefix_append _ _)
    (packer := fun _ hs => State.writeBits_acc bs hs)

theorem effect_writeBit (b : Bool) (s : State) : Effect [.packer, .out] s (s.writeBit b) := effect_writeBits [b] s

theorem effect_pad (s : State) : Effect [.packer, .out, .padcnt] s s.pad := by
  unfold State.pad
  split
  · exact (Effect.of (fs := [.padcnt])).mono (by simp)
  · exact Effect.of (out := fun _ => List.prefix_append _ _) (packer := fun _ _ => show (0 : Nat) < 1 by decide)

/-- `NODE[h] <- e`, `h` being the handle of an entry. -/
theorem effect_putNode (s : State) {h : Handle} (e : NodeEntry) (hh : h.toNat < Config.nodeCap) :
    Effect [.node] s (s.putNode h e) :=
  Effect.of (memory := fun _ hs => ⟨State.putNode_wf e hs.wf hh, hs.cap⟩)

/-- The next byte of IN taken: the cursor stays within IN (R42). -/
theorem effect_inByte {s t : State} {b : Byte} (h : s.inByte = some (b, t)) : Effect [.inPos] s t := by
  obtain ⟨hb, rfl⟩ := State.inByte_eq_some.mp h
  have hlt := (List.getElem?_eq_some_iff.mp hb).1
  exact Effect.of (inPos := fun _ => by change s.inPos + 1 ≤ _; omega)

/-- The next bits of IN taken: the cursor stays within IN (R45). -/
theorem effect_bitPos (s : State) {n : Nat} (h : n ≤ s.bitsLeft) :
    Effect [.bitPos] s { s with bitPos := s.bitPos + n } :=
  Effect.of (bitPos := fun _ => by
    simp only [State.bitsLeft, State.limit] at h
    change s.bitPos + n ≤ _
    omega)

theorem effect_readBit {s t : State} {b : Bool} (h : s.readBit = some (b, t)) : Effect [.bitPos] s t := by
  obtain ⟨hl, -, rfl⟩ := State.readBit_eq_some.mp h
  exact effect_bitPos s (Nat.one_le_iff_ne_zero.mpr hl)

theorem effect_read8 {s t : State} {b : Byte} (h : s.read8 = some (b, t)) : Effect [.bitPos] s t := by
  obtain ⟨hl, -, rfl⟩ := State.read8_eq_some h
  exact effect_bitPos s hl

/-- Raising one count by one raises the sum by one. -/
theorem sum_set_succ (l : List Nat) {i : Nat} (h : i < l.length) : (l.set i (l[i] + 1)).sum = l.sum + 1 := by
  induction l generalizing i with
  | nil => simp at h
  | cons x xs ih =>
    cases i with
    | zero => simp; omega
    | succ i =>
      have := ih (i := i) (by simpa using h)
      simp only [List.set_cons_succ, List.getElem_cons_succ, List.sum_cons, this]
      omega

/-- One occurrence counted, TOTAL being below its bound (R82). -/
theorem effect_countSymbol {s : State} (sym : Byte) (h : s.total ≠ s.cfg.maxCount) :
    Effect [.counts] s
      { s with freq := s.freq.set (symIdx sym) (s.freq[symIdx sym] + 1), total := s.total + 1 } :=
  Effect.of (counts := fun _ hs => by
    have hfit := hs.fits
    refine ⟨?_, show s.total + 1 ≤ s.cfg.maxCount by omega⟩
    have := sum_set_succ s.freq.toList (i := symIdx sym) (by simp)
    simpa [Vector.toList_set, hs.sum, eq_comm] using this)

/-! ## Pseudocode within an effect -/

/-- A command goes on with no fault raised. -/
structure Calm (s t : State) : Prop where
  err : t.err = s.err
  errinfo : t.errinfo = s.errinfo

/-- A command ends where it raises a fault, or with the run (44_decoder.md R132). -/
def Halted (s t : State) : Prop := (t.phase = .fault ∧ t.err ≠ .none) ∨ (t.phase = .ddone ∧ Calm s t)

theorem Calm.refl (s : State) : Calm s s := ⟨rfl, rfl⟩

theorem Calm.trans {s t u : State} (h : Calm s t) (h' : Calm t u) : Calm s u :=
  ⟨h'.err.trans h.err, h'.errinfo.trans h.errinfo⟩

theorem Calm.halted {s t u : State} (h : Calm s t) (h' : Halted t u) : Halted s u :=
  h'.imp_right fun ⟨hp, hc⟩ => ⟨hp, h.trans hc⟩

/-- Pseudocode that writes only the groups `fs`, starting in `s`. -/
def Flow.Within {α : Type} (fs : List Field) (s : State) (x : Flow α) : Prop :=
  x.Spec (fun _ t => Effect fs s t ∧ Calm s t) (fun t => Effect fs s t ∧ Halted s t) True

section
variable {α β : Type} {fs : List Field} {s : State}

theorem Flow.Within.go {a : α} {t : State} (h : Effect fs s t) (hc : Calm s t := by exact ⟨rfl, rfl⟩) :
    (Flow.go a t).Within fs s := ⟨h, hc⟩

theorem Flow.Within.raise {c : ErrCode} {i : Word64} (hc : c ≠ .none) :
    (Flow.ended (s.raise c i) : Flow α).Within fs s := ⟨effect_raise fs s c i, .inl ⟨rfl, hc⟩⟩

theorem Flow.Within.stuck {f : Fault} : (Flow.stuck f : Flow α).Within fs s := trivial

theorem Flow.Within.mono {gs : List Field} {x : Flow α} (h : x.Within fs s) (hg : fs ⊆ gs) : x.Within gs s :=
  Flow.Spec.mono h (fun _ _ h => ⟨h.1.mono hg, h.2⟩) (fun _ h => ⟨h.1.mono hg, h.2⟩) id

/-- Pseudocode that starts after a plain update. -/
theorem Flow.Within.after {x : Flow α} {u : State} (h : x.Within fs u) (he : Effect fs s u)
    (hc : Calm s u := by exact ⟨rfl, rfl⟩) : x.Within fs s :=
  Flow.Spec.mono h (fun _ _ h => ⟨he.trans h.1, hc.trans h.2⟩) (fun _ h => ⟨he.trans h.1, hc.halted h.2⟩) id

theorem Flow.Within.bind {x : Flow α} {k : α → State → Flow β} (hx : x.Within fs s)
    (hk : ∀ a u, x = .go a u → (k a u).Within fs u) : (x.bind k).Within fs s := by
  cases x with
  | go a u => exact (hk a u rfl).after hx.1 hx.2
  | ended t => exact hx
  | stuck f => trivial

end

/-! ### The operations the commands share -/

theorem needNode_within (fs : List Field) (s : State) (h : Handle) : (s.needNode h).Within fs s := by
  obtain ⟨e, -, he⟩ | ⟨-, he⟩ := s.needNode_cases h
  · rw [he]
    exact .go (.refl fs s)
  · rw [he]
    exact .stuck

/-- A read of an entry, and what follows it. -/
theorem needNode_bind_within {β : Type} {fs : List Field} {s : State} {h : Handle} {k : NodeEntry → State → Flow β}
    (hk : ∀ e, s.readNode h = some e → (k e s).Within fs s) : ((s.needNode h).bind k).Within fs s :=
  (needNode_within fs s h).bind fun e u hu => by
    obtain ⟨he, rfl⟩ := State.needNode_eq_go.mp hu
    exact hk e he

theorem changeNode_within (s : State) (h : Handle) (f : NodeEntry → NodeEntry) : (s.changeNode h f).Within [.node] s :=
  needNode_bind_within fun e he => .go (Effect.of (memory := fun _ hs =>
    ⟨State.putNode_wf _ hs.wf (Memory.read_bounds hs.wf (State.readNode_eq_some.mp he).2).2, hs.cap⟩))

theorem setNext_within (s : State) (h v : Handle) : (s.setNext h v).Within [.node] s := changeNode_within s h _

theorem takeHandle_within (s : State) : s.takeHandle.Within [.nnodes] s := by
  unfold State.takeHandle
  split
  · exact .go (Effect.of (memory := fun _ hs => ⟨hs.wf, by assumption⟩))
  · exact .stuck

/-- A handle taken, which is the number of an entry, and what follows. -/
theorem takeHandle_bind_within {β : Type} {fs : List Field} {s : State} {k : Handle → State → Flow β} (hfs : .nnodes ∈ fs)
    (hk : ∀ (n : Handle), n.toNat = s.nnodes → n.toNat < Config.nodeCap →
      (k n { s with nnodes := s.nnodes + 1 }).Within fs { s with nnodes := s.nnodes + 1 }) :
    (s.takeHandle.bind k).Within fs s :=
  ((takeHandle_within s).mono (by simpa using hfs)).bind fun n u hu => by
    obtain ⟨hlt, rfl, rfl⟩ := State.takeHandle_eq_go.mp hu
    exact hk _ (handle_toNat hlt) (by rw [handle_toNat hlt]; exact hlt)

theorem findSlot_within (fs : List Field) (s : State) (pass : Nat → Bool) (fuel : Nat) (prev cur : Handle) :
    (s.findSlot pass fuel prev cur).Within fs s := by
  cases h : s.findSlot pass fuel prev cur with
  | go r t =>
    obtain rfl := State.findSlot_eq_go h
    exact .go (.refl fs _)
  | ended t => exact absurd h State.findSlot_ne_ended
  | stuck f => exact .stuck

theorem effect_head (s : State) (h : Handle) : Effect [.list] s { s with head := h } := Effect.of
theorem effect_nlist (s : State) (n : Nat) : Effect [.list] s { s with nlist := n } := Effect.of

theorem effect_root (s : State) (h : Handle) : Effect [.root] s { s with root := h } := Effect.of
theorem effect_nsym (s : State) (n : Nat) : Effect [.nsym] s { s with nsym := n } := Effect.of
theorem effect_degen (s : State) (b : Bool) (p : Phase) : Effect [.degen] s { s with degen := b, phase := p } := Effect.of
theorem effect_final (s : State) (p : Phase) : Effect [.outFinal] s { s with outFinal := true, phase := p } := Effect.of
/-- LIST starts with no node and an empty list (R84). -/
theorem effect_emptyList (s : State) : Effect [.nnodes, .list] s { s with nnodes := 0, head := Config.nil, nlist := 0 } :=
  Effect.of (memory := fun _ hs => ⟨hs.wf, Nat.zero_le _⟩)
/-- DTREE starts with no node (R131). -/
theorem effect_noNodes (s : State) : Effect [.nnodes] s { s with nnodes := 0 } :=
  Effect.of (memory := fun _ hs => ⟨hs.wf, Nat.zero_le _⟩)

theorem insertSorted_within (n : Handle) (pass : Nat → Bool) (s : State) :
    (s.insertSorted n pass).Within [.node, .list] s :=
  (findSlot_within _ s pass _ _ _).bind fun _ u _ =>
    ((setNext_within u n _).mono (by simp)).bind fun _ v _ => by
      split
      · exact .go ((effect_head v n).mono (by simp))
      · exact (setNext_within v _ n).mono (by simp)

theorem needByte_within (s : State) : (needByte s).Within [.bitPos] s := by
  unfold needByte
  split
  · exact .go (effect_read8 ‹_›) (by obtain ⟨-, -, rfl⟩ := State.read8_eq_some ‹_›; exact ⟨rfl, rfl⟩)
  · exact .raise (by decide)

theorem raiseDegenerate_within {α : Type} (fs : List Field) (s : State) : (raiseDegenerate s : Flow α).Within fs s :=
  needNode_bind_within fun _ _ => .raise (by decide)

/-! ### The frequency table, the list and the tree builder -/

theorem countSymbol_within (sym : Byte) (s : State) : (countSymbol sym s).Within [.counts] s := by
  unfold countSymbol
  split
  · exact .raise (by decide)
  · exact .go (effect_countSymbol sym ‹_›)

theorem cntBody_within (sym : Byte) (s : State) : (cntBody sym s).Within [.counts] s :=
  (countSymbol_within sym s).bind fun _ u _ => .go (effect_phase _ u _)

theorem freqLoop_within (fuel : Nat) (s : State) : (freqLoop fuel s).Within [.counts, .inPos] s := by
  induction fuel generalizing s with
  | zero => exact .go (.refl _ s)
  | succ fuel ih =>
    unfold freqLoop
    split
    · exact .go (.refl _ s)
    · rename_i b u hu
      refine (((countSymbol_within b u).mono (by simp)).bind fun _ v _ => ih v).after ((effect_inByte hu).mono (by simp)) ?_
      obtain ⟨-, rfl⟩ := State.inByte_eq_some.mp hu
      exact ⟨rfl, rfl⟩

theorem freqBody_within (s : State) : (freqBody s).Within [.counts, .inPos] s :=
  (freqLoop_within _ s).bind fun _ u _ => .go (effect_phase _ u _)

theorem listLeaf_within (sym : Byte) (w : Nat) (s : State) : (listLeaf sym w s).Within [.node, .nnodes, .list] s :=
  takeHandle_bind_within (by simp) fun n _ hn =>
    (((insertSorted_within n _ _).mono (by simp)).after ((effect_putNode _ _ hn).mono (by simp))).bind fun _ u _ =>
      .go ((effect_nlist u _).mono (by simp))

theorem listLoop_within (ws : List Nat) (k : Nat) (s : State) : (listLoop ws k s).Within [.node, .nnodes, .list] s := by
  induction ws generalizing k s with
  | nil => exact .go (.refl _ s)
  | cons w ws ih =>
    refine Flow.Within.bind ?_ fun _ u _ => ih (k + 1) u
    split
    · exact listLeaf_within _ w s
    · exact .go (.refl _ s)

theorem listBody_within (s : State) : (listBody s).Within [.node, .nnodes, .list, .nsym] s := by
  refine (((listLoop_within s.freq.toList 0 _).mono (by simp)).after ((effect_emptyList s).mono (by simp))).bind
    fun _ u _ => Flow.Within.after (u := { u with nsym := u.nlist }) ?_ ((effect_nsym u _).mono (by simp))
  dsimp only
  split
  · exact .raise (by decide)
  · exact .go (effect_phase _ _ _)

theorem mergeStep_within (s : State) : (mergeStep s).Within [.node, .nnodes, .list] s :=
  needNode_bind_within fun ea _ => needNode_bind_within fun eb _ => takeHandle_bind_within (by simp) fun p _ hp =>
    ((((setNext_within _ s.head _).mono (by simp)).bind fun _ u _ => ((setNext_within u ea.next _).mono (by simp)).bind
      fun _ v _ => ((insertSorted_within p _ v).mono (by simp)).bind fun _ x _ =>
        .go ((effect_nlist x _).mono (by simp))).after ((effect_head _ eb.next).mono (by simp))).after
          ((effect_putNode _ _ hp).mono (by simp))

theorem mergeLoop_within (fuel : Nat) (s : State) : (mergeLoop fuel s).Within [.node, .nnodes, .list] s := by
  induction fuel generalizing s with
  | zero => exact .go (.refl _ s)
  | succ fuel ih =>
    unfold mergeLoop
    split
    · exact (mergeStep_within s).bind fun _ u _ => ih u
    · exact .go (.refl _ s)

theorem treeBody_within (s : State) : (treeBody s).Within [.node, .nnodes, .list, .root, .degen] s := by
  refine ((mergeLoop_within _ s).mono (by simp)).bind fun _ u _ => ?_
  refine Flow.Within.after (u := { u with root := u.head }) ?_ ((effect_root u _).mono (by simp))
  refine ((setNext_within _ _ _).mono (by simp)).bind fun _ v _ => ?_
  refine Flow.Within.after (u := { v with head := Config.nil }) ?_ ((effect_head v _).mono (by simp))
  exact needNode_bind_within fun e _ => .go ((effect_degen _ _ _).mono (by simp))

/-! ### The code table and the encoder -/

theorem codesWalk_within (fuel : Nat) (n : Handle) (path : Bits) (s : State) :
    (codesWalk fuel n path s).Within [.codes] s := by
  induction fuel generalizing n path s with
  | zero => exact .stuck
  | succ fuel ih =>
    refine needNode_bind_within fun e _ => ?_
    split
    · exact .go Effect.of
    · exact ((ih e.left _ _).bind fun _ u _ => ih e.right _ u).after Effect.of

theorem codesBody_within (s : State) : (codesBody s).Within [.codes] s :=
  ((codesWalk_within _ _ _ _).bind fun _ u _ => .go (effect_phase _ u _)).after Effect.of

theorem checkBody_within (s : State) : (checkBody s).Within [.sizes, .notSmaller] s := by
  unfold checkBody
  dsimp only
  split
  · exact Flow.Within.after (.raise (by decide)) Effect.of
  · exact .go Effect.of

theorem writeBits_calm (bs : Bits) (s : State) : Calm s (s.writeBits bs) := by
  obtain ⟨m, a, n, h⟩ := s.writeBits_frame bs
  rw [h]
  exact ⟨rfl, rfl⟩

theorem hdrBody_within (s : State) : (hdrBody s).Within [.packer, .out] s := by
  unfold hdrBody
  split
  · exact raiseDegenerate_within _ s
  · rw [show (s.write8 Config.magic0).write8 Config.magic1 = s.writeBits magicBits from rfl]
    have he := effect_writeBits magicBits s
    have hc := writeBits_calm magicBits s
    generalize s.writeBits magicBits = u at he hc ⊢
    exact Flow.Within.after (.go (effect_phase _ u _)) he hc

theorem serWalk_within (fuel : Nat) (n : Handle) (s : State) : (serWalk fuel n s).Within [.packer, .out] s := by
  induction fuel generalizing n s with
  | zero => exact .stuck
  | succ fuel ih =>
    refine needNode_bind_within fun e _ => ?_
    split
    · exact .go (effect_writeBits (false :: byteBits e.sym) s) (writeBits_calm (false :: byteBits e.sym) s)
    · exact ((ih e.left _).bind fun _ u _ => ih e.right u).after (effect_writeBit true s) (writeBits_calm [true] s)

theorem streeBody_within (s : State) : (streeBody s).Within [.packer, .out] s :=
  (serWalk_within _ _ s).bind fun _ u _ => .go (effect_phase _ u _)

theorem encodeSymbol_within (sym : Byte) (s : State) : (encodeSymbol sym s).Within [.packer, .out] s := by
  unfold encodeSymbol
  dsimp only
  split
  · exact .raise (by decide)
  · exact .go (effect_writeBits _ s) (writeBits_calm _ s)

theorem encBody_within (sym : Byte) (s : State) : (encBody sym s).Within [.packer, .out] s :=
  (encodeSymbol_within sym s).bind fun _ u _ => .go (effect_phase _ u _)

theorem payloadLoop_within (fuel : Nat) (s : State) : (payloadLoop fuel s).Within [.packer, .out, .inPos] s := by
  induction fuel generalizing s with
  | zero => exact .go (.refl _ s)
  | succ fuel ih =>
    unfold payloadLoop
    split
    · exact .go (.refl _ s)
    · rename_i b u hu
      refine (((encodeSymbol_within b u).mono (by simp)).bind fun _ v _ => ih v).after ((effect_inByte hu).mono (by simp)) ?_
      obtain ⟨-, rfl⟩ := State.inByte_eq_some.mp hu
      exact ⟨rfl, rfl⟩

theorem payloadBody_within (s : State) : (payloadBody s).Within [.packer, .out, .inPos] s :=
  ((payloadLoop_within _ _).bind fun _ u _ => .go (effect_phase _ u _)).after (u := s.rewind)
    ((Effect.of (fs := [.inPos]) (inPos := fun _ => Nat.zero_le _)).mono (by simp))

theorem flushBody_within (s : State) : (flushBody s).Within [.packer, .out, .padcnt, .outFinal] s :=
  .go (((effect_pad s).mono (by simp)).trans ((effect_final _ _).mono (by simp))) (by unfold State.pad; split <;> exact ⟨rfl, rfl⟩)

/-! ### The decoder -/

theorem dhdrBody_within (s : State) : (dhdrBody s).Within [.bitPos] s :=
  (needByte_within s).bind fun _ u _ => by
    split
    · refine (needByte_within u).bind fun _ v _ => ?_
      split
      · exact .go (effect_phase _ v _)
      · exact .raise (by decide)
    · exact .raise (by decide)

theorem buildTree_within (fuel : Nat) (s : State) : (buildTree fuel s).Within [.node, .nnodes, .bitPos] s := by
  induction fuel generalizing s with
  | zero => exact .stuck
  | succ fuel ih =>
    unfold buildTree
    split
    · exact .raise (by decide)
    · rename_i f u hu
      refine Flow.Within.after (u := u) ?_ ((effect_readBit hu).mono (by simp))
        (by obtain ⟨-, -, rfl⟩ := State.readBit_eq_some.mp hu; exact ⟨rfl, rfl⟩)
      split
      · exact .raise (by decide)
      · refine takeHandle_bind_within (by simp) fun n _ hn => ?_
        split
        · exact ((ih _).bind fun _ v _ => ((changeNode_within v n _).mono (by simp)).bind fun _ x _ => (ih x).bind fun _ y _ =>
            ((changeNode_within y n _).mono (by simp)).bind fun _ z _ => .go (.refl _ z)).after
              ((effect_putNode _ _ hn).mono (by simp))
        · exact ((needByte_within _).mono (by simp)).bind fun _ v _ => .go ((effect_putNode v _ hn).mono (by simp))

theorem dtreeBody_within (s : State) : (dtreeBody s).Within [.node, .nnodes, .bitPos, .root, .degen] s :=
  (((buildTree_within walkFuel _).mono (by simp)).after ((effect_noNodes s).mono (by simp))).bind fun r u _ =>
    Flow.Within.after (u := { u with root := r }) (needNode_bind_within fun _ _ => .go ((effect_degen _ _ _).mono (by simp)))
      ((effect_root u r).mono (by simp))

theorem symbolWalk_within (fuel : Nat) (cur : Handle) (s : State) :
    (symbolWalk fuel cur s).Within [.out, .bitPos, .outFinal] s := by
  induction fuel generalizing cur s with
  | zero => exact .stuck
  | succ fuel ih =>
    refine needNode_bind_within fun e _ => ?_
    split
    · exact .go ((effect_emit s _).mono (by simp))
    · split
      · exact ⟨(effect_final s .ddone).mono (by simp), .inr ⟨rfl, rfl, rfl⟩⟩
      · rename_i b u hu
        refine (ih _ u).after ((effect_readBit hu).mono (by simp)) ?_
        obtain ⟨-, -, rfl⟩ := State.readBit_eq_some.mp hu
        exact ⟨rfl, rfl⟩

theorem dsymBody_within (s : State) : (dsymBody s).Within [.out, .bitPos, .outFinal] s := by
  unfold dsymBody
  split
  · exact raiseDegenerate_within _ s
  · exact symbolWalk_within _ _ s

theorem dpayloadLoop_within (fuel : Nat) (s : State) : (dpayloadLoop fuel s).Within [.out, .bitPos, .outFinal] s := by
  induction fuel generalizing s with
  | zero => exact .stuck
  | succ fuel ih => exact (dsymBody_within s).bind fun _ u _ => ih u

end Sys2Proof.Machine

/-! PROOFS. What one command can do, said once for all twenty, and the frames of the commands. -/

namespace Sys2Proof.Machine

open Sys2Proof Sys2Proof.Safety

/-! ## A command as its pseudocode -/

/-- The pseudocode of a command; CLR has no phase to test and is its own whole (R80). -/
def pseudocode : Instr → State → Flow Unit
  | .clr => fun s => .go () s.cleared
  | .ctl opd => ctlBody opd
  | .cnt sym => cntBody sym
  | .freq => freqBody
  | .list => listBody
  | .merge => mergeStep
  | .tree => treeBody
  | .codes => codesBody
  | .check => checkBody
  | .hdr => hdrBody
  | .stree => streeBody
  | .enc sym => encBody sym
  | .payload => payloadBody
  | .flush => flushBody
  | .comp => compBody
  | .dhdr => dhdrBody
  | .dtree => dtreeBody
  | .dsym => dsymBody
  | .dpayload => dpayloadBody
  | .decomp => decompBody

/-- Whether a command may run, as `exec` tests it (R150 step 3). -/
def legalTest : Instr → State → Bool
  | .merge => fun s => inPhases [.listed] s && decide (2 ≤ s.nlist)
  | i => inPhases (legalPhases i)

theorem legalTest_iff {i : Instr} {s : State} : legalTest i s = true ↔ Legal i s := by
  cases i with
  | merge => simp [legalTest, Legal, legalPhases, legalExtra]
  | _ => simp [legalTest, Legal, legalExtra]

/-- Every command but CLR is taken as R150 says; CTL's operand is looked at before the phase (log 18). -/
theorem exec_eq_command {i : Instr} (hc : i ≠ .clr) (hw : i.wellFormed = true) (s : State) :
    exec i s = command i (legalTest i) (pseudocode i) s := by
  cases i with
  | clr => exact absurd rfl hc
  | ctl opd => exact if_pos hw
  | _ => rfl

/-- A CTL whose operand is not one is dropped in FAULT and is an illegal word elsewhere (R81, R150). -/
theorem exec_of_not_wellFormed {i : Instr} (hw : ¬ i.wellFormed = true) (s : State) :
    exec i s = if s.phase = .fault then .next s else .next (s.raise .illegalCmd (wordInfo (encode i) s.phase)) := by
  cases i with
  | ctl opd => exact if_neg hw
  | _ => exact absurd rfl hw

/-- What a command does: CLR clears; in FAULT any other is dropped; one that may not run raises a fault; one that may run runs
its pseudocode (R150). -/
theorem exec_cases (i : Instr) (s : State) :
    (i = .clr ∧ exec i s = .next s.cleared) ∨
    (s.phase = .fault ∧ exec i s = .next s) ∨
    (s.phase ≠ .fault ∧ ∃ c info, c ≠ ErrCode.none ∧ exec i s = .next (s.raise c info)) ∨
    (i ≠ .clr ∧ s.phase ≠ .fault ∧ Legal i s ∧ exec i s = (pseudocode i s).toOutcome) := by
  by_cases hc : i = .clr
  · exact .inl ⟨hc, by subst hc; rfl⟩
  right
  by_cases hw : i.wellFormed = true
  · rw [exec_eq_command hc hw]
    obtain ⟨hf, h⟩ | ⟨hf, hl, h⟩ | ⟨hf, hl, h⟩ := command_cases i (legalTest i) (pseudocode i) s
    · exact .inl ⟨hf, h⟩
    · exact .inr (.inl ⟨hf, _, _, by decide, h⟩)
    · exact .inr (.inr ⟨hc, hf, legalTest_iff.mp hl, h⟩)
  · rw [exec_of_not_wellFormed hw]
    by_cases hf : s.phase = .fault
    · exact .inl ⟨hf, if_pos hf⟩
    · exact .inr (.inl ⟨hf, _, _, by decide, if_neg hf⟩)

/-! ## Which groups each command writes -/

/-- The groups of state a command writes besides PHASE and the fault record, as the rules of 10_state.md name the writers. -/
def writes : Instr → List Field
  | .clr => [.degen, .notSmaller, .outFinal, .padcnt, .counts, .nsym, .nnodes, .list, .root, .codes, .sizes, .inPos, .bitPos,
      .packer, .out]
  | .ctl _ => [.ctrl]
  | .cnt _ => [.counts]
  | .freq => [.counts, .inPos]
  | .list => [.node, .nnodes, .list, .nsym]
  | .merge => [.node, .nnodes, .list]
  | .tree => [.node, .nnodes, .list, .root, .degen]
  | .codes => [.codes]
  | .check => [.sizes, .notSmaller]
  | .hdr | .stree | .enc _ => [.packer, .out]
  | .payload => [.packer, .out, .inPos]
  | .flush => [.packer, .out, .padcnt, .outFinal]
  | .comp => [.counts, .inPos, .node, .nnodes, .list, .nsym, .root, .degen, .codes, .sizes, .notSmaller, .packer, .out, .padcnt,
      .outFinal]
  | .dhdr => [.bitPos]
  | .dtree => [.node, .nnodes, .bitPos, .root, .degen]
  | .dsym | .dpayload => [.out, .bitPos, .outFinal]
  | .decomp => [.bitPos, .node, .nnodes, .root, .degen, .out, .outFinal]

theorem compBody_within (s : State) : (compBody s).Within (writes .comp) s :=
  ((freqBody_within s).mono (by decide)).bind fun _ s _ => ((listBody_within s).mono (by decide)).bind fun _ s _ =>
    ((treeBody_within s).mono (by decide)).bind fun _ s _ => ((codesBody_within s).mono (by decide)).bind fun _ s _ =>
      ((checkBody_within s).mono (by decide)).bind fun _ s _ => ((hdrBody_within s).mono (by decide)).bind fun _ s _ =>
        ((streeBody_within s).mono (by decide)).bind fun _ s _ => ((payloadBody_within s).mono (by decide)).bind fun _ s _ =>
          (flushBody_within s).mono (by decide)

theorem decompBody_within (s : State) : (decompBody s).Within (writes .decomp) s :=
  ((dhdrBody_within s).mono (by decide)).bind fun _ s _ => ((dtreeBody_within s).mono (by decide)).bind fun _ s _ =>
    (dpayloadLoop_within _ s).mono (by decide)

/-- Every command but CLR writes no other group. -/
theorem pseudocode_within {i : Instr} (hc : i ≠ .clr) (s : State) : (pseudocode i s).Within (writes i) s := by
  cases i with
  | clr => exact absurd rfl hc
  | ctl opd => exact .go (Effect.of (fs := [.ctrl]))
  | cnt sym => exact cntBody_within sym s
  | freq => exact freqBody_within s
  | list => exact listBody_within s
  | merge => exact mergeStep_within s
  | tree => exact treeBody_within s
  | codes => exact codesBody_within s
  | check => exact checkBody_within s
  | hdr => exact hdrBody_within s
  | stree => exact streeBody_within s
  | enc sym => exact encBody_within sym s
  | payload => exact payloadBody_within s
  | flush => exact flushBody_within s
  | comp => exact compBody_within s
  | dhdr => exact dhdrBody_within s
  | dtree => exact dtreeBody_within s
  | dsym => exact dsymBody_within s
  | dpayload => exact dpayloadLoop_within _ s
  | decomp => exact decompBody_within s

/-- What a command other than CLR may do, whether it is dropped, rejected or run. -/
theorem exec_effect {i : Instr} {s t : State} (hc : i ≠ .clr) (h : exec i s = .next t) :
    Effect (writes i) s t ∧ (Calm s t ∨ (t.phase = .fault ∧ t.err ≠ .none)) := by
  obtain ⟨rfl, -⟩ | ⟨-, he⟩ | ⟨-, c, info, hn, he⟩ | ⟨-, -, -, he⟩ := exec_cases i s
  · exact absurd rfl hc
  · obtain rfl : s = t := by simpa using he.symm.trans h
    exact ⟨.refl _ s, .inl (.refl s)⟩
  · obtain rfl : s.raise c info = t := by simpa using he.symm.trans h
    exact ⟨effect_raise _ s c info, .inr ⟨rfl, hn⟩⟩
  · exact Flow.Spec.next (P := fun t => Effect (writes i) s t ∧ (Calm s t ∨ (t.phase = .fault ∧ t.err ≠ .none)))
      (Flow.Spec.mono (pseudocode_within hc s) (fun _ _ ht => ⟨ht.1, .inl ht.2⟩)
        (fun _ ht => ⟨ht.1, ht.2.symm.imp_left And.right⟩) id) (he ▸ h)

theorem exec_clr {s t : State} (h : exec .clr s = .next t) : t = s.cleared := by
  have he : exec .clr s = .next s.cleared := rfl
  simpa [eq_comm] using he.symm.trans h

/-- A command leaves every group it does not write. -/
theorem exec_same {i : Instr} {s t : State} (h : exec i s = .next t) (f : Field) : f.Same s t ∨ f ∈ writes i := by
  by_cases hf : f ∈ writes i
  · exact .inr hf
  left
  by_cases hc : i = .clr
  · subst hc
    rw [exec_clr h]
    cases f <;> simp_all [writes, Field.Same]
  · exact (exec_effect hc h).1.same f hf

/-- No command changes the parameters, the host's list or IN. -/
theorem exec_const {i : Instr} {s t : State} (h : exec i s = .next t) : t.cfg = s.cfg ∧ t.host = s.host ∧ t.inp = s.inp := by
  by_cases hc : i = .clr
  · subst hc
    rw [exec_clr h]
    exact ⟨rfl, rfl, rfl⟩
  · have he := (exec_effect hc h).1
    exact ⟨he.cfg, he.host, he.inp⟩

end Sys2Proof.Machine

namespace Sys2Proof.Safety

open Sys2Proof Sys2Proof.Machine

/-- Settles O47: every clause reads the writers of a group off the table of `writes`. -/
theorem frameOfControlAndFlags : Obligations.FrameOfControlAndFlags := by
  intro i s t _ h
  obtain ⟨hcfg, hhost, -⟩ := exec_const h
  refine ⟨hcfg, hhost, (exec_same h .ctrl).imp_right ?_, ?_, (exec_same h .degen).imp_right ?_,
    (exec_same h .notSmaller).imp_right ?_, (exec_same h .outFinal).imp_right ?_, (exec_same h .padcnt).imp_right ?_⟩
  case refine_2 =>
    by_cases hc : i = .clr
    · exact .inr (.inr hc)
    · obtain ⟨he, hi⟩ | ⟨hp, -⟩ := (exec_effect hc h).2
      · exact .inl ⟨he, hi⟩
      · exact .inr (.inl hp)
  all_goals cases i <;> simp [writes]

/-- Settles O48: every clause reads the writers of a group off the table of `writes`. -/
theorem frameOfTables : Obligations.FrameOfTables := by
  intro i s t _ h
  refine ⟨(exec_same h .counts).imp_right ?_, (exec_same h .nsym).imp_right ?_, (exec_same h .node).imp_right ?_,
    (exec_same h .nnodes).imp_right ?_, (exec_same h .list).imp_right ?_, (exec_same h .root).imp_right ?_,
    (exec_same h .codes).imp_right ?_, (exec_same h .sizes).imp_right ?_⟩
  all_goals cases i <;> simp [writes]

theorem betweenRuns_iff (p : Phase) : p.betweenRuns = true ↔ p ∈ [Phase.idle, .done, .ddone, .fault] := by
  cases p <;> decide

/-- A step with a binding next in line binds, or refuses by name (R40, R186; log 10, log 19). -/
theorem step_bind {s : State} {bytes : List Byte} {rest : List HostAct} (hv : s.cfg.valid = true)
    (hh : s.host = .bind bytes :: rest) : step s = bindInput bytes { s with host := rest } := by
  simp only [step, hv, if_true, hh, takeAct]

/-- Settles O49: the commands' part from the table of `writes`, the host's from the two tests of a binding. -/
theorem frameOfStreams : Obligations.FrameOfStreams := by
  refine ⟨fun i s t _ h => ?_, fun s bytes rest hv hh => ?_⟩
  · refine ⟨(exec_const h).2.2, (exec_same h .inPos).imp_right ?_, (exec_same h .bitPos).imp_right ?_,
      (exec_same h .packer).imp_right ?_, (exec_same h .out).imp_right ?_, ?_⟩
    case refine_5 =>
      by_cases hc : i = .clr
      · exact .inr hc
      · exact .inl (exec_effect hc h).1.out
    all_goals cases i <;> simp [writes]
  · rw [step_bind hv hh]
    simp only [bindInput, betweenRuns_iff, inputFits, decide_eq_true_eq]
    refine ⟨fun hp hl => ?_, fun hp hl => ?_, fun hp => if_neg hp⟩
    · rw [if_pos hp, if_pos hl]
    · rw [if_pos hp, if_neg (Nat.not_lt.mpr hl)]

/-! ## TOTAL -/

theorem countsOk_of_zero {s : State} (hf : s.freq = Vector.replicate 256 0) (ht : s.total = 0) : CountsOk s :=
  ⟨by rw [hf, ht, Vector.toList_replicate, List.sum_replicate, smul_zero], by rw [ht]; exact Nat.zero_le _⟩

theorem exec_countsOk {i : Instr} {s t : State} (h : exec i s = .next t) (hs : CountsOk s) : CountsOk t := by
  by_cases hc : i = .clr
  · subst hc
    rw [exec_clr h]
    exact countsOk_of_zero rfl rfl
  · exact (exec_effect hc h).1.counts hs

/-- Settles O52: CNT and FREQ raise TOTAL and one count together, below the bound; no other command writes either. -/
theorem stepKeepsTotalTheSum : Obligations.StepKeepsTotalTheSum := by
  intro s t hs h
  obtain ⟨-, ⟨-, rfl⟩ | ⟨w, rest, -, -, -, rfl⟩ | ⟨w, rest, -, -, -, rfl⟩ | ⟨w, rest, i, -, -, he⟩ | ⟨rest, -, rfl⟩ |
    ⟨bytes, rest, -, -, -, rfl⟩⟩ := step_cases h
  case inr.inr.inr.inl => exact exec_countsOk he ⟨hs.sum, hs.fits⟩
  case inr.inr.inr.inr.inl => exact countsOk_of_zero rfl rfl
  all_goals exact ⟨hs.sum, hs.fits⟩

end Sys2Proof.Safety

/-! PROOFS. The reset state and the read port (10_state.md R28, 20_memory.md R51, R52). -/

namespace Sys2Proof.Machine

open Sys2Proof

/-! ## The read port, range by range -/

theorem toNat_ofNat_of_lt {w n : Nat} (h : n < 2 ^ w) : (BitVec.ofNat w n).toNat = n := by
  rw [BitVec.toNat_ofNat, Nat.mod_eq_of_lt h]

theorem State.readPort_scalar (s : State) {a : BitVec 12} (h : a.toNat < 0x100) : s.readPort a = s.readScalar a.toNat := by
  simp [State.readPort, h]

theorem State.readPort_freq (s : State) (x : Byte) :
    s.readPort (BitVec.ofNat 12 (0x100 + x.toNat)) = BitVec.ofNat 64 s.freq[symIdx x] := by
  have hx : x.toNat < 256 := x.isLt
  have ha : (BitVec.ofNat 12 (0x100 + x.toNat)).toNat = 0x100 + x.toNat := toNat_ofNat_of_lt (by omega)
  simp only [State.readPort, ha]
  rw [if_neg (by omega), if_pos (by omega), Nat.add_sub_cancel_left, Vector.getElem?_eq_getElem hx]
  rfl

theorem State.readPort_codeLength (s : State) (x : Byte) :
    s.readPort (BitVec.ofNat 12 (0x200 + x.toNat)) = BitVec.ofNat 64 s.code[symIdx x].length := by
  have hx : x.toNat < 256 := x.isLt
  have ha : (BitVec.ofNat 12 (0x200 + x.toNat)).toNat = 0x200 + x.toNat := toNat_ofNat_of_lt (by omega)
  simp only [State.readPort, ha]
  rw [if_neg (by omega), if_neg (by omega), if_pos (by omega), Nat.add_sub_cancel_left, Vector.getElem?_eq_getElem hx]
  rfl

theorem State.readPort_codeWord (s : State) (x : Byte) {w : Nat} (hw : w < 4) :
    s.readPort (BitVec.ofNat 12 (0x400 + 4 * x.toNat + w)) = codeWord s.code[symIdx x] w := by
  have hx : x.toNat < 256 := x.isLt
  have ha : (BitVec.ofNat 12 (0x400 + 4 * x.toNat + w)).toNat = 0x400 + 4 * x.toNat + w := toNat_ofNat_of_lt (by omega)
  have hsym : (0x400 + 4 * x.toNat + w - 0x400) / 4 = x.toNat := by omega
  have hword : (0x400 + 4 * x.toNat + w - 0x400) % 4 = w := by omega
  simp only [State.readPort, ha]
  rw [if_neg (by omega), if_neg (by omega), if_neg (by omega), if_neg (by omega), if_pos (by omega), hsym, hword,
    Vector.getElem?_eq_getElem hx]
  rfl

/-- The two words of a NODE entry stand at an even and the next odd address. -/
theorem State.readPort_node (s : State) {n k : Nat} (hn : n < 511) (hk : k < 2) :
    s.readPort (BitVec.ofNat 12 (0x800 + k + 2 * n)) = if k = 0 then s.nodeWeightWord n else s.nodeLinkWord n := by
  have ha : (BitVec.ofNat 12 (0x800 + k + 2 * n)).toNat = 0x800 + k + 2 * n := toNat_ofNat_of_lt (by omega)
  have hentry : (0x800 + k + 2 * n - 0x800) / 2 = n := by omega
  have hpar : (0x800 + k + 2 * n) % 2 = k := by omega
  simp only [State.readPort, ha]
  rw [if_neg (by omega), if_neg (by omega), if_neg (by omega), if_neg (by omega), if_neg (by omega), if_pos (by omega), hentry,
    hpar]

/-- The three ranges the map leaves out read 0 (R52). -/
theorem State.readPort_unmapped (s : State) {a : BitVec 12}
    (h : (0x012 ≤ a.toNat ∧ a.toNat < 0x100) ∨ (0x300 ≤ a.toNat ∧ a.toNat < 0x400) ∨ 0xBFE ≤ a.toNat) : s.readPort a = 0 := by
  obtain ⟨hlo, hhi⟩ | ⟨hlo, hhi⟩ | hlo := h
  · rw [s.readPort_scalar hhi]
    unfold State.readScalar
    split
    case h_19 => rfl
    all_goals omega
  · simp only [State.readPort]
    rw [if_neg (by omega), if_neg (by omega), if_neg (by omega), if_pos (by omega)]
  · simp only [State.readPort]
    rw [if_neg (by omega), if_neg (by omega), if_neg (by omega), if_neg (by omega), if_neg (by omega), if_neg (by omega)]

/-! ## Words put together from fields -/

/-- Fields side by side, as a number. -/
theorem toNat_append_add {m n : Nat} (x : BitVec m) (y : BitVec n) : (x ++ y).toNat = x.toNat * 2 ^ n + y.toNat := by
  rw [BitVec.toNat_append, ← Nat.shiftLeft_add_eq_or_of_lt y.isLt, Nat.shiftLeft_eq]

theorem toNat_ofBool (b : Bool) : (BitVec.ofBool b).toNat = b.toNat := by
  cases b <;> rfl

/-- A narrow register at the read port has its own value. -/
theorem toNat_setWidth_64 {n : Nat} (x : BitVec n) (h : n ≤ 64) : (x.setWidth 64).toNat = x.toNat := by
  rw [BitVec.toNat_setWidth_of_le h]

theorem Phase.num_lt (p : Phase) : p.num < 2 ^ 4 := by cases p <;> decide
theorem ErrCode.num_lt (c : ErrCode) : c.num < 2 ^ 4 := by cases c <;> decide

theorem State.ctrlWord_toNat (s : State) : s.ctrlWord.toNat = s.force.toNat + 2 * s.tailskip.toNat := by
  simp only [State.ctrlWord, toNat_append_add, toNat_ofBool]
  omega

theorem State.statusWord_toNat (s : State) :
    s.statusWord.toNat = s.phase.num + 16 * s.err.num + 256 * s.degen.toNat + 512 * s.notSmaller.toNat +
      1024 * s.outFinal.toNat + 2048 * s.padcnt.toNat := by
  simp only [State.statusWord, toNat_append_add, toNat_ofBool, toNat_ofNat_of_lt s.phase.num_lt, toNat_ofNat_of_lt s.err.num_lt]
  omega

theorem NodeEntry.linkWord_toNat (e : NodeEntry) :
    e.linkWord.toNat = e.left.toNat + 2 ^ 9 * e.right.toNat + 2 ^ 18 * e.next.toNat + 2 ^ 27 * e.sym.toNat := by
  simp only [NodeEntry.linkWord, toNat_append_add]
  omega

/-- A code as R23 lays it out: code bit `j` is vector bit `255 - j`, and below the code there are zeros. -/
theorem codeVector_getLsbD {c : Bits} (hc : c.length ≤ 255) {j : Nat} (hj : j < 256) :
    (codeVector c).getLsbD (255 - j) = c.getD j false := by
  have hl : ((c ++ List.replicate (256 - c.length) false).take 256).length = 256 := by simp; omega
  simp only [codeVector, BitVec.getLsbD_setWidth, BitVec.getLsbD_ofBoolListBE, hl]
  rw [decide_eq_true (by omega : 255 - j < 256), Bool.true_and, Bool.true_and, show 256 - 1 - (255 - j) = j by omega]
  simp only [List.getD_eq_getElem?_getD, List.getElem?_take_of_lt hj]
  by_cases h : j < c.length
  · rw [List.getElem?_append_left h]
  · rw [List.getElem?_append_right (by omega), List.getElem?_eq_none (by omega : c.length ≤ j),
      List.getElem?_replicate_of_lt (by omega)]
    rfl

end Sys2Proof.Machine

namespace Sys2Proof.Safety

open Sys2Proof Sys2Proof.Machine

/-- Settles O9: the reset state, field by field. -/
theorem resetValues : Obligations.ResetValues := by
  refine ⟨rfl, rfl, rfl, rfl, rfl, rfl, rfl, rfl, rfl, fun x => ?_, rfl, rfl, fun _ => rfl, rfl, rfl, rfl, rfl, fun x => ?_,
    rfl, rfl, rfl, rfl, rfl, rfl, rfl, rfl, rfl⟩
  · exact Vector.getElem_replicate (symIdx x).isLt
  · exact Vector.getElem_replicate (symIdx x).isLt

/-- Settles O58: each address of the map, the words of CTRL and STATUS from their fields. -/
theorem registersAtTheReadPort : Obligations.RegistersAtTheReadPort := by
  intro s
  refine ⟨?_, ?_, rfl, rfl, rfl, rfl, rfl, ?_, ?_, rfl, rfl, rfl, rfl, rfl, rfl, rfl, rfl, ?_, s.readPort_freq,
    fun a => s.readPort_unmapped⟩
  · rw [← s.ctrlWord_toNat]
    exact toNat_setWidth_64 s.ctrlWord (by decide)
  · rw [← s.statusWord_toNat]
    exact toNat_setWidth_64 s.statusWord (by decide)
  · exact toNat_setWidth_64 s.head (by decide)
  · exact toNat_setWidth_64 s.root (by decide)
  · have h : (s.nbits ++ s.acc).toNat = s.acc.toNat + 256 * s.nbits.toNat := by
      rw [toNat_append_add]
      omega
    rw [← h]
    exact toNat_setWidth_64 (s.nbits ++ s.acc) (by decide)

/-- Settles O59: the code's bits in the 256-bit vector, and the vector's words. -/
theorem codeAtTheReadPort : Obligations.CodeAtTheReadPort := by
  intro s x w j hc hw hj
  constructor
  · rw [s.readPort_codeLength]
    exact toNat_ofNat_of_lt (by omega)
  · rw [s.readPort_codeWord x hw, codeWord, BitVec.getLsbD_extractLsb', decide_eq_true (by omega : 63 - j < 64), Bool.true_and,
      show 192 - 64 * w + (63 - j) = 255 - (64 * w + j) by omega]
    exact codeVector_getLsbD hc (by omega)

/-- Settles O60: an allocated entry that holds a value is what the port shows. -/
theorem nodeAtTheReadPort : Obligations.NodeAtTheReadPort := by
  intro s n e hn hall hr hw
  have hs : s.shownNode n = some e := by rw [State.shownNode, if_pos hall, hr]
  constructor
  · rw [show 0x800 + 2 * n = 0x800 + 0 + 2 * n from rfl, s.readPort_node hn (by decide), if_pos rfl]
    simp only [State.nodeWeightWord, hs]
    exact toNat_ofNat_of_lt hw
  · rw [show 0x801 + 2 * n = 0x800 + 1 + 2 * n from rfl, s.readPort_node hn (by decide), if_neg (by decide)]
    simp only [State.nodeLinkWord, hs]
    rw [toNat_setWidth_64 _ (by decide), e.linkWord_toNat]

end Sys2Proof.Safety

/-! PROOFS. The NODE memory grows by whole entries from NNODES on (10_state.md R19, R20). -/

namespace Sys2Proof.Machine

open Sys2Proof Sys2Proof.Safety

/-- The entries past those `t` has allocated are as in `s`. -/
def Beyond (s t : State) : Prop := ∀ n, t.nnodes ≤ n → t.node.read n = s.node.read n

/-- Entries may have been allocated, and allocated ones written. -/
structure Grows (s t : State) : Prop where
  nnodes : s.nnodes ≤ t.nnodes
  beyond : Beyond s t

theorem Grows.refl (s : State) : Grows s s := ⟨Nat.le_refl _, fun _ _ => rfl⟩

/-- What is past the entries of the last state is past those of the states before it. -/
theorem Beyond.trans {s t u : State} (h : Beyond s t) (h' : Grows t u) : Beyond s u :=
  fun n hn => (h'.beyond n hn).trans (h n (h'.nnodes.trans hn))

theorem Grows.trans {s t u : State} (h : Grows s t) (h' : Grows t u) : Grows s u :=
  ⟨h.nnodes.trans h'.nnodes, h.beyond.trans h'⟩

/-- What writes neither entries nor NNODES. -/
theorem Effect.grows {fs : List Field} {s t : State} (h : Effect fs s t) (hm : .node ∉ fs) (hn : .nnodes ∉ fs) : Grows s t :=
  have hnode : t.node = s.node := h.same .node hm
  have hcount : t.nnodes = s.nnodes := h.same .nnodes hn
  ⟨hcount.ge, fun n _ => by rw [hnode]⟩

theorem grows_putNode {s : State} {h : Handle} (e : NodeEntry) (hh : h.toNat < s.nnodes) : Grows s (s.putNode h e) :=
  ⟨Nat.le_refl _, fun n hn => Memory.read_write_other _ _ (by simp only [State.putNode_nnodes] at hn; omega)⟩

/-- Pseudocode from `s` on only lets the NODE memory grow. -/
def Flow.Grows {α : Type} (s : State) (x : Flow α) : Prop := x.Spec (fun _ => Machine.Grows s) (Machine.Grows s) True

section
variable {α β : Type} {s : State}

theorem Flow.Grows.go {a : α} {t : State} (h : Machine.Grows s t) : (Flow.go a t).Grows s := h

theorem Flow.Grows.after {x : Flow α} {u : State} (h : x.Grows u) (hu : Machine.Grows s u) : x.Grows s :=
  Flow.Spec.mono h (fun _ _ => hu.trans) (fun _ => hu.trans) id

theorem Flow.Grows.bind {x : Flow α} {k : α → State → Flow β} (hx : x.Grows s) (hk : ∀ a u, x = .go a u → (k a u).Grows u) :
    (x.bind k).Grows s := by
  cases x with
  | go a u => exact (hk a u rfl).after hx
  | ended t => exact hx
  | stuck f => trivial

theorem Flow.Within.grows {fs : List Field} {x : Flow α} (h : x.Within fs s) (hm : .node ∉ fs) (hn : .nnodes ∉ fs) :
    x.Grows s := Flow.Spec.mono h (fun _ _ h => h.1.grows hm hn) (fun _ h => h.1.grows hm hn) id

end

theorem needNode_bind_grows {β : Type} {s : State} {h : Handle} {k : NodeEntry → State → Flow β}
    (hk : ∀ e, s.readNode h = some e → (k e s).Grows s) : ((s.needNode h).bind k).Grows s :=
  ((needNode_within [] s h).grows (by simp) (by simp)).bind fun e u hu => by
    obtain ⟨he, rfl⟩ := State.needNode_eq_go.mp hu
    exact hk e he

theorem changeNode_grows (s : State) (h : Handle) (f : NodeEntry → NodeEntry) : (s.changeNode h f).Grows s :=
  needNode_bind_grows fun _ he => grows_putNode _ (State.readNode_eq_some.mp he).1

/-- The handle just taken is that of an allocated entry. -/
theorem takeHandle_bind_grows {β : Type} {s : State} {k : Handle → State → Flow β}
    (hk : ∀ n u, n.toNat < u.nnodes → Grows s u → (k n u).Grows u) : (s.takeHandle.bind k).Grows s := by
  unfold State.takeHandle
  split
  · rename_i hlt
    have hg : Grows s { s with nnodes := s.nnodes + 1 } := ⟨Nat.le_succ _, fun _ _ => rfl⟩
    exact (hk _ _ (by rw [handle_toNat hlt]; exact Nat.lt_succ_self _) hg).after hg
  · trivial

theorem insertSorted_grows (n : Handle) (pass : Nat → Bool) (s : State) : (s.insertSorted n pass).Grows s :=
  ((findSlot_within [] s pass _ _ _).grows (by simp) (by simp)).bind fun _ u _ => (changeNode_grows u n _).bind fun _ v _ => by
    split
    · exact (effect_head v n).grows (by simp) (by simp)
    · exact changeNode_grows v _ _

theorem listLeaf_grows (sym : Byte) (w : Nat) (s : State) : (listLeaf sym w s).Grows s :=
  takeHandle_bind_grows fun n _ hn _ => ((insertSorted_grows n _ _).bind fun _ v _ =>
    .go ((effect_nlist v _).grows (by simp) (by simp))).after (grows_putNode _ hn)

theorem listLoop_grows (ws : List Nat) (k : Nat) (s : State) : (listLoop ws k s).Grows s := by
  induction ws generalizing k s with
  | nil => exact .refl s
  | cons w ws ih =>
    refine Flow.Grows.bind ?_ fun _ u _ => ih (k + 1) u
    split
    · exact listLeaf_grows _ w s
    · exact .refl s

theorem mergeStep_grows (s : State) : (mergeStep s).Grows s :=
  needNode_bind_grows fun ea _ => needNode_bind_grows fun eb _ => takeHandle_bind_grows fun p u hp _ =>
    (((changeNode_grows _ s.head _).bind fun _ v _ => (changeNode_grows v ea.next _).bind fun _ x _ =>
      (insertSorted_grows p _ x).bind fun _ y _ => .go ((effect_nlist y _).grows (by simp) (by simp))).after
        ((effect_head _ eb.next).grows (by simp) (by simp))).after (grows_putNode _ hp)

theorem mergeLoop_grows (fuel : Nat) (s : State) : (mergeLoop fuel s).Grows s := by
  induction fuel generalizing s with
  | zero => exact .refl s
  | succ fuel ih =>
    unfold mergeLoop
    split
    · exact (mergeStep_grows s).bind fun _ u _ => ih u
    · exact .refl s

theorem treeBody_grows (s : State) : (treeBody s).Grows s := by
  refine (mergeLoop_grows _ s).bind fun _ u _ => ?_
  refine Flow.Grows.after (u := { u with root := u.head }) ?_ ((effect_root u _).grows (by simp) (by simp))
  refine (changeNode_grows _ _ _).bind fun _ v _ => ?_
  refine Flow.Grows.after (u := { v with head := Config.nil }) ?_ ((effect_head v _).grows (by simp) (by simp))
  exact needNode_bind_grows fun e _ => (effect_degen _ _ _).grows (by simp) (by simp)

theorem buildTree_grows (fuel : Nat) (s : State) : (buildTree fuel s).Grows s := by
  induction fuel generalizing s with
  | zero => trivial
  | succ fuel ih =>
    unfold buildTree
    split
    · exact (effect_raise [] s _ _).grows (by simp) (by simp)
    · rename_i f u hu
      refine Flow.Grows.after (u := u) ?_ ((effect_readBit hu).grows (by simp) (by simp))
      split
      · exact (effect_raise [] u _ _).grows (by simp) (by simp)
      · refine takeHandle_bind_grows fun n v hn _ => ?_
        split
        · exact ((ih _).bind fun _ w _ => (changeNode_grows w n _).bind fun _ x _ => (ih x).bind fun _ y _ =>
            (changeNode_grows y n _).bind fun _ z _ => .go (.refl z)).after (grows_putNode _ hn)
        · refine ((needByte_within v).grows (by simp) (by simp)).bind fun _ w hw => grows_putNode _ ?_
          have he : Effect [.bitPos] v w := by
            have := needByte_within v
            rw [hw] at this
            exact this.1
          rwa [show w.nnodes = v.nnodes from he.same .nnodes (by simp)]

/-! ## The commands that write entries -/

/-- LIST and DTREE start again from no entry, so that only what lies beyond their own entries is said to stay. -/
def Flow.Beyond {α : Type} (s : State) (x : Flow α) : Prop := x.Spec (fun _ => Machine.Beyond s) (Machine.Beyond s) True

theorem Flow.Grows.flow_beyond {α : Type} {s : State} {x : Flow α} (h : x.Grows s) : x.Beyond s :=
  Flow.Spec.mono h (fun _ _ h => h.beyond) (fun _ h => h.beyond) id

theorem Flow.Beyond.bind {α β : Type} {s : State} {x : Flow α} {k : α → State → Flow β} (hx : x.Beyond s)
    (hk : ∀ a u, (k a u).Grows u) : (x.bind k).Beyond s := by
  cases x with
  | go a u => exact Flow.Spec.mono (hk a u) (fun _ _ h => hx.trans h) (fun _ h => hx.trans h) id
  | ended t => exact hx
  | stuck f => trivial

/-- Pseudocode after some that leaves the entries alone. -/
theorem Flow.Within.bind_beyond {α β : Type} {fs : List Field} {s : State} {x : Flow α} {k : α → State → Flow β}
    (hx : x.Within fs s) (hm : .node ∉ fs) (hk : ∀ a u, (k a u).Beyond u) : (x.bind k).Beyond s := by
  cases x with
  | go a u =>
    have hnode : u.node = s.node := hx.1.same .node hm
    exact Flow.Spec.mono (hk a u) (fun _ t h n hn => (h n hn).trans (by rw [hnode]))
      (fun t h n hn => (h n hn).trans (by rw [hnode])) id
  | ended t => exact fun n _ => by rw [show t.node = s.node from hx.1.same .node hm]
  | stuck f => trivial

theorem listBody_beyond (s : State) : (listBody s).Beyond s := by
  have hl : (listLoop s.freq.toList 0 { s with nnodes := 0, head := Config.nil, nlist := 0 }).Beyond s :=
    Flow.Spec.mono (listLoop_grows _ _ _) (fun _ _ h => h.beyond) (fun _ h => h.beyond) id
  refine hl.bind fun _ u => Flow.Grows.after (u := { u with nsym := u.nlist }) ?_ ((effect_nsym u _).grows (by simp) (by simp))
  dsimp only
  split
  · exact (effect_raise [] _ _ _).grows (by simp) (by simp)
  · exact (effect_phase [] _ _).grows (by simp) (by simp)

theorem dtreeBody_beyond (s : State) : (dtreeBody s).Beyond s := by
  have hb : (buildTree walkFuel { s with nnodes := 0 }).Beyond s :=
    Flow.Spec.mono (buildTree_grows _ _) (fun _ _ h => h.beyond) (fun _ h => h.beyond) id
  exact hb.bind fun r u => Flow.Grows.after (u := { u with root := r })
    (needNode_bind_grows fun _ _ => (effect_degen _ _ _).grows (by simp) (by simp)) ((effect_root u r).grows (by simp) (by simp))

/-- After LIST, COMP's steps only let the memory grow. -/
theorem compBody_beyond (s : State) : (compBody s).Beyond s :=
  (freqBody_within s).bind_beyond (by simp) fun _ s => (listBody_beyond s).bind fun _ s => (treeBody_grows s).bind fun _ s _ =>
    ((codesBody_within s).grows (by simp) (by simp)).bind fun _ s _ =>
      ((checkBody_within s).grows (by simp) (by simp)).bind fun _ s _ =>
        ((hdrBody_within s).grows (by simp) (by simp)).bind fun _ s _ =>
          ((streeBody_within s).grows (by simp) (by simp)).bind fun _ s _ =>
            ((payloadBody_within s).grows (by simp) (by simp)).bind fun _ s _ =>
              (flushBody_within s).grows (by simp) (by simp)

theorem decompBody_beyond (s : State) : (decompBody s).Beyond s :=
  (dhdrBody_within s).bind_beyond (by simp) fun _ s => (dtreeBody_beyond s).bind fun _ s =>
    (dpayloadLoop_within _ s).grows (by simp) (by simp)

theorem pseudocode_beyond (i : Instr) (s : State) (h : .node ∈ writes i) : (pseudocode i s).Beyond s := by
  cases i with
  | list => exact listBody_beyond s
  | merge => exact (mergeStep_grows s).flow_beyond
  | tree => exact (treeBody_grows s).flow_beyond
  | comp => exact compBody_beyond s
  | dtree => exact dtreeBody_beyond s
  | decomp => exact decompBody_beyond s
  | _ => simp [writes] at h

end Sys2Proof.Machine

namespace Sys2Proof.Safety

open Sys2Proof Sys2Proof.Machine

/-- Settles O50: a command writes an entry only after allocating it. -/
theorem frameOfUnallocatedNodes : Obligations.FrameOfUnallocatedNodes := by
  intro i s t h
  obtain hnode | hw := exec_same h .node
  · exact fun n _ => by rw [show t.node = s.node from hnode]
  obtain ⟨-, he⟩ | ⟨-, he⟩ | ⟨-, c, info, -, he⟩ | ⟨-, -, -, he⟩ := exec_cases i s
  · obtain rfl : s.cleared = t := by simpa using he.symm.trans h
    exact fun _ _ => rfl
  · obtain rfl : s = t := by simpa using he.symm.trans h
    exact fun _ _ => rfl
  · obtain rfl : s.raise c info = t := by simpa using he.symm.trans h
    exact fun _ _ => rfl
  · exact Flow.Spec.next (pseudocode_beyond i s hw) (he ▸ h)

end Sys2Proof.Safety

/-! PROOFS. The trees and the list a state holds (00_scope.md R8), read without a bound on depth or length. -/

namespace Sys2Proof.Machine

open Sys2Proof Sys2Proof.Safety

/-! ## Trees -/

/-- `T` is the tree at handle `h`: the relation `State.treeAt` computes up to a depth. -/
def TreeOf (s : State) : Handle → Tree → Prop
  | h, .leaf x w => ∃ e, s.readNode h = some e ∧ e.isLeaf = true ∧ e.sym = x ∧ e.weight = w
  | h, .node w l r =>
    ∃ e, s.readNode h = some e ∧ e.isLeaf = false ∧ e.weight = w ∧ TreeOf s e.left l ∧ TreeOf s e.right r

/-- The number of branches on the longest path. -/
def Tree.height : Tree → Nat
  | .leaf _ _ => 0
  | .node _ l r => max l.height r.height + 1

/-- The root of a tree is an entry, with the tree's weight, a leaf when the tree is one. -/
theorem TreeOf.root {s : State} {h : Handle} {T : Tree} (ht : TreeOf s h T) :
    ∃ e, s.readNode h = some e ∧ e.isLeaf = T.isLeaf ∧ e.weight = T.weight := by
  cases T with
  | leaf x w => obtain ⟨e, he, hl, -, hw⟩ := ht; exact ⟨e, he, hl, hw⟩
  | node w l r => obtain ⟨e, he, hl, hw, -, -⟩ := ht; exact ⟨e, he, hl, hw⟩

theorem treeAt_eq_some {s : State} {fuel : Nat} {h : Handle} {T : Tree} :
    s.treeAt fuel h = some T ↔ TreeOf s h T ∧ T.height < fuel := by
  induction fuel generalizing h T with
  | zero => simp [State.treeAt]
  | succ fuel ih =>
    cases hr : s.readNode h with
    | none => cases T <;> simp [State.treeAt, TreeOf, hr]
    | some e =>
      cases hl : e.isLeaf with
      | true => cases T <;> simp [State.treeAt, TreeOf, Tree.height, hr, hl]
      | false =>
        have hsub : (∃ l r, s.treeAt fuel e.left = some l ∧ s.treeAt fuel e.right = some r ∧ .node e.weight l r = T) ↔
            s.treeAt (fuel + 1) h = some T := by
          simp only [State.treeAt, hr, hl, Bool.false_eq_true, if_false]
          cases s.treeAt fuel e.left <;> cases s.treeAt fuel e.right <;> simp
        rw [← hsub]
        cases T with
        | leaf x w => simp [TreeOf, hr, hl]
        | node w l r =>
          simp only [ih, TreeOf, hr, Tree.height, Tree.node.injEq, Option.some.injEq]
          constructor
          · rintro ⟨l, r, ⟨hl1, hl2⟩, ⟨hr1, hr2⟩, rfl, rfl, rfl⟩
            exact ⟨⟨e, rfl, hl, rfl, hl1, hr1⟩, by omega⟩
          · rintro ⟨⟨e', rfl, -, rfl, hl1, hr1⟩, hh⟩
            exact ⟨l, r, ⟨hl1, by omega⟩, ⟨hr1, by omega⟩, rfl, rfl, rfl⟩

/-- A tree depends on the entries only. -/
theorem TreeOf.congr {s t : State} (h : ∀ n, t.readNode n = s.readNode n) {n : Handle} {T : Tree} (ht : TreeOf s n T) :
    TreeOf t n T := by
  induction T generalizing n with
  | leaf x w => simpa only [TreeOf, h] using ht
  | node w l r ihl ihr =>
    obtain ⟨e, he, hl, hw, h1, h2⟩ := ht
    exact ⟨e, by rw [h, he], hl, hw, ihl h1, ihr h2⟩

/-- Parents come after their children, so a tree is no higher than its root's handle (R93). -/
theorem TreeOf.height_le_of_builder {s : State} (hb : EveryNode s BuilderNode) {h : Handle} {T : Tree} (ht : TreeOf s h T) :
    T.height ≤ h.toNat := by
  induction T generalizing h with
  | leaf x w => exact Nat.zero_le _
  | node w l r ihl ihr =>
    obtain ⟨e, he, hl, -, h1, h2⟩ := ht
    obtain ⟨hlt, hm⟩ := State.readNode_eq_some.mp he
    obtain ⟨e', he', hn⟩ := hb _ hlt
    obtain rfl : e = e' := by simpa [hm] using he'
    obtain hn | ⟨hn1, hn2⟩ := hn
    · simp [hn] at hl
    · have := ihl h1
      have := ihr h2
      simp only [Tree.height]
      omega

/-- Parents come before their children, so a tree is no higher than there are entries after its root (R131). -/
theorem TreeOf.height_lt_of_reader {s : State} (hb : EveryNode s (ReaderNode s)) {h : Handle} {T : Tree} (ht : TreeOf s h T) :
    T.height + h.toNat < s.nnodes := by
  induction T generalizing h with
  | leaf x w =>
    obtain ⟨e, he, -⟩ := ht
    simpa [Tree.height] using (State.readNode_eq_some.mp he).1
  | node w l r ihl ihr =>
    obtain ⟨e, he, hl, -, h1, h2⟩ := ht
    obtain ⟨hlt, hm⟩ := State.readNode_eq_some.mp he
    obtain ⟨e', he', hn⟩ := hb _ hlt
    obtain rfl : e = e' := by simpa [hm] using he'
    obtain hn | ⟨hn1, -, hn2, -⟩ := hn
    · simp [hn] at hl
    · have := ihl h1
      have := ihr h2
      simp only [Tree.height]
      omega

/-! ## Symbols and weights of a tree -/

theorem Tree.syms_length_pos (T : Tree) : 1 ≤ T.syms.length := by
  induction T with
  | leaf x w => simp [Tree.syms]
  | node w l r ihl ihr => simp only [Tree.syms, List.length_append]; omega

/-- The sum of the counts of some symbols. -/
def countSum (freq : Vector Nat 256) (xs : List Byte) : Nat := (xs.map fun x => freq[symIdx x]).sum

@[simp] theorem countSum_append (freq : Vector Nat 256) (xs ys : List Byte) :
    countSum freq (xs ++ ys) = countSum freq xs + countSum freq ys := by
  simp [countSum]

theorem countSum_perm (freq : Vector Nat 256) {xs ys : List Byte} (h : xs.Perm ys) : countSum freq xs = countSum freq ys :=
  (h.map _).sum_eq

/-- The weight at the root is the sum of the counts of the symbols under it (R94). -/
theorem Tree.weight_eq_countSum {freq : Vector Nat 256} {T : Tree} (h : T.weighted freq) : T.weight = countSum freq T.syms := by
  cases T with
  | leaf x w => simpa [Tree.weighted, Tree.weight, Tree.syms, countSum] using h
  | node w l r => simpa [Tree.weighted, Tree.weight, Tree.syms, countSum] using h.1

/-- A tree of `n` leaves has `n - 1` internal nodes: 9 bits for a leaf, 1 for an internal node (R71, R103). -/
theorem Tree.ser_length (T : Tree) : T.ser.length + 1 = 10 * T.syms.length := by
  induction T with
  | leaf x w => rfl
  | node w l r ihl ihr =>
    simp only [Tree.ser, Tree.syms, List.length_cons, List.length_append]
    omega

/-- A path is shorter than the tree has leaves (R102). -/
theorem Tree.paths_length {T : Tree} {p : Byte × Bits} (h : p ∈ T.paths) : p.2.length < T.syms.length := by
  induction T generalizing p with
  | leaf x w =>
    obtain rfl : p = (x, []) := by simpa [Tree.paths] using h
    simp [Tree.syms]
  | node w l r ihl ihr =>
    have hl := l.syms_length_pos
    have hr := r.syms_length_pos
    simp only [Tree.paths, List.mem_append, List.mem_map] at h
    simp only [Tree.syms, List.length_append]
    obtain ⟨q, hq, rfl⟩ | ⟨q, hq, rfl⟩ := h
    · have := ihl hq
      simp only [List.length_cons]
      omega
    · have := ihr hq
      simp only [List.length_cons]
      omega

/-! ## Lists -/

/-- From `h` along NEXT through the handles `hs` one comes to `m`: the relation `State.chainAt` computes, for `m` = NIL. -/
def Linked (s : State) : Handle → List Handle → Handle → Prop
  | h, [], m => h = m
  | h, x :: xs, m => h = x ∧ ∃ e, s.readNode x = some e ∧ Linked s e.next xs m

/-- There is no entry NIL (R19). -/
theorem readNode_nil {s : State} (hc : s.nnodes ≤ Config.nodeCap) : s.readNode Config.nil = none := by
  have h : ¬ 511 < s.nnodes := Nat.not_lt.mpr hc
  simp [State.readNode, Config.nil, h]

theorem chainAt_eq_some {s : State} (hc : s.nnodes ≤ Config.nodeCap) {fuel : Nat} {h : Handle} {hs : List Handle} :
    s.chainAt fuel h = some hs ↔ Linked s h hs Config.nil ∧ hs.length < fuel := by
  induction fuel generalizing h hs with
  | zero => simp [State.chainAt]
  | succ fuel ih =>
    rw [State.chainAt_succ]
    by_cases hn : h = Config.nil
    · rw [if_pos hn, hn]
      cases hs with
      | nil => simp [Linked]
      | cons x xs =>
        simp only [Linked, Option.some.injEq, List.nil_eq, reduceCtorEq, false_iff]
        rintro ⟨⟨rfl, e, he, -⟩, -⟩
        rw [readNode_nil hc] at he
        cases he
    · rw [if_neg hn]
      cases hs with
      | nil => cases s.readNode h <;> simp [Linked, hn]
      | cons x xs =>
        cases hr : s.readNode h with
        | none =>
          simp only [Option.bind_none, reduceCtorEq, Linked, false_iff]
          rintro ⟨⟨rfl, e, he, -⟩, -⟩
          rw [hr] at he
          cases he
        | some e =>
          simp only [Option.bind_some, Option.map_eq_some_iff, ih, List.cons.injEq, Linked, List.length_cons]
          constructor
          · rintro ⟨ys, ⟨hl, hlen⟩, rfl, rfl⟩
            exact ⟨⟨rfl, e, hr, hl⟩, by omega⟩
          · rintro ⟨⟨rfl, e', he', hl⟩, hlen⟩
            obtain rfl : e = e' := by simpa [hr] using he'
            exact ⟨xs, ⟨hl, by omega⟩, rfl, rfl⟩

/-- Every handle on a list is that of an entry. -/
theorem Linked.read {s : State} {h m : Handle} {hs : List Handle} (hl : Linked s h hs m) {x : Handle} (hx : x ∈ hs) :
    ∃ e, s.readNode x = some e := by
  induction hs generalizing h with
  | nil => simp at hx
  | cons y ys ih =>
    obtain ⟨rfl, e, he, hn⟩ := hl
    obtain rfl | hx := List.mem_cons.mp hx
    · exact ⟨e, he⟩
    · exact ih hn hx

/-- A list stays while the entries on it do. -/
theorem Linked.congr {s t : State} {h m : Handle} {hs : List Handle} (hl : Linked s h hs m)
    (hr : ∀ x ∈ hs, t.readNode x = s.readNode x) : Linked t h hs m := by
  induction hs generalizing h with
  | nil => exact hl
  | cons y ys ih =>
    obtain ⟨rfl, e, he, hn⟩ := hl
    exact ⟨rfl, e, by rw [hr _ List.mem_cons_self, he], ih hn fun x hx => hr x (List.mem_cons_of_mem _ hx)⟩

theorem linked_append {s : State} {h m : Handle} {xs ys : List Handle} :
    Linked s h (xs ++ ys) m ↔ ∃ k, Linked s h xs k ∧ Linked s k ys m := by
  induction xs generalizing h with
  | nil => simp [Linked]
  | cons x xs ih =>
    simp only [List.cons_append, Linked, ih]
    constructor
    · rintro ⟨rfl, e, he, k, h1, h2⟩
      exact ⟨k, ⟨rfl, e, he, h1⟩, h2⟩
    · rintro ⟨k, ⟨rfl, e, he, h1⟩, h2⟩
      exact ⟨rfl, e, he, k, h1, h2⟩

/-- A list begins at its first handle, or is empty and begins where it ends. -/
theorem Linked.start {s : State} {h m : Handle} {hs : List Handle} (hl : Linked s h hs m) : h = hs.head?.getD m := by
  cases hs with
  | nil => exact hl
  | cons x xs => exact hl.1

/-- The trees at some handles, found by `State.treesAt`. -/
theorem treesAt_eq_some {s : State} {hs : List Handle} {ts : List Tree} :
    s.treesAt hs = some ts ↔ List.Forall₂ (fun h T => s.treeAt walkFuel h = some T) hs ts := by
  induction hs generalizing ts with
  | nil => simp [State.treesAt, eq_comm]
  | cons h hs ih =>
    have hstep : s.treesAt (h :: hs) = some ts ↔
        ∃ T Ts, s.treeAt walkFuel h = some T ∧ s.treesAt hs = some Ts ∧ T :: Ts = ts := by
      simp only [State.treesAt]
      cases s.treeAt walkFuel h <;> cases s.treesAt hs <;> simp
    rw [hstep, List.forall₂_cons_left_iff]
    constructor
    · rintro ⟨T, Ts, h1, h2, rfl⟩
      exact ⟨T, Ts, h1, ih.mp h2, rfl⟩
    · rintro ⟨T, Ts, h1, h2, rfl⟩
      exact ⟨T, Ts, h1, ih.mpr h2, rfl⟩

end Sys2Proof.Machine

/-! PROOFS. The forest LIST and MERGE build (41_tree_builder.md R92 to R94): its nodes, whatever the order of the list. -/

namespace Sys2Proof.Machine

open Sys2Proof Sys2Proof.Safety

/-! ## Entries that stay but for their NEXT links -/

/-- The entries `s` has allocated are in `t` with at most another NEXT link, and the counts are the same. -/
structure Keeps (s t : State) : Prop where
  nnodes : s.nnodes ≤ t.nnodes
  freq : t.freq = s.freq
  entry : ∀ n, n < s.nnodes → ∀ e, s.node.read n = some e → ∃ v, t.node.read n = some { e with next := v }

theorem Keeps.refl (s : State) : Keeps s s := ⟨Nat.le_refl _, rfl, fun _ _ e he => ⟨e.next, he⟩⟩

theorem Keeps.trans {s t u : State} (h : Keeps s t) (h' : Keeps t u) : Keeps s u where
  nnodes := h.nnodes.trans h'.nnodes
  freq := h'.freq.trans h.freq
  entry n hn e he := by
    obtain ⟨v, hv⟩ := h.entry n hn e he
    obtain ⟨w, hw⟩ := h'.entry n (by have := h.nnodes; omega) _ hv
    exact ⟨w, hw⟩

/-- Entries that are equal but for NEXT. -/
theorem exists_next_of_unlinked_eq {x : Option NodeEntry} {e : NodeEntry}
    (h : x.map NodeEntry.unlinked = (some e).map NodeEntry.unlinked) : ∃ v, x = some { e with next := v } := by
  cases x with
  | none => simp at h
  | some e' =>
    refine ⟨e'.next, ?_⟩
    simp only [Option.map_some, Option.some.injEq, NodeEntry.unlinked, NodeEntry.mk.injEq] at h
    obtain ⟨h1, h2, h3, h4, -⟩ := h
    rw [← h1, ← h2, ← h3, ← h4]

theorem Keeps.readNode {s t : State} (h : Keeps s t) {n : Handle} {e : NodeEntry} (he : s.readNode n = some e) :
    ∃ v, t.readNode n = some { e with next := v } := by
  obtain ⟨hlt, hm⟩ := State.readNode_eq_some.mp he
  obtain ⟨v, hv⟩ := h.entry _ hlt e hm
  exact ⟨v, State.readNode_eq_some.mpr ⟨by have := h.nnodes; omega, hv⟩⟩

theorem Keeps.treeOf {s t : State} (h : Keeps s t) {n : Handle} {T : Tree} (ht : TreeOf s n T) : TreeOf t n T := by
  induction T generalizing n with
  | leaf x w =>
    obtain ⟨e, he, hl, hx, hw⟩ := ht
    obtain ⟨v, hv⟩ := h.readNode he
    exact ⟨_, hv, hl, hx, hw⟩
  | node w l r ihl ihr =>
    obtain ⟨e, he, hl, hw, h1, h2⟩ := ht
    obtain ⟨v, hv⟩ := h.readNode he
    exact ⟨_, hv, hl, hw, ihl h1, ihr h2⟩

theorem Keeps.weightAt {s t : State} (h : Keeps s t) {n : Handle} {e : NodeEntry} (he : s.readNode n = some e) :
    t.weightAt n = s.weightAt n := by
  obtain ⟨v, hv⟩ := h.readNode he
  simp [State.weightAt, he, hv]

/-- A property of entries that says nothing of NEXT. -/
theorem Keeps.everyNode {s t : State} (h : Keeps s t) (hn : t.nnodes = s.nnodes) {P : Nat → NodeEntry → Prop}
    (hp : ∀ n e v, P n e → P n { e with next := v }) (hs : EveryNode s P) : EveryNode t P := by
  intro n hlt
  rw [hn] at hlt
  obtain ⟨e, he, hP⟩ := hs n hlt
  obtain ⟨v, hv⟩ := h.entry n hlt e he
  exact ⟨_, hv, hp _ _ _ hP⟩

/-! ## Children -/

/-- The children of an entry: none of a leaf. -/
def NodeEntry.children (e : NodeEntry) : List Handle := if e.isLeaf then [] else [e.left, e.right]

/-- The children of the entry a memory holds at a number. -/
def Memory.childrenAt (m : Memory) (n : Nat) : List Handle :=
  match m.read n with
  | some e => e.children
  | none => []

theorem State.childHandles_eq (s : State) : s.childHandles = (List.range s.nnodes).flatMap s.node.childrenAt := by
  unfold State.childHandles Memory.childrenAt NodeEntry.children
  rfl

theorem Memory.childrenAt_of_read {m : Memory} {n : Nat} {e : NodeEntry} (h : m.read n = some e) :
    m.childrenAt n = e.children := by
  simp [Memory.childrenAt, h]

theorem Keeps.childrenAt {s t : State} (h : Keeps s t) {P : Nat → NodeEntry → Prop} (hs : EveryNode s P) :
    (List.range s.nnodes).flatMap t.node.childrenAt = s.childHandles := by
  rw [State.childHandles_eq]
  refine List.flatMap_congr fun n hn => ?_
  have hlt := List.mem_range.mp hn
  obtain ⟨e, he, -⟩ := hs n hlt
  obtain ⟨v, hv⟩ := h.entry n hlt e he
  rw [Memory.childrenAt_of_read he, Memory.childrenAt_of_read hv]
  rfl

/-- The children of a builder's nodes are entries made before them (R93). -/
theorem childHandles_lt {s : State} (hb : EveryNode s BuilderNode) {h : Handle} (hh : h ∈ s.childHandles) :
    h.toNat < s.nnodes := by
  rw [State.childHandles_eq, List.mem_flatMap] at hh
  obtain ⟨n, hn, hc⟩ := hh
  have hlt := List.mem_range.mp hn
  obtain ⟨e, he, hB⟩ := hb n hlt
  rw [Memory.childrenAt_of_read he, NodeEntry.children] at hc
  obtain hB | ⟨hB1, hB2⟩ := hB
  · simp [hB] at hc
  · split at hc
    · simp at hc
    · have : h = e.left ∨ h = e.right := by simpa using hc
      obtain rfl | rfl := this <;> omega

/-! ## The forest -/

/-- A forest: the handles `hs` are the roots of the trees `ts`, whose leaves hold the symbols `xs`, one leaf for each; the leaves
are the first entries, in the order of `xs`, and every other entry is a parent made later; every entry is a root or the child
of one parent; the weights are those of R94. -/
structure Forest (s : State) (xs : List Byte) (hs : List Handle) (ts : List Tree) : Prop where
  nodes : s.nnodes + hs.length = 2 * xs.length
  trees : List.Forall₂ (TreeOf s) hs ts
  built : EveryNode s BuilderNode
  leaf : ∀ n, n < xs.length → ∃ e, s.node.read n = some e ∧ e.isLeaf = true ∧ xs[n]? = some e.sym
  parent : EveryNode s fun n e => xs.length ≤ n → e.isLeaf = false
  owned : (hs ++ s.childHandles).Nodup
  symbols : (ts.flatMap Tree.syms).Perm xs
  weights : ∀ t ∈ ts, t.weighted s.freq

/-- Some trees have at least as many leaves as there are trees. -/
theorem length_le_flatMap_syms (ts : List Tree) : ts.length ≤ (ts.flatMap Tree.syms).length := by
  induction ts with
  | nil => simp
  | cons t ts ih =>
    have := t.syms_length_pos
    simp only [List.flatMap_cons, List.length_append, List.length_cons]
    omega

theorem Forest.length_le {s : State} {xs : List Byte} {hs : List Handle} {ts : List Tree} (h : Forest s xs hs ts) :
    hs.length ≤ xs.length := by
  rw [h.trees.length_eq, ← h.symbols.length_eq]
  exact length_le_flatMap_syms ts

theorem exists_readNode_of_trees {s : State} {hs : List Handle} {ts : List Tree} (h : List.Forall₂ (TreeOf s) hs ts) {n : Handle}
    (hn : n ∈ hs) : ∃ e, s.readNode n = some e := by
  induction h with
  | nil => simp at hn
  | cons hT _ ih =>
    obtain rfl | hn := List.mem_cons.mp hn
    · obtain ⟨e, he, -⟩ := hT.root
      exact ⟨e, he⟩
    · exact ih hn

theorem Forest.root {s : State} {xs : List Byte} {hs : List Handle} {ts : List Tree} (h : Forest s xs hs ts) {n : Handle}
    (hn : n ∈ hs) : ∃ e, s.readNode n = some e := exists_readNode_of_trees h.trees hn

/-- The roots may be taken in any order. -/
theorem Forest.perm {s : State} {xs : List Byte} {hs hs' : List Handle} {ts : List Tree} (h : Forest s xs hs ts)
    (hp : hs'.Perm hs) : ∃ ts', Forest s xs hs' ts' := by
  obtain ⟨ts', ht, hq⟩ := List.perm_comp_forall₂ hp h.trees
  exact ⟨ts', {
    nodes := by rw [hp.length_eq, h.nodes]
    trees := ht
    built := h.built
    leaf := h.leaf
    parent := h.parent
    owned := (hp.append_right _).nodup_iff.mpr h.owned
    symbols := (hq.flatMap_right _).trans h.symbols
    weights := fun t ht => h.weights t (hq.mem_iff.mp ht) }⟩

/-- A forest says nothing of the NEXT links. -/
theorem Forest.keeps {s t : State} {xs : List Byte} {hs : List Handle} {ts : List Tree} (h : Forest s xs hs ts)
    (hk : Keeps s t) (hn : t.nnodes = s.nnodes) : Forest t xs hs ts where
  nodes := by rw [hn, h.nodes]
  trees := h.trees.imp fun _ _ => hk.treeOf
  built := hk.everyNode hn (fun _ _ _ => id) h.built
  leaf n hlt := by
    have hlen := h.length_le
    have hnodes := h.nodes
    obtain ⟨e, he, hl, hx⟩ := h.leaf n hlt
    obtain ⟨v, hv⟩ := hk.entry n (by omega) e he
    exact ⟨_, hv, hl, hx⟩
  parent := hk.everyNode hn (fun _ _ _ => id) h.parent
  owned := by
    rw [State.childHandles_eq, hn, hk.childrenAt h.built]
    exact h.owned
  symbols := h.symbols
  weights := by rw [hk.freq]; exact h.weights

/-! ## One more node -/

/-- `t` has the entries of `s` and one more, `e`, at handle NNODES, but for NEXT links. -/
structure Adds (s t : State) (e : NodeEntry) : Prop where
  keeps : Keeps s t
  nnodes : t.nnodes = s.nnodes + 1
  entry : ∃ v, t.node.read s.nnodes = some { e with next := v }
  room : s.nnodes < Config.nodeCap

section
variable {s t : State} {e : NodeEntry}

theorem Adds.readNode (h : Adds s t e) : ∃ v, t.readNode (BitVec.ofNat 9 s.nnodes) = some { e with next := v } := by
  obtain ⟨v, hv⟩ := h.entry
  refine ⟨v, State.readNode_eq_some.mpr ?_⟩
  rw [handle_toNat h.room, h.nnodes]
  exact ⟨Nat.lt_succ_self _, hv⟩

theorem Adds.everyNode (h : Adds s t e) {P : Nat → NodeEntry → Prop} (hp : ∀ n e v, P n e → P n { e with next := v })
    (hs : EveryNode s P) (he : P s.nnodes e) : EveryNode t P := by
  intro n hlt
  rw [h.nnodes, Nat.lt_succ_iff_lt_or_eq] at hlt
  obtain hlt | rfl := hlt
  · obtain ⟨e', he', hP⟩ := hs n hlt
    obtain ⟨v, hv⟩ := h.keeps.entry n hlt e' he'
    exact ⟨_, hv, hp _ _ _ hP⟩
  · obtain ⟨v, hv⟩ := h.entry
    exact ⟨_, hv, hp _ _ _ he⟩

theorem Adds.childHandles (h : Adds s t e) {P : Nat → NodeEntry → Prop} (hs : EveryNode s P) :
    t.childHandles = s.childHandles ++ e.children := by
  obtain ⟨v, hv⟩ := h.entry
  rw [State.childHandles_eq t, h.nnodes, List.range_succ, List.flatMap_append, h.keeps.childrenAt hs, List.flatMap_singleton,
    Memory.childrenAt_of_read hv]
  rfl

/-- The new handle is no root and no child. -/
theorem Adds.fresh (h : Adds s t e) {xs : List Byte} {hs : List Handle} {ts : List Tree} (hf : Forest s xs hs ts) :
    BitVec.ofNat 9 s.nnodes ∉ hs ++ s.childHandles := by
  intro hm
  have hlt : (BitVec.ofNat 9 s.nnodes).toNat < s.nnodes := by
    obtain hm | hm := List.mem_append.mp hm
    · obtain ⟨e, he⟩ := hf.root hm
      exact (State.readNode_eq_some.mp he).1
    · exact childHandles_lt hf.built hm
  rw [handle_toNat h.room] at hlt
  omega

end

/-- The entry LIST makes for a symbol (R84). -/
def leafEntry (x : Byte) (w : Nat) : NodeEntry := ⟨x, w, Config.nil, Config.nil, Config.nil⟩

/-- The entry MERGE makes for two nodes (R90). -/
def parentEntry (w : Nat) (a b : Handle) : NodeEntry := ⟨0#8, w, a, b, Config.nil⟩

/-- LIST's new leaf (R84): while there are leaves only, the forest gets one more tree. -/
theorem Forest.addLeaf {s t : State} {xs : List Byte} {hs : List Handle} {ts : List Tree} {x : Byte} (h : Forest s xs hs ts)
    (hn : s.nnodes = xs.length) (ha : Adds s t (leafEntry x s.freq[symIdx x])) :
    Forest t (xs ++ [x]) (BitVec.ofNat 9 s.nnodes :: hs) (.leaf x s.freq[symIdx x] :: ts) where
  nodes := by
    have := h.nodes
    have := ha.nnodes
    simp only [List.length_append, List.length_cons, List.length_nil]
    omega
  trees := .cons (by obtain ⟨v, hv⟩ := ha.readNode; exact ⟨_, hv, rfl, rfl, rfl⟩) (h.trees.imp fun _ _ => ha.keeps.treeOf)
  built := ha.everyNode (fun _ _ _ => id) h.built (.inl rfl)
  leaf n hlt := by
    simp only [List.length_append, List.length_cons, List.length_nil, Nat.zero_add, Nat.lt_succ_iff_lt_or_eq] at hlt
    obtain hlt | rfl := hlt
    · obtain ⟨e, he, hl, hx⟩ := h.leaf n hlt
      obtain ⟨v, hv⟩ := ha.keeps.entry n (by omega) e he
      exact ⟨_, hv, hl, by rw [List.getElem?_append_left hlt]; exact hx⟩
    · obtain ⟨v, hv⟩ := ha.entry
      exact ⟨_, hn ▸ hv, rfl, by simp [leafEntry]⟩
  parent := ha.everyNode (fun _ _ _ => id)
    (h.parent.mono fun n e hp hle => hp (by simp only [List.length_append] at hle; omega))
    fun hle => by simp only [List.length_append, List.length_cons, List.length_nil] at hle; omega
  owned := by
    rw [ha.childHandles h.built]
    have := List.nodup_cons.mpr ⟨ha.fresh h, h.owned⟩
    simpa [leafEntry, NodeEntry.children, NodeEntry.isLeaf] using this
  symbols := by
    simp only [List.flatMap_cons, Tree.syms]
    exact (List.perm_append_comm).trans (h.symbols.append_right _)
  weights T hT := by
    rw [ha.keeps.freq]
    obtain rfl | hT := List.mem_cons.mp hT
    · rfl
    · exact h.weights T hT

/-- MERGE's new parent (R90): the two first trees become one. -/
theorem Forest.join {s t : State} {xs : List Byte} {a b : Handle} {rest : List Handle} {A B : Tree} {ts : List Tree}
    (h : Forest s xs (a :: b :: rest) (A :: B :: ts)) (ha : Adds s t (parentEntry (A.weight + B.weight) a b)) :
    Forest t xs (BitVec.ofNat 9 s.nnodes :: rest) (.node (A.weight + B.weight) A B :: ts) := by
  have hlen := h.length_le
  have hnodes := h.nodes
  simp only [List.length_cons] at hlen hnodes
  obtain ⟨ea, hea⟩ := h.root (n := a) (by simp)
  obtain ⟨eb, heb⟩ := h.root (n := b) (by simp)
  have halt := (State.readNode_eq_some.mp hea).1
  have hblt := (State.readNode_eq_some.mp heb).1
  have hroom : s.nnodes < 511 := ha.room
  have hleaf : (parentEntry (A.weight + B.weight) a b).isLeaf = false := by
    have : a ≠ Config.nil := by rintro rfl; simp only [Config.nil, BitVec.toNat_ofNat] at halt; omega
    simp [parentEntry, NodeEntry.isLeaf, this]
  obtain ⟨hA, hB, hts⟩ : TreeOf s a A ∧ TreeOf s b B ∧ List.Forall₂ (TreeOf s) rest ts := by
    simpa [List.forall₂_cons] using h.trees
  exact {
    nodes := by
      have := ha.nnodes
      simp only [List.length_cons]
      omega
    trees := .cons (by obtain ⟨v, hv⟩ := ha.readNode
                       exact ⟨_, hv, hleaf, rfl, ha.keeps.treeOf hA, ha.keeps.treeOf hB⟩)
      (hts.imp fun _ _ => ha.keeps.treeOf)
    built := ha.everyNode (fun _ _ _ => id) h.built (.inr ⟨halt, hblt⟩)
    leaf := fun n hlt => by
      obtain ⟨e, he, hl, hx⟩ := h.leaf n hlt
      obtain ⟨v, hv⟩ := ha.keeps.entry n (by omega) e he
      exact ⟨_, hv, hl, hx⟩
    parent := ha.everyNode (fun _ _ _ => id) h.parent fun _ => hleaf
    owned := by
      have hch : (parentEntry (A.weight + B.weight) a b).children = [a, b] := by
        rw [NodeEntry.children, hleaf]
        rfl
      have hnew := List.nodup_cons.mpr ⟨ha.fresh h, h.owned⟩
      rw [ha.childHandles h.built, hch]
      refine (List.Perm.nodup_iff ?_).mp hnew
      rw [List.cons_append, ← List.append_assoc]
      exact (List.perm_append_comm (l₁ := [a, b]) (l₂ := rest ++ s.childHandles)).cons _
    symbols := by simpa [List.flatMap_cons, Tree.syms] using h.symbols
    weights := fun T hT => by
      rw [ha.keeps.freq]
      have hwA := h.weights A (by simp)
      have hwB := h.weights B (by simp)
      obtain rfl | hT := List.mem_cons.mp hT
      · exact ⟨by rw [Tree.weight_eq_countSum hwA, Tree.weight_eq_countSum hwB]; rfl, hwA, hwB⟩
      · exact h.weights T (by simp [hT]) }

end Sys2Proof.Machine

/-! PROOFS. The sorted merge list and the insertion of LIST and MERGE into it (10_state.md R21, R84, R90). -/

namespace Sys2Proof.Machine

open Sys2Proof Sys2Proof.Safety

/-! ## The insertion -/

theorem setNext_eq {s : State} {h : Handle} {e : NodeEntry} (he : s.readNode h = some e) (v : Handle) :
    s.setNext h v = .go () (s.putNode h { e with next := v }) := State.changeNode_eq_go.mpr ⟨e, he, rfl⟩

/-- A write of one entry leaves the reads of the others. -/
theorem readNode_putNode_other (s : State) {h j : Handle} (e : NodeEntry) (hj : j ≠ h) :
    (s.putNode h e).readNode j = s.readNode j := by
  rw [State.readNode_putNode, if_neg (fun hc => hj hc.1)]

theorem readNode_putNode_same {s : State} {h : Handle} {e : NodeEntry} (e' : NodeEntry) (he : s.readNode h = some e) :
    (s.putNode h e').readNode h = some e' := by
  rw [State.readNode_putNode, if_pos ⟨rfl, (State.readNode_eq_some.mp he).1⟩]

theorem Linked.putNode_other {s : State} {h m n : Handle} {hs : List Handle} (hl : Linked s h hs m) (e : NodeEntry)
    (hn : n ∉ hs) : Linked (s.putNode n e) h hs m :=
  hl.congr fun x hx => readNode_putNode_other s e (by rintro rfl; exact hn hx)

/-- Linking `n` in between `L` and `R` (R84, R90): the two links that change are that of `n` and that of the last handle of `L`,
or HEAD where there is none. -/
theorem linkIn_spec {s : State} {n : Handle} {e : NodeEntry} {L R : List Handle} (hc : s.nnodes ≤ Config.nodeCap)
    (hl : Linked s s.head (L ++ R) Config.nil) (hd : (n :: (L ++ R)).Nodup) (he : s.readNode n = some e) :
    ∃ t, ((s.setNext n (R.head?.getD Config.nil)).bind fun _ s =>
        if L.getLast?.getD Config.nil = Config.nil then Flow.go () { s with head := n }
        else s.setNext (L.getLast?.getD Config.nil) n) = .go () t ∧
      Linked t t.head (L ++ n :: R) Config.nil ∧
      ∀ k, (∀ x ∈ L ++ n :: R, x.toNat ≠ k) → t.node.read k = s.node.read k := by
  obtain ⟨hnLR, hdLR⟩ := List.nodup_cons.mp hd
  obtain ⟨k, hL, hR⟩ := linked_append.mp hl
  obtain rfl := hR.start
  rw [setNext_eq he, Flow.bind_go]
  have hnR : n ∉ R := fun h => hnLR (List.mem_append_right _ h)
  have hn1 := readNode_putNode_same { e with next := R.head?.getD Config.nil } he
  have hR1 := hR.putNode_other { e with next := R.head?.getD Config.nil } hnR
  obtain rfl | ⟨L', p, rfl⟩ := List.eq_nil_or_concat L
  · refine ⟨_, if_pos rfl, ⟨rfl, _, hn1, hR1.congr fun _ _ => rfl⟩, fun k hk => ?_⟩
    exact Memory.read_write_other _ _ (Ne.symm (hk n (by simp)))
  · simp only [List.concat_eq_append] at *
    obtain ⟨ep, hep⟩ := hL.read (x := p) (by simp)
    have hpnil : p ≠ Config.nil := by rintro rfl; rw [readNode_nil hc] at hep; cases hep
    have hpn : p ≠ n := by rintro rfl; exact hnLR (by simp)
    have hnL' : n ∉ L' := fun h => hnLR (by simp [h])
    have hp : p ∉ L' ++ R := by
      rw [List.append_assoc] at hdLR
      exact (List.nodup_cons.mp (List.nodup_middle.mp hdLR)).1
    have hpL' : p ∉ L' := fun h => hp (List.mem_append_left _ h)
    have hpR : p ∉ R := fun h => hp (List.mem_append_right _ h)
    have hep1 : (s.putNode n { e with next := R.head?.getD Config.nil }).readNode p = some ep := by
      rw [readNode_putNode_other _ _ hpn, hep]
    have hlast : (L' ++ [p]).getLast?.getD Config.nil = p := by simp
    obtain ⟨k, hL', hkp, -⟩ := linked_append.mp hL
    rw [hlast, if_neg hpnil, setNext_eq hep1]
    refine ⟨_, rfl, ?_, fun k hk => ?_⟩
    · refine linked_append.mpr ⟨n, linked_append.mpr ⟨k, (hL'.putNode_other _ hnL').putNode_other _ hpL', ?_⟩, ?_⟩
      · exact ⟨hkp, _, readNode_putNode_same _ hep1, rfl⟩
      · exact ⟨rfl, _, by rw [readNode_putNode_other _ _ (Ne.symm hpn), hn1], hR1.putNode_other _ hpR⟩
    · exact (Memory.read_write_other _ _ (Ne.symm (hk p (by simp)))).trans
        (Memory.read_write_other _ _ (Ne.symm (hk n (by simp))))

/-- The insertion of R84 and R90 along a list of entries. -/
theorem insertSorted_spec {s : State} {n : Handle} {e : NodeEntry} {hs : List Handle} (pass : Nat → Bool)
    (hc : s.nnodes ≤ Config.nodeCap) (hl : Linked s s.head hs Config.nil) (hd : (n :: hs).Nodup) (hlen : hs.length < walkFuel)
    (he : s.readNode n = some e) :
    ∃ t, s.insertSorted n pass = .go () t ∧
      Linked t t.head ((hs.takeWhile fun h => pass (s.weightAt h)) ++ n :: hs.dropWhile fun h => pass (s.weightAt h))
        Config.nil ∧
      ∀ k, (∀ x ∈ n :: hs, x.toNat ≠ k) → t.node.read k = s.node.read k := by
  have hsplit : (hs.takeWhile fun h => pass (s.weightAt h)) ++ hs.dropWhile (fun h => pass (s.weightAt h)) = hs :=
    List.takeWhile_append_dropWhile
  rw [← hsplit] at hl hd
  obtain ⟨t, ht, hlt, hk⟩ := linkIn_spec hc hl hd he
  refine ⟨t, ?_, hlt, fun k hk' => hk k fun x hx => hk' x ?_⟩
  · rw [hsplit] at hl
    rw [State.insertSorted, State.findSlot_chain pass ((chainAt_eq_some hc).mpr ⟨hl, hlen⟩)]
    exact ht
  · have := (List.perm_middle (l₁ := hs.takeWhile fun h => pass (s.weightAt h)) (a := n)).mem_iff.mp hx
    rwa [hsplit] at this

/-- What an insertion changes of the entries. -/
theorem Keeps.insertSorted {s t : State} {n : Handle} {pass : Nat → Bool} (h : s.insertSorted n pass = .go () t) :
    Keeps s t ∧ t.nnodes = s.nnodes := by
  obtain ⟨ht, -, hm⟩ := State.insertSorted_frame h
  have hn : t.nnodes = s.nnodes := by rw [ht]
  refine ⟨⟨hn.ge, by rw [ht], fun k _ e he => exists_next_of_unlinked_eq (by rw [hm k, he])⟩, hn⟩

/-! ## The sorted list -/

/-- The merge list: from HEAD along `hs`, lightest first; no entry off it has a NEXT link (R21). -/
structure SortedList (s : State) (hs : List Handle) : Prop where
  linked : Linked s s.head hs Config.nil
  others : EveryNode s fun n e => BitVec.ofNat 9 n ∉ hs → e.next = Config.nil
  sorted : hs.Pairwise fun a b => s.weightAt a ≤ s.weightAt b

/-- Where an insertion leaves a list sorted: `pass` accepts no heavier node and rejects no lighter one. -/
theorem pairwise_insert {f : Handle → Nat} {hs : List Handle} {n : Handle} {pass : Nat → Bool}
    (hs_sorted : hs.Pairwise fun a b => f a ≤ f b) (hpass : ∀ x, pass x = true → x ≤ f n)
    (hstop : ∀ x, pass x = false → f n ≤ x) :
    ((hs.takeWhile fun h => pass (f h)) ++ n :: hs.dropWhile fun h => pass (f h)).Pairwise fun a b => f a ≤ f b := by
  induction hs with
  | nil => simp
  | cons x xs ih =>
    obtain ⟨hx, hxs⟩ := List.pairwise_cons.mp hs_sorted
    cases hp : pass (f x) with
    | true =>
      simp only [List.takeWhile_cons, List.dropWhile_cons, hp, if_true, List.cons_append]
      refine List.pairwise_cons.mpr ⟨fun y hy => ?_, ih hxs⟩
      have hm := (List.perm_middle (l₁ := xs.takeWhile fun h => pass (f h))).mem_iff.mp hy
      rw [List.takeWhile_append_dropWhile] at hm
      obtain rfl | hm := List.mem_cons.mp hm
      · exact hpass _ hp
      · exact hx y hm
    | false =>
      simp only [List.takeWhile_cons, List.dropWhile_cons, hp, Bool.false_eq_true, if_false, List.nil_append]
      refine List.pairwise_cons.mpr ⟨fun y hy => ?_, hs_sorted⟩
      obtain rfl | hy := List.mem_cons.mp hy
      · exact hstop _ hp
      · exact (hstop _ hp).trans (hx y hy)

/-- The handle of an entry, put back from its number. -/
theorem ofNat_toNat_handle (h : Handle) : BitVec.ofNat 9 h.toNat = h := BitVec.ofNat_toNat 9 h |>.trans (BitVec.setWidth_eq h)

/-- A root joined to the sorted list: the state keeps the forest, the list has one handle more and stays sorted. -/
theorem insertSorted_forest {s : State} {xs : List Byte} {n : Handle} {hs : List Handle} {ts : List Tree} (pass : Nat → Bool)
    (hc : s.nnodes ≤ Config.nodeCap) (hxs : xs.length ≤ 256) (hf : Forest s xs (n :: hs) ts) (hl : SortedList s hs)
    (hpass : ∀ x, pass x = true → x ≤ s.weightAt n) (hstop : ∀ x, pass x = false → s.weightAt n ≤ x) :
    ∃ t hs' ts', s.insertSorted n pass = .go () t ∧ Keeps s t ∧ t.nnodes = s.nnodes ∧ Forest t xs hs' ts' ∧ SortedList t hs' ∧
      hs'.Perm (n :: hs) := by
  have hlen := hf.length_le
  simp only [List.length_cons] at hlen
  obtain ⟨e, he⟩ := hf.root List.mem_cons_self
  have hd : (n :: hs).Nodup := (List.nodup_append.mp hf.owned).1
  obtain ⟨t, ht, hlt, hk⟩ := insertSorted_spec pass hc hl.linked hd (show hs.length < 512 by omega) he
  obtain ⟨hkeep, hnn⟩ := Keeps.insertSorted ht
  have hperm : ((hs.takeWhile fun h => pass (s.weightAt h)) ++ n :: hs.dropWhile fun h => pass (s.weightAt h)).Perm (n :: hs) := by
    have := List.perm_middle (l₁ := hs.takeWhile fun h => pass (s.weightAt h)) (a := n)
      (l₂ := hs.dropWhile fun h => pass (s.weightAt h))
    rwa [List.takeWhile_append_dropWhile] at this
  obtain ⟨ts', hf'⟩ := (hf.keeps hkeep hnn).perm hperm
  refine ⟨t, _, ts', ht, hkeep, hnn, hf', ⟨hlt, ?_, ?_⟩, hperm⟩
  · intro k hkn
    rw [hnn] at hkn
    obtain ⟨e', he', hnext⟩ := hl.others k hkn
    by_cases hm : BitVec.ofNat 9 k ∈ n :: hs
    · obtain ⟨v, hv⟩ := hkeep.entry k hkn e' he'
      exact ⟨_, hv, fun hno => absurd (hperm.mem_iff.mpr hm) hno⟩
    · have hoff : ∀ x ∈ n :: hs, x.toNat ≠ k := by
        rintro x hx rfl
        exact hm (by rwa [ofNat_toNat_handle])
      exact ⟨e', by rw [hk k hoff, he'], fun _ => hnext fun hmem => hm (List.mem_cons_of_mem _ hmem)⟩
  · refine (pairwise_insert hl.sorted hpass hstop).imp_of_mem fun {a b} ha hb hab => ?_
    obtain ⟨ea, hea⟩ := hf.root (hperm.mem_iff.mp ha)
    obtain ⟨eb, heb⟩ := hf.root (hperm.mem_iff.mp hb)
    rwa [hkeep.weightAt hea, hkeep.weightAt heb]

end Sys2Proof.Machine

/-! PROOFS. LIST, MERGE and TREE from state to state: what each makes of the sorted list and the forest (R84, R90, R91). -/

namespace Sys2Proof.Machine

open Sys2Proof Sys2Proof.Safety

-- A use of a lemma with default proofs (`:= by rfl`) waits until the lemma is checked. Proofs elaborated side by side would
-- each hold a thread while they wait, and pass the check's memory limit together.
set_option Elab.async false

/-- What pseudocode that went on has done. -/
theorem Flow.Within.of_go {α : Type} {fs : List Field} {s t : State} {x : Flow α} {a : α} (h : x.Within fs s)
    (hx : x = .go a t) : Effect fs s t ∧ Calm s t := by
  rw [hx] at h
  exact h

/-! ## The list and its forest -/

/-- The merge list with its trees, the leaves holding the symbols `xs`. -/
structure Listed (s : State) (xs : List Byte) (hs : List Handle) (ts : List Tree) : Prop where
  forest : Forest s xs hs ts
  list : SortedList s hs
  length : hs.length = s.nlist

section
variable {s t : State} (hnode : t.node = s.node := by rfl) (hnn : t.nnodes = s.nnodes := by rfl)
include hnode hnn

theorem readNode_congr (h : Handle) : t.readNode h = s.readNode h := by
  rw [State.readNode, State.readNode, hnode, hnn]

theorem weightAt_congr (h : Handle) : t.weightAt h = s.weightAt h := by
  rw [State.weightAt, State.weightAt, readNode_congr hnode hnn]

theorem everyNode_congr {P : Nat → NodeEntry → Prop} (h : EveryNode s P) : EveryNode t P := by
  rw [EveryNode, hnode, hnn]
  exact h

theorem childHandles_congr : t.childHandles = s.childHandles := by
  rw [State.childHandles_eq, State.childHandles_eq, hnode, hnn]

theorem Forest.congr {xs : List Byte} {hs : List Handle} {ts : List Tree} (h : Forest s xs hs ts) (hfreq : t.freq = s.freq := by rfl) :
    Forest t xs hs ts :=
  h.keeps ⟨hnn.ge, hfreq, fun _ _ e he => ⟨e.next, by rw [hnode, he]⟩⟩ hnn

theorem SortedList.congr {hs : List Handle} (h : SortedList s hs) (hhead : t.head = s.head := by rfl) : SortedList t hs where
  linked := by
    rw [hhead]
    exact h.linked.congr fun x _ => readNode_congr hnode hnn x
  others := everyNode_congr hnode hnn h.others
  sorted := h.sorted.imp fun {a b} hab => by rwa [weightAt_congr hnode hnn, weightAt_congr hnode hnn]

end

theorem presentSyms_length_le (freq : Vector Nat 256) : (presentSyms freq).length ≤ 256 := by
  have := List.length_filter_le (fun i : Fin 256 => decide (freq[i] > 0)) (List.finRange 256)
  simpa [presentSyms] using this

/-- A forest's trees are found by the bounded walks. -/
theorem Forest.treeAt {s : State} {xs : List Byte} {hs : List Handle} {ts : List Tree} (hf : Forest s xs hs ts)
    (hc : s.nnodes ≤ Config.nodeCap) {h : Handle} {T : Tree} (hT : TreeOf s h T) : s.treeAt walkFuel h = some T := by
  have hle := hT.height_le_of_builder hf.built
  obtain ⟨e, he, -⟩ := hT.root
  have hlt := (State.readNode_eq_some.mp he).1
  have hcap : s.nnodes ≤ 511 := hc
  exact treeAt_eq_some.mpr ⟨hT, show T.height < 512 by omega⟩

/-- The state between LIST and TREE, read without the bounds of the walks. -/
theorem listedBy_iff {s : State} (hc : s.nnodes ≤ Config.nodeCap) {hs : List Handle} {ts : List Tree} :
    ListedBy s hs ts ↔ Listed s (presentSyms s.freq) hs ts ∧ s.nsym = (presentSyms s.freq).length ∧ 1 ≤ s.nlist ∧
      (s.nlist = 1 → s.head.toNat + 1 = s.nnodes) := by
  constructor
  · intro h
    have hnodes := h.nodes
    have hlength := h.length
    have hcount := h.leaves.count
    have htrees : s.treesAt hs = some ts := by
      have := h.list
      rwa [State.list?, h.chain] at this
    refine ⟨⟨⟨by omega, (treesAt_eq_some.mp htrees).imp fun _ _ ht => (treeAt_eq_some.mp ht).1, h.built, ?_, ?_, h.owned,
      h.trees.symbols, h.trees.weights⟩, ⟨((chainAt_eq_some hc).mp h.chain).1, h.linked, List.pairwise_map.mp h.sorted⟩,
      h.length⟩, hcount, h.nonempty, h.last⟩
    · exact hcount ▸ h.leaves.leaf
    · exact hcount ▸ h.leaves.parent
  · rintro ⟨⟨hf, hl, hlen⟩, hcount, hne, hlast⟩
    have hle := hf.length_le
    have h256 := presentSyms_length_le s.freq
    have hnodes := hf.nodes
    have hchain : s.chain? = some hs := (chainAt_eq_some hc).mpr ⟨hl.linked, show hs.length < 512 by omega⟩
    have htrees : s.treesAt hs = some ts := treesAt_eq_some.mpr (hf.trees.imp fun _ _ => hf.treeAt hc)
    exact {
      chain := hchain
      list := by rw [State.list?, hchain]; exact htrees
      length := hlen
      nonempty := hne
      nodes := by omega
      last := hlast
      built := hf.built
      leaves := ⟨hcount, by rw [hcount]; exact hf.leaf, by rw [hcount]; exact hf.parent⟩
      linked := hl.others
      sorted := List.pairwise_map.mpr hl.sorted
      owned := hf.owned
      trees := ⟨hf.symbols, hf.weights⟩ }

/-! ## LIST -/

/-- The state with one more entry `e`, not yet on the list. -/
def State.withNew (s : State) (e : NodeEntry) : State :=
  ({ s with nnodes := s.nnodes + 1 } : State).putNode (BitVec.ofNat 9 s.nnodes) e

section
variable {s : State} {e : NodeEntry} (hroom : s.nnodes < Config.nodeCap)
include hroom

theorem withNew_read (n : Nat) : (s.withNew e).node.read n = if n = s.nnodes then some e else s.node.read n := by
  rw [State.withNew, State.putNode_node, Memory.read_write, handle_toNat hroom]

theorem withNew_readNode_old {h : Handle} (hh : h.toNat < s.nnodes) : (s.withNew e).readNode h = s.readNode h := by
  have hlt : h.toNat < (s.withNew e).nnodes := Nat.lt_succ_of_lt hh
  rw [State.readNode, State.readNode, if_pos hlt, if_pos hh, withNew_read hroom, if_neg (by omega)]

theorem adds_withNew : Adds s (s.withNew e) e where
  keeps := ⟨Nat.le_succ _, rfl, fun n hn e' he => ⟨e'.next, by rw [withNew_read hroom, if_neg (by omega), he]⟩⟩
  nnodes := rfl
  entry := ⟨e.next, by rw [withNew_read hroom, if_pos rfl]⟩
  room := hroom

theorem withNew_weightAt : (s.withNew e).weightAt (BitVec.ofNat 9 s.nnodes) = e.weight := by
  obtain ⟨v, hv⟩ := (adds_withNew (e := e) hroom).readNode
  simp [State.weightAt, hv]

/-- The list is as before: the new entry is not on it. -/
theorem SortedList.withNew {hs : List Handle} (hl : SortedList s hs) (he : e.next = Config.nil) :
    SortedList (s.withNew e) hs where
  linked := hl.linked.congr fun x hx => by
    obtain ⟨e', he'⟩ := hl.linked.read hx
    exact withNew_readNode_old hroom (State.readNode_eq_some.mp he').1
  others := by
    intro n hn
    rw [withNew_read hroom]
    split
    · exact ⟨e, rfl, fun _ => he⟩
    · exact hl.others n (by have : n < s.nnodes + 1 := hn; omega)
  sorted := hl.sorted.imp_of_mem fun {a b} ha hb hab => by
    obtain ⟨ea, hea⟩ := hl.linked.read ha
    obtain ⟨eb, heb⟩ := hl.linked.read hb
    have hk := (adds_withNew (e := e) hroom).keeps
    rwa [hk.weightAt hea, hk.weightAt heb]

end

/-- One turn of LIST's loop (R84). -/
theorem listLeaf_spec {s : State} {xs : List Byte} {hs : List Handle} {ts : List Tree} (x : Byte) (h : Listed s xs hs ts)
    (hn : s.nnodes = xs.length) (hlen : xs.length < 256) :
    ∃ t hs' ts', listLeaf x s.freq[symIdx x] s = .go () t ∧ Listed t (xs ++ [x]) hs' ts' ∧ t.nnodes = (xs ++ [x]).length ∧
      t.freq = s.freq := by
  have hroom : s.nnodes < Config.nodeCap := by simp only [Config.nodeCap]; omega
  have ha := adds_withNew (e := leafEntry x s.freq[symIdx x]) hroom
  have hw := withNew_weightAt (e := leafEntry x s.freq[symIdx x]) hroom
  obtain ⟨t, hs', ts', ht, hk, hnn, hf, hl, hperm⟩ := insertSorted_forest (fun y => decide (y ≤ s.freq[symIdx x]))
    (show s.nnodes + 1 ≤ Config.nodeCap from hroom) (by simp; omega) (h.forest.addLeaf hn ha) (h.list.withNew hroom rfl)
    (fun y hy => by rw [hw]; exact of_decide_eq_true hy)
    (fun y hy => by rw [hw]; exact Nat.le_of_not_le (of_decide_eq_false hy))
  have hnl : t.nlist = s.nlist := by
    obtain ⟨hframe, -, -⟩ := State.insertSorted_frame ht
    rw [hframe]
    rfl
  refine ⟨{ t with nlist := t.nlist + 1 }, hs', ts', ?_, ⟨hf.congr, hl.congr, ?_⟩, ?_, hk.freq⟩
  · rw [listLeaf, State.takeHandle_eq_go.mpr ⟨hroom, rfl, rfl⟩, Flow.bind_go]
    exact Flow.bind_eq_go.mpr ⟨(), t, ht, rfl⟩
  · have := hperm.length_eq
    have := h.length
    simp only [List.length_cons] at *
    omega
  · rw [List.length_append, List.length_singleton, ← hn]
    exact hnn

/-- The symbols with a non-zero count among `ws`, the first count being that of symbol `k`. -/
def symsFrom : List Nat → Nat → List Byte
  | [], _ => []
  | w :: ws, k => if w > 0 then BitVec.ofNat 8 k :: symsFrom ws (k + 1) else symsFrom ws (k + 1)

theorem symsFrom_ofFn {n : Nat} (f : Fin n → Nat) (k : Nat) :
    symsFrom (List.ofFn f) k = ((List.finRange n).filter fun i => decide (f i > 0)).map fun i => BitVec.ofNat 8 (i.val + k) := by
  induction n generalizing k with
  | zero => simp [symsFrom]
  | succ n ih =>
    have hshift : ∀ i : Fin n, (i.succ : Fin (n + 1)).val + k = i.val + (k + 1) := fun i => by simp only [Fin.val_succ]; omega
    have htail : symsFrom (List.ofFn fun i : Fin n => f i.succ) (k + 1) =
        (((List.finRange n).map Fin.succ).filter fun i => decide (f i > 0)).map fun i => BitVec.ofNat 8 (i.val + k) := by
      rw [ih, List.filter_map, List.map_map]
      exact List.map_congr_left fun i _ => by simp only [Function.comp_apply, hshift]
    rw [List.ofFn_succ, List.finRange_succ, symsFrom, htail, List.filter_cons]
    by_cases h0 : f 0 > 0 <;> simp [h0]

theorem symsFrom_freq (freq : Vector Nat 256) : symsFrom freq.toList 0 = presentSyms freq := by
  have : freq.toList = List.ofFn fun i : Fin 256 => freq[i] := by
    apply List.ext_getElem
    · rw [Vector.length_toList, List.length_ofFn]
    · intro i h1 h2
      rw [Vector.getElem_toList, List.getElem_ofFn]
      rfl
  rw [this, symsFrom_ofFn]
  rfl

/-- LIST's loop (R84) over the counts not yet looked at. -/
theorem listLoop_spec {ws : List Nat} {k : Nat} {s : State} {xs : List Byte} {hs : List Handle} {ts : List Tree}
    (h : Listed s xs hs ts) (hn : s.nnodes = xs.length) (hws : ws = s.freq.toList.drop k)
    (hlen : (xs ++ symsFrom ws k).length ≤ 256) :
    ∃ t hs' ts', listLoop ws k s = .go () t ∧ Listed t (xs ++ symsFrom ws k) hs' ts' ∧
      t.nnodes = (xs ++ symsFrom ws k).length := by
  induction ws generalizing k s xs hs ts with
  | nil => exact ⟨s, hs, ts, rfl, by simpa [symsFrom] using h, by simpa [symsFrom] using hn⟩
  | cons w ws ih =>
    have hk : k < 256 := by
      have := congrArg List.length hws
      simp only [List.length_cons, List.length_drop, Vector.length_toList] at this
      omega
    rw [List.drop_eq_getElem_cons (by simpa using hk)] at hws
    obtain ⟨hw, hws⟩ := List.cons.inj hws
    have hsym : w = s.freq[symIdx (BitVec.ofNat 8 k)] := by
      have : symIdx (BitVec.ofNat 8 k) = ⟨k, hk⟩ := Fin.ext (by simp [symIdx]; omega)
      simp only [this, hw]
      exact Vector.getElem_toList _
    by_cases hpos : w > 0
    · rw [symsFrom, if_pos hpos, List.append_cons] at hlen ⊢
      obtain ⟨u, hs1, ts1, hu, hlisted, hnn, hfreq⟩ := listLeaf_spec (BitVec.ofNat 8 k) h hn
        (by simp only [List.length_append, List.length_singleton] at hlen; omega)
      rw [listLoop, if_pos hpos, hsym, hu, Flow.bind_go]
      exact ih hlisted hnn (by rw [hfreq]; exact hws) hlen
    · rw [symsFrom, if_neg hpos] at hlen ⊢
      rw [listLoop, if_neg hpos, Flow.bind_go]
      exact ih h hn hws hlen

/-- LIST (R84): the list of the present symbols' leaves; with none it raises its fault. -/
theorem listBody_spec (s : State) :
    (∃ t hs ts, listBody s = .go () t ∧ t.phase = .listed ∧ ListedBy t hs ts) ∨
      ∃ t, listBody s = .ended t ∧ t.phase = .fault ∧ t.nlist = 0 ∧ t.nsym = 0 := by
  have hempty : Listed { s with nnodes := 0, head := Config.nil, nlist := 0 } [] [] [] :=
    ⟨⟨rfl, .nil, fun _ h => absurd h (Nat.not_lt_zero _), fun _ h => absurd h (Nat.not_lt_zero _),
      fun _ h => absurd h (Nat.not_lt_zero _), by simp [State.childHandles_eq], .refl _, fun _ h => absurd h List.not_mem_nil⟩,
      ⟨rfl, fun _ h => absurd h (Nat.not_lt_zero _), .nil⟩, rfl⟩
  obtain ⟨t, hs, ts, ht, hl, hn⟩ := listLoop_spec (ws := s.freq.toList) (k := 0) hempty rfl rfl
    (by rw [List.nil_append, symsFrom_freq]; exact presentSyms_length_le _)
  rw [List.nil_append, symsFrom_freq] at hl hn
  have he := ((listLoop_within _ _ _).of_go ht).1
  have hfreq : t.freq = s.freq := (he.same .counts (by simp)).1
  have h256 := presentSyms_length_le s.freq
  have hnodes := hl.forest.nodes
  have hlen := hl.length
  rw [listBody, ht, Flow.bind_go]
  by_cases h0 : t.nlist = 0
  · exact .inr ⟨_, if_pos h0, rfl, h0, h0⟩
  · refine .inl ⟨_, hs, ts, if_neg h0, rfl, (listedBy_iff ?_).mpr
      ⟨⟨?_, hl.list.congr, hlen⟩, ?_, ?_, ?_⟩⟩
    · simp only [Config.nodeCap]
      omega
    · rw [← hfreq] at hl
      exact hl.forest.congr
    · rw [show (t.nlist = _) = (t.nlist = (presentSyms t.freq).length) from rfl, hfreq]
      omega
    · exact Nat.one_le_iff_ne_zero.mpr h0
    · intro h1
      have hone : hs.length = 1 := hlen.trans h1
      obtain ⟨x, rfl⟩ := List.length_eq_one_iff.mp hone
      obtain ⟨e, he⟩ := hl.forest.root (n := x) (by simp)
      have hlt := (State.readNode_eq_some.mp he).1
      have hx : t.head = x := hl.list.linked.start
      simp only [hx]
      omega

end Sys2Proof.Machine

/-! PROOFS. MERGE and TREE from state to state: what each makes of the sorted list and the forest (R90, R91). -/

namespace Sys2Proof.Machine

open Sys2Proof Sys2Proof.Safety

/-! ## MERGE -/

theorem keeps_setNext {s : State} {h : Handle} {e : NodeEntry} (he : s.readNode h = some e) (v : Handle) :
    Keeps s (s.putNode h { e with next := v }) where
  nnodes := Nat.le_refl _
  freq := rfl
  entry n _ e' he' := by
    rw [State.putNode_node, Memory.read_write]
    split
    · subst_vars
      obtain rfl : e' = e := by simpa [(State.readNode_eq_some.mp he).2] using he'.symm
      exact ⟨v, rfl⟩
    · exact ⟨e'.next, he'⟩

theorem Adds.keeps_after {s t u : State} {e : NodeEntry} (h : Adds s t e) (hk : Keeps t u) (hn : u.nnodes = t.nnodes) :
    Adds s u e where
  keeps := h.keeps.trans hk
  nnodes := hn.trans h.nnodes
  entry := by
    obtain ⟨v, hv⟩ := h.entry
    obtain ⟨w, hw⟩ := hk.entry s.nnodes (by rw [h.nnodes]; exact Nat.lt_succ_self _) _ hv
    exact ⟨w, hw⟩
  room := h.room

/-- MERGE's state once it has made the parent of `a` and `b`, whose entries are `ea` and `eb`, and moved HEAD past them (R90). -/
def State.withParent (s : State) (a b : Handle) (ea eb : NodeEntry) : State :=
  { s.withNew (parentEntry (ea.weight + eb.weight) a b) with head := eb.next }

/-- MERGE's state before it puts the new parent on the list (R90): `a` and `b` are off it. -/
def State.joinHeads (s : State) (a b : Handle) (ea eb : NodeEntry) : State :=
  ((s.withParent a b ea eb).putNode a { ea with next := Config.nil }).putNode b { eb with next := Config.nil }

section
variable {s : State} {a b : Handle} {ea eb : NodeEntry} (hroom : s.nnodes < Config.nodeCap) (ha : s.readNode a = some ea)
  (hb : s.readNode b = some eb) (hab : b ≠ a)
include hroom ha hb hab

theorem joinHeads_reads :
    (s.withParent a b ea eb).readNode a = some ea ∧
      ((s.withParent a b ea eb).putNode a { ea with next := Config.nil }).readNode b = some eb := by
  refine ⟨?_, ?_⟩
  · exact (withNew_readNode_old hroom (State.readNode_eq_some.mp ha).1).trans ha
  · rw [readNode_putNode_other _ _ hab]
    exact (withNew_readNode_old hroom (State.readNode_eq_some.mp hb).1).trans hb

theorem adds_joinHeads : Adds s (s.joinHeads a b ea eb) (parentEntry (ea.weight + eb.weight) a b) := by
  obtain ⟨h1, h2⟩ := joinHeads_reads hroom ha hb hab
  have hnew : Adds s (s.withParent a b ea eb) (parentEntry (ea.weight + eb.weight) a b) :=
    (adds_withNew hroom).keeps_after ⟨Nat.le_refl _, rfl, fun _ _ e he => ⟨e.next, he⟩⟩ rfl
  exact hnew.keeps_after ((keeps_setNext h1 _).trans (keeps_setNext h2 _)) rfl

/-- MERGE is the join of the two first nodes and the insertion of their parent (R90). -/
theorem mergeStep_eq (hhead : s.head = a) (hnext : ea.next = b) :
    mergeStep s = ((s.joinHeads a b ea eb).insertSorted (BitVec.ofNat 9 s.nnodes)
      fun x => decide (x < ea.weight + eb.weight)).bind fun _ s => .go () { s with nlist := s.nlist - 1 } := by
  obtain ⟨h1, h2⟩ := joinHeads_reads hroom ha hb hab
  subst hhead hnext
  have hparent : mergeStep s = ((s.withParent s.head ea.next ea eb).setNext s.head Config.nil).bind fun _ u =>
      (u.setNext ea.next Config.nil).bind fun _ u => (u.insertSorted (BitVec.ofNat 9 s.nnodes)
        fun x => decide (x < ea.weight + eb.weight)).bind fun _ u => .go () { u with nlist := u.nlist - 1 } := by
    simp only [mergeStep, State.needNode_some ha, State.needNode_some hb, State.takeHandle_eq_go.mpr ⟨hroom, rfl, rfl⟩,
      Flow.bind_go]
    rfl
  rw [hparent, setNext_eq h1, Flow.bind_go, setNext_eq h2, Flow.bind_go]
  rfl

/-- The rest of the list is as before, and `a` and `b` have no NEXT link. -/
theorem SortedList.joinHeads {rest : List Handle} (hl : SortedList s (a :: b :: rest)) (hd : (a :: b :: rest).Nodup) :
    SortedList (s.joinHeads a b ea eb) rest := by
  have hk := (adds_joinHeads hroom ha hb hab).keeps
  obtain ⟨-, ea', hea', -, eb', heb', hrest⟩ := hl.linked
  obtain rfl : ea = ea' := by simpa [ha] using hea'
  obtain rfl : eb = eb' := by simpa [hb] using heb'
  have harest : a ∉ rest := fun h => (List.nodup_cons.mp hd).1 (List.mem_cons_of_mem _ h)
  have hbrest : b ∉ rest := (List.nodup_cons.mp (List.nodup_cons.mp hd).2).1
  refine ⟨?_, ?_, ?_⟩
  · have hnew : Linked (s.withParent a b ea eb) eb.next rest Config.nil :=
      hrest.congr fun x hx => by
        obtain ⟨e, he⟩ := hrest.read hx
        exact withNew_readNode_old hroom (State.readNode_eq_some.mp he).1
    exact (hnew.putNode_other _ harest).putNode_other _ hbrest
  · intro n hn
    have hread : (s.joinHeads a b ea eb).node.read n = if n = b.toNat then some { eb with next := Config.nil } else
        if n = a.toNat then some { ea with next := Config.nil } else
          if n = s.nnodes then some (parentEntry (ea.weight + eb.weight) a b) else s.node.read n := by
      rw [State.joinHeads, State.putNode_node, Memory.read_write, State.putNode_node, Memory.read_write]
      exact congrArg _ (congrArg _ (withNew_read hroom n))
    rw [hread]
    split
    · exact ⟨_, rfl, fun _ => rfl⟩
    split
    · exact ⟨_, rfl, fun _ => rfl⟩
    split
    · exact ⟨_, rfl, fun _ => rfl⟩
    · rename_i hnb hna hnp
      have hlt : n < s.nnodes := by have : n < s.nnodes + 1 := hn; omega
      obtain ⟨e, he, hoff⟩ := hl.others n hlt
      refine ⟨e, he, fun hno => hoff fun hmem => ?_⟩
      have hnum : (BitVec.ofNat 9 n).toNat = n := handle_toNat (by omega)
      obtain h | h | h : BitVec.ofNat 9 n = a ∨ BitVec.ofNat 9 n = b ∨ BitVec.ofNat 9 n ∈ rest := by simpa using hmem
      · exact hna (by rw [← h, hnum])
      · exact hnb (by rw [← h, hnum])
      · exact hno h
  · refine (List.pairwise_cons.mp (List.pairwise_cons.mp hl.sorted).2).2.imp_of_mem fun {x y} hx hy hxy => ?_
    obtain ⟨ex, hex⟩ := hrest.read hx
    obtain ⟨ey, hey⟩ := hrest.read hy
    rwa [hk.weightAt hex, hk.weightAt hey]

end

/-- The two first nodes of the list, and the trees they are the roots of. -/
theorem Listed.firstTwo {s : State} {xs : List Byte} {hs : List Handle} {ts : List Tree} (h : Listed s xs hs ts)
    (h2 : 2 ≤ s.nlist) :
    ∃ a b rest A B Ts ea eb, hs = a :: b :: rest ∧ ts = A :: B :: Ts ∧ s.head = a ∧ s.readNode a = some ea ∧
      ea.weight = A.weight ∧ ea.next = b ∧ s.readNode b = some eb ∧ eb.weight = B.weight := by
  have hlen := h.length
  obtain ⟨a, b, rest, rfl⟩ : ∃ a b rest, hs = a :: b :: rest := by
    match hs, hlen with
    | a :: b :: rest, _ => exact ⟨a, b, rest, rfl⟩
    | [a], hlen => simp at hlen; omega
    | [], hlen => simp at hlen; omega
  obtain ⟨A, Ts', hA, hTs', rfl⟩ := List.forall₂_cons_left_iff.mp h.forest.trees
  obtain ⟨B, Ts, hB, -, rfl⟩ := List.forall₂_cons_left_iff.mp hTs'
  obtain ⟨hhead, ea, ha, hnext, eb, hb, -⟩ := h.list.linked
  obtain ⟨e, he, -, hwA⟩ := hA.root
  obtain rfl : ea = e := by simpa [ha] using he
  obtain ⟨e, he, -, hwB⟩ := hB.root
  obtain rfl : eb = e := by simpa [hb] using he
  exact ⟨a, b, rest, A, B, Ts, ea, eb, rfl, rfl, hhead, ha, hwA, hnext, hb, hwB⟩

/-- MERGE on a list of two or more trees (R90, R92). -/
theorem mergeStep_spec {s : State} {xs : List Byte} {hs : List Handle} {ts : List Tree} (h : Listed s xs hs ts)
    (hxs : xs.length ≤ 256) (h2 : 2 ≤ s.nlist) :
    ∃ t hs' ts', mergeStep s = .go () t ∧ Listed t xs hs' ts' ∧ t.nlist + 1 = s.nlist ∧
      (t.nlist = 1 → t.head.toNat + 1 = t.nnodes) ∧ t.phase = s.phase := by
  have hlen := h.length
  have hnodes := h.forest.nodes
  obtain ⟨a, b, rest, A, B, ts, ea, eb, rfl, rfl, hhead, ha, hwA, hnext, hb, hwB⟩ := h.firstTwo h2
  simp only [List.length_cons] at hlen hnodes
  have hroom : s.nnodes < Config.nodeCap := by simp only [Config.nodeCap]; omega
  have hd : (a :: b :: rest).Nodup := (List.nodup_append.mp h.forest.owned).1
  have hab : b ≠ a := by rintro rfl; simp at hd
  have hadds := adds_joinHeads hroom ha hb hab
  have hwp : (s.joinHeads a b ea eb).weightAt (BitVec.ofNat 9 s.nnodes) = ea.weight + eb.weight := by
    obtain ⟨v, hv⟩ := hadds.readNode
    simp [State.weightAt, hv, parentEntry]
  have hforest := h.forest.join (t := s.joinHeads a b ea eb) (by rw [← hwA, ← hwB]; exact hadds)
  obtain ⟨t, hs', ts', ht, -, hnn, hf, hl, hperm⟩ := insertSorted_forest (fun x => decide (x < ea.weight + eb.weight))
    (show s.nnodes + 1 ≤ Config.nodeCap from hroom) hxs hforest (h.list.joinHeads hroom ha hb hab hd)
    (fun x hx => by rw [hwp]; exact (of_decide_eq_true hx).le) (fun x hx => by rw [hwp]; exact Nat.le_of_not_lt (of_decide_eq_false hx))
  obtain ⟨hnl, hphase⟩ : t.nlist = s.nlist ∧ t.phase = s.phase := by
    obtain ⟨hframe, -, -⟩ := State.insertSorted_frame ht
    rw [hframe]
    exact ⟨rfl, rfl⟩
  have hlen' := hperm.length_eq
  simp only [List.length_cons] at hlen'
  refine ⟨{ t with nlist := t.nlist - 1 }, hs', ts', ?_, ⟨hf.congr, hl.congr, ?_⟩, ?_, fun h1 => ?_, hphase⟩
  · rw [mergeStep_eq hroom ha hb hab hhead hnext, ht, Flow.bind_go]
  · change hs'.length = t.nlist - 1
    omega
  · change t.nlist - 1 + 1 = s.nlist
    omega
  · have hone : rest.length = 0 := by
      have : t.nlist - 1 = 1 := h1
      omega
    obtain rfl := List.length_eq_zero_iff.mp hone
    obtain rfl := List.perm_singleton.mp hperm
    have hx : t.head = BitVec.ofNat 9 s.nnodes := hl.linked.start
    change t.head.toNat + 1 = t.nnodes
    rw [hx, handle_toNat hroom, hnn]
    rfl

/-- MERGE keeps the invariant of the list (R92). -/
theorem mergeStep_listedBy {s : State} {hs : List Handle} {ts : List Tree} (hc : s.nnodes ≤ Config.nodeCap)
    (h : ListedBy s hs ts) (h2 : 2 ≤ s.nlist) :
    ∃ t hs' ts', mergeStep s = .go () t ∧ ListedBy t hs' ts' ∧ t.nlist + 1 = s.nlist ∧ t.nnodes ≤ Config.nodeCap ∧
      t.phase = s.phase := by
  obtain ⟨hl, hcount, -, -⟩ := (listedBy_iff hc).mp h
  have h256 := presentSyms_length_le s.freq
  obtain ⟨t, hs', ts', ht, hl', hnl, hlast, hphase⟩ := mergeStep_spec hl h256 h2
  have he := ((mergeStep_within s).of_go ht).1
  have hfreq : t.freq = s.freq := (he.same .counts (by simp)).1
  have hnsym : t.nsym = s.nsym := he.same .nsym (by simp)
  have hcap : t.nnodes ≤ Config.nodeCap := by
    have := hl'.forest.nodes
    have := hl'.length
    simp only [Config.nodeCap]
    omega
  exact ⟨t, hs', ts', ht, (listedBy_iff hcap).mpr ⟨by rw [hfreq]; exact hl', by rw [hfreq, hnsym, hcount], by omega, hlast⟩, hnl, hcap,
    hphase⟩

/-! ## TREE -/

/-- TREE's loop comes to a list of one tree (R91). -/
theorem mergeLoop_listedBy {fuel : Nat} {s : State} {hs : List Handle} {ts : List Tree} (hc : s.nnodes ≤ Config.nodeCap)
    (h : ListedBy s hs ts) (hfuel : s.nlist ≤ fuel) :
    ∃ t hs' ts', mergeLoop fuel s = .go () t ∧ ListedBy t hs' ts' ∧ t.nlist = 1 ∧ t.nnodes ≤ Config.nodeCap := by
  induction fuel generalizing s hs ts with
  | zero =>
    have := h.nonempty
    omega
  | succ fuel ih =>
    by_cases h1 : s.nlist > 1
    · obtain ⟨u, hs1, ts1, hu, hl, hnl, hcu, -⟩ := mergeStep_listedBy hc h h1
      rw [mergeLoop, if_pos h1, hu, Flow.bind_go]
      exact ih hcu hl (by omega)
    · have := h.nonempty
      exact ⟨s, hs, ts, by rw [mergeLoop, if_neg h1], h, by omega, hc⟩

/-- A list of one tree, finalized (R91). -/
theorem finalize_spec {s : State} {hs : List Handle} {ts : List Tree} (hc : s.nnodes ≤ Config.nodeCap) (h : ListedBy s hs ts)
    (h1 : s.nlist = 1) :
    ∃ e T, s.readNode s.head = some e ∧
      BuiltBy { s.putNode s.head { e with next := Config.nil } with
        root := s.head, head := Config.nil, degen := e.isLeaf, phase := .treed } T := by
  obtain ⟨hl, hcount, -, hlast⟩ := (listedBy_iff hc).mp h
  have hlen := hl.length.trans h1
  obtain ⟨x, rfl⟩ := List.length_eq_one_iff.mp hlen
  obtain ⟨T, rfl⟩ := List.length_eq_one_iff.mp (hl.forest.trees.length_eq.symm.trans hlen)
  obtain rfl : s.head = x := hl.list.linked.start
  obtain ⟨e, he, hleaf, -⟩ := (List.forall₂_cons.mp hl.forest.trees).1.root
  have hk := keeps_setNext he Config.nil
  have hf := (hl.forest.keeps hk rfl).congr
    (t := { s.putNode s.head { e with next := Config.nil } with
      root := s.head, head := Config.nil, degen := e.isLeaf, phase := .treed })
  have hnodes := hl.forest.nodes
  simp only [List.length_singleton] at hnodes
  refine ⟨e, T, he, {
    tree := hf.treeAt hc (List.forall₂_cons.mp hf.trees).1
    root := hlast h1
    nodes := by change s.nnodes + 1 = 2 * s.nsym; omega
    nlist := h1
    head := rfl
    built := hf.built
    leaves := ⟨hcount, by change ∀ n, n < s.nsym → _; rw [hcount]; exact hf.leaf,
      by change EveryNode _ fun n e => s.nsym ≤ n → _; rw [hcount]; exact hf.parent⟩
    unlinked := fun n hn => ?_
    owned := hf.owned
    trees := ⟨hf.symbols, hf.weights⟩
    degen := hleaf }⟩
  change ∃ e', (s.node.write s.head.toNat { e with next := Config.nil }).read n = some e' ∧ _
  rw [Memory.read_write]
  split
  · exact ⟨_, rfl, rfl⟩
  · rename_i hne
    have hlt : n < s.nnodes := hn
    obtain ⟨e', he', hoff⟩ := hl.list.others n hlt
    refine ⟨e', he', hoff fun hm => hne ?_⟩
    rw [← List.mem_singleton.mp hm, handle_toNat (by omega)]

/-- TREE on the invariant's list (R91): one tree, finalized. -/
theorem treeBody_spec {s : State} {hs : List Handle} {ts : List Tree} (hc : s.nnodes ≤ Config.nodeCap) (h : ListedBy s hs ts) :
    ∃ t T, treeBody s = .go () t ∧ t.phase = .treed ∧ BuiltBy t T := by
  obtain ⟨u, hs1, ts1, hu, hl, h1, hcu⟩ := mergeLoop_listedBy hc h (Nat.le_refl _)
  obtain ⟨e, T, he, hb⟩ := finalize_spec hcu hl h1
  refine ⟨_, T, ?_, rfl, hb⟩
  have hset : ({ u with root := u.head } : State).setNext u.head Config.nil =
      .go () (({ u with root := u.head } : State).putNode u.head { e with next := Config.nil }) :=
    setNext_eq (s := { u with root := u.head }) he _
  have hread : ({ ({ u with root := u.head } : State).putNode u.head { e with next := Config.nil } with
      head := Config.nil } : State).readNode u.head = some { e with next := Config.nil } :=
    readNode_putNode_same (s := { u with root := u.head }) _ he
  exact Flow.bind_eq_go.mpr ⟨(), u, hu, Flow.bind_eq_go.mpr ⟨(), _, hset, Flow.bind_eq_go.mpr
    ⟨_, _, State.needNode_some hread, rfl⟩⟩⟩

end Sys2Proof.Machine

/-! PROOFS. The walks along a finished tree: CODES, STREE, DSYM and DPAYLOAD (R100, R111, R132, R133). -/

namespace Sys2Proof.Machine

open Sys2Proof Sys2Proof.Safety

-- A use of a lemma with default proofs (`:= by rfl`) waits until the lemma is checked. Proofs elaborated side by side would
-- each hold a thread while they wait, and pass the check's memory limit together.
set_option Elab.async false

theorem treeOf_congr {s t : State} {h : Handle} {T : Tree} (hT : TreeOf s h T) (hnode : t.node = s.node := by rfl)
    (hnn : t.nnodes = s.nnodes := by rfl) : TreeOf t h T := hT.congr (readNode_congr hnode hnn)

/-- A code table with the path of each leaf written at its symbol (R100). -/
def writePaths (path : Bits) (ps : List (Byte × Bits)) (c : Vector Bits 256) : Vector Bits 256 :=
  ps.foldl (fun c p => c.set (symIdx p.1) (path ++ p.2)) c

theorem writePaths_append (path : Bits) (ps qs : List (Byte × Bits)) (c : Vector Bits 256) :
    writePaths path (ps ++ qs) c = writePaths path qs (writePaths path ps c) := List.foldl_append

/-- The paths through one branch. -/
theorem writePaths_branch (path : Bits) (b : Bool) (ps : List (Byte × Bits)) (c : Vector Bits 256) :
    writePaths path (ps.map fun p => (p.1, b :: p.2)) c = writePaths (path ++ [b]) ps c := by
  simp [writePaths, List.foldl_map]

/-- `walk(n, path)` of R100 writes the path of every leaf below `n` and counts the bits of the serialized tree. -/
theorem codesWalk_eq {T : Tree} {fuel : Nat} {n : Handle} {path : Bits} {s : State} (hT : TreeOf s n T) (hh : T.height < fuel) :
    codesWalk fuel n path s =
      .go () { s with code := writePaths path T.paths s.code, treebits := s.treebits + T.ser.length } := by
  induction T generalizing fuel n path s with
  | leaf x w =>
    obtain ⟨fuel, rfl⟩ := Nat.exists_eq_succ_of_ne_zero (Nat.ne_zero_of_lt hh)
    obtain ⟨e, he, hl, rfl, -⟩ := hT
    rw [codesWalk, State.needNode_some he, Flow.bind_go, if_pos hl]
    simp [writePaths, Tree.paths, Tree.ser]
  | node w l r ihl ihr =>
    obtain ⟨fuel, rfl⟩ := Nat.exists_eq_succ_of_ne_zero (Nat.ne_zero_of_lt hh)
    obtain ⟨e, he, hl, -, h1, h2⟩ := hT
    have hhl : l.height < fuel := by simp only [Tree.height] at hh; omega
    have hhr : r.height < fuel := by simp only [Tree.height] at hh; omega
    rw [codesWalk, State.needNode_some he, Flow.bind_go, if_neg (by simp [hl]), ihl (treeOf_congr h1) hhl, Flow.bind_go,
      ihr (treeOf_congr h2) hhr]
    have hcode : writePaths path (Tree.node w l r).paths s.code =
        writePaths (path ++ [true]) r.paths (writePaths (path ++ [false]) l.paths s.code) := by
      rw [Tree.paths, writePaths_append, writePaths_branch, writePaths_branch]
    have hbits : s.treebits + (Tree.node w l r).ser.length = s.treebits + 1 + l.ser.length + r.ser.length := by
      simp only [Tree.ser, List.length_cons, List.length_append]
      omega
    rw [hcode, hbits]

theorem writeBits_append (a b : Bits) (s : State) : s.writeBits (a ++ b) = (s.writeBits a).writeBits b := by
  induction a generalizing s with
  | nil => rfl
  | cons x xs ih => exact ih _

theorem TreeOf.writeBits {s : State} {h : Handle} {T : Tree} (hT : TreeOf s h T) (bs : Bits) :
    TreeOf (s.writeBits bs) h T := by
  have he := effect_writeBits bs s
  exact treeOf_congr hT (he.same .node (by simp)) (he.same .nnodes (by simp))

/-- `ser(n)` of R111 writes the serialized tree. -/
theorem serWalk_eq {T : Tree} {fuel : Nat} {n : Handle} {s : State} (hT : TreeOf s n T) (hh : T.height < fuel) :
    serWalk fuel n s = .go () (s.writeBits T.ser) := by
  induction T generalizing fuel n s with
  | leaf x w =>
    obtain ⟨fuel, rfl⟩ := Nat.exists_eq_succ_of_ne_zero (Nat.ne_zero_of_lt hh)
    obtain ⟨e, he, hl, rfl, -⟩ := hT
    rw [serWalk, State.needNode_some he, Flow.bind_go, if_pos hl]
    rfl
  | node w l r ihl ihr =>
    obtain ⟨fuel, rfl⟩ := Nat.exists_eq_succ_of_ne_zero (Nat.ne_zero_of_lt hh)
    obtain ⟨e, he, hl, -, h1, h2⟩ := hT
    have hhl : l.height < fuel := by simp only [Tree.height] at hh; omega
    have hhr : r.height < fuel := by simp only [Tree.height] at hh; omega
    have hbit : s.writeBit true = s.writeBits [true] := rfl
    rw [serWalk, State.needNode_some he, Flow.bind_go, if_neg (by simp [hl]), hbit, ihl (h1.writeBits [true]) hhl, Flow.bind_go,
      ihr ((h2.writeBits [true]).writeBits l.ser) hhr, ← writeBits_append]
    rfl

/-- A walk of R132 from a tree: a symbol, with at least a bit read unless the tree is a leaf, or the end of the run. -/
theorem symbolWalk_spec {T : Tree} {fuel : Nat} {cur : Handle} {s : State} (hT : TreeOf s cur T) (hf : s.bitsLeft < fuel) :
    (symbolWalk fuel cur s).Spec
      (fun _ t => t.phase = s.phase ∧ t.bitsLeft ≤ s.bitsLeft ∧ (T.isLeaf = false → t.bitsLeft < s.bitsLeft))
      (fun _ => True) False := by
  induction T generalizing fuel cur s with
  | leaf x w =>
    obtain ⟨fuel, rfl⟩ := Nat.exists_eq_succ_of_ne_zero (Nat.ne_zero_of_lt hf)
    obtain ⟨e, he, hl, -⟩ := hT
    rw [symbolWalk, State.needNode_some he, Flow.bind_go, if_pos hl]
    exact ⟨rfl, Nat.le_refl _, by simp [Tree.isLeaf]⟩
  | node w l r ihl ihr =>
    obtain ⟨fuel, rfl⟩ := Nat.exists_eq_succ_of_ne_zero (Nat.ne_zero_of_lt hf)
    obtain ⟨e, he, hl, -, h1, h2⟩ := hT
    rw [symbolWalk, State.needNode_some he, Flow.bind_go, if_neg (by simp [hl])]
    split
    · trivial
    · rename_i b u hu
      have hbits := State.readBit_bitsLeft hu
      obtain ⟨-, -, rfl⟩ := State.readBit_eq_some.mp hu
      have hstep : (symbolWalk fuel (if b then e.right else e.left) { s with bitPos := s.bitPos + 1 }).Spec
          (fun _ t => t.phase = s.phase ∧ t.bitsLeft ≤ ({ s with bitPos := s.bitPos + 1 } : State).bitsLeft)
          (fun _ => True) False := by
        cases b with
        | true => exact (ihr (treeOf_congr h2) (by omega)).mono (fun _ _ h => ⟨h.1, h.2.1⟩) (fun _ => id) id
        | false => exact (ihl (treeOf_congr h1) (by omega)).mono (fun _ _ h => ⟨h.1, h.2.1⟩) (fun _ => id) id
      exact hstep.mono (fun _ t h => ⟨h.1, by omega, fun _ => by omega⟩) (fun _ => id) id

/-- DSYM on a tree (R132): it ends the command, or goes on with at least a bit read. -/
theorem dsymBody_spec {T : Tree} {s : State} (hT : TreeOf s s.root T) (hd : s.degen = T.isLeaf) :
    (dsymBody s).Spec (fun _ t => t.phase = s.phase ∧ t.bitsLeft < s.bitsLeft) (fun _ => True) False := by
  unfold dsymBody
  split
  · obtain ⟨e, he, -⟩ := hT.root
    rw [raiseDegenerate, State.needNode_some he]
    trivial
  · rename_i hn
    exact (symbolWalk_spec hT (Nat.lt_succ_self _)).mono (fun _ _ h => ⟨h.1, h.2.2 (by simpa [hd] using hn)⟩) (fun _ => id) id

/-- DPAYLOAD's loop ends (R133): every DSYM that does not end it reads a bit. -/
theorem dpayloadLoop_spec {T : Tree} {fuel : Nat} {s : State} (hT : TreeOf s s.root T) (hd : s.degen = T.isLeaf)
    (hf : s.bitsLeft < fuel) : (dpayloadLoop fuel s).Spec (fun _ _ => False) (fun _ => True) False := by
  induction fuel generalizing s with
  | zero => exact absurd hf (Nat.not_lt_zero _)
  | succ fuel ih =>
    refine ((dsymBody_spec hT hd).and (dsymBody_within s)).mono (fun _ _ h => h) (fun _ => And.left) And.left |>.bind ?_
    rintro ⟨⟩ t ⟨⟨-, hbits⟩, he, -⟩
    have hroot : t.root = s.root := he.same .root (by simp)
    have hdeg : t.degen = s.degen := he.same .degen (by simp)
    refine ih ?_ (by rw [hdeg, hd]) (by omega)
    rw [hroot]
    exact treeOf_congr hT (he.same .node (by simp)) (he.same .nnodes (by simp))

end Sys2Proof.Machine

/-! PROOFS. DTREE (44_decoder.md R131): the tree it builds lies in the NODE memory in preorder. -/

namespace Sys2Proof.Machine

open Sys2Proof Sys2Proof.Safety

/-- The tree `T` lies in the memory from handle `n` on, node by node in preorder, with SYM 0 in its internal nodes, every WEIGHT 0
and every NEXT NIL (R131). -/
def LaidAt (m : Memory) : Nat → Tree → Prop
  | n, .leaf x _ => m.read n = some (leafEntry x 0)
  | n, .node _ l r =>
    m.read n = some (parentEntry 0 (BitVec.ofNat 9 (n + 1)) (BitVec.ofNat 9 (n + 1 + l.size))) ∧ LaidAt m (n + 1) l ∧
      LaidAt m (n + 1 + l.size) r

theorem Tree.size_pos (T : Tree) : 1 ≤ T.size := by
  cases T with
  | leaf x w => exact Nat.le_refl _
  | node w l r => simp only [Tree.size]; omega

/-- A tree laid out depends on its own entries only. -/
theorem LaidAt.congr {m m' : Memory} {n : Nat} {T : Tree} (h : LaidAt m n T)
    (hm : ∀ k, n ≤ k → k < n + T.size → m'.read k = m.read k) : LaidAt m' n T := by
  induction T generalizing n with
  | leaf x w => exact (hm n (Nat.le_refl _) (Nat.lt_succ_self _)).trans h
  | node w l r ihl ihr =>
    obtain ⟨h0, hl, hr⟩ := h
    have hsize : (Tree.node w l r).size = 1 + l.size + r.size := rfl
    exact ⟨(hm n (Nat.le_refl _) (by omega)).trans h0, ihl hl fun k h1 h2 => hm k (by omega) (by omega),
      ihr hr fun k h1 h2 => hm k (by omega) (by omega)⟩

/-- What one call of `build()` leaves (R131): a tree laid out from the first free handle on, the entries before it untouched. -/
structure Built (s : State) (n : Handle) (t : State) (T : Tree) : Prop where
  handle : n = BitVec.ofNat 9 s.nnodes
  laid : LaidAt t.node s.nnodes T
  nnodes : t.nnodes = s.nnodes + T.size
  cap : t.nnodes ≤ Config.nodeCap
  before : ∀ k, k < s.nnodes → t.node.read k = s.node.read k

theorem needByte_spec (s : State) : (needByte s).Spec (fun _ t => ∃ k, t = { s with bitPos := k }) (fun t => t.phase = .fault) False := by
  unfold needByte
  split
  · rename_i b u hu
    obtain ⟨-, -, rfl⟩ := State.read8_eq_some hu
    exact ⟨_, rfl⟩
  · rfl

/-- A leaf's node (R131). -/
theorem buildLeaf_spec {s : State} (hroom : s.nnodes < Config.nodeCap) :
    ((needByte { s with nnodes := s.nnodes + 1 }).bind fun sym u =>
      Flow.go (BitVec.ofNat 9 s.nnodes) (u.putNode (BitVec.ofNat 9 s.nnodes) (leafEntry sym 0))).Spec
        (fun n t => ∃ T, Built s n t T) (fun t => t.phase = .fault) False := by
  refine (needByte_spec _).bind ?_
  rintro sym _ ⟨k, rfl⟩
  have hread : ∀ j, ((s.node.write (BitVec.ofNat 9 s.nnodes).toNat (leafEntry sym 0)).read j) =
      if j = s.nnodes then some (leafEntry sym 0) else s.node.read j := by
    intro j
    rw [Memory.read_write, handle_toNat hroom]
  exact ⟨.leaf sym 0, rfl, (hread _).trans (if_pos rfl), rfl, hroom, fun j hj => (hread j).trans (if_neg (by omega))⟩

/-- An internal node's two subtrees, built one after the other, and its links to them (R131). -/
theorem buildParent_spec {s : State} {b : State → Flow Handle} (hroom : s.nnodes < Config.nodeCap)
    (hb : ∀ u : State, s.nnodes < u.nnodes → u.nnodes ≤ Config.nodeCap →
      (b u).Spec (fun n t => ∃ T, Built u n t T) (fun t => t.phase = .fault) False) :
    ((b (s.withNew (parentEntry 0 Config.nil Config.nil))).bind fun l u =>
      (u.changeNode (BitVec.ofNat 9 s.nnodes) fun e => { e with left := l }).bind fun _ u =>
        (b u).bind fun r u => (u.changeNode (BitVec.ofNat 9 s.nnodes) fun e => { e with right := r }).bind fun _ u =>
          Flow.go (BitVec.ofNat 9 s.nnodes) u).Spec (fun n t => ∃ T, Built s n t T) (fun t => t.phase = .fault) False := by
  have hn := handle_toNat hroom
  refine (hb (s.withNew (parentEntry 0 Config.nil Config.nil)) (Nat.lt_succ_self _) hroom).bind ?_
  rintro l u ⟨L, hL⟩
  have hnu : u.nnodes = s.nnodes + 1 + L.size := hL.nnodes
  have hu : u.readNode (BitVec.ofNat 9 s.nnodes) = some (parentEntry 0 Config.nil Config.nil) := by
    rw [State.readNode_eq_some, hn]
    exact ⟨by omega, by rw [hL.before _ (Nat.lt_succ_self _), withNew_read hroom, if_pos rfl]⟩
  rw [State.changeNode_eq_go.mpr ⟨_, hu, rfl⟩, Flow.bind_go]
  have hu' : ∀ k, (u.putNode (BitVec.ofNat 9 s.nnodes) (parentEntry 0 l Config.nil)).node.read k =
      if k = s.nnodes then some (parentEntry 0 l Config.nil) else u.node.read k := by
    intro k
    rw [State.putNode_node, Memory.read_write, hn]
  refine (hb (u.putNode (BitVec.ofNat 9 s.nnodes) (parentEntry 0 l Config.nil))
    (by rw [State.putNode_nnodes]; omega) hL.cap).bind ?_
  rintro r v ⟨R, hR⟩
  have hnv : v.nnodes = s.nnodes + 1 + L.size + R.size := by rw [hR.nnodes, State.putNode_nnodes, hnu]
  have hRlaid : LaidAt v.node (s.nnodes + 1 + L.size) R := by
    have := hR.laid
    rwa [State.putNode_nnodes, hnu] at this
  have hbefore : ∀ k, k < s.nnodes + 1 + L.size → v.node.read k =
      if k = s.nnodes then some (parentEntry 0 l Config.nil) else u.node.read k := by
    intro k hk
    rw [hR.before k (by rw [State.putNode_nnodes]; omega), hu']
  have hv : v.readNode (BitVec.ofNat 9 s.nnodes) = some (parentEntry 0 l Config.nil) := by
    rw [State.readNode_eq_some, hn]
    exact ⟨by omega, by rw [hbefore _ (by omega), if_pos rfl]⟩
  rw [State.changeNode_eq_go.mpr ⟨_, hv, rfl⟩, Flow.bind_go]
  have hv' : ∀ k, (v.putNode (BitVec.ofNat 9 s.nnodes) (parentEntry 0 l r)).node.read k =
      if k = s.nnodes then some (parentEntry 0 l r) else v.node.read k := by
    intro k
    rw [State.putNode_node, Memory.read_write, hn]
  have hl : l = BitVec.ofNat 9 (s.nnodes + 1) := hL.handle
  have hr : r = BitVec.ofNat 9 (s.nnodes + 1 + L.size) := by
    rw [hR.handle, State.putNode_nnodes, hnu]
  refine ⟨.node 0 L R, rfl, ⟨?_, ?_, ?_⟩, ?_, hR.cap, fun k hk => ?_⟩
  · rw [← hl, ← hr]
    exact (hv' _).trans (if_pos rfl)
  · exact hL.laid.congr fun k h1 h2 => by
      have h1 : s.nnodes + 1 ≤ k := h1
      have h2 : k < s.nnodes + 1 + L.size := h2
      exact (hv' k).trans ((if_neg (by omega)).trans ((hbefore k h2).trans (if_neg (by omega))))
  · exact hRlaid.congr fun k h1 h2 => (hv' k).trans (if_neg (by omega))
  · change v.nnodes = s.nnodes + (1 + L.size + R.size)
    omega
  · exact (hv' k).trans ((if_neg (by omega)).trans ((hbefore k (by omega)).trans ((if_neg (by omega)).trans
      ((hL.before k (Nat.lt_succ_of_lt hk)).trans ((withNew_read hroom k).trans (if_neg (by omega)))))))

/-- `build()` of R131: with a level of recursion for every handle left it is never stuck. -/
theorem buildTree_spec {fuel : Nat} {s : State} (hc : s.nnodes ≤ Config.nodeCap) (hf : Config.nodeCap < fuel + s.nnodes) :
    (buildTree fuel s).Spec (fun n t => ∃ T, Built s n t T) (fun t => t.phase = .fault) False := by
  induction fuel generalizing s with
  | zero => omega
  | succ fuel ih =>
    unfold buildTree
    split
    · rfl
    · rename_i f u hu
      obtain ⟨-, -, rfl⟩ := State.readBit_eq_some.mp hu
      split
      · rfl
      · rename_i hfull
        have hroom : s.nnodes < Config.nodeCap := lt_of_le_of_ne hc hfull
        have hgo : ({ s with bitPos := s.bitPos + 1 } : State).takeHandle =
            .go (BitVec.ofNat 9 s.nnodes) { s with bitPos := s.bitPos + 1, nnodes := s.nnodes + 1 } :=
          State.takeHandle_eq_go.mpr ⟨hroom, rfl, rfl⟩
        rw [hgo, Flow.bind_go]
        have hsame : ∀ n t T, Built { s with bitPos := s.bitPos + 1 } n t T → Built s n t T :=
          fun n t T h => ⟨h.handle, h.laid, h.nnodes, h.cap, h.before⟩
        refine Flow.Spec.mono (Q := fun n t => ∃ T, Built { s with bitPos := s.bitPos + 1 } n t T) ?_
          (fun n t ⟨T, h⟩ => ⟨T, hsame n t T h⟩) (fun _ => id) id
        split
        · exact buildParent_spec (s := { s with bitPos := s.bitPos + 1 }) hroom fun u hlt hcu => ih hcu (by
            have : s.nnodes < u.nnodes := hlt
            omega)
        · exact buildLeaf_spec (s := { s with bitPos := s.bitPos + 1 }) hroom

/-! ## What a tree laid out gives -/

/-- The tree found at the first handle is the tree laid out there, every weight 0 (R131, R137). -/
theorem LaidAt.treeOf {s : State} {n : Nat} {T : Tree} (h : LaidAt s.node n T) (hn : n + T.size ≤ s.nnodes)
    (hc : s.nnodes ≤ Config.nodeCap) : TreeOf s (BitVec.ofNat 9 n) T.zeroed := by
  have hcap : s.nnodes ≤ 511 := hc
  induction T generalizing n with
  | leaf x w =>
    have hsize : (Tree.leaf x w).size = 1 := rfl
    have hnum : (BitVec.ofNat 9 n).toNat = n := handle_toNat (show n < 511 by omega)
    exact ⟨_, State.readNode_eq_some.mpr ⟨by omega, hnum.symm ▸ h⟩, rfl, rfl, rfl⟩
  | node w l r ihl ihr =>
    obtain ⟨h0, hl, hr⟩ := h
    have hsize : (Tree.node w l r).size = 1 + l.size + r.size := rfl
    have hpos := l.size_pos
    have hnum : (BitVec.ofNat 9 n).toNat = n := handle_toNat (show n < 511 by omega)
    have hnum1 : (BitVec.ofNat 9 (n + 1)).toNat = n + 1 := handle_toNat (show n + 1 < 511 by omega)
    refine ⟨_, State.readNode_eq_some.mpr ⟨by omega, by rw [hnum]; exact h0⟩, ?_, rfl, ihl hl (by omega), ihr hr (by omega)⟩
    have hne : BitVec.ofNat 9 (n + 1) ≠ Config.nil := by
      intro he
      rw [he] at hnum1
      have : (511 : Nat) = n + 1 := hnum1
      omega
    simp [parentEntry, NodeEntry.isLeaf, hne]

/-- Every entry of a tree laid out: a leaf, or a parent of entries after it; with no weight and no NEXT link (R131). -/
theorem LaidAt.entry {m : Memory} {n : Nat} {T : Tree} (h : LaidAt m n T) (hn : n + T.size ≤ Config.nodeCap) {k : Nat}
    (h1 : n ≤ k) (h2 : k < n + T.size) :
    ∃ e, m.read k = some e ∧ (e.isLeaf = true ∨
      (k < e.left.toNat ∧ e.left.toNat < n + T.size ∧ k < e.right.toNat ∧ e.right.toNat < n + T.size)) ∧
      e.next = Config.nil ∧ e.weight = 0 := by
  have hcap : n + T.size ≤ 511 := hn
  induction T generalizing n with
  | leaf x w =>
    have hsize : (Tree.leaf x w).size = 1 := rfl
    obtain rfl : k = n := by omega
    exact ⟨_, h, .inl rfl, rfl, rfl⟩
  | node w l r ihl ihr =>
    obtain ⟨h0, hl, hr⟩ := h
    have hsize : (Tree.node w l r).size = 1 + l.size + r.size := rfl
    have hposl := l.size_pos
    have hposr := r.size_pos
    have hnum1 : (BitVec.ofNat 9 (n + 1)).toNat = n + 1 := handle_toNat (show n + 1 < 511 by omega)
    have hnum2 : (BitVec.ofNat 9 (n + 1 + l.size)).toNat = n + 1 + l.size := handle_toNat (show n + 1 + l.size < 511 by omega)
    obtain rfl | hk := Nat.eq_or_lt_of_le h1
    · refine ⟨_, h0, .inr ?_, rfl, rfl⟩
      simp only [parentEntry, hnum1, hnum2]
      omega
    · by_cases hkl : k < n + 1 + l.size
      · obtain ⟨e, he, hor, hnw⟩ := ihl hl (show n + 1 + l.size ≤ 511 by omega) hk hkl (by omega)
        exact ⟨e, he, hor.imp_right fun ⟨a1, a2, a3, a4⟩ => ⟨a1, by omega, a3, by omega⟩, hnw⟩
      · obtain ⟨e, he, hor, hnw⟩ := ihr hr (show n + 1 + l.size + r.size ≤ 511 by omega) (by omega) (by omega) (by omega)
        exact ⟨e, he, hor.imp_right fun ⟨a1, a2, a3, a4⟩ => ⟨a1, by omega, a3, by omega⟩, hnw⟩

/-- Every handle of a tree laid out, but the first, is the child of one entry (R22). -/
theorem LaidAt.children_perm {m : Memory} {n : Nat} {T : Tree} (h : LaidAt m n T) (hn : n + T.size ≤ Config.nodeCap) :
    ((List.range' n T.size).flatMap m.childrenAt).Perm ((List.range' (n + 1) (T.size - 1)).map (BitVec.ofNat 9)) := by
  have hcap : n + T.size ≤ 511 := hn
  induction T generalizing n with
  | leaf x w =>
    simp only [Tree.size, List.range'_one, List.flatMap_singleton, Memory.childrenAt_of_read h]
    exact .refl _
  | node w l r ihl ihr =>
    obtain ⟨h0, hl, hr⟩ := h
    have hsize : (Tree.node w l r).size = 1 + l.size + r.size := rfl
    have hposl := l.size_pos
    have hposr := r.size_pos
    have hne : BitVec.ofNat 9 (n + 1) ≠ Config.nil := by
      intro he
      have := congrArg BitVec.toNat he
      rw [handle_toNat (show n + 1 < 511 by omega)] at this
      have : n + 1 = 511 := this
      omega
    have hkids : m.childrenAt n = [BitVec.ofNat 9 (n + 1), BitVec.ofNat 9 (n + 1 + l.size)] := by
      rw [Memory.childrenAt_of_read h0]
      simp [NodeEntry.children, parentEntry, NodeEntry.isLeaf, hne]
    have hrange : List.range' n (Tree.node w l r).size = n :: (List.range' (n + 1) l.size ++ List.range' (n + 1 + l.size) r.size) := by
      rw [List.range'_append_1, hsize, Nat.add_assoc, Nat.add_comm 1, List.range'_succ]
    have htarget : List.range' (n + 1) ((Tree.node w l r).size - 1) =
        (n + 1) :: List.range' (n + 1 + 1) (l.size - 1) ++ (n + 1 + l.size) :: List.range' (n + 1 + l.size + 1) (r.size - 1) := by
      rw [← List.range'_succ, ← List.range'_succ, Nat.sub_add_cancel hposl, Nat.sub_add_cancel hposr, List.range'_append_1, hsize]
      congr 1
      omega
    have hL := ihl hl (show n + 1 + l.size ≤ 511 by omega) (by omega)
    have hR := ihr hr (show n + 1 + l.size + r.size ≤ 511 by omega) (by omega)
    rw [hrange, htarget, List.flatMap_cons, hkids, List.flatMap_append, List.map_append, List.map_cons, List.map_cons]
    refine List.Perm.cons _ ?_
    exact (List.perm_middle (l₁ := (List.range' (n + 1) l.size).flatMap m.childrenAt)).symm.trans (hL.append (hR.cons _))

/-- The state after DTREE (R131). -/
theorem readBy_of_laidAt {s : State} {T : Tree} (h : LaidAt s.node 0 T) (hn : s.nnodes = T.size) (hc : s.nnodes ≤ Config.nodeCap)
    (hroot : s.root = 0#9) (hd : s.degen = T.isLeaf) : ReadBy s T.zeroed := by
  have hsize : 0 + T.size ≤ Config.nodeCap := by omega
  have hentry : ∀ n, n < s.nnodes → _ := fun n hlt => h.entry hsize (Nat.zero_le n) (by omega : n < 0 + T.size)
  have hreader : EveryNode s (ReaderNode s) := fun n hlt => by
    obtain ⟨e, he, hor, -⟩ := hentry n hlt
    rw [Nat.zero_add, ← hn] at hor
    exact ⟨e, he, hor⟩
  have hT : TreeOf s s.root T.zeroed := hroot ▸ h.treeOf (by omega) hc
  have hcap : s.nnodes ≤ 511 := hc
  exact {
    tree := treeAt_eq_some.mpr ⟨hT, show T.zeroed.height < 512 by have := hT.height_lt_of_reader hreader; omega⟩
    root := hroot
    built := hreader
    unlinked := fun n hlt => by
      obtain ⟨e, he, -, hnw⟩ := hentry n hlt
      exact ⟨e, he, hnw⟩
    owned := by
      have hperm := h.children_perm hsize
      have hall : (s.root :: s.childHandles).Perm ((List.range' 0 T.size).map (BitVec.ofNat 9)) := by
        rw [State.childHandles_eq, hn, List.range_eq_range', hroot,
          show List.range' 0 T.size = 0 :: List.range' (0 + 1) (T.size - 1) by
            rw [← List.range'_succ, Nat.sub_add_cancel T.size_pos], List.map_cons]
        rw [show List.range' 0 T.size = 0 :: List.range' (0 + 1) (T.size - 1) by
            rw [← List.range'_succ, Nat.sub_add_cancel T.size_pos]] at hperm
        exact hperm.cons _
      refine hall.nodup_iff.mpr ((List.nodup_range' ..).map_on fun x hx y hy hxy => ?_)
      have hx' := (List.mem_range'_1.mp hx).2
      have hy' := (List.mem_range'_1.mp hy).2
      have := congrArg BitVec.toNat hxy
      rwa [handle_toNat (show x < 511 by omega), handle_toNat (show y < 511 by omega)] at this
    degen := by cases T <;> exact hd }

/-- DTREE (R131): it raises a fault or comes to the state of a tree read. -/
theorem dtreeBody_spec (s : State) :
    (dtreeBody s).Spec (fun _ t => t.phase = .dtreeOk ∧ ∃ T, ReadBy t T) (fun t => t.phase = .fault) False := by
  refine (buildTree_spec (s := { s with nnodes := 0 }) (Nat.zero_le _) (show 511 < 512 + 0 by decide)).bind ?_
  rintro r t ⟨T, hT⟩
  have hnn : t.nnodes = T.size := hT.nnodes.trans (Nat.zero_add _)
  have hroot : TreeOf t r T.zeroed := hT.handle ▸ hT.laid.treeOf (by rw [hnn]; exact (Nat.zero_add _).le) hT.cap
  obtain ⟨e, he, hleaf, -⟩ := hroot.root
  have hz : T.zeroed.isLeaf = T.isLeaf := by cases T <;> rfl
  have hread : ({ t with root := r } : State).readNode r = some e := he
  dsimp only
  rw [State.needNode_some hread]
  exact ⟨rfl, T.zeroed, readBy_of_laidAt hT.laid hnn hT.cap hT.handle (hleaf.trans hz)⟩

end Sys2Proof.Machine

/-! PROOFS. The invariant of the machine: every command keeps it and none is stuck (R18, R20 to R22, R46, R92 to R94, R195). -/

namespace Sys2Proof.Safety

open Sys2Proof Sys2Proof.Machine

-- A use of a lemma with default proofs (`:= by rfl`) waits until the lemma is checked. Proofs elaborated side by side would
-- each hold a thread while they wait, and pass the check's memory limit together.
set_option Elab.async false

/-! ## What the later phases know stays while the tables do -/

theorem listedBy_congr {s t : State} {hs : List Handle} {ts : List Tree} (hc : s.nnodes ≤ Config.nodeCap) (h : ListedBy s hs ts)
    (hnode : t.node = s.node := by rfl) (hnn : t.nnodes = s.nnodes := by rfl) (hfreq : t.freq = s.freq := by rfl)
    (hnsym : t.nsym = s.nsym := by rfl) (hhead : t.head = s.head := by rfl) (hnlist : t.nlist = s.nlist := by rfl) :
    ListedBy t hs ts := by
  obtain ⟨⟨hf, hsorted, hlen⟩, hcount, hne, hlast⟩ := (listedBy_iff hc).mp h
  refine (listedBy_iff (by rwa [hnn])).mpr ⟨⟨?_, hsorted.congr hnode hnn hhead, by rw [hnlist, hlen]⟩, by rw [hnsym, hfreq, hcount],
    by rwa [hnlist], by rwa [hnlist, hhead, hnn]⟩
  rw [hfreq]
  exact hf.congr hnode hnn hfreq

theorem builtBy_congr {s t : State} {T : Tree} (h : BuiltBy s T) (hnode : t.node = s.node := by rfl)
    (hnn : t.nnodes = s.nnodes := by rfl) (hroot : t.root = s.root := by rfl) (hfreq : t.freq = s.freq := by rfl)
    (hnsym : t.nsym = s.nsym := by rfl) (hhead : t.head = s.head := by rfl) (hnlist : t.nlist = s.nlist := by rfl)
    (hdegen : t.degen = s.degen := by rfl) : BuiltBy t T where
  tree := by
    obtain ⟨hT, hh⟩ := treeAt_eq_some.mp h.tree
    exact treeAt_eq_some.mpr ⟨hroot ▸ treeOf_congr hT hnode hnn, hh⟩
  root := by rw [hroot, hnn, h.root]
  nodes := by rw [hnn, hnsym, h.nodes]
  nlist := by rw [hnlist, h.nlist]
  head := by rw [hhead, h.head]
  built := everyNode_congr hnode hnn h.built
  leaves := ⟨by rw [hnsym, hfreq, h.leaves.count], by rw [hnsym, hnode, hfreq]; exact h.leaves.leaf,
    by rw [hnsym]; exact everyNode_congr hnode hnn h.leaves.parent⟩
  unlinked := everyNode_congr hnode hnn h.unlinked
  owned := by rw [hroot, childHandles_congr hnode hnn]; exact h.owned
  trees := ⟨by rw [hfreq]; exact h.trees.symbols, by rw [hfreq]; exact h.trees.weights⟩
  degen := by rw [hdegen, h.degen]

theorem readBy_congr {s t : State} {T : Tree} (h : ReadBy s T) (hnode : t.node = s.node := by rfl)
    (hnn : t.nnodes = s.nnodes := by rfl) (hroot : t.root = s.root := by rfl) (hdegen : t.degen = s.degen := by rfl) :
    ReadBy t T where
  tree := by
    obtain ⟨hT, hh⟩ := treeAt_eq_some.mp h.tree
    exact treeAt_eq_some.mpr ⟨hroot ▸ treeOf_congr hT hnode hnn, hh⟩
  root := by rw [hroot, h.root]
  built := by
    have := everyNode_congr hnode hnn h.built
    rwa [show ReaderNode s = ReaderNode t from by funext n e; simp only [ReaderNode, hnn]] at this
  unlinked := everyNode_congr hnode hnn h.unlinked
  owned := by rw [hroot, childHandles_congr hnode hnn]; exact h.owned
  degen := by rw [hdegen, h.degen]

/-- The groups the tree of ROOT rests on. -/
def treeFields : List Field := [.counts, .nsym, .node, .nnodes, .list, .root, .degen]

theorem BuiltBy.of_effect {fs : List Field} {s t : State} {T : Tree} (h : BuiltBy s T) (he : Effect fs s t)
    (hd : ∀ f ∈ treeFields, f ∉ fs) : BuiltBy t T :=
  builtBy_congr h (he.same .node (hd _ (by decide))) (he.same .nnodes (hd _ (by decide))) (he.same .root (hd _ (by decide)))
    (he.same .counts (hd _ (by decide))).1 (he.same .nsym (hd _ (by decide))) (he.same .list (hd _ (by decide))).1
    (he.same .list (hd _ (by decide))).2 (he.same .degen (hd _ (by decide)))

theorem ReadBy.of_effect {fs : List Field} {s t : State} {T : Tree} (h : ReadBy s T) (he : Effect fs s t)
    (hd : ∀ f ∈ treeFields, f ∉ fs) : ReadBy t T :=
  readBy_congr h (he.same .node (hd _ (by decide))) (he.same .nnodes (hd _ (by decide))) (he.same .root (hd _ (by decide)))
    (he.same .degen (hd _ (by decide)))

/-- The tree of ROOT, found without a bound, is no higher than the bounded walks go. -/
theorem BuiltBy.treeOf {s : State} {T : Tree} (h : BuiltBy s T) : TreeOf s s.root T ∧ T.height < walkFuel :=
  treeAt_eq_some.mp h.tree

theorem ReadBy.treeOf {s : State} {T : Tree} (h : ReadBy s T) : TreeOf s s.root T := (treeAt_eq_some.mp h.tree).1

/-! ## The invariant from its parts -/

/-- The parts of the invariant that speak of the phases with a list or a tree. -/
structure Staged (s : State) : Prop where
  listed : s.phase = .listed → ∃ hs ts, ListedBy s hs ts
  built : s.phase ∈ builtPhases → ∃ t, BuiltBy s t
  read : s.phase ∈ readPhases → ∃ t, ReadBy s t

theorem staged_of_phase {s : State} (h1 : s.phase ≠ .listed) (h2 : s.phase ∉ builtPhases) (h3 : s.phase ∉ readPhases) :
    Staged s := ⟨fun h => absurd h h1, fun h => absurd h h2, fun h => absurd h h3⟩

theorem staged_of_builtBy {s : State} {T : Tree} (h : BuiltBy s T) (h1 : s.phase ≠ .listed) (h3 : s.phase ∉ readPhases) :
    Staged s := ⟨fun h => absurd h h1, fun _ => ⟨T, h⟩, fun h => absurd h h3⟩

theorem staged_of_readBy {s : State} {T : Tree} (h : ReadBy s T) (h1 : s.phase ≠ .listed) (h2 : s.phase ∉ builtPhases) :
    Staged s := ⟨fun h => absurd h h1, fun h => absurd h h2, fun _ => ⟨T, h⟩⟩

theorem staged_of_listedBy {s : State} {hs : List Handle} {ts : List Tree} (h : ListedBy s hs ts) (hp : s.phase = .listed) :
    Staged s := ⟨fun _ => ⟨hs, ts, h⟩, by rw [hp]; simp [builtPhases], by rw [hp]; simp [readPhases]⟩

/-- A state with a fault on record. -/
theorem inv_of_fault {s : State} (hc : CountsOk s) (hp : PackerOk s) (hm : MemoryOk s) (hphase : s.phase = .fault)
    (herr : s.err ≠ .none) : Inv s where
  counts := hc
  packer := hp
  memory := hm
  fault := ⟨⟨fun _ => herr, fun _ => hphase⟩, fun h => absurd h herr⟩
  idle h := by simp [hphase] at h
  listed h := by simp [hphase] at h
  built h := by simp [hphase, builtPhases] at h
  read h := by simp [hphase, readPhases] at h

/-- A state of a run, with no fault on record. -/
theorem inv_of_run {s : State} (hc : CountsOk s) (hp : PackerOk s) (hm : MemoryOk s) (hf : s.phase ≠ .fault)
    (hi : s.phase ≠ .idle) (herr : s.err = .none) (hinfo : s.errinfo = 0) (hs : Staged s) : Inv s where
  counts := hc
  packer := hp
  memory := hm
  fault := ⟨⟨fun h => absurd h hf, fun h => absurd herr h⟩, fun _ => hinfo⟩
  idle h := absurd h hi
  listed := hs.listed
  built := hs.built
  read := hs.read

/-- Outside FAULT no fault is on record (R151, R152). -/
theorem Inv.calm {s : State} (h : Inv s) (hf : s.phase ≠ .fault) : s.err = .none ∧ s.errinfo = 0 := by
  have herr : s.err = .none := by
    by_contra hn
    exact hf (h.fault.recorded.mpr hn)
  exact ⟨herr, h.fault.info herr⟩

theorem inv_raise {s : State} (h : Inv s) {c : ErrCode} (hc : c ≠ .none) (i : Word64) : Inv (s.raise c i) :=
  inv_of_fault ⟨h.counts.sum, h.counts.fits⟩ h.packer ⟨h.memory.wf, h.memory.cap⟩ rfl hc

/-- CLR makes a state of the invariant of any whose NODE memory is in order (R80). -/
theorem inv_cleared {s : State} (hw : s.node.wf = true) : Inv s.cleared where
  counts := countsOk_of_zero rfl rfl
  packer := show (0 : Nat) < 1 by decide
  memory := ⟨hw, Nat.zero_le _⟩
  fault := ⟨⟨fun h => by simp at h, fun h => absurd rfl h⟩, fun _ => rfl⟩
  idle _ := rfl
  listed h := by simp at h
  built h := by simp [builtPhases] at h
  read h := by simp [readPhases] at h

/-! ## A property that commands keep -/

/-- From a state with `P` in which the command may run, it is never stuck, keeps `P`, and goes on only to a phase of the last
column of R184. -/
def Sound (P : State → Prop) (i : Instr) : Prop :=
  ∀ s, P s → Legal i s → (pseudocode i s).Spec (fun _ t => P t ∧ t.phase ∈ leaves i) P False

theorem legal_of_phase {i : Instr} {s : State} (hi : i ≠ .merge) (hp : s.phase ∈ legalPhases i) : Legal i s :=
  ⟨hp, by cases i <;> trivial⟩

/-- A command of a sequence: the one before left a phase in which it is legal. -/
theorem Sound.next {P : State → Prop} {i : Instr} (h : Sound P i) {ps : List Phase} {s : State} (hs : P s ∧ s.phase ∈ ps)
    (hps : ps ⊆ legalPhases i) (hi : i ≠ .merge) : (pseudocode i s).Spec (fun _ t => P t ∧ t.phase ∈ leaves i) P False :=
  h s hs.1 (legal_of_phase hi (hps hs.2))

/-- COMP keeps what its nine steps keep: each leaves the phase the next needs (R115). -/
theorem sound_comp {P : State → Prop}
    (h : ∀ i ∈ [Instr.freq, .list, .tree, .codes, .check, .hdr, .stree, .payload, .flush], Sound P i) : Sound P .comp := by
  intro s hs hl
  refine ((h .freq (by simp)).next ⟨hs, hl.1⟩ (by decide) (by decide)).bind fun _ _ hs => ?_
  refine ((h .list (by simp)).next hs (by decide) (by decide)).bind fun _ _ hs => ?_
  refine ((h .tree (by simp)).next hs (by decide) (by decide)).bind fun _ _ hs => ?_
  refine ((h .codes (by simp)).next hs (by decide) (by decide)).bind fun _ _ hs => ?_
  refine ((h .check (by simp)).next hs (by decide) (by decide)).bind fun _ _ hs => ?_
  refine ((h .hdr (by simp)).next hs (by decide) (by decide)).bind fun _ _ hs => ?_
  refine ((h .stree (by simp)).next hs (by decide) (by decide)).bind fun _ _ hs => ?_
  refine ((h .payload (by simp)).next hs (by decide) (by decide)).bind fun _ _ hs => ?_
  exact (h .flush (by simp)).next hs (by decide) (by decide)

/-- DECOMP keeps what its three steps keep (R134). -/
theorem sound_decomp {P : State → Prop} (h : ∀ i ∈ [Instr.dhdr, .dtree, .dpayload], Sound P i) : Sound P .decomp := by
  intro s hs hl
  refine ((h .dhdr (by simp)).next ⟨hs, hl.1⟩ (by decide) (by decide)).bind fun _ _ hs => ?_
  refine ((h .dtree (by simp)).next hs (by decide) (by decide)).bind fun _ _ hs => ?_
  exact (h .dpayload (by simp)).next hs (by decide) (by decide)

/-! ## Each command keeps the invariant -/

theorem fault_not_mem_leaves (i : Instr) : Phase.fault ∉ leaves i := by
  cases i <;> simp [leaves]

/-- What is left to show of a command: where it goes on to, and what it knows of the list or the tree there. The rest of the
invariant is kept by every effect. -/
theorem inv_spec {i : Instr} {s : State} (hc : i ≠ .clr) (hs : Inv s) (hf : s.phase ≠ .fault) (hi : Phase.idle ∉ leaves i)
    (hx : (pseudocode i s).Spec (fun _ t => t.phase ∈ leaves i ∧ Staged t) (fun t => t.phase = .ddone → Staged t) False) :
    (pseudocode i s).Spec (fun _ t => Inv t ∧ t.phase ∈ leaves i) Inv False := by
  obtain ⟨herr, hinfo⟩ := hs.calm hf
  refine (hx.and (pseudocode_within hc s)).mono ?_ ?_ And.left
  · rintro _ t ⟨⟨hp, hst⟩, he, hcalm⟩
    refine ⟨inv_of_run (he.counts hs.counts) (he.packer hs.packer) (he.memory hs.memory) ?_ ?_ (hcalm.err.trans herr)
      (hcalm.errinfo.trans hinfo) hst, hp⟩
    · exact fun h => fault_not_mem_leaves i (h ▸ hp)
    · exact fun h => hi (h ▸ hp)
  · rintro t ⟨hst, he, ⟨hp, hn⟩ | ⟨hp, hcalm⟩⟩
    · exact inv_of_fault (he.counts hs.counts) (he.packer hs.packer) (he.memory hs.memory) hp hn
    · exact inv_of_run (he.counts hs.counts) (he.packer hs.packer) (he.memory hs.memory) (by simp [hp]) (by simp [hp])
        (hcalm.err.trans herr) (hcalm.errinfo.trans hinfo) (hst hp)

theorem legal_not_fault {i : Instr} {s : State} (hc : i ≠ .clr) (hl : Legal i s) : s.phase ≠ .fault := by
  intro h
  have := hl.1
  rw [h] at this
  cases i <;> simp [legalPhases] at this hc

/-- A command that ends only where it raises a fault. -/
theorem sound_inv_of_spec {i : Instr} (hc : i ≠ .clr) (hi : Phase.idle ∉ leaves i)
    (hx : ∀ s, Inv s → Legal i s →
      (pseudocode i s).Spec (fun _ t => t.phase ∈ leaves i ∧ Staged t) (fun t => t.phase = .fault) False) : Sound Inv i :=
  fun s hs hl => inv_spec hc hs (legal_not_fault hc hl) hi
    ((hx s hs hl).mono (fun _ _ h => h) (fun t h hd => by simp [h] at hd) id)

/-- A command after TREE that leaves the tree alone and ends only where it raises a fault. -/
theorem sound_inv_of_built {i : Instr} (hc : i ≠ .clr) (hb : ∀ p ∈ legalPhases i, p ∈ builtPhases)
    (hle : ∀ p ∈ leaves i, p ∈ builtPhases) (hd : ∀ f ∈ treeFields, f ∉ writes i)
    (hx : ∀ s T, BuiltBy s T → (pseudocode i s).Spec (fun _ t => t.phase ∈ leaves i) (fun t => t.phase = .fault) False) :
    Sound Inv i := by
  have hidle : Phase.idle ∉ leaves i := fun h => by simpa [builtPhases] using hle _ h
  refine sound_inv_of_spec hc hidle fun s hs hl => ?_
  obtain ⟨T, hT⟩ := hs.built (hb _ hl.1)
  refine ((hx s T hT).and (pseudocode_within hc s)).mono ?_ (fun _ h => h.1) And.left
  rintro _ t ⟨hp, he, -⟩
  have hpb := hle _ hp
  refine ⟨hp, staged_of_builtBy (hT.of_effect he hd) ?_ ?_⟩
  · rintro h
    simp [h, builtPhases] at hpb
  · intro h
    have : t.phase = .dtreeOk ∨ t.phase = .ddone := by simpa [readPhases] using h
    obtain h | h := this <;> simp [h, builtPhases] at hpb

theorem countSymbol_spec (sym : Byte) (s : State) :
    (countSymbol sym s).Spec (fun _ _ => True) (fun t => t.phase = .fault) False := by
  unfold countSymbol
  split
  · rfl
  · trivial

theorem sound_inv_cnt (sym : Byte) : Sound Inv (.cnt sym) :=
  sound_inv_of_spec (by simp) (by simp [leaves]) fun s _ _ => (countSymbol_spec sym s).bind fun _ t _ =>
    ⟨by simp [leaves], staged_of_phase (by simp) (by simp [builtPhases]) (by simp [readPhases])⟩

theorem freqLoop_spec (fuel : Nat) (s : State) :
    (freqLoop fuel s).Spec (fun _ _ => True) (fun t => t.phase = .fault) False := by
  induction fuel generalizing s with
  | zero => trivial
  | succ fuel ih =>
    unfold freqLoop
    split
    · trivial
    · exact (countSymbol_spec _ _).bind fun _ t _ => ih t

theorem sound_inv_freq : Sound Inv .freq :=
  sound_inv_of_spec (by simp) (by simp [leaves]) fun s _ _ => (freqLoop_spec _ s).bind fun _ t _ =>
    ⟨by simp [leaves], staged_of_phase (by simp) (by simp [builtPhases]) (by simp [readPhases])⟩

theorem sound_inv_list : Sound Inv .list := by
  refine sound_inv_of_spec (by simp) (by simp [leaves]) fun s _ _ => ?_
  obtain ⟨t, hs, ts, ht, hp, hl⟩ | ⟨t, ht, hp, -⟩ := listBody_spec s
  · rw [show pseudocode .list s = .go () t from ht]
    exact ⟨by simp [leaves, hp], staged_of_listedBy hl hp⟩
  · rw [show pseudocode .list s = .ended t from ht]
    exact hp

theorem sound_inv_merge : Sound Inv .merge := by
  refine sound_inv_of_spec (by simp) (by simp [leaves]) fun s hs hl => ?_
  have hp : s.phase = .listed := by simpa [legalPhases] using hl.1
  obtain ⟨hs', ts, hlist⟩ := hs.listed hp
  obtain ⟨t, hs1, ts1, ht, hlist1, -, -, hpt⟩ := mergeStep_listedBy hs.memory.cap hlist hl.2
  rw [show pseudocode .merge s = .go () t from ht]
  exact ⟨by simp [leaves, hpt, hp], staged_of_listedBy hlist1 (hpt.trans hp)⟩

theorem sound_inv_tree : Sound Inv .tree := by
  refine sound_inv_of_spec (by simp) (by simp [leaves]) fun s hs hl => ?_
  obtain ⟨hs', ts, hlist⟩ := hs.listed (by simpa [legalPhases] using hl.1)
  obtain ⟨t, T, ht, hp, hT⟩ := treeBody_spec hs.memory.cap hlist
  rw [show pseudocode .tree s = .go () t from ht]
  exact ⟨by simp [leaves, hp], staged_of_builtBy hT (by simp [hp]) (by simp [hp, readPhases])⟩

/-- CODES's state, from the tree (R100). -/
theorem codesBody_eq {s : State} {T : Tree} (hT : TreeOf s s.root T) (hh : T.height < walkFuel) :
    codesBody s = .go () { s with
      code := writePaths [] T.paths (Vector.replicate 256 []), treebits := 0 + T.ser.length, phase := .coded } := by
  rw [codesBody, codesWalk_eq (treeOf_congr hT) hh, Flow.bind_go]

theorem sound_inv_codes : Sound Inv .codes :=
  sound_inv_of_built (by simp) (by decide) (by decide) (by decide) fun s T hT => by
    obtain ⟨htree, hh⟩ := hT.treeOf
    rw [show pseudocode .codes s = _ from codesBody_eq htree hh]
    simp [Flow.Spec, leaves]

theorem sound_inv_check : Sound Inv .check :=
  sound_inv_of_built (by simp) (by decide) (by decide) (by decide) fun s T _ => by
    change (checkBody s).Spec _ _ _
    unfold checkBody
    dsimp only
    split
    · rfl
    · simp [leaves]

theorem raiseDegenerate_spec {s : State} {T : Tree} (hT : TreeOf s s.root T) {Q : Unit → State → Prop} :
    (raiseDegenerate s).Spec Q (fun t => t.phase = .fault) False := by
  obtain ⟨e, he, -⟩ := hT.root
  rw [raiseDegenerate, State.needNode_some he]
  rfl

theorem sound_inv_hdr : Sound Inv .hdr :=
  sound_inv_of_built (by simp) (by decide) (by decide) (by decide) fun s T hT => by
    change (hdrBody s).Spec _ _ _
    unfold hdrBody
    split
    · exact raiseDegenerate_spec hT.treeOf.1
    · exact List.mem_singleton.mpr rfl

theorem sound_inv_stree : Sound Inv .stree :=
  sound_inv_of_built (by simp) (by decide) (by decide) (by decide) fun s T hT => by
    obtain ⟨htree, hh⟩ := hT.treeOf
    exact Flow.Spec.bind (Q := fun _ _ => True) (by rw [serWalk_eq htree hh]; trivial) fun _ t _ => by simp [leaves]

theorem encodeSymbol_spec (sym : Byte) (s : State) :
    (encodeSymbol sym s).Spec (fun _ _ => True) (fun t => t.phase = .fault) False := by
  unfold encodeSymbol
  dsimp only
  split
  · rfl
  · trivial

theorem sound_inv_enc (sym : Byte) : Sound Inv (.enc sym) :=
  sound_inv_of_built (by simp) (by simp [legalPhases, builtPhases]) (by simp [leaves, builtPhases])
    (by simp [writes, treeFields]) fun s T _ => (encodeSymbol_spec sym s).bind fun _ t _ => by simp [leaves]

theorem payloadLoop_spec (fuel : Nat) (s : State) :
    (payloadLoop fuel s).Spec (fun _ _ => True) (fun t => t.phase = .fault) False := by
  induction fuel generalizing s with
  | zero => trivial
  | succ fuel ih =>
    unfold payloadLoop
    split
    · trivial
    · exact (encodeSymbol_spec _ _).bind fun _ t _ => ih t

theorem sound_inv_payload : Sound Inv .payload :=
  sound_inv_of_built (by simp) (by decide) (by decide) (by decide) fun s T _ =>
    (payloadLoop_spec _ _).bind fun _ t _ => by simp [leaves]

theorem sound_inv_flush : Sound Inv .flush :=
  sound_inv_of_built (by simp) (by decide) (by decide) (by decide) fun s T _ => by
    exact List.mem_singleton.mpr rfl

theorem sound_inv_dhdr : Sound Inv .dhdr :=
  sound_inv_of_spec (by simp) (by simp [leaves]) fun s _ _ => (needByte_spec s).bind fun _ t _ => by
    split
    · refine (needByte_spec t).bind fun _ u _ => ?_
      split
      · exact ⟨by simp [leaves], staged_of_phase (by simp) (by simp [builtPhases]) (by simp [readPhases])⟩
      · rfl
    · rfl

theorem sound_inv_dtree : Sound Inv .dtree :=
  sound_inv_of_spec (by simp) (by simp [leaves]) fun s _ _ => (dtreeBody_spec s).mono
    (fun _ _ ⟨hp, _, hT⟩ => ⟨by simp [leaves, hp], staged_of_readBy hT (by simp [hp]) (by simp [hp, builtPhases])⟩)
    (fun _ => id) id

/-- A command after DTREE that leaves the tree alone. -/
theorem sound_inv_of_read {i : Instr} (hc : i ≠ .clr) (hb : ∀ p ∈ legalPhases i, p = .dtreeOk)
    (hle : leaves i ⊆ readPhases) (hd : ∀ f ∈ treeFields, f ∉ writes i)
    (hx : ∀ s T, ReadBy s T → s.phase = .dtreeOk → (pseudocode i s).Spec (fun _ t => t.phase ∈ leaves i) (fun _ => True) False) :
    Sound Inv i := by
  intro s hs hl
  have hp : s.phase = .dtreeOk := hb _ hl.1
  have hidle : Phase.idle ∉ leaves i := fun h => by simpa [readPhases] using hle h
  obtain ⟨T, hT⟩ := hs.read (by simp [hp, readPhases])
  refine inv_spec hc hs (by simp [hp]) hidle (((hx s T hT hp).and (pseudocode_within hc s)).mono ?_ ?_ And.left)
  · rintro _ t ⟨hpt, he, -⟩
    have : t.phase = .dtreeOk ∨ t.phase = .ddone := by simpa [readPhases] using hle hpt
    refine ⟨hpt, staged_of_readBy (hT.of_effect he hd) ?_ ?_⟩
    · obtain h | h := this <;> simp [h]
    · obtain h | h := this <;> simp [h, builtPhases]
  · rintro t ⟨-, he, -⟩ hpt
    exact staged_of_readBy (hT.of_effect he hd) (by simp [hpt]) (by simp [hpt, builtPhases])

theorem sound_inv_dsym : Sound Inv .dsym :=
  sound_inv_of_read (by simp) (by decide) (by decide) (by decide) fun _ _ hT hp =>
    (dsymBody_spec hT.treeOf hT.degen).mono (fun _ _ h => by simp [leaves, h.1, hp]) (fun _ => id) id

theorem sound_inv_dpayload : Sound Inv .dpayload :=
  sound_inv_of_read (by simp) (by decide) (by decide) (by decide) fun _ _ hT _ =>
    (dpayloadLoop_spec hT.treeOf hT.degen (Nat.lt_succ_self _)).mono (fun _ _ h => h.elim) (fun _ => id) id

/-- CTL in IDLE writes nothing that CLR clears (R80, R81). -/
theorem sound_inv_ctl (opd : Byte) : Sound Inv (.ctl opd) := by
  intro s hs hl
  have hp : s.phase = .idle := by simpa [legalPhases] using hl.1
  have hcl := hs.idle hp
  refine ⟨?_, by simp [leaves, hp]⟩
  exact {
    counts := ⟨hs.counts.sum, hs.counts.fits⟩
    packer := hs.packer
    memory := ⟨hs.memory.wf, hs.memory.cap⟩
    fault := ⟨hs.fault.recorded, hs.fault.info⟩
    idle := fun _ => by
      change { s.cleared with force := ctlForce opd, tailskip := ctlTailskip opd } = _
      rw [hcl]
    listed := fun h => by simp [hp] at h
    built := fun h => by simp [hp, builtPhases] at h
    read := fun h => by simp [hp, readPhases] at h }

/-- Every command but CLR keeps the invariant, and is not stuck in a state of it. -/
theorem sound_inv {i : Instr} (hc : i ≠ .clr) : Sound Inv i := by
  cases i with
  | clr => exact absurd rfl hc
  | ctl opd => exact sound_inv_ctl opd
  | cnt sym => exact sound_inv_cnt sym
  | freq => exact sound_inv_freq
  | list => exact sound_inv_list
  | merge => exact sound_inv_merge
  | tree => exact sound_inv_tree
  | codes => exact sound_inv_codes
  | check => exact sound_inv_check
  | hdr => exact sound_inv_hdr
  | stree => exact sound_inv_stree
  | enc sym => exact sound_inv_enc sym
  | payload => exact sound_inv_payload
  | flush => exact sound_inv_flush
  | comp =>
    refine sound_comp fun i hi => ?_
    simp only [List.mem_cons, List.not_mem_nil, or_false] at hi
    obtain rfl | rfl | rfl | rfl | rfl | rfl | rfl | rfl | rfl := hi
    exacts [sound_inv_freq, sound_inv_list, sound_inv_tree, sound_inv_codes, sound_inv_check, sound_inv_hdr, sound_inv_stree,
      sound_inv_payload, sound_inv_flush]
  | dhdr => exact sound_inv_dhdr
  | dtree => exact sound_inv_dtree
  | dsym => exact sound_inv_dsym
  | dpayload => exact sound_inv_dpayload
  | decomp =>
    refine sound_decomp fun i hi => ?_
    simp only [List.mem_cons, List.not_mem_nil, or_false] at hi
    obtain rfl | rfl | rfl := hi
    exacts [sound_inv_dhdr, sound_inv_dtree, sound_inv_dpayload]

/-! ## Steps -/

/-- A property that every command but CLR keeps is kept by `exec`, CLR, raised faults and CLR's effect given. -/
theorem exec_keeps {P : State → Prop} (hp : ∀ i, i ≠ .clr → Sound P i) (hclr : ∀ s, P s → P s.cleared)
    (hraise : ∀ s c info, P s → c ≠ ErrCode.none → P (s.raise c info)) {i : Instr} {s t : State} (hs : P s)
    (h : exec i s = .next t) : P t := by
  obtain ⟨-, he⟩ | ⟨-, he⟩ | ⟨-, c, info, hn, he⟩ | ⟨hc, -, hl, he⟩ := exec_cases i s
  · obtain rfl : s.cleared = t := by simpa using he.symm.trans h
    exact hclr s hs
  · obtain rfl : s = t := by simpa using he.symm.trans h
    exact hs
  · obtain rfl : s.raise c info = t := by simpa using he.symm.trans h
    exact hraise s c info hs hn
  · exact Flow.Spec.next ((hp i hc s hs hl).mono (fun _ _ h => h.1) (fun _ => id) id) (he ▸ h)

theorem exec_inv {i : Instr} {s t : State} (hs : Inv s) (h : exec i s = .next t) : Inv t :=
  exec_keeps (fun _ => sound_inv) (fun _ h => inv_cleared h.memory.wf) (fun _ _ info h hn => inv_raise h hn info) hs h

theorem exec_not_stuck {i : Instr} {s : State} (hs : Inv s) (f : Fault) : exec i s ≠ .fault f := by
  obtain ⟨-, he⟩ | ⟨-, he⟩ | ⟨-, c, info, hn, he⟩ | ⟨hc, -, hl, he⟩ := exec_cases i s
  · simp [he]
  · simp [he]
  · simp [he]
  · rw [he]
    exact Flow.Spec.not_fault (sound_inv hc s hs hl)

/-- The host's list and IN are no part of the invariant (R40). -/
theorem inv_hostSide {s : State} (h : Inv s) (acts : List HostAct) (bytes : List Byte) :
    Inv { s with host := acts, inp := bytes } where
  counts := ⟨h.counts.sum, h.counts.fits⟩
  packer := h.packer
  memory := ⟨h.memory.wf, h.memory.cap⟩
  fault := ⟨h.fault.recorded, h.fault.info⟩
  idle hp := by
    change { s.cleared with host := acts, inp := bytes } = _
    rw [h.idle hp]
  listed hp := let ⟨hs, ts, hl⟩ := h.listed hp; ⟨hs, ts, listedBy_congr h.memory.cap hl⟩
  built hp := let ⟨T, hT⟩ := h.built hp; ⟨T, builtBy_congr hT⟩
  read hp := let ⟨T, hT⟩ := h.read hp; ⟨T, readBy_congr hT⟩

/-- The host moves on to its next act. -/
theorem inv_host {s : State} (h : Inv s) (acts : List HostAct) : Inv { s with host := acts } := inv_hostSide h acts s.inp

/-- Settles O51: the reset state is as CLR leaves it. -/
theorem invHoldsAtReset : Obligations.InvHoldsAtReset := by
  have h : Inv State.reset.cleared := inv_cleared rfl
  rwa [cleared_reset] at h

/-- Settles O55: what the host does outside the block is no part of the invariant, and every command keeps it. -/
theorem stepKeepsInv : Obligations.StepKeepsInv := by
  intro s t hs h
  obtain ⟨-, ⟨-, rfl⟩ | ⟨w, rest, -, -, -, rfl⟩ | ⟨w, rest, -, -, -, rfl⟩ | ⟨w, rest, i, -, -, he⟩ | ⟨rest, -, rfl⟩ |
    ⟨bytes, rest, -, -, -, rfl⟩⟩ := step_cases h
  · exact hs
  · exact inv_host hs rest
  · exact inv_raise (inv_host hs rest) (by decide) _
  · exact exec_inv (inv_host hs rest) he
  · exact inv_cleared (s := ({ s with host := rest } : State).assertReset) rfl
  · exact inv_hostSide hs rest bytes

/-- Settles O56: only a command could be stuck, and none is in a state of the invariant. -/
theorem invIsNeverStuck : Obligations.InvIsNeverStuck := by
  intro s f hs h
  unfold step at h
  split at h
  · split at h
    · simp at h
    · rename_i a rest _
      cases a with
      | command w =>
        obtain ⟨-, -, he⟩ | ⟨-, -, he⟩ | ⟨-, i, -, he⟩ := takeWord_cases w { s with host := rest }
        · simp [takeAct, he] at h
        · simp [takeAct, he] at h
        · exact exec_not_stuck (inv_host hs rest) f (he.symm.trans h)
      | reset => simp [takeAct] at h
      | bind bytes =>
        simp only [takeAct, bindInput] at h
        split at h
        · split at h <;> simp at h
        · simp at h
  · simp at h

end Sys2Proof.Safety

/-! PROOFS. No register held as a number passes its width (10_state.md R17 to R25; log 7). -/

namespace Sys2Proof.Machine

open Sys2Proof Sys2Proof.Safety

/-! ## Weights in the NODE memory -/

/-- No entry of the NODE memory, allocated or not, weighs more than `M`. -/
def Bounded (M : Nat) (s : State) : Prop := ∀ n e, s.node.read n = some e → e.weight ≤ M

theorem Bounded.putNode {M : Nat} {s : State} (hs : Bounded M s) (h : Handle) {e : NodeEntry} (he : e.weight ≤ M) :
    Bounded M (s.putNode h e) := by
  intro n e' hn
  rw [State.putNode_node, Memory.read_write] at hn
  split at hn
  · obtain rfl := Option.some.inj hn
    exact he
  · exact hs n e' hn

theorem Bounded.readNode {M : Nat} {s : State} (hs : Bounded M s) {h : Handle} {e : NodeEntry} (he : s.readNode h = some e) :
    e.weight ≤ M := hs _ _ (State.readNode_eq_some.mp he).2

/-- A property of the entries stays where the entries do. -/
theorem Bounded.of_effect {M : Nat} {fs : List Field} {s t : State} (hs : Bounded M s) (he : Effect fs s t) (hn : .node ∉ fs) :
    Bounded M t := by
  rw [Bounded, show t.node = s.node from he.same .node hn]
  exact hs

/-- Pseudocode that leaves no entry heavier than `M`. -/
def Flow.Bounded {α : Type} (M : Nat) (x : Flow α) : Prop := x.Spec (fun _ => Machine.Bounded M) (Machine.Bounded M) True

section
variable {α β : Type} {M : Nat}

theorem Flow.Bounded.go {a : α} {t : State} (h : Machine.Bounded M t) : (Flow.go a t).Bounded M := h

theorem Flow.Bounded.bind {x : Flow α} {k : α → State → Flow β} (hx : x.Bounded M)
    (hk : ∀ a u, Machine.Bounded M u → (k a u).Bounded M) : (x.bind k).Bounded M := Flow.Spec.bind hx hk

theorem Flow.Within.bounded {fs : List Field} {s : State} {x : Flow α} (h : x.Within fs s) (hn : .node ∉ fs)
    (hs : Machine.Bounded M s) : x.Bounded M :=
  Flow.Spec.mono h (fun _ _ h => hs.of_effect h.1 hn) (fun _ h => hs.of_effect h.1 hn) id

/-- A read of an entry no heavier than `M`, and what follows it. -/
theorem needNode_bind_bounded {s : State} {h : Handle} {k : NodeEntry → State → Flow β}
    (hk : ∀ e, s.readNode h = some e → (k e s).Bounded M) : ((s.needNode h).bind k).Bounded M := by
  obtain ⟨e, he, hg⟩ | ⟨-, hg⟩ := s.needNode_cases h
  · rw [hg]
    exact hk e he
  · rw [hg]
    trivial

end

theorem changeNode_bounded {M : Nat} {s : State} (hs : Bounded M s) (h : Handle) {f : NodeEntry → NodeEntry}
    (hf : ∀ e, (f e).weight = e.weight) : (s.changeNode h f).Bounded M :=
  needNode_bind_bounded fun e he => hs.putNode h (by rw [hf]; exact hs.readNode he)

theorem setNext_bounded {M : Nat} {s : State} (hs : Bounded M s) (h v : Handle) : (s.setNext h v).Bounded M :=
  changeNode_bounded hs h fun _ => rfl

theorem insertSorted_bounded {M : Nat} {s : State} (hs : Bounded M s) (n : Handle) (pass : Nat → Bool) :
    (s.insertSorted n pass).Bounded M :=
  ((findSlot_within [] s pass _ _ _).bounded (by simp) hs).bind fun _ u hu =>
    (setNext_bounded hu n _).bind fun _ v hv => by
      split
      · exact hv
      · exact setNext_bounded hv _ n

theorem takeHandle_bounded {M : Nat} {s : State} (hs : Bounded M s) : s.takeHandle.Bounded M :=
  (takeHandle_within s).bounded (by simp) hs

/-- LIST's leaves weigh what their counts are (R84). -/
theorem listLoop_bounded {M : Nat} {ws : List Nat} {k : Nat} {s : State} (hs : Bounded M s) (hw : ∀ w ∈ ws, w ≤ M) :
    (listLoop ws k s).Bounded M := by
  induction ws generalizing k s with
  | nil => exact hs
  | cons w ws ih =>
    refine Flow.Bounded.bind ?_ fun _ u hu => ih hu fun x hx => hw x (List.mem_cons_of_mem _ hx)
    split
    · refine (takeHandle_bounded hs).bind fun n u hu => ?_
      have hput := hu.putNode n (e := leafEntry (BitVec.ofNat 8 k) w) (hw w List.mem_cons_self)
      exact (insertSorted_bounded hput n _).bind fun _ v hv => hv
    · exact hs

/-- MERGE's parent weighs what the two first nodes do (R90). -/
theorem mergeStep_bounded {M : Nat} {s : State} (hs : Bounded M s)
    (hw : ∀ ea eb, s.readNode s.head = some ea → s.readNode ea.next = some eb → ea.weight + eb.weight ≤ M) :
    (mergeStep s).Bounded M :=
  needNode_bind_bounded fun ea ha => needNode_bind_bounded fun eb hb => (takeHandle_bounded hs).bind fun p u hu => by
    have hput := hu.putNode p (e := parentEntry (ea.weight + eb.weight) s.head ea.next) (hw ea eb ha hb)
    have hhead : Bounded M { u.putNode p (parentEntry (ea.weight + eb.weight) s.head ea.next) with head := eb.next } := hput
    exact (setNext_bounded hhead s.head _).bind fun _ v hv => (setNext_bounded hv ea.next _).bind fun _ x hx =>
      (insertSorted_bounded hx p _).bind fun _ y hy => .go hy

/-- DTREE's nodes weigh nothing (R131, R137). -/
theorem buildTree_bounded {M : Nat} {fuel : Nat} {s : State} (hs : Bounded M s) : (buildTree fuel s).Bounded M := by
  induction fuel generalizing s with
  | zero => trivial
  | succ fuel ih =>
    unfold buildTree
    split
    · exact hs
    · rename_i f u hu
      have hu := hs.of_effect (effect_readBit hu) (by simp)
      split
      · exact hu
      · refine (takeHandle_bounded hu).bind fun n v hv => ?_
        split
        · have hput := hv.putNode n (e := parentEntry 0 Config.nil Config.nil) (Nat.zero_le _)
          exact (ih hput).bind fun _ w hw => (changeNode_bounded hw n (by exact fun _ => rfl)).bind fun _ x hx => (ih hx).bind fun _ y hy =>
            (changeNode_bounded hy n (by exact fun _ => rfl)).bind fun _ z hz => .go hz
        · exact ((needByte_within v).bounded (by simp) hv).bind fun _ w hw => hw.putNode n (Nat.zero_le _)

/-! ## Sums of counts -/

/-- Counts that are zero add nothing. -/
theorem sum_filter_pos {α : Type} (f : α → Nat) (l : List α) :
    ((l.filter fun i => decide (f i > 0)).map f).sum = (l.map f).sum := by
  induction l with
  | nil => rfl
  | cons x xs ih =>
    rw [List.filter_cons]
    split
    · simp [ih]
    · rename_i h
      have : f x = 0 := by simpa using h
      simp [ih, this]

/-- The counts of the present symbols add up to TOTAL (R94). -/
theorem countSum_presentSyms (freq : Vector Nat 256) : countSum freq (presentSyms freq) = freq.toList.sum := by
  have hlist : freq.toList = (List.finRange 256).map fun i => freq[i] := by
    apply List.ext_getElem
    · rw [Vector.length_toList, List.length_map, List.length_finRange]
    · intro i h1 h2
      rw [Vector.getElem_toList, List.getElem_map, List.getElem_finRange]
      rfl
  have hsym : ∀ i : Fin 256, symIdx (BitVec.ofNat 8 i.val) = i := fun i =>
    Fin.ext ((BitVec.toNat_ofNat i.val 8).trans (Nat.mod_eq_of_lt i.isLt))
  have hmap : (fun x : Byte => freq[symIdx x]) ∘ (fun i : Fin 256 => BitVec.ofNat 8 i.val) = fun i => freq[i] := by
    funext i
    simp only [Function.comp_apply, hsym]
  rw [countSum, presentSyms, List.map_map, hmap, sum_filter_pos, hlist]

/-- The weights at the roots of the list add up to TOTAL (R94). -/
theorem merged_weight_le {s : State} {hs : List Handle} {ts : List Tree} (hc : s.nnodes ≤ Config.nodeCap) (hcounts : CountsOk s)
    (h : ListedBy s hs ts) {ea eb : NodeEntry} (ha : s.readNode s.head = some ea) (hb : s.readNode ea.next = some eb)
    (h2 : 2 ≤ s.nlist) : ea.weight + eb.weight ≤ s.cfg.maxCount := by
  obtain ⟨hlisted, -⟩ := (listedBy_iff hc).mp h
  obtain ⟨a, b, rest, A, B, ts, ea', eb', rfl, rfl, hhead, ha', hwA, hnext, hb', hwB⟩ := hlisted.firstTwo h2
  obtain rfl : ea = ea' := by simpa [hhead, ha'] using ha.symm
  obtain rfl : eb = eb' := by simpa [hnext, hb'] using hb.symm
  have hf := hlisted.forest
  have htotal := countSum_perm s.freq hf.symbols
  rw [countSum_presentSyms, ← hcounts.sum, List.flatMap_cons, List.flatMap_cons, countSum_append, countSum_append,
    ← Tree.weight_eq_countSum (hf.weights A (by simp)), ← Tree.weight_eq_countSum (hf.weights B (by simp))] at htotal
  have := hcounts.fits
  omega

end Sys2Proof.Machine

/-! PROOFS. Every step keeps every width (10_state.md R17 to R25, R82, R94; log 7). -/

namespace Sys2Proof.Safety

open Sys2Proof Sys2Proof.Machine

/-! ## Widths after an effect -/

/-- What a command that writes the groups `fs` owes to the widths, beside what the invariant and its effect give. -/
structure WidthsOf (fs : List Field) (t : State) : Prop where
  weight : .node ∈ fs → Bounded t.cfg.maxCount t
  list : .nsym ∈ fs ∨ .list ∈ fs → t.nsym ≤ 256 ∧ t.nlist ≤ 256
  codes : .codes ∈ fs → (∀ x : Byte, t.code[symIdx x].length ≤ 255) ∧ t.treebits ≤ 2559
  sizes : .sizes ∈ fs → t.paybits < 2 ^ 64 ∧ t.estbits < 2 ^ 64 ∧ t.uncbits < 2 ^ 64

/-- A count is at most the sum of the counts (R18). -/
theorem CountsOk.count_le {s : State} (h : CountsOk s) (x : Byte) : s.freq[symIdx x] ≤ s.cfg.maxCount := by
  have hmem : s.freq[symIdx x] ∈ s.freq.toList := Vector.mem_toList_iff.mpr (Vector.getElem_mem _)
  exact (List.le_sum_of_mem hmem).trans (h.sum ▸ h.fits)

theorem fits_of_effect {fs : List Field} {s t : State} (hf : Fits s) (he : Effect fs s t) (hi : Inv t) (hw : WidthsOf fs t) :
    Fits t where
  freq x := hi.counts.count_le x
  total := hi.counts.fits
  weight := by
    by_cases h : Field.node ∈ fs
    · exact hw.weight h
    · rw [show t.node = s.node from he.same .node h, he.cfg]
      exact hf.weight
  nsym := by
    by_cases h : Field.nsym ∈ fs
    · exact (hw.list (.inl h)).1
    · exact (show t.nsym = s.nsym from he.same .nsym h) ▸ hf.nsym
  nlist := by
    by_cases h : Field.list ∈ fs
    · exact (hw.list (.inr h)).2
    · exact (he.same .list h).2 ▸ hf.nlist
  nnodes := hi.memory.cap
  code := by
    by_cases h : Field.codes ∈ fs
    · exact (hw.codes h).1
    · rw [(he.same .codes h).1]
      exact hf.code
  treebits := by
    by_cases h : Field.codes ∈ fs
    · exact (hw.codes h).2
    · exact (he.same .codes h).2 ▸ hf.treebits
  paybits := by
    by_cases h : Field.sizes ∈ fs
    · exact (hw.sizes h).1
    · exact (he.same .sizes h).1 ▸ hf.paybits
  estbits := by
    by_cases h : Field.sizes ∈ fs
    · exact (hw.sizes h).2.1
    · exact (he.same .sizes h).2.1 ▸ hf.estbits
  uncbits := by
    by_cases h : Field.sizes ∈ fs
    · exact (hw.sizes h).2.2
    · exact (he.same .sizes h).2.2 ▸ hf.uncbits
  input := by
    rw [State.inLen, he.inp]
    exact hf.input
  inPos := by
    have h1 := he.inPos
    have h2 := hf.inPos
    have h3 := hf.input
    simp only [State.inLen] at h3
    omega
  bitPos := by
    have h1 := he.bitPos
    have h2 := hf.bitPos
    have h3 := hf.input
    simp only [State.inLen] at h3
    omega
  frame := by
    rw [he.cfg]
    exact hf.frame

/-- A state of the invariant, of a configuration of R5, in which every width is kept. -/
structure Sized (s : State) : Prop where
  valid : s.cfg.valid = true
  inv : Inv s
  fits : Fits s

/-- What is left to show of a command: the widths of what it writes. -/
theorem sound_sized {i : Instr} (hc : i ≠ .clr)
    (hx : ∀ s, Sized s → Legal i s →
      (pseudocode i s).Spec (fun _ t => WidthsOf (writes i) t) (fun t => WidthsOf (writes i) t) True) : Sound Sized i := by
  intro s hs hl
  refine (((hx s hs hl).and (sound_inv hc s hs.inv hl)).and (pseudocode_within hc s)).mono ?_ ?_ fun h => h.1.2
  · rintro _ t ⟨⟨hw, hi, hp⟩, he, -⟩
    exact ⟨⟨he.cfg ▸ hs.valid, hi, fits_of_effect hs.fits he hi hw⟩, hp⟩
  · rintro t ⟨⟨hw, hi⟩, he, -⟩
    exact ⟨he.cfg ▸ hs.valid, hi, fits_of_effect hs.fits he hi hw⟩

theorem spec_of_forall {α : Type} {x : Flow α} {P : State → Prop} (h : ∀ t, P t) : x.Spec (fun _ => P) P True := by
  cases x with
  | go a t => exact h t
  | ended t => exact h t
  | stuck f => trivial

/-- A command that writes none of the registers with a width of their own. -/
theorem sound_sized_of_writes {i : Instr} (hc : i ≠ .clr)
    (h : ∀ f ∈ [Field.node, .nsym, .list, .codes, .sizes], f ∉ writes i) : Sound Sized i :=
  sound_sized hc fun _ _ _ => spec_of_forall fun _ =>
    ⟨fun hf => absurd hf (h _ (by decide)), fun hf => (hf.elim (h _ (by decide)) (h _ (by decide))).elim,
      fun hf => absurd hf (h _ (by decide)), fun hf => absurd hf (h _ (by decide))⟩

/-! ## The commands that write entries -/

theorem listedBy_widths {s : State} {hs : List Handle} {ts : List Tree} (hc : s.nnodes ≤ Config.nodeCap) (h : ListedBy s hs ts) :
    s.nsym ≤ 256 ∧ s.nlist ≤ 256 := by
  obtain ⟨hl, hcount, -, -⟩ := (listedBy_iff hc).mp h
  have h256 := presentSyms_length_le s.freq
  have hle := hl.forest.length_le
  have hlen := hl.length
  omega

theorem builtBy_widths {s : State} {T : Tree} (h : BuiltBy s T) : s.nsym ≤ 256 ∧ s.nlist ≤ 256 := by
  have h256 := presentSyms_length_le s.freq
  have hcount := h.leaves.count
  have hlist := h.nlist
  omega

/-- What a bounded piece of pseudocode leaves where it goes on. -/
theorem Flow.Bounded.of_go {M : Nat} {α : Type} {x : Flow α} {a : α} {t : State} (h : x.Bounded M) (hx : x = .go a t) :
    Bounded M t := by
  rw [hx] at h
  exact h

theorem Flow.Bounded.of_ended {M : Nat} {α : Type} {x : Flow α} {t : State} (h : x.Bounded M) (hx : x = .ended t) :
    Bounded M t := by
  rw [hx] at h
  exact h

theorem listBody_bounded {s : State} (hs : Sized s) : (listBody s).Bounded s.cfg.maxCount := by
  have hstart : Bounded s.cfg.maxCount { s with nnodes := 0, head := Config.nil, nlist := 0 } := hs.fits.weight
  have hcounts : ∀ w ∈ s.freq.toList, w ≤ s.cfg.maxCount := fun w hw =>
    (List.le_sum_of_mem hw).trans (hs.inv.counts.sum ▸ hs.inv.counts.fits)
  refine (listLoop_bounded hstart hcounts).bind fun _ u hu => ?_
  dsimp only
  split
  · exact hu
  · exact hu

theorem sound_sized_list : Sound Sized .list := by
  refine sound_sized (by simp) fun s hs _ => ?_
  have hb := listBody_bounded hs
  have hcfg : ∀ t, Effect (writes .list) s t → Bounded s.cfg.maxCount t → Bounded t.cfg.maxCount t := fun t he h => he.cfg ▸ h
  have hw := pseudocode_within (i := .list) (by simp) s
  obtain ⟨t, hs', ts, ht, -, hl⟩ | ⟨t, ht, -, hn, hk⟩ := listBody_spec s
  · have hx : pseudocode .list s = .go () t := ht
    rw [hx] at hw ⊢
    have hcap := (hw.1.memory hs.inv.memory).cap
    exact ⟨fun _ => hcfg t hw.1 (Flow.Bounded.of_go hb ht), fun _ => listedBy_widths hcap hl, by simp [writes], by simp [writes]⟩
  · have hx : pseudocode .list s = .ended t := ht
    rw [hx] at hw ⊢
    exact ⟨fun _ => hcfg t hw.1 (Flow.Bounded.of_ended hb ht), fun _ => by omega, by simp [writes], by simp [writes]⟩

theorem mergeStep_fits {s t : State} {hs : List Handle} {ts : List Tree} (hc : s.nnodes ≤ Config.nodeCap) (hcounts : CountsOk s)
    (hb : Bounded s.cfg.maxCount s) (h : ListedBy s hs ts) (h2 : 2 ≤ s.nlist) (ht : mergeStep s = .go () t) :
    Bounded s.cfg.maxCount t :=
  Flow.Bounded.of_go (mergeStep_bounded hb fun _ _ ha hb => merged_weight_le hc hcounts h ha hb h2) ht

theorem sound_sized_merge : Sound Sized .merge := by
  refine sound_sized (by simp) fun s hs hl => ?_
  obtain ⟨hs', ts, hlist⟩ := hs.inv.listed (by simpa [legalPhases] using hl.1)
  obtain ⟨t, hs1, ts1, ht, hl1, -, hcap, -⟩ := mergeStep_listedBy hs.inv.memory.cap hlist hl.2
  have hcfg := ((mergeStep_within s).of_go ht).1.cfg
  rw [show pseudocode .merge s = .go () t from ht]
  exact ⟨fun _ => hcfg ▸ mergeStep_fits hs.inv.memory.cap hs.inv.counts hs.fits.weight hlist hl.2 ht,
    fun _ => listedBy_widths hcap hl1, by simp [writes], by simp [writes]⟩

/-- TREE's merges keep every weight below the bound: no weight passes TOTAL (R94). -/
theorem mergeLoop_fits {M fuel : Nat} {s t : State} {hs : List Handle} {ts : List Tree} (hM : s.cfg.maxCount = M)
    (hm : MemoryOk s) (hcounts : CountsOk s) (hb : Bounded M s) (h : ListedBy s hs ts) (ht : mergeLoop fuel s = .go () t) :
    Bounded M t := by
  induction fuel generalizing s hs ts with
  | zero =>
    obtain rfl : s = t := by simpa [mergeLoop] using ht
    exact hb
  | succ fuel ih =>
    by_cases h1 : s.nlist > 1
    · obtain ⟨u, hs1, ts1, hu, hl, -, -, -⟩ := mergeStep_listedBy hm.cap h h1
      have he := ((mergeStep_within s).of_go hu).1
      rw [mergeLoop, if_pos h1, hu, Flow.bind_go] at ht
      subst hM
      exact ih (by rw [he.cfg]) (he.memory hm) (he.counts hcounts) (mergeStep_fits hm.cap hcounts hb h h1 hu) hl ht
    · obtain rfl : s = t := by simpa [mergeLoop, h1] using ht
      exact hb

theorem treeBody_bounded {s : State} (hs : Sized s) {hs' : List Handle} {ts : List Tree} (h : ListedBy s hs' ts) :
    (treeBody s).Bounded s.cfg.maxCount := by
  obtain ⟨u, hs1, ts1, hu, -⟩ := mergeLoop_listedBy hs.inv.memory.cap h (Nat.le_refl _)
  have hb := mergeLoop_fits rfl hs.inv.memory hs.inv.counts hs.fits.weight h hu
  have hroot : Bounded s.cfg.maxCount { u with root := u.head } := hb
  rw [treeBody, hu, Flow.bind_go]
  exact (setNext_bounded hroot u.head _).bind fun _ v hv => needNode_bind_bounded fun e _ => .go hv

theorem sound_sized_tree : Sound Sized .tree := by
  refine sound_sized (by simp) fun s hs hl => ?_
  obtain ⟨hs', ts, hlist⟩ := hs.inv.listed (by simpa [legalPhases] using hl.1)
  obtain ⟨t, T, ht, -, hT⟩ := treeBody_spec hs.inv.memory.cap hlist
  have hcfg := ((treeBody_within s).of_go ht).1.cfg
  rw [show pseudocode .tree s = .go () t from ht]
  exact ⟨fun _ => hcfg ▸ Flow.Bounded.of_go (treeBody_bounded hs hlist) ht, fun _ => builtBy_widths hT, by simp [writes],
    by simp [writes]⟩

theorem dtreeBody_bounded {M : Nat} {s : State} (hs : Bounded M s) : (dtreeBody s).Bounded M := by
  have hstart : Bounded M { s with nnodes := 0 } := hs
  exact (buildTree_bounded hstart).bind fun r u hu => needNode_bind_bounded fun e _ => .go hu

theorem sound_sized_dtree : Sound Sized .dtree := by
  refine sound_sized (by simp) fun s hs _ => ?_
  have hw : ∀ t, Effect (writes .dtree) s t → Bounded s.cfg.maxCount t → WidthsOf (writes .dtree) t := fun t he h =>
    ⟨fun _ => he.cfg ▸ h, by simp [writes], by simp [writes], by simp [writes]⟩
  exact ((dtreeBody_bounded hs.fits.weight).and (pseudocode_within (i := .dtree) (by simp) s)).mono
    (fun _ t h => hw t h.2.1 h.1) (fun t h => hw t h.2.1 h.1) fun _ => trivial

/-! ## CODES and CHECK -/

theorem writePaths_length_le {B : Nat} {ps : List (Byte × Bits)} {tab : Vector Bits 256} (hp : ∀ p ∈ ps, p.2.length ≤ B)
    (hc : ∀ x : Byte, tab[symIdx x].length ≤ B) (x : Byte) : (writePaths [] ps tab)[symIdx x].length ≤ B := by
  induction ps generalizing tab with
  | nil => exact hc x
  | cons p ps ih =>
    refine ih (fun q hq => hp q (List.mem_cons_of_mem _ hq)) fun y => ?_
    have hpB := hp p List.mem_cons_self
    have hset : (tab.set (symIdx p.1) ([] ++ p.2))[symIdx y] =
        if (symIdx p.1).val = (symIdx y).val then [] ++ p.2 else tab[symIdx y] :=
      Vector.getElem_set ..
    rw [hset]
    split
    · exact hpB
    · exact hc y

/-- A code is shorter than there are symbols, and TREEBITS = 10 NSYM - 1 (R102, R103). -/
theorem sound_sized_codes : Sound Sized .codes := by
  refine sound_sized (by simp) fun s hs hl => ?_
  obtain ⟨T, hT⟩ := hs.inv.built (by have := hl.1; simp only [legalPhases, List.mem_singleton] at this; simp [this, builtPhases])
  obtain ⟨htree, hh⟩ := hT.treeOf
  have hsyms : T.syms.length ≤ 256 := by
    have := hT.trees.symbols.length_eq
    simp only [List.flatMap_cons, List.flatMap_nil, List.append_nil] at this
    have := presentSyms_length_le s.freq
    omega
  have hser := T.ser_length
  rw [show pseudocode .codes s = _ from codesBody_eq htree hh]
  refine ⟨by simp [writes], by simp [writes], fun _ => ⟨?_, by simp only; omega⟩, by simp [writes]⟩
  exact writePaths_length_le (fun p hp => by have := Tree.paths_length hp; omega)
    fun x => by simp only [Fin.getElem_fin, Vector.getElem_replicate, List.length_nil]; omega

/-- A weighted sum of the counts (R101). -/
theorem sum_zipWith_le {B : Nat} (cs : List Bits) (fs : List Nat) (h : ∀ c ∈ cs, c.length ≤ B) :
    (List.zipWith (fun c f => c.length * f) cs fs).sum ≤ B * fs.sum := by
  induction cs generalizing fs with
  | nil => simp
  | cons c cs ih =>
    cases fs with
    | nil => simp
    | cons f fs =>
      have h1 := Nat.mul_le_mul_right f (h c List.mem_cons_self)
      have h2 := ih fs fun c hc => h c (List.mem_cons_of_mem _ hc)
      simp only [List.zipWith_cons_cons, List.sum_cons, Nat.mul_add]
      omega

theorem maxCount_lt {c : Config} (h : c.valid = true) : c.maxCount < 2 ^ 48 := by
  simp only [Config.valid, Bool.and_eq_true, decide_eq_true_eq] at h
  have hpow : 2 ^ c.cw ≤ 2 ^ 48 := Nat.pow_le_pow_right (by decide) h.2
  have hpos : 1 ≤ 2 ^ c.cw := Nat.one_le_two_pow
  simp only [Config.maxCount]
  omega

theorem payloadBits_le {s : State} (hs : Sized s) : payloadBits s.code s.freq ≤ 255 * s.total := by
  rw [hs.inv.counts.sum]
  refine sum_zipWith_le _ _ fun c hc => ?_
  obtain ⟨i, hi, rfl⟩ := Vector.mem_iff_getElem.mp (Vector.mem_toList_iff.mp hc)
  have hsym : (symIdx (BitVec.ofNat 8 i)).val = i := (BitVec.toNat_ofNat i 8).trans (Nat.mod_eq_of_lt hi)
  have := hs.fits.code (BitVec.ofNat 8 i)
  simp only [Fin.getElem_fin, hsym] at this
  exact this

theorem ceil8_le (v : Nat) : ceil8 v ≤ v + 7 := by
  unfold ceil8
  omega

theorem sound_sized_check : Sound Sized .check := by
  refine sound_sized (by simp) fun s hs _ => ?_
  have hmax := maxCount_lt hs.valid
  have htotal := hs.inv.counts.fits
  have hpay := payloadBits_le hs
  have htree := hs.fits.treebits
  have hframe := hs.fits.frame
  have hest := ceil8_le (s.treebits + 8 * s.cfg.frameBytes + payloadBits s.code s.freq)
  have hsizes : payloadBits s.code s.freq < 2 ^ 64 ∧
      ceil8 (s.treebits + 8 * s.cfg.frameBytes + payloadBits s.code s.freq) < 2 ^ 64 ∧ 8 * s.total < 2 ^ 64 := by
    refine ⟨?_, ?_, ?_⟩ <;> omega
  change (checkBody s).Spec _ _ _
  unfold checkBody
  dsimp only
  split
  · exact ⟨by simp [writes], by simp [writes], by simp [writes], fun _ => hsizes⟩
  · exact ⟨by simp [writes], by simp [writes], by simp [writes], fun _ => hsizes⟩

/-! ## All commands, and the steps -/

theorem sound_sized_all {i : Instr} (hc : i ≠ .clr) : Sound Sized i := by
  have hfreq : Sound Sized .freq := sound_sized_of_writes (by simp) (by decide)
  have hhdr : Sound Sized .hdr := sound_sized_of_writes (by simp) (by decide)
  have hstree : Sound Sized .stree := sound_sized_of_writes (by simp) (by decide)
  have hpayload : Sound Sized .payload := sound_sized_of_writes (by simp) (by decide)
  have hflush : Sound Sized .flush := sound_sized_of_writes (by simp) (by decide)
  have hdhdr : Sound Sized .dhdr := sound_sized_of_writes (by simp) (by decide)
  have hdpayload : Sound Sized .dpayload := sound_sized_of_writes (by simp) (by decide)
  cases i with
  | clr => exact absurd rfl hc
  | ctl opd => exact sound_sized_of_writes (by simp) (by simp [writes])
  | cnt sym => exact sound_sized_of_writes (by simp) (by simp [writes])
  | freq => exact hfreq
  | list => exact sound_sized_list
  | merge => exact sound_sized_merge
  | tree => exact sound_sized_tree
  | codes => exact sound_sized_codes
  | check => exact sound_sized_check
  | hdr => exact hhdr
  | stree => exact hstree
  | enc sym => exact sound_sized_of_writes (by simp) (by simp [writes])
  | payload => exact hpayload
  | flush => exact hflush
  | comp =>
    refine sound_comp fun i hi => ?_
    simp only [List.mem_cons, List.not_mem_nil, or_false] at hi
    obtain rfl | rfl | rfl | rfl | rfl | rfl | rfl | rfl | rfl := hi
    exacts [hfreq, sound_sized_list, sound_sized_tree, sound_sized_codes, sound_sized_check, hhdr, hstree, hpayload, hflush]
  | dhdr => exact hdhdr
  | dtree => exact sound_sized_dtree
  | dsym => exact sound_sized_of_writes (by simp) (by decide)
  | dpayload => exact hdpayload
  | decomp =>
    refine sound_decomp fun i hi => ?_
    simp only [List.mem_cons, List.not_mem_nil, or_false] at hi
    obtain rfl | rfl | rfl := hi
    exacts [hdhdr, sound_sized_dtree, hdpayload]

theorem widthsOf_nil (t : State) : WidthsOf [] t := ⟨by simp, by simp, by simp, by simp⟩

theorem sized_cleared {s : State} (h : Sized s) : Sized s.cleared :=
  ⟨h.valid, inv_cleared h.inv.memory.wf, fits_of_cleared rfl h.fits.weight h.fits.input h.fits.frame⟩

theorem sized_raise {s : State} (h : Sized s) {c : ErrCode} (hc : c ≠ .none) (info : Word64) : Sized (s.raise c info) :=
  have hi := inv_raise h.inv hc info
  ⟨h.valid, hi, fits_of_effect h.fits (effect_raise [] s c info) hi (widthsOf_nil _)⟩

/-- The host's list is no part of the widths; an IN it binds fits (log 19). -/
theorem fits_hostSide {s : State} (h : Fits s) (acts : List HostAct) {bytes : List Byte} (hb : 8 * bytes.length < 2 ^ 64) :
    Fits { s with host := acts, inp := bytes } :=
  ⟨h.freq, h.total, h.weight, h.nsym, h.nlist, h.nnodes, h.code, h.treebits, h.paybits, h.estbits, h.uncbits, hb, h.inPos, h.bitPos,
    h.frame⟩

theorem sized_host {s : State} (h : Sized s) (acts : List HostAct) : Sized { s with host := acts } :=
  ⟨h.valid, inv_host h.inv acts, fits_hostSide h.fits acts h.fits.input⟩

/-- Settles O57: the commands keep the widths, and the host binds only what fits. -/
theorem stepKeepsEveryWidth : Obligations.StepKeepsEveryWidth := by
  intro s t hv hs hf h
  have hsz : Sized s := ⟨hv, hs, hf⟩
  obtain ⟨-, ⟨-, rfl⟩ | ⟨w, rest, -, -, -, rfl⟩ | ⟨w, rest, -, -, -, rfl⟩ | ⟨w, rest, i, -, -, he⟩ | ⟨rest, -, rfl⟩ |
    ⟨bytes, rest, -, -, hb, rfl⟩⟩ := step_cases h
  · exact hf
  · exact (sized_host hsz rest).fits
  · exact (sized_raise (sized_host hsz rest) (by decide) _).fits
  · exact (exec_keeps (fun _ => sound_sized_all) (fun _ => sized_cleared) (fun _ _ info h hn => sized_raise h hn info)
      (sized_host hsz rest) he).fits
  · exact fits_of_cleared rfl (fun _ _ hr => nomatch hr) hf.input hf.frame
  · exact fits_hostSide hf rest (of_decide_eq_true hb)

end Sys2Proof.Safety

/-! PROOFS. The packer and the NODE memory keep their forms from any state (10_state.md R19, R20, 20_memory.md R46). -/

namespace Sys2Proof.Safety

open Sys2Proof Sys2Proof.Machine

/-- An empty packer holds no bit (R46). -/
theorem packerOk_of_empty {s : State} (ha : s.acc = 0#8) (hn : s.nbits = 0#3) : PackerOk s := by
  simp [PackerOk, ha, hn]

theorem exec_packerOk {i : Instr} {s t : State} (h : exec i s = .next t) (hs : PackerOk s) : PackerOk t := by
  by_cases hc : i = .clr
  · subst hc
    rw [exec_clr h]
    exact packerOk_of_empty rfl rfl
  · exact (exec_effect hc h).1.packer hs

/-- CLR allocates nothing and leaves the entries as they are (R80); the other commands write only entries there are. -/
theorem exec_memoryOk {i : Instr} {s t : State} (h : exec i s = .next t) (hs : MemoryOk s) : MemoryOk t := by
  by_cases hc : i = .clr
  · subst hc
    rw [exec_clr h]
    exact ⟨hs.wf, Nat.zero_le _⟩
  · exact (exec_effect hc h).1.memory hs

/-- Settles O53: each command keeps either form by itself; reset makes both, and the host writes neither the packer nor the
NODE memory otherwise. -/
theorem stepKeepsPackerAndNodeMemory : Obligations.StepKeepsPackerAndNodeMemory := by
  intro s t h
  obtain ⟨-, ⟨-, rfl⟩ | ⟨w, rest, -, -, -, rfl⟩ | ⟨w, rest, -, -, -, rfl⟩ | ⟨w, rest, i, -, -, he⟩ | ⟨rest, -, rfl⟩ |
    ⟨bytes, rest, -, -, -, rfl⟩⟩ := step_cases h
  case inr.inr.inr.inl => exact ⟨fun hs => exec_packerOk he hs, fun hs => exec_memoryOk he ⟨hs.wf, hs.cap⟩⟩
  case inr.inr.inr.inr.inl => exact ⟨fun _ => packerOk_of_empty rfl rfl, fun _ => ⟨Memory.wf_reset, Nat.zero_le _⟩⟩
  all_goals exact ⟨id, fun hs => ⟨hs.wf, hs.cap⟩⟩

end Sys2Proof.Safety

/-! PROOFS. The opcode map read both ways: each row admits exactly the words of its commands (30_encoding.md R61 to R63). -/

namespace Sys2Proof

/-! ## The two bytes of a word -/

@[simp] theorem wordOpc_mkWord (opc opd : Byte) : wordOpc (mkWord opc opd) = opc := BitVec.extractLsb'_append_eq_left

@[simp] theorem wordOpd_mkWord (opc opd : Byte) : wordOpd (mkWord opc opd) = opd := BitVec.extractLsb'_append_eq_right

@[simp] theorem mkWord_wordOpc_wordOpd (w : Word) : mkWord (wordOpc w) (wordOpd w) = w :=
  BitVec.extractLsb'_append_extractLsb' (w := 8) (len := 8)

theorem mkWord_eq_iff {opc opd : Byte} {w : Word} : mkWord opc opd = w ↔ opc = wordOpc w ∧ opd = wordOpd w := by
  constructor
  · rintro rfl
    simp
  · rintro ⟨rfl, rfl⟩
    exact mkWord_wordOpc_wordOpd w

theorem and_mkWord (w : Word) (opcMask opdMask : Byte) :
    w &&& mkWord opcMask opdMask = mkWord (wordOpc w &&& opcMask) (wordOpd w &&& opdMask) := by
  calc w &&& mkWord opcMask opdMask
      = mkWord (wordOpc w) (wordOpd w) &&& mkWord opcMask opdMask := by rw [mkWord_wordOpc_wordOpd]
    _ = mkWord (wordOpc w &&& opcMask) (wordOpd w &&& opdMask) := BitVec.and_append

/-! ## A row admits exactly the words of its commands -/

/-- A row is exact when the words that hit it are the words of the well-formed commands it builds: it ignores no bit (R62) and
takes every operand its command admits (R61). -/
def Row.Exact (r : Row) : Prop :=
  ∀ w, r.hits w = true ↔ (r.build (wordOpd w)).wellFormed = true ∧ encode (r.build (wordOpd w)) = w

/-- A row that fixes all of OPC is exact when its mask on OPD admits the operand bytes its commands have. -/
theorem Row.exact_of_operands {opc opdPat opdMask : Byte} {build : Byte → Instr} (hopc : ∀ opd, (build opd).opcode = opc)
    (hopd : ∀ opd, opd &&& opdMask = opdPat ↔ (build opd).wellFormed = true ∧ (build opd).operand = opd) :
    Row.Exact ⟨mkWord opc opdPat, mkWord 0xFF#8 opdMask, build⟩ := by
  intro w
  have hff : wordOpc w &&& 0xFF#8 = wordOpc w := BitVec.and_allOnes
  calc (w &&& mkWord 0xFF#8 opdMask == mkWord opc opdPat) = true
      ↔ wordOpc w = opc ∧ wordOpd w &&& opdMask = opdPat := by
        rw [beq_iff_eq, and_mkWord, mkWord_eq_iff, wordOpc_mkWord, wordOpd_mkWord, hff]
    _ ↔ (build (wordOpd w)).wellFormed = true ∧ encode (build (wordOpd w)) = w := by
        rw [encode, mkWord_eq_iff, hopc, hopd, eq_comm (a := opc)]
        tauto

/-- A row without operand is exact: OPD is 0 in its word and in its mask's reading (R61). -/
theorem Row.exact_bare (i : Instr) (hw : i.wellFormed = true) (hopd : i.operand = 0#8) :
    Row.Exact (Row.bare (mkWord i.opcode 0#8) i) :=
  Row.exact_of_operands (opdMask := 0xFF#8) (fun _ => rfl) fun opd => by
    have hff : opd &&& 0xFF#8 = opd := BitVec.and_allOnes
    rw [hff, hopd, eq_comm]
    exact (and_iff_right hw).symm

/-- CTL's operand check is the mask of its row: bits 7:4 are 0 (R61, R81). -/
theorem and_0xF0_eq_zero_iff : ∀ opd : Byte, opd &&& 0xF0#8 = 0#8 ↔ ctlOperandOk opd = true := by decide

theorem Row.exact_ctl : Row.Exact ⟨0x0100#16, 0xFFF0#16, .ctl⟩ :=
  Row.exact_of_operands (build := .ctl) (fun _ => rfl) fun opd => (and_0xF0_eq_zero_iff opd).trans (and_iff_left rfl).symm

/-- A row whose operand is any byte is exact (R61). -/
theorem Row.exact_symbol {opc : Byte} (build : Byte → Instr) (hopc : ∀ sym, (build sym).opcode = opc)
    (hw : ∀ sym, (build sym).wellFormed = true) (hopd : ∀ sym, (build sym).operand = sym) :
    Row.Exact ⟨mkWord opc 0#8, 0xFF00#16, build⟩ :=
  Row.exact_of_operands (opdMask := 0#8) hopc fun sym => iff_of_true BitVec.and_zero ⟨hw sym, hopd sym⟩

/-- Every row of the opcode map is exact: CTL's row, the symbol rows of CNT and ENC, and the rows without operand. -/
theorem rows_exact : ∀ r ∈ rows, r.Exact := by
  simp only [rows, List.forall_mem_cons]
  exact ⟨Row.exact_bare .clr rfl rfl, Row.exact_ctl,
    Row.exact_symbol .cnt (fun _ => rfl) (fun _ => rfl) (fun _ => rfl), Row.exact_bare .freq rfl rfl,
    Row.exact_bare .list rfl rfl, Row.exact_bare .merge rfl rfl, Row.exact_bare .tree rfl rfl, Row.exact_bare .codes rfl rfl,
    Row.exact_bare .check rfl rfl, Row.exact_bare .hdr rfl rfl, Row.exact_bare .stree rfl rfl,
    Row.exact_symbol .enc (fun _ => rfl) (fun _ => rfl) (fun _ => rfl), Row.exact_bare .payload rfl rfl,
    Row.exact_bare .flush rfl rfl, Row.exact_bare .comp rfl rfl, Row.exact_bare .dhdr rfl rfl, Row.exact_bare .dtree rfl rfl,
    Row.exact_bare .dsym rfl rfl, Row.exact_bare .dpayload rfl rfl, Row.exact_bare .decomp rfl rfl, List.forall_mem_nil _⟩

/-! ## A word hits at most one row, and every command has one -/

/-- A bit that both rows fix, and fix differently, is wrong for one of them. -/
theorem Row.not_hits_both {a b : Row} (h : a.apart b = true) (w : Word) : ¬ (a.hits w = true ∧ b.hits w = true) := by
  rintro ⟨ha, hb⟩
  have ha : w &&& a.mask = a.pat := by simpa [Row.hits] using ha
  have hb : w &&& b.mask = b.pat := by simpa [Row.hits] using hb
  have hsame : (a.pat ^^^ b.pat) &&& (a.mask &&& b.mask) = 0#16 := by
    rw [← ha, ← hb]
    ext j
    simp only [BitVec.getElem_and, BitVec.getElem_xor, BitVec.getElem_zero]
    cases w[j] <;> cases a.mask[j] <;> cases b.mask[j] <;> rfl
  simp [Row.apart, hsame] at h

/-- The rows are disjoint (R62): a word that hits two has hit the same one twice. -/
theorem eq_of_hits {a b : Row} {w : Word} (ha : a ∈ rows) (hb : b ∈ rows) (hwa : a.hits w = true) (hwb : b.hits w = true) :
    a = b := by
  have hdis : rows.Pairwise fun a b => ¬ (a.hits w = true ∧ b.hits w = true) := rows_apart.imp fun h => Row.not_hits_both h w
  have : Std.Symm fun a b : Row => ¬ (a.hits w = true ∧ b.hits w = true) := ⟨fun _ _ h hba => h hba.symm⟩
  by_contra hne
  exact hdis.forall ha hb hne ⟨hwa, hwb⟩

/-- A word decodes by whichever row it hits, wherever the row stands in the map (R63). -/
theorem decode_of_hits {r : Row} {w : Word} (hr : r ∈ rows) (hw : r.hits w = true) : decode w = .instr (r.build (wordOpd w)) := by
  cases hd : decode w with
  | instr i =>
    obtain ⟨q, hq, hwq, rfl⟩ := decode_instr hd
    rw [eq_of_hits hq hr hwq hw]
  | reject c => simp [decode_reject_iff.mp ⟨c, hd⟩ r hr] at hw

/-- Each command is built by a row of the map from its operand (R61, R62). -/
theorem exists_row_building (i : Instr) : ∃ r ∈ rows, r.build i.operand = i := by
  cases i <;> simp [rows, Row.bare, Instr.operand]

/-! ## The statements -/

/-- Settles O1: the command's row is exact, so its word hits that row, and by disjointness no other row can answer. -/
theorem decodeOfEncodeIsTheCommand : Obligations.DecodeOfEncodeIsTheCommand := by
  intro i hw
  obtain ⟨r, hr, hbuild⟩ := exists_row_building i
  have hopd : r.build (wordOpd (encode i)) = i := by rw [encode, wordOpd_mkWord, hbuild]
  have hhit : r.hits (encode i) = true := (rows_exact r hr _).mpr (by rw [hopd]; exact ⟨hw, rfl⟩)
  rw [decode_of_hits hr hhit, hopd]

/-- Settles O2: the row the word hits is exact. -/
theorem encodeOfDecodeIsTheWord : Obligations.EncodeOfDecodeIsTheWord := by
  intro w i h
  obtain ⟨r, hr, hhit, rfl⟩ := decode_instr h
  exact (rows_exact r hr w).mp hhit

/-- Settles O3: the legal words are the words of their commands, so they decode to them; the two examples of R64 hit no row. -/
theorem wordsOfTheOpcodeMapDecode : Obligations.WordsOfTheOpcodeMapDecode :=
  ⟨decodeOfEncodeIsTheCommand .clr rfl, decodeOfEncodeIsTheCommand (.ctl 0x0A#8) rfl,
    decodeOfEncodeIsTheCommand (.cnt 0x61#8) rfl, decodeOfEncodeIsTheCommand .merge rfl,
    decodeOfEncodeIsTheCommand .check rfl, decodeOfEncodeIsTheCommand (.enc 0xFF#8) rfl,
    decodeOfEncodeIsTheCommand .comp rfl, decodeOfEncodeIsTheCommand .dsym rfl, decodeOfEncodeIsTheCommand .decomp rfl,
    by decide, by decide⟩

end Sys2Proof

/-! PROOFS. The commands that may not run (60_exceptions.md R150 to R152), CLR and CTL (40_frequency_and_list.md R80, R81). -/

namespace Sys2Proof.Machine

open Sys2Proof Sys2Proof.Safety

/-! ## A command that may not run -/

/-- ERRINFO of the two command faults as a number: the two fields do not overlap (R151). -/
theorem wordInfo_toNat (w : Word) (p : Phase) : (wordInfo w p).toNat = w.toNat + 65536 * p.num := by
  have hp := p.num_lt
  have hw := w.isLt
  simp only [wordInfo, BitVec.toNat_add, toNat_setWidth_64 w (by decide), BitVec.toNat_shiftLeft, Nat.shiftLeft_eq,
    toNat_ofNat_of_lt (show p.num < 2 ^ 64 by omega)]
  omega

theorem mkWord_toNat (opc opd : Byte) : (mkWord opc opd).toNat = opc.toNat * 256 + opd.toNat := toNat_append_add opc opd

theorem exec_of_not_legal {i : Instr} {s : State} (hw : i.wellFormed = true) (hf : s.phase ≠ .fault) (hl : ¬ Legal i s) :
    exec i s = .next (s.raise .sequence (wordInfo (encode i) s.phase)) := by
  have hc : i ≠ .clr := by
    rintro rfl
    exact hl ⟨by cases s.phase <;> decide, trivial⟩
  have ht : legalTest i s ≠ true := fun h => hl (legalTest_iff.mp h)
  rw [exec_eq_command hc hw, command, if_neg hf, if_neg ht]

theorem exec_of_legal {i : Instr} {s : State} (hc : i ≠ .clr) (hw : i.wellFormed = true) (hl : Legal i s) :
    exec i s = (pseudocode i s).toOutcome := by
  rw [exec_eq_command hc hw, command_legal (legal_not_fault hc hl) (legalTest_iff.mpr hl)]

theorem onlyLegalIn {i : Instr} (hw : i.wellFormed = true) : OnlyLegalIn i (legalPhases i) := fun s hf hp =>
  ⟨_, exec_of_not_legal hw hf fun hl => hp hl.1, rfl, wordInfo_toNat (encode i) s.phase, rfl⟩

/-- In FAULT only CLR is taken (R150 step 1). -/
theorem exec_of_fault {i : Instr} {s : State} (hc : i ≠ .clr) (hf : s.phase = .fault) : exec i s = .next s := by
  obtain ⟨h, -⟩ | ⟨-, h⟩ | ⟨h, -⟩ | ⟨-, h, -⟩ := exec_cases i s
  · exact absurd h hc
  · exact h
  · exact absurd hf h
  · exact absurd hf h

/-! ## CTL's operand -/

theorem ctlForce_iff (v : Byte) : ctlForce v = true ↔ v.toNat % 2 = 1 := by
  rw [ctlForce, BitVec.getLsbD, Nat.testBit_zero, decide_eq_true_eq]

theorem ctlTailskip_toNat {v : Byte} (h : v.toNat < 16) : (ctlTailskip v).toNat = v.toNat / 2 := by
  rw [ctlTailskip, BitVec.extractLsb'_toNat, Nat.shiftRight_eq_div_pow]
  omega

theorem ctlOperandOk_iff (v : Byte) : ctlOperandOk v = true ↔ v.toNat < 16 := by
  have hv := v.isLt
  rw [ctlOperandOk, beq_iff_eq, ← BitVec.toNat_inj, BitVec.extractLsb'_toNat, Nat.shiftRight_eq_div_pow, BitVec.toNat_ofNat]
  omega

end Sys2Proof.Machine

namespace Sys2Proof.Safety

open Sys2Proof Sys2Proof.Machine

/-- Settles O11: CLR's pseudocode field by field, the dropping of the other commands in FAULT, and what the invariant says of
IDLE. -/
theorem clrClearsAllButCtrl : Obligations.ClrClearsAllButCtrl := by
  refine ⟨fun s => ⟨s.cleared, rfl, ?_⟩, fun i s t hc hf h => ?_, fun s hs hp => ?_⟩
  · simp [Config.nil, symIdx]
  · simpa [eq_comm] using (exec_of_fault hc hf).symm.trans h
  · exact congrArg Host.Outcome.next (hs.idle hp)

/-- Settles O12: CTL is well formed exactly when its operand is below 16; the three clauses are how such a command runs in IDLE,
how an ill-formed one is taken, and how a well-formed one is taken out of phase. -/
theorem ctlWritesCtrl : Obligations.CtlWritesCtrl := by
  have hwf : ∀ v : Byte, (Instr.ctl v).wellFormed = true ↔ v.toNat < 16 := ctlOperandOk_iff
  refine ⟨fun s v hp hv => ?_, fun s v hf hv => ?_, fun v hv => onlyLegalIn ((hwf v).mpr hv)⟩
  · exact ⟨_, exec_of_legal (by simp) ((hwf v).mpr hv) ⟨by simp [legalPhases, hp], trivial⟩, ctlForce_iff v,
      ctlTailskip_toNat hv, rfl⟩
  · have hill : ¬ (Instr.ctl v).wellFormed = true := fun h => Nat.not_lt.mpr hv ((hwf v).mp h)
    refine ⟨_, (exec_of_not_wellFormed hill s).trans (if_neg hf), rfl, ?_, rfl, rfl⟩
    rw [State.raise_errinfo, wordInfo_toNat]
    exact congrArg (· + 65536 * s.phase.num) (mkWord_toNat 0x01#8 v)

end Sys2Proof.Safety

/-! PROOFS. CNT and FREQ: one count after the other, up to the bound (40_frequency_and_list.md R82, R83). -/

namespace Sys2Proof.Machine

open Sys2Proof Sys2Proof.Safety

/-! ## One count -/

theorem symInfo_toNat (b : Byte) : (symInfo b).toNat = b.toNat := toNat_setWidth_64 b (by decide)

/-- The state with one more occurrence of a symbol counted. -/
def State.bump (sym : Byte) (s : State) : State :=
  { s with freq := s.freq.set (symIdx sym) (s.freq[symIdx sym] + 1), total := s.total + 1 }

/-- One more occurrence of a symbol changes its own count only. -/
theorem State.bump_freq (sym x : Byte) (s : State) :
    (s.bump sym).freq[symIdx x] = s.freq[symIdx x] + if x = sym then 1 else 0 := by
  have hset : (s.bump sym).freq[symIdx x] =
      if (symIdx sym).val = (symIdx x).val then s.freq[symIdx sym] + 1 else s.freq[symIdx x] :=
    Vector.getElem_set (symIdx sym).isLt (symIdx x).isLt
  rw [hset]
  by_cases h : x = sym
  · rw [h, if_pos rfl, if_pos rfl]
  · rw [if_neg fun hv => h (BitVec.eq_of_toNat_eq hv.symm), if_neg h, Nat.add_zero]

theorem countSymbol_of_full {s : State} (sym : Byte) (h : s.total = s.cfg.maxCount) :
    countSymbol sym s = .ended (s.raise .countOverflow (symInfo sym)) := if_pos h

theorem countSymbol_of_room {s : State} (sym : Byte) (h : s.total ≠ s.cfg.maxCount) :
    countSymbol sym s = .go () (s.bump sym) := if_neg h

theorem exec_cnt {s : State} (sym : Byte) (hp : s.phase = .idle ∨ s.phase = .count) :
    exec (.cnt sym) s = (cntBody sym s).toOutcome :=
  exec_of_legal (by simp) rfl ⟨by simpa [legalPhases] using hp, trivial⟩

theorem exec_freq {s : State} (hp : s.phase = .idle) : exec .freq s = (freqBody s).toOutcome :=
  exec_of_legal (by simp) rfl ⟨by simp [legalPhases, hp], trivial⟩

/-! ## The loop of FREQ -/

/-- A turn of FREQ's loop with a byte of IN left. -/
theorem freqLoop_succ {s : State} {b : Byte} {rest : List Byte} (n : Nat) (h : s.inp.drop s.inPos = b :: rest) :
    freqLoop (n + 1) s = (countSymbol b { s with inPos := s.inPos + 1 }).bind fun _ s => freqLoop n s := by
  have hb : s.inByte = some (b, { s with inPos := s.inPos + 1 }) :=
    State.inByte_eq_some.mpr ⟨by rw [← Nat.add_zero s.inPos, ← List.getElem?_drop, h]; rfl, rfl⟩
  rw [freqLoop, hb]

/-- What is left of IN when its next byte has been read. -/
theorem drop_succ_of_drop_eq_cons {α : Type} {l : List α} {n : Nat} {b : α} {rest : List α} (h : l.drop n = b :: rest) :
    l.drop (n + 1) = rest := by
  rw [← List.tail_drop, h, List.tail_cons]

/-- The bytes `bs`, next in IN, for all of which the counts have room: the loop counts them and goes on behind them (R83). -/
theorem freqLoop_append {bs rest : List Byte} {s : State} (n : Nat) (hin : s.inp.drop s.inPos = bs ++ rest)
    (hroom : s.total + bs.length ≤ s.cfg.maxCount) :
    ∃ f, (∀ x : Byte, f[symIdx x] = s.freq[symIdx x] + bs.count x) ∧
      freqLoop (bs.length + n) s =
        freqLoop n { s with freq := f, total := s.total + bs.length, inPos := s.inPos + bs.length } := by
  induction bs generalizing s with
  | nil => exact ⟨s.freq, fun _ => rfl, by rw [List.length_nil, Nat.zero_add]; rfl⟩
  | cons b bs ih =>
    rw [List.length_cons] at hroom
    have hne : s.total ≠ s.cfg.maxCount := by omega
    obtain ⟨f, hf, hloop⟩ := ih (s := State.bump b { s with inPos := s.inPos + 1 }) (drop_succ_of_drop_eq_cons hin)
      (show s.total + 1 + bs.length ≤ s.cfg.maxCount by omega)
    refine ⟨f, fun x => ?_, ?_⟩
    · rw [hf, State.bump_freq, List.count_cons]
      simp only [beq_iff_eq, eq_comm (a := b)]
      omega
    · rw [List.length_cons, Nat.add_right_comm, freqLoop_succ _ hin, countSymbol_of_room b (by exact hne), Flow.bind_go,
        hloop]
      simp only [State.bump, Nat.add_assoc, Nat.add_comm 1]

/-! ## FREQ as a sequence of CNT -/

/-- The phase a count is taken in does not show once the phase is written. -/
theorem countSymbol_setPhase (sym : Byte) (s : State) (p : Phase) :
    ((countSymbol sym s).bind fun _ s => .go () { s with phase := p }) = countSymbol sym { s with phase := p } := by
  unfold countSymbol
  split <;> rfl

theorem freqLoop_setPhase (n : Nat) (s : State) (p : Phase) :
    ((freqLoop n s).bind fun _ s => .go () { s with phase := p }) = freqLoop n { s with phase := p } := by
  induction n generalizing s with
  | zero => rfl
  | succ n ih =>
    cases hin : s.inp.drop s.inPos with
    | nil =>
      have hend : s.inp.length ≤ s.inPos := List.drop_eq_nil_iff.mp hin
      rw [freqLoop, freqLoop, State.inByte_eq_none.mpr hend, State.inByte_eq_none.mpr (by exact hend)]
      rfl
    | cons b rest =>
      have h := countSymbol_setPhase b { s with inPos := s.inPos + 1 } p
      rw [freqLoop_succ n hin, freqLoop_succ (s := { s with phase := p }) n hin, ← h, Flow.bind_assoc, Flow.bind_assoc]
      exact congrArg _ (funext fun _ => funext ih)

theorem execAll_of_fault {is : List Instr} {s : State} (hc : Instr.clr ∉ is) (hf : s.phase = .fault) :
    execAll is s = .next s := by
  induction is with
  | nil => rfl
  | cons i is ih =>
    obtain ⟨hi, his⟩ := List.ne_and_not_mem_of_not_mem_cons hc
    rw [execAll, exec_of_fault (Ne.symm hi) hf]
    exact ih his

/-- A sequence of CNT may start in COUNT instead of IDLE. -/
theorem execAll_cnt_setPhase {bs : List Byte} {s : State} (hne : bs ≠ []) (hp : s.phase = .idle) :
    execAll (bs.map .cnt) s = execAll (bs.map .cnt) { s with phase := .count } := by
  obtain ⟨b, bs, rfl⟩ := List.exists_cons_of_ne_nil hne
  have hfirst : exec (.cnt b) s = exec (.cnt b) { s with phase := .count } := by
    rw [exec_cnt b (.inl hp), exec_cnt b (.inr rfl), cntBody, cntBody, countSymbol_setPhase, countSymbol_setPhase]
  rw [List.map_cons, execAll, execAll, hfirst]

/-- FREQ's loop and a CNT for each byte come to the same, but for the cursor. -/
theorem freqLoop_eq_execAll_cnt {bs : List Byte} {s : State} (q : Nat) (hp : s.phase = .count)
    (hin : s.inp.drop s.inPos = bs) :
    ∃ u p, (freqLoop bs.length s).toOutcome = .next { u with inPos := p } ∧
      execAll (bs.map .cnt) { s with inPos := q } = .next u := by
  induction bs generalizing s with
  | nil => exact ⟨{ s with inPos := q }, s.inPos, rfl, rfl⟩
  | cons b bs ih =>
    have hexec : exec (.cnt b) { s with inPos := q } = (countSymbol b { s with inPos := q }).toOutcome := by
      rw [exec_cnt (s := { s with inPos := q }) b (.inr hp), cntBody, countSymbol_setPhase]
      simp only [← hp]
    rw [List.length_cons, freqLoop_succ _ hin, List.map_cons, execAll, hexec]
    by_cases hfull : s.total = s.cfg.maxCount
    · rw [countSymbol_of_full b (by exact hfull), countSymbol_of_full b (by exact hfull)]
      exact ⟨_, s.inPos + 1, rfl, execAll_of_fault (by simp) rfl⟩
    · rw [countSymbol_of_room b (by exact hfull), countSymbol_of_room b (by exact hfull)]
      exact ih hp (drop_succ_of_drop_eq_cons hin)

end Sys2Proof.Machine

namespace Sys2Proof.Safety

open Sys2Proof Sys2Proof.Machine

/-- Settles O13: the two ends of one count, and how CNT is taken out of phase. -/
theorem cntCountsOneSymbol : Obligations.CntCountsOneSymbol := by
  refine ⟨fun s sym hp => ?_, fun sym => onlyLegalIn rfl⟩
  rw [exec_cnt sym hp, cntBody]
  refine ⟨fun hroom => ?_, fun hfull => ?_⟩
  · rw [countSymbol_of_room sym hroom]
    exact ⟨_, rfl, by simpa using State.bump_freq sym sym s, fun x hx => by simpa [hx] using State.bump_freq sym x s,
      rfl, rfl, rfl⟩
  · rw [countSymbol_of_full sym hfull]
    exact ⟨_, rfl, rfl, symInfo_toNat sym, rfl, rfl⟩

/-- Settles O14: the loop over all of IN where the counts have room, and else up to the byte that finds TOTAL at the bound. -/
theorem freqCountsTheInput : Obligations.FreqCountsTheInput := by
  refine ⟨fun s hp hpos hroom => ?_, fun s hp hpos hle hover => ?_, onlyLegalIn rfl⟩
  · have hlen : (s.inp.drop s.inPos).length = s.bytesLeft := List.length_drop
    obtain ⟨f, hf, hloop⟩ := freqLoop_append (bs := s.inp.drop s.inPos) 0 (List.append_nil _).symm (by rw [hlen]; exact hroom)
    rw [Nat.add_zero, hlen] at hloop
    rw [exec_freq hp, freqBody, hloop]
    exact ⟨_, rfl, hf, rfl, Nat.add_sub_of_le hpos, rfl, rfl⟩
  · obtain ⟨k, hk⟩ : ∃ k, s.cfg.maxCount = s.total + k := Nat.exists_eq_add_of_le hle
    have hmax : 2 ^ s.cfg.cw - 1 = s.total + k := hk
    rw [hmax] at hover ⊢
    rw [Nat.add_sub_cancel_left]
    have hlt : s.inPos + k < s.inp.length := by omega
    have htake : ((s.inp.drop s.inPos).take k).length = k := by
      rw [List.length_take, List.length_drop]
      omega
    obtain ⟨f, hf, hloop⟩ := freqLoop_append (bs := (s.inp.drop s.inPos).take k) (s.bytesLeft - k)
      (List.take_append_drop k _).symm (by rw [htake, hk])
    have hturn : s.bytesLeft - k = (s.bytesLeft - k - 1) + 1 := by
      simp only [State.bytesLeft]
      omega
    rw [htake, Nat.add_sub_of_le (by simp only [State.bytesLeft]; omega), hturn,
      freqLoop_succ (b := s.inp[s.inPos + k]) (rest := s.inp.drop (s.inPos + k + 1)) _ (List.drop_eq_getElem_cons hlt),
      countSymbol_of_full _ (by exact hk.symm)] at hloop
    rw [exec_freq hp, freqBody, hloop]
    exact ⟨_, _, rfl, List.getElem?_eq_getElem hlt, rfl, symInfo_toNat _, rfl, rfl, rfl, hf, rfl⟩

/-- Settles O15: the loop and the sequence start alike, since FREQ writes COUNT at its end and the first CNT at its own. -/
theorem freqIsCntOfEveryByte : Obligations.FreqIsCntOfEveryByte := by
  intro s t u hp hpos hne ht hu
  obtain ⟨v, p, hfreq, hcnt⟩ := freqLoop_eq_execAll_cnt (bs := s.inp) (s := { s with phase := .count }) s.inPos rfl
    (by simp only [hpos, List.drop_zero])
  have hlen : s.bytesLeft = s.inp.length := by rw [State.bytesLeft, hpos, Nat.sub_zero]
  rw [exec_freq hp, freqBody, freqLoop_setPhase, hlen, hfreq] at ht
  rw [execAll_cnt_setPhase hne hp] at hu
  have huv := hu.symm.trans hcnt
  cases ht
  cases huv
  rfl

end Sys2Proof.Safety

/-! PROOFS. LIST: the order of the list it builds, and the leaves as the input's symbols (40_frequency_and_list.md R84, R85). -/

namespace Sys2Proof.Machine

open Sys2Proof Sys2Proof.Safety

/-! ## The present symbols -/

theorem mem_presentSyms {freq : Vector Nat 256} {x : Byte} : x ∈ presentSyms freq ↔ freq[symIdx x] > 0 := by
  simp only [presentSyms, List.mem_map, List.mem_filter, List.mem_finRange, true_and, decide_eq_true_eq]
  constructor
  · rintro ⟨i, hi, rfl⟩
    have : symIdx (BitVec.ofNat 8 i.val) = i := Fin.ext (toNat_ofNat_of_lt i.isLt)
    simpa only [this] using hi
  · exact fun h => ⟨symIdx x, h, BitVec.ofNat_toNat 8 x |>.trans (BitVec.setWidth_eq x)⟩

/-- The present symbols ascend. -/
theorem presentSyms_pairwise (freq : Vector Nat 256) : (presentSyms freq).Pairwise fun x y => x.toNat < y.toNat := by
  rw [presentSyms, List.pairwise_map]
  refine ((List.sortedLT_finRange 256).pairwise.filter _).imp fun {i j} hij => ?_
  rwa [toNat_ofNat_of_lt i.isLt, toNat_ofNat_of_lt j.isLt]

theorem exists_symbol_of_mem {freq : Vector Nat 256} {w : Nat} (h : w ∈ freq.toList) : ∃ x : Byte, freq[symIdx x] = w := by
  obtain ⟨i, hi, rfl⟩ := List.getElem_of_mem h
  have hi : i < 256 := by simpa using hi
  have hsym : symIdx (BitVec.ofNat 8 i) = ⟨i, hi⟩ := Fin.ext (toNat_ofNat_of_lt hi)
  exact ⟨BitVec.ofNat 8 i, by simp [hsym]⟩

/-- The greater its place, the greater a present symbol. -/
theorem toNat_lt_of_getElem? {freq : Vector Nat 256} {m n : Nat} {x y : Byte} (hx : (presentSyms freq)[m]? = some x)
    (hy : (presentSyms freq)[n]? = some y) (h : m < n) : x.toNat < y.toNat := by
  obtain ⟨hm, rfl⟩ := List.getElem?_eq_some_iff.mp hx
  obtain ⟨hn, rfl⟩ := List.getElem?_eq_some_iff.mp hy
  exact List.pairwise_iff_getElem.mp (presentSyms_pairwise freq) m n hm hn h

/-! ## One leaf -/

theorem listLeaf_eq_go {x : Byte} {w : Nat} {s t : State} (h : listLeaf x w s = .go () t) :
    s.nnodes < Config.nodeCap ∧ ∃ u,
      (s.withNew (leafEntry x w)).insertSorted (BitVec.ofNat 9 s.nnodes) (fun y => decide (y ≤ w)) = .go () u ∧
      t = { u with nlist := u.nlist + 1 } := by
  obtain ⟨n, v, hv, hk⟩ := Flow.bind_eq_go.mp h
  obtain ⟨hroom, rfl, rfl⟩ := State.takeHandle_eq_go.mp hv
  obtain ⟨⟨⟩, u, hu, ht⟩ := Flow.bind_eq_go.mp hk
  cases ht
  exact ⟨hroom, u, hu, rfl⟩

/-- A leaf writes entries and the list's registers only. -/
theorem listLeaf_frame {x : Byte} {w : Nat} {s t : State} (h : listLeaf x w s = .go () t) :
    t = { s with node := t.node, nnodes := t.nnodes, head := t.head, nlist := s.nlist + 1 } := by
  obtain ⟨-, u, hu, rfl⟩ := listLeaf_eq_go h
  rw [(State.insertSorted_frame hu).1]
  rfl

/-! ## The order of the list -/

/-- Lighter, or as heavy with a smaller handle. -/
def Before (s : State) (a b : Handle) : Prop :=
  s.weightAt a < s.weightAt b ∨ (s.weightAt a = s.weightAt b ∧ a.toNat < b.toNat)

/-- The list holds every entry once, in the order of `Before`. -/
structure Ordered (s : State) (hs : List Handle) : Prop where
  cap : s.nnodes ≤ Config.nodeCap
  linked : Linked s s.head hs Config.nil
  length : hs.length = s.nnodes
  order : hs.Pairwise (Before s)

theorem ordered_empty {s : State} (hn : s.nnodes = 0) (hhead : s.head = Config.nil) : Ordered s [] :=
  ⟨hn ▸ Nat.zero_le _, hhead, hn.symm, .nil⟩

/-- An insertion adds one member. -/
theorem insert_perm {α : Type} (p : α → Bool) (n : α) (l : List α) : (l.takeWhile p ++ n :: l.dropWhile p).Perm (n :: l) := by
  have h := List.perm_middle (l₁ := l.takeWhile p) (a := n) (l₂ := l.dropWhile p)
  rwa [List.takeWhile_append_dropWhile] at h

/-- An insertion before the first member that `p` rejects keeps an order: the members before it precede it, and with a rejected
member every later one is rejected and comes after it. -/
theorem pairwise_insert_of_rel {α : Type} {R : α → α → Prop} {p : α → Bool} {l : List α} {n : α} (hl : l.Pairwise R)
    (hbefore : ∀ x ∈ l, p x = true → R x n) (hafter : ∀ x ∈ l, p x = false → R n x)
    (hrest : ∀ x y, p x = false → R x y → p y = false) : (l.takeWhile p ++ n :: l.dropWhile p).Pairwise R := by
  induction l with
  | nil => simp
  | cons x xs ih =>
    obtain ⟨hx, hxs⟩ := List.pairwise_cons.mp hl
    cases hp : p x with
    | true =>
      simp only [List.takeWhile_cons, List.dropWhile_cons, hp, if_true, List.cons_append]
      have htail := ih hxs (fun y hy => hbefore y (.tail _ hy)) fun y hy => hafter y (.tail _ hy)
      refine List.pairwise_cons.mpr ⟨fun y hy => ?_, htail⟩
      obtain rfl | hm := List.mem_cons.mp ((insert_perm p n xs).mem_iff.mp hy)
      · exact hbefore x (.head _) hp
      · exact hx y hm
    | false =>
      simp only [List.takeWhile_cons, List.dropWhile_cons, hp, Bool.false_eq_true, if_false, List.nil_append]
      refine List.pairwise_cons.mpr ⟨fun y hy => hafter y hy ?_, hl⟩
      obtain rfl | hy := List.mem_cons.mp hy
      · exact hp
      · exact hrest x y hp (hx y hy)

/-- The order depends on the weights of the list's entries only. -/
theorem pairwise_before_congr {s t : State} {hs : List Handle} (h : hs.Pairwise (Before s))
    (hw : ∀ a ∈ hs, t.weightAt a = s.weightAt a) : hs.Pairwise (Before t) :=
  h.imp_of_mem fun ha hb hab => by rwa [Before, hw _ ha, hw _ hb]

/-- An insertion behind every entry that is not heavier keeps the order, if no handle on the list is greater than the new
one (R84). -/
theorem pairwise_before_insert {s : State} {n : Handle} {hs : List Handle} (h : hs.Pairwise (Before s))
    (hn : ∀ a ∈ hs, a.toNat < n.toNat) :
    (hs.takeWhile (fun a => decide (s.weightAt a ≤ s.weightAt n)) ++
      n :: hs.dropWhile fun a => decide (s.weightAt a ≤ s.weightAt n)).Pairwise (Before s) := by
  refine pairwise_insert_of_rel h (fun a ha hp => ?_) (fun a _ hp => ?_) fun a b hp hab => ?_
  · have hle := of_decide_eq_true hp
    have hlt := hn a ha
    simp only [Before]
    omega
  · have hnle := of_decide_eq_false hp
    exact .inl (by omega)
  · have hnle := of_decide_eq_false hp
    simp only [Before] at hab
    exact decide_eq_false (by omega)

section
variable {s : State} {hs : List Handle} (h : Ordered s hs)
include h

theorem Ordered.handle_lt {a : Handle} (ha : a ∈ hs) : a.toNat < s.nnodes := by
  obtain ⟨e, he⟩ := h.linked.read ha
  exact (State.readNode_eq_some.mp he).1

theorem Ordered.nodup : hs.Nodup := h.order.imp fun hab => by
  rintro rfl
  simp [Before] at hab

theorem Ordered.length_lt : hs.length < walkFuel := by
  have hcap : s.nnodes ≤ 511 := h.cap
  have hlen := h.length
  exact show hs.length < 512 by omega

theorem Ordered.chain : s.chain? = some hs := (chainAt_eq_some h.cap).mpr ⟨h.linked, h.length_lt⟩

/-- A new leaf keeps the list in order: it has the greatest handle and goes behind every entry that is not heavier (R84). -/
theorem Ordered.listLeaf {x : Byte} {w : Nat} {t : State} (ht : listLeaf x w s = .go () t) : ∃ hs', Ordered t hs' := by
  obtain ⟨hroom, u, hu, rfl⟩ := listLeaf_eq_go ht
  have hadds := adds_withNew (e := leafEntry x w) hroom
  obtain ⟨v, hv⟩ := hadds.readNode
  have hlinked : Linked (s.withNew (leafEntry x w)) s.head hs Config.nil :=
    h.linked.congr fun a ha => withNew_readNode_old hroom (h.handle_lt ha)
  have hlt : ∀ a ∈ hs, a.toNat < (BitVec.ofNat 9 s.nnodes).toNat := fun a ha => by
    rw [handle_toNat hroom]
    exact h.handle_lt ha
  have hnodup : (BitVec.ofNat 9 s.nnodes :: hs).Nodup := List.nodup_cons.mpr ⟨fun hm => Nat.lt_irrefl _ (hlt _ hm), h.nodup⟩
  have horder : hs.Pairwise (Before (s.withNew (leafEntry x w))) := pairwise_before_congr h.order fun a ha => by
    obtain ⟨e, he⟩ := h.linked.read ha
    exact hadds.keeps.weightAt he
  have hinsert := pairwise_before_insert horder hlt
  rw [show (s.withNew (leafEntry x w)).weightAt (BitVec.ofNat 9 s.nnodes) = w from withNew_weightAt hroom] at hinsert
  obtain ⟨u', hu', hlu, -⟩ := insertSorted_spec (fun y => decide (y ≤ w))
    (show s.nnodes + 1 ≤ Config.nodeCap from hroom) hlinked hnodup h.length_lt hv
  obtain rfl : u = u' := by simpa [hu] using hu'
  obtain ⟨hkeep, hnn⟩ := Keeps.insertSorted hu
  refine ⟨_, hnn.trans_le hroom, hlu.congr fun _ _ => rfl, ?_, pairwise_before_congr hinsert fun a ha => ?_⟩
  · rw [(insert_perm _ _ hs).length_eq, List.length_cons, h.length]
    exact hnn.symm
  · obtain rfl | ha := List.mem_cons.mp ((insert_perm _ _ hs).mem_iff.mp ha)
    · exact hkeep.weightAt hv
    · obtain ⟨e, he⟩ := hlinked.read ha
      exact hkeep.weightAt he

end

/-! ## The loop -/

/-- What every leaf keeps, the loop keeps. -/
theorem listLoop_keeps {P : State → Prop} (hP : ∀ x w s t, P s → listLeaf x w s = .go () t → P t) {ws : List Nat} {k : Nat}
    {s t : State} (hs : P s) (ht : listLoop ws k s = .go () t) : P t := by
  induction ws generalizing k s with
  | nil =>
    cases ht
    exact hs
  | cons w ws ih =>
    obtain ⟨⟨⟩, u, hu, hk⟩ := Flow.bind_eq_go.mp ht
    refine ih ?_ hk
    split at hu
    · exact hP _ _ _ _ hs hu
    · cases hu
      exact hs

theorem listLoop_frame {ws : List Nat} {k : Nat} {s t : State} (ht : listLoop ws k s = .go () t) :
    t = { s with node := t.node, nnodes := t.nnodes, head := t.head, nlist := t.nlist } :=
  listLoop_keeps (P := fun t => t = { s with node := t.node, nnodes := t.nnodes, head := t.head, nlist := t.nlist })
    (fun _ _ u v hu hv => by rw [listLeaf_frame hv, hu]) rfl ht

/-- The loop lists one leaf for each symbol that is present. -/
theorem listLoop_nlist {ws : List Nat} {k : Nat} {s t : State} (ht : listLoop ws k s = .go () t) :
    t.nlist = s.nlist + (symsFrom ws k).length := by
  induction ws generalizing k s with
  | nil =>
    cases ht
    rfl
  | cons w ws ih =>
    obtain ⟨⟨⟩, u, hu, hk⟩ := Flow.bind_eq_go.mp ht
    rw [ih hk, symsFrom]
    split at hu
    · rw [if_pos ‹_›, listLeaf_frame hu, List.length_cons]
      simp only
      omega
    · cases hu
      rw [if_neg ‹_›]

theorem listLoop_of_zeros {ws : List Nat} (hz : ∀ w ∈ ws, w = 0) (k : Nat) (s : State) : listLoop ws k s = .go () s := by
  induction ws generalizing k with
  | nil => rfl
  | cons w ws ih =>
    obtain rfl := hz w (.head _)
    exact ih (fun w hw => hz w (.tail _ hw)) (k + 1)

theorem listBody_of_zeros {s : State} (hz : ∀ w ∈ s.freq.toList, w = 0) :
    listBody s =
      .ended (({ s with nnodes := 0, head := Config.nil, nlist := 0, nsym := 0 } : State).raise .emptyInput 0) := by
  rw [listBody, listLoop_of_zeros hz]
  rfl

/-- The list LIST starts from (R84). -/
theorem listed_empty {s : State} (hn : s.nnodes = 0) (hhead : s.head = Config.nil) (hl : s.nlist = 0) : Listed s [] [] [] := by
  have hnone : ∀ n, ¬ n < s.nnodes := fun n h => by omega
  exact ⟨⟨by simp [hn], .nil, fun n h => absurd h (hnone n), fun _ h => absurd h (Nat.not_lt_zero _),
    fun n h => absurd h (hnone n), by simp [State.childHandles_eq, hn], .refl _, fun _ h => absurd h List.not_mem_nil⟩,
    ⟨hhead, fun n h => absurd h (hnone n), .nil⟩, hl.symm⟩

/-- LIST with a symbol present: its loop's end, with NSYM and PHASE written (R84). -/
theorem listBody_eq_go {s : State} (h : presentSyms s.freq ≠ []) :
    ∃ u, listLoop s.freq.toList 0 { s with nnodes := 0, head := Config.nil, nlist := 0 } = .go () u ∧
      u.nlist = (presentSyms s.freq).length ∧ listBody s = .go () { u with nsym := u.nlist, phase := .listed } := by
  obtain ⟨u, _, _, hu, -⟩ := listLoop_spec (ws := s.freq.toList) (k := 0)
    (s := { s with nnodes := 0, head := Config.nil, nlist := 0 }) (listed_empty rfl rfl rfl) rfl rfl
    (by rw [List.nil_append, symsFrom_freq]; exact presentSyms_length_le _)
  have hn : u.nlist = (presentSyms s.freq).length := by
    rw [listLoop_nlist hu, symsFrom_freq]
    exact Nat.zero_add _
  have hpos := List.length_pos_iff.mpr h
  rw [listBody, hu, Flow.bind_go]
  exact ⟨u, rfl, hn, if_neg (show u.nlist ≠ 0 by omega)⟩

/-! ## The leaves -/

/-- The leaf of a symbol (R84). -/
def leafOf (freq : Vector Nat 256) (x : Byte) : Tree := .leaf x freq[symIdx x]

/-- SYM of an entry, 0 where there is none. -/
def State.symAt (s : State) (n : Handle) : Byte :=
  match s.readNode n with
  | some e => e.sym
  | none => 0#8

/-- The entry is the leaf of the present symbol whose place is the handle. -/
structure LeafAt (s : State) (n : Handle) (e : NodeEntry) : Prop where
  read : s.node.read n.toNat = some e
  isLeaf : e.isLeaf = true
  sym : (presentSyms s.freq)[n.toNat]? = some e.sym
  symAt : s.symAt n = e.sym
  weight : e.weight = s.freq[symIdx e.sym]
  weightAt : s.weightAt n = e.weight

section
variable {s : State} {hs : List Handle} {ts : List Tree} (h : Forest s (presentSyms s.freq) hs ts)
  (hn : s.nnodes = (presentSyms s.freq).length)
include h hn

theorem Forest.leafAt_root {n : Handle} {T : Tree} (hT : TreeOf s n T) (hw : T.weighted s.freq) :
    (∃ e, LeafAt s n e) ∧ leafOf s.freq (s.symAt n) = T := by
  obtain ⟨e, he, hleaf, -⟩ := hT.root
  obtain ⟨hlt, hread⟩ := State.readNode_eq_some.mp he
  obtain ⟨e', hread', hleaf', hsym⟩ := h.leaf n.toNat (hn ▸ hlt)
  obtain rfl : e = e' := by simpa [hread] using hread'
  have hsymAt : s.symAt n = e.sym := by simp [State.symAt, he]
  cases T with
  | node w l r => simp [Tree.isLeaf, hleaf'] at hleaf
  | leaf x w =>
    obtain ⟨e', he', -, rfl, rfl⟩ := hT
    obtain rfl : e = e' := by simpa [he] using he'
    have hw : e.weight = s.freq[symIdx e.sym] := hw
    exact ⟨⟨e, hread, hleaf', hsym, hsymAt, hw, by simp [State.weightAt, he]⟩, by rw [hsymAt, leafOf, ← hw]⟩

/-- With as many entries as symbols every tree is a leaf. -/
theorem Forest.all_leaves : (∀ n ∈ hs, ∃ e, LeafAt s n e) ∧ ts = hs.map fun n => leafOf s.freq (s.symAt n) := by
  have hts := (List.forall₂_and_left (p := fun T => T.weighted s.freq) _ _).mpr ⟨h.weights, h.trees.flip⟩
  obtain ⟨hleaf, heq⟩ := (List.forall₂_and_left _ _).mp 
    (hts.flip.imp fun n T (hT : T.weighted s.freq ∧ TreeOf s n T) => h.leafAt_root hn hT.2 hT.1)
  rw [← List.forall₂_map_left_iff (R := Eq), List.forall₂_eq_eq_eq] at heq
  exact ⟨hleaf, heq.symm⟩

theorem Forest.symAt_perm : (hs.map s.symAt).Perm (presentSyms s.freq) := by
  have hsyms := h.symbols
  rw [(h.all_leaves hn).2, List.flatMap_map] at hsyms
  rw [List.map_eq_flatMap]
  exact hsyms

theorem Forest.leaves_perm : ts.Perm ((presentSyms s.freq).map (leafOf s.freq)) := by
  have hmap := (h.symAt_perm hn).map (leafOf s.freq)
  rw [List.map_map] at hmap
  rw [(h.all_leaves hn).2]
  exact hmap

/-- The leaf of the present symbol with the number `n` is the entry `n`. -/
theorem Forest.leafAt_symbol {n : Nat} {x : Byte} (hx : (presentSyms s.freq)[n]? = some x) :
    ∃ m e, m.toNat = n ∧ LeafAt s m e ∧ e.sym = x := by
  obtain ⟨m, hm, rfl⟩ := List.mem_map.mp ((h.symAt_perm hn).mem_iff.mpr (List.mem_of_getElem? hx))
  obtain ⟨e, he⟩ := (h.all_leaves hn).1 m hm
  have hsym := he.sym
  rw [← he.symAt] at hsym
  refine ⟨m, e, ?_, he, he.symAt.symm⟩
  obtain hlt | heq | hlt := Nat.lt_trichotomy m.toNat n
  · exact absurd (toNat_lt_of_getElem? hsym hx hlt) (Nat.lt_irrefl _)
  · exact heq
  · exact absurd (toNat_lt_of_getElem? hx hsym hlt) (Nat.lt_irrefl _)

/-- A list in the order of handles among equal weights is in the order of symbols among them (R85). -/
theorem Forest.pairwise_leaves (ho : hs.Pairwise (Before s)) :
    ts.Pairwise fun a b =>
      a.weight < b.weight ∨ (a.weight = b.weight ∧ ∃ x y, a.syms = [x] ∧ b.syms = [y] ∧ x.toNat < y.toNat) := by
  obtain ⟨hleaf, rfl⟩ := h.all_leaves hn
  refine List.pairwise_map.mpr (ho.imp_of_mem fun {a b} ha hb hab => ?_)
  obtain ⟨ea, hea⟩ := hleaf a ha
  obtain ⟨eb, heb⟩ := hleaf b hb
  rw [Before, hea.weightAt, heb.weightAt, hea.weight, heb.weight] at hab
  rw [hea.symAt, heb.symAt]
  exact hab.imp_right fun ⟨hw, hlt⟩ => ⟨hw, ea.sym, eb.sym, rfl, rfl, toNat_lt_of_getElem? hea.sym heb.sym hlt⟩

end

theorem exec_list {s : State} (hp : s.phase = .count) : exec .list s = (listBody s).toOutcome :=
  exec_of_legal (by simp) rfl ⟨by simp [legalPhases, hp], trivial⟩

/-- LIST with a symbol present: what it makes of the list, and what it leaves alone (R84, R85). -/
theorem listBody_leaves {s : State} (h : presentSyms s.freq ≠ []) :
    ∃ t hs ts, listBody s = .go () t ∧ t.list? = some ts ∧ Forest t (presentSyms t.freq) hs ts ∧ hs.Pairwise (Before t) ∧
      t.nsym = (presentSyms s.freq).length ∧ t.nlist = t.nsym ∧ t.nnodes = t.nsym ∧ Beyond s t ∧
      t = { s with node := t.node, nnodes := t.nnodes, head := t.head, nlist := t.nlist, nsym := t.nsym, phase := .listed } := by
  obtain ⟨u, hu, hnlist, hbody⟩ := listBody_eq_go h
  have hframe := listLoop_frame hu
  have hbeyond := listBody_beyond s
  rw [hbody] at hbeyond
  obtain ⟨hs, ho⟩ := listLoop_keeps (P := fun s => ∃ hs, Ordered s hs) (fun _ _ _ _ ⟨_, ho⟩ hv => ho.listLeaf hv)
    ⟨[], ordered_empty rfl rfl⟩ hu
  obtain ⟨t, hs', ts, ht, -, hlist⟩ | ⟨t, ht, -⟩ := listBody_spec s
  case inr => simp [hbody] at ht
  obtain rfl : { u with nsym := u.nlist, phase := .listed } = t := by simpa [hbody] using ht
  have hot : Ordered { u with nsym := u.nlist, phase := .listed } hs :=
    ⟨ho.cap, ho.linked.congr fun _ _ => rfl, ho.length, ho.order⟩
  obtain rfl : hs = hs' := by simpa [hot.chain] using hlist.chain
  have hnodes : u.nnodes = u.nlist := hot.length.symm.trans hlist.length
  refine ⟨_, hs, ts, hbody, hlist.list, ((listedBy_iff hot.cap).mp hlist).1.forest, hot.order, hnlist, rfl, hnodes, hbeyond, ?_⟩
  rw [hframe]

end Sys2Proof.Machine

namespace Sys2Proof.Safety

open Sys2Proof Sys2Proof.Machine

/-- Settles O16: LIST's list is a forest of leaves whose handles are the places of their symbols, and insertion behind the
entries that are not heavier keeps equal weights in the order of the handles. -/
theorem listSortsTheLeaves : Obligations.ListSortsTheLeaves := by
  refine ⟨fun s hp ⟨x, hx⟩ => ?_, fun s hp hz => ?_, onlyLegalIn rfl⟩
  · obtain ⟨t, hs, ts, ht, hlist, hforest, horder, hnsym, hnlist, hnnodes, hbeyond, hframe⟩ :=
      listBody_leaves (List.ne_nil_of_mem (mem_presentSyms.mpr hx))
    have hfreq : t.freq = s.freq := by rw [hframe]
    have hphase : t.phase = .listed := by rw [hframe]
    have hn : t.nnodes = (presentSyms t.freq).length := by rw [hnnodes, hnsym, hfreq]
    rw [exec_list hp, ht, ← hfreq]
    refine ⟨t, ts, rfl, hlist, hforest.leaves_perm hn, hforest.pairwise_leaves hn horder, fun n x hx => ?_,
      hfreq ▸ hnsym, hnlist, hnnodes, hphase, hbeyond, ?_⟩
    · obtain ⟨m, e, rfl, he, rfl⟩ := hforest.leafAt_symbol hn hx
      have hchildren : e.left = Config.nil ∧ e.right = Config.nil := by simpa [NodeEntry.isLeaf] using he.isLeaf
      exact ⟨e, he.read, rfl, he.weight, congrArg BitVec.toNat hchildren.1, congrArg BitVec.toNat hchildren.2⟩
    · rw [hphase, hfreq]
      exact hframe
  · have hzeros : ∀ w ∈ s.freq.toList, w = 0 := fun w hw => by
      obtain ⟨x, rfl⟩ := exists_symbol_of_mem hw
      exact hz x
    rw [exec_list hp, listBody_of_zeros hzeros]
    exact ⟨_, rfl, rfl, rfl, rfl, rfl, rfl, rfl, rfl, rfl⟩

end Sys2Proof.Safety

/-! PROOFS. MERGE on any list that ends, and TREE as its merges and one finalization (41_tree_builder.md R90, R91). -/

namespace Sys2Proof.Machine

open Sys2Proof Sys2Proof.Safety

/-! ## A list that ends -/

/-- From one handle there is one list to NIL. -/
theorem Linked.unique {s : State} (hc : s.nnodes ≤ Config.nodeCap) {h : Handle} {xs ys : List Handle}
    (hx : Linked s h xs Config.nil) (hy : Linked s h ys Config.nil) : xs = ys := by
  have hxs := (chainAt_eq_some hc (fuel := xs.length + ys.length + 1)).mpr ⟨hx, by omega⟩
  have hys := (chainAt_eq_some hc (fuel := xs.length + ys.length + 1)).mpr ⟨hy, by omega⟩
  exact Option.some.inj (hxs.symm.trans hys)

/-- A list that ends meets no handle twice: from there on it would be the same list again. -/
theorem Linked.nodup {s : State} (hc : s.nnodes ≤ Config.nodeCap) {h : Handle} {hs : List Handle}
    (hl : Linked s h hs Config.nil) : hs.Nodup := by
  induction hs generalizing h with
  | nil => exact .nil
  | cons x xs ih =>
    have hx : Linked s x (x :: xs) Config.nil := ⟨rfl, hl.2⟩
    obtain ⟨-, e, -, hxs⟩ := hl
    refine List.nodup_cons.mpr ⟨fun hm => ?_, ih hxs⟩
    obtain ⟨l, r, rfl⟩ := List.append_of_mem hm
    obtain ⟨k, -, hk⟩ := linked_append.mp hxs
    obtain rfl : k = x := hk.1
    have hlen := congrArg List.length (hx.unique hc hk)
    simp only [List.length_cons, List.length_append] at hlen
    omega

/-- Where two tests agree on a list they cut it at the same place. -/
theorem takeWhile_dropWhile_congr {α : Type} {p q : α → Bool} {l : List α} (h : ∀ x ∈ l, p x = q x) :
    l.takeWhile p = l.takeWhile q ∧ l.dropWhile p = l.dropWhile q := by
  induction l with
  | nil => exact ⟨rfl, rfl⟩
  | cons x xs ih =>
    obtain ⟨ht, hd⟩ := ih fun y hy => h y (.tail _ hy)
    simp only [List.takeWhile_cons, List.dropWhile_cons, h x (.head _), ht, hd, and_self]

/-- A handle off the list is not the last one passed. -/
theorem getLast?_takeWhile_toNat_ne {p : Handle → Bool} {hs : List Handle} {n : Handle} (hn : n ∉ hs) :
    (hs.takeWhile p).getLast?.map BitVec.toNat ≠ some n.toNat := fun h => by
  obtain ⟨x, hx, hxn⟩ := Option.map_eq_some_iff.mp h
  obtain rfl := BitVec.eq_of_toNat_eq hxn
  exact hn ((List.takeWhile_prefix p).subset (List.mem_of_getLast? hx))

/-- An insertion writes two entries only: that of the node put in, and that of the node before it (R84, R90). -/
theorem insertSorted_read_other {s t : State} {n : Handle} {pass : Nat → Bool} {hs : List Handle}
    (hc : s.nnodes ≤ Config.nodeCap) (hl : Linked s s.head hs Config.nil) (hlen : hs.length < walkFuel)
    (ht : s.insertSorted n pass = .go () t) {k : Nat} (hn : k ≠ n.toNat)
    (hprev : (hs.takeWhile fun h => pass (s.weightAt h)).getLast?.map BitVec.toNat ≠ some k) :
    t.node.read k = s.node.read k := by
  rw [State.insertSorted, State.findSlot_chain pass ((chainAt_eq_some hc).mpr ⟨hl, hlen⟩), Flow.bind_go] at ht
  obtain ⟨⟨⟩, u, hu, hk⟩ := Flow.bind_eq_go.mp ht
  obtain ⟨-, -, hread, -⟩ := State.setNext_frame hu
  split at hk
  · cases hk
    exact hread k hn
  · rename_i hne
    obtain ⟨-, -, hread', -⟩ := State.setNext_frame hk
    refine (hread' k fun hkp => ?_).trans (hread k hn)
    cases hlast : (hs.takeWhile fun h => pass (s.weightAt h)).getLast? with
    | none => exact hne (by rw [hlast, Option.getD_none])
    | some p => exact hprev (by rw [hlast, hkp, hlast, Option.getD_some, Option.map_some])

/-! ## MERGE -/

/-- MERGE writes entries, NNODES and the list's registers only (R90). -/
theorem mergeStep_frame {s t : State} (h : mergeStep s = .go () t) :
    t = { s with node := t.node, nnodes := t.nnodes, head := t.head, nlist := s.nlist - 1 } := by
  obtain ⟨ea, u, ha, h⟩ := Flow.bind_eq_go.mp h
  obtain ⟨-, rfl⟩ := State.needNode_eq_go.mp ha
  obtain ⟨eb, v, hb, h⟩ := Flow.bind_eq_go.mp h
  obtain ⟨-, rfl⟩ := State.needNode_eq_go.mp hb
  obtain ⟨p, w, hp, h⟩ := Flow.bind_eq_go.mp h
  obtain ⟨-, rfl, rfl⟩ := State.takeHandle_eq_go.mp hp
  obtain ⟨⟨⟩, x, hx, h⟩ := Flow.bind_eq_go.mp h
  obtain ⟨⟨⟩, y, hy, h⟩ := Flow.bind_eq_go.mp h
  obtain ⟨⟨⟩, z, hz, h⟩ := Flow.bind_eq_go.mp h
  cases h
  rw [(State.insertSorted_frame hz).1, (State.setNext_frame hy).1, (State.setNext_frame hx).1]
  rfl

/-- MERGE raises nothing. -/
theorem mergeStep_ne_ended {s t : State} : mergeStep s ≠ .ended t := by
  simp [mergeStep, State.setNext, Flow.bind_eq_ended, State.needNode_ne_ended, State.takeHandle_ne_ended,
    State.changeNode_ne_ended, State.insertSorted_ne_ended]

theorem exec_merge {s : State} (hp : s.phase = .listed) (h2 : 2 ≤ s.nlist) : exec .merge s = (mergeStep s).toOutcome :=
  exec_of_legal (by simp) rfl ⟨by simp [legalPhases, hp], h2⟩

section
variable {s : State} {a b : Handle} {ea eb : NodeEntry} (hroom : s.nnodes < Config.nodeCap) (ha : s.readNode a = some ea)
  (hb : s.readNode b = some eb) (hab : b ≠ a)
include hroom

/-- The entries before the parent goes on the list. -/
theorem joinHeads_read (n : Nat) :
    (s.joinHeads a b ea eb).node.read n = if n = b.toNat then some { eb with next := Config.nil } else
      if n = a.toNat then some { ea with next := Config.nil } else
        if n = s.nnodes then some (parentEntry (ea.weight + eb.weight) a b) else s.node.read n := by
  rw [State.joinHeads, State.putNode_node, Memory.read_write, State.putNode_node, Memory.read_write]
  exact congrArg _ (congrArg _ (withNew_read hroom n))

variable {rest : List Handle} (hrest : Linked s eb.next rest Config.nil) (hd : (a :: b :: rest).Nodup)
include hrest hd

/-- Behind the two first nodes the list is as before. -/
theorem linked_joinHeads : Linked (s.joinHeads a b ea eb) (s.joinHeads a b ea eb).head rest Config.nil := by
  have harest : a ∉ rest := fun h => (List.nodup_cons.mp hd).1 (.tail _ h)
  have hbrest : b ∉ rest := (List.nodup_cons.mp (List.nodup_cons.mp hd).2).1
  have hnew : Linked (s.withParent a b ea eb) eb.next rest Config.nil := hrest.congr fun x hx => by
    obtain ⟨e, he⟩ := hrest.read hx
    exact withNew_readNode_old hroom (State.readNode_eq_some.mp he).1
  exact (hnew.putNode_other _ harest).putNode_other _ hbrest

include ha hb hab

/-- MERGE on a list that ends (R90): where the parent goes, and which entries are written last. -/
theorem mergeStep_list (hhead : s.head = a) (hnext : ea.next = b) (hlen : rest.length < walkFuel) :
    ∃ t, mergeStep s = .go () t ∧ Keeps (s.joinHeads a b ea eb) t ∧ t.nnodes = s.nnodes + 1 ∧
      Linked t t.head (rest.takeWhile (fun h => s.weightAt h < ea.weight + eb.weight) ++ BitVec.ofNat 9 s.nnodes ::
        rest.dropWhile fun h => s.weightAt h < ea.weight + eb.weight) Config.nil ∧
      ∀ k, k ≠ s.nnodes →
        (rest.takeWhile fun h => s.weightAt h < ea.weight + eb.weight).getLast?.map BitVec.toNat ≠ some k →
        t.node.read k = (s.joinHeads a b ea eb).node.read k := by
  have hadds := adds_joinHeads hroom ha hb hab
  have hlinked := linked_joinHeads (ea := ea) hroom hrest hd
  obtain ⟨v, hv⟩ := hadds.readNode
  have hcap : (s.joinHeads a b ea eb).nnodes ≤ Config.nodeCap := hadds.nnodes.trans_le hroom
  have hfresh : BitVec.ofNat 9 s.nnodes ∉ rest := fun hm => by
    obtain ⟨e, he⟩ := hrest.read hm
    have hlt := (State.readNode_eq_some.mp he).1
    rw [handle_toNat hroom] at hlt
    exact Nat.lt_irrefl _ hlt
  have hweight : ∀ h ∈ rest, decide ((s.joinHeads a b ea eb).weightAt h < ea.weight + eb.weight) =
      decide (s.weightAt h < ea.weight + eb.weight) := fun h hm => by
    obtain ⟨e, he⟩ := hrest.read hm
    rw [hadds.keeps.weightAt he]
  obtain ⟨htake, hdrop⟩ := takeWhile_dropWhile_congr hweight
  obtain ⟨t, ht, hlt, -⟩ := insertSorted_spec (fun x => decide (x < ea.weight + eb.weight)) hcap hlinked
    (List.nodup_cons.mpr ⟨hfresh, hlinked.nodup hcap⟩) hlen hv
  obtain ⟨hkeep, hnn⟩ := Keeps.insertSorted ht
  rw [htake, hdrop] at hlt
  refine ⟨{ t with nlist := t.nlist - 1 }, ?_, ⟨hkeep.nnodes, hkeep.freq, hkeep.entry⟩, hnn.trans hadds.nnodes,
    hlt.congr fun _ _ => rfl, fun k hk hprev => ?_⟩
  · rw [mergeStep_eq hroom ha hb hab hhead hnext, ht, Flow.bind_go]
  · exact insertSorted_read_other hcap hlinked hlen ht (by rwa [handle_toNat hroom]) (by rwa [htake])

end

/-! ## TREE -/

/-- The state TREE leaves, `e` being the entry of the one node left in the list (R91). -/
def State.finalized (s : State) (e : NodeEntry) : State :=
  { s.putNode s.head { e with next := Config.nil } with root := s.head, head := Config.nil, degen := e.isLeaf, phase := .treed }

/-- TREE is its merges and one finalization (R91). -/
theorem treeBody_eq_go {s t : State} :
    treeBody s = .go () t ↔
      ∃ u e, mergeLoop s.nlist s = .go () u ∧ u.readNode u.head = some e ∧ t = u.finalized e := by
  constructor
  · intro h
    obtain ⟨⟨⟩, u, hu, h⟩ := Flow.bind_eq_go.mp h
    obtain ⟨⟨⟩, v, hv, h⟩ := Flow.bind_eq_go.mp h
    obtain ⟨e, he, rfl⟩ := State.changeNode_eq_go.mp hv
    obtain ⟨e', w, hw, h⟩ := Flow.bind_eq_go.mp h
    obtain ⟨hread, rfl⟩ := State.needNode_eq_go.mp hw
    obtain rfl : { e with next := Config.nil } = e' :=
      Option.some.inj ((readNode_putNode_same (s := u) _ he).symm.trans hread)
    cases h
    exact ⟨u, e, hu, he, rfl⟩
  · rintro ⟨u, e, hu, he, rfl⟩
    have hset := setNext_eq (s := { u with root := u.head }) he Config.nil
    have hread := readNode_putNode_same { e with next := Config.nil } he
    exact Flow.bind_eq_go.mpr ⟨(), u, hu, Flow.bind_eq_go.mpr ⟨(), _, hset, Flow.bind_eq_go.mpr
      ⟨_, _, State.needNode_some hread, rfl⟩⟩⟩

theorem mergeLoop_frame {fuel : Nat} {s t : State} (h : mergeLoop fuel s = .go () t) :
    t = { s with node := t.node, nnodes := t.nnodes, head := t.head, nlist := t.nlist } := by
  induction fuel generalizing s with
  | zero =>
    cases h
    rfl
  | succ fuel ih =>
    rw [mergeLoop] at h
    split at h
    · obtain ⟨⟨⟩, u, hu, hk⟩ := Flow.bind_eq_go.mp h
      rw [ih hk, mergeStep_frame hu]
    · cases h
      rfl

/-- TREE writes entries, NNODES, the list's registers, ROOT and DEGEN only (R91). -/
theorem treeBody_frame {s t : State} (h : treeBody s = .go () t) :
    t = { s with node := t.node, nnodes := t.nnodes, head := t.head, nlist := t.nlist, root := t.root, degen := t.degen,
                 phase := .treed } := by
  obtain ⟨u, e, hu, -, rfl⟩ := treeBody_eq_go.mp h
  rw [mergeLoop_frame hu]
  rfl

/-- A MERGE is the first turn of TREE's loop (R91). -/
theorem treeBody_mergeStep {s t : State} (h2 : 2 ≤ s.nlist) (h : mergeStep s = .go () t) : treeBody s = treeBody t := by
  have hloop : mergeLoop s.nlist s = mergeLoop t.nlist t := by
    obtain ⟨n, hn⟩ : ∃ n, s.nlist = n + 1 := ⟨s.nlist - 1, by omega⟩
    have ht : t.nlist = n := by rw [mergeStep_frame h, hn, Nat.add_sub_cancel]
    rw [hn, mergeLoop, if_pos (show s.nlist > 1 from h2), h, Flow.bind_go, ht]
  rw [treeBody, treeBody, hloop]

theorem exec_tree {s : State} (hp : s.phase = .listed) : exec .tree s = (treeBody s).toOutcome :=
  exec_of_legal (by simp) rfl ⟨by simp [legalPhases, hp], trivial⟩

/-! ## Every entry is in a tree of the forest -/

/-- The tree at a parent has the trees of its two children. -/
theorem TreeOf.of_parent {s : State} {p : Handle} {e : NodeEntry} {T : Tree} (hT : TreeOf s p T) (he : s.readNode p = some e)
    (hparent : e.isLeaf = false) : ∃ w l r, T = .node w l r ∧ TreeOf s e.left l ∧ TreeOf s e.right r := by
  obtain ⟨e', he', hleaf, -⟩ := hT.root
  obtain rfl : e = e' := Option.some.inj (he.symm.trans he')
  cases T with
  | leaf x w => simp [Tree.isLeaf, hparent] at hleaf
  | node w l r =>
    obtain ⟨e', he', -, -, hl, hr⟩ := hT
    obtain rfl : e = e' := Option.some.inj (he.symm.trans he')
    exact ⟨w, l, r, rfl, hl, hr⟩

section
variable {s : State} {xs : List Byte} {hs : List Handle} {ts : List Tree} (h : Forest s xs hs ts)
include h

/-- Every parent has two children. -/
theorem Forest.childHandles_length : s.childHandles.length = 2 * (s.nnodes - xs.length) := by
  have hcount : ∀ n, n ≤ s.nnodes →
      ((List.range n).flatMap s.node.childrenAt).length = 2 * (n - xs.length) := fun n hn => by
    induction n with
    | zero => simp
    | succ n ih =>
      rw [List.range_succ, List.flatMap_append, List.length_append, ih (by omega), List.flatMap_singleton]
      by_cases hlt : n < xs.length
      · obtain ⟨e, he, hleaf, -⟩ := h.leaf n hlt
        rw [Memory.childrenAt_of_read he, NodeEntry.children, if_pos hleaf, List.length_nil]
        omega
      · obtain ⟨e, he, hparent⟩ := h.parent n hn
        rw [Memory.childrenAt_of_read he, NodeEntry.children, hparent (by omega)]
        simp only [Bool.false_eq_true, if_false, List.length_cons, List.length_nil]
        omega
  rw [State.childHandles_eq, hcount _ (Nat.le_refl _)]

/-- The roots and the children are as many as the entries and no two are the same, so every entry is one of them. -/
theorem Forest.mem_roots_or_children {n : Nat} (hn : n < s.nnodes) : ∃ k ∈ hs ++ s.childHandles, k.toNat = n := by
  have hnodup := h.owned.map BitVec.toNat_injective
  have hsub : (hs ++ s.childHandles).map BitVec.toNat ⊆ List.range s.nnodes := fun m hm => by
    obtain ⟨k, hk, rfl⟩ := List.mem_map.mp hm
    obtain hk | hk := List.mem_append.mp hk
    · obtain ⟨e, he⟩ := h.root hk
      exact List.mem_range.mpr (State.readNode_eq_some.mp he).1
    · exact List.mem_range.mpr (childHandles_lt h.built hk)
  have hperm := (hnodup.subperm hsub).perm_of_length_le (by
    have hnodes := h.nodes
    have hle := h.length_le
    rw [List.length_range, List.length_map, List.length_append, h.childHandles_length]
    omega)
  exact List.mem_map.mp (hperm.mem_iff.mpr (List.mem_range.mpr hn))

theorem Forest.treeOf_root {k : Handle} (hk : k ∈ hs) : ∃ T ∈ ts, TreeOf s k T := by
  obtain ⟨i, hi, rfl⟩ := List.getElem_of_mem hk
  obtain ⟨hlen, hget⟩ := List.forall₂_iff_get.mp h.trees
  exact ⟨ts[i]'(hlen ▸ hi), List.getElem_mem _, hget i hi (hlen ▸ hi)⟩

/-- A tree of the forest weighs no more than all the counts (R94). -/
theorem Forest.weight_le {T : Tree} (hT : T ∈ ts) : T.weight ≤ countSum s.freq xs := by
  have hsum := countSum_perm s.freq h.symbols
  obtain ⟨l, r, rfl⟩ := List.append_of_mem hT
  rw [List.flatMap_append, List.flatMap_cons, countSum_append, countSum_append,
    ← Tree.weight_eq_countSum (h.weights T hT)] at hsum
  omega

/-- A child has a parent, made after it (R93). -/
theorem Forest.exists_parent {k : Handle} (hk : k ∈ s.childHandles) :
    ∃ p e, s.readNode p = some e ∧ e.isLeaf = false ∧ (k = e.left ∨ k = e.right) ∧ k.toNat < p.toNat := by
  rw [State.childHandles_eq, List.mem_flatMap] at hk
  obtain ⟨m, hm, hk⟩ := hk
  have hm := List.mem_range.mp hm
  obtain ⟨p, -, rfl⟩ := h.mem_roots_or_children hm
  obtain ⟨e, he, hbuilt⟩ := h.built _ hm
  rw [Memory.childrenAt_of_read he, NodeEntry.children] at hk
  split at hk
  · cases hk
  · rename_i hparent
    obtain ⟨hleft, hright⟩ := hbuilt.resolve_left hparent
    have hside : k = e.left ∨ k = e.right := by simpa using hk
    have hlt : k.toNat < p.toNat := by obtain rfl | rfl := hside <;> assumption
    exact ⟨p, e, State.readNode_eq_some.mpr ⟨hm, he⟩, Bool.eq_false_iff.mpr hparent, hside, hlt⟩

/-- Under every entry there is a tree with the weights of R94, no heavier than all the counts: from the last entry down, an entry
is a root or the child of a later one. -/
theorem Forest.treeOf {k : Handle} (hk : k.toNat < s.nnodes) :
    ∃ T, TreeOf s k T ∧ T.weighted s.freq ∧ T.weight ≤ countSum s.freq xs := by
  induction hd : s.nnodes - k.toNat using Nat.strong_induction_on generalizing k with
  | _ d ih =>
    obtain ⟨k', hmem, hk'⟩ := h.mem_roots_or_children hk
    obtain rfl := BitVec.toNat_injective hk'
    obtain hroot | hchild := List.mem_append.mp hmem
    · obtain ⟨T, hT, hof⟩ := h.treeOf_root hroot
      exact ⟨T, hof, h.weights T hT, h.weight_le hT⟩
    · obtain ⟨p, e, he, hparent, hside, hlt⟩ := h.exists_parent hchild
      obtain ⟨T, hof, hw, hle⟩ := ih _ (by omega) (State.readNode_eq_some.mp he).1 rfl
      obtain ⟨w, l, r, rfl, hl, hr⟩ := hof.of_parent he hparent
      obtain ⟨hsum, hwl, hwr⟩ := hw
      have hsum : w = countSum s.freq l.syms + countSum s.freq r.syms := hsum
      rw [Tree.weight, hsum, ← Tree.weight_eq_countSum hwl, ← Tree.weight_eq_countSum hwr] at hle
      obtain rfl | rfl := hside
      · exact ⟨l, hl, hwl, by omega⟩
      · exact ⟨r, hr, hwr, by omega⟩

/-- No entry weighs more than all the counts (R94). -/
theorem Forest.entry_weight_le : EveryNode s fun _ e => e.weight ≤ countSum s.freq xs := fun n hn => by
  obtain ⟨k, -, rfl⟩ := h.mem_roots_or_children hn
  obtain ⟨T, hT, -, hle⟩ := h.treeOf hn
  obtain ⟨e, he, -, hw⟩ := hT.root
  exact ⟨e, (State.readNode_eq_some.mp he).2, hw.trans_le hle⟩

end

/-- A tree with one symbol is a leaf. -/
theorem Tree.isLeaf_iff (T : Tree) : T.isLeaf = true ↔ T.syms.length = 1 := by
  cases T with
  | leaf x w => simp [Tree.isLeaf, Tree.syms]
  | node w l r =>
    have hl := l.syms_length_pos
    have hr := r.syms_length_pos
    simp only [Tree.isLeaf, Tree.syms, List.length_append, Bool.false_eq_true, false_iff]
    omega

end Sys2Proof.Machine

namespace Sys2Proof.Safety

open Sys2Proof Sys2Proof.Machine

/-- The finished tree as a forest of one. -/
theorem BuiltBy.forest {s : State} {T : Tree} (h : BuiltBy s T) : Forest s (presentSyms s.freq) [s.root] [T] where
  nodes := h.leaves.count ▸ h.nodes
  trees := .cons h.treeOf.1 .nil
  built := h.built
  leaf := h.leaves.count ▸ h.leaves.leaf
  parent := h.leaves.count ▸ h.leaves.parent
  owned := h.owned
  symbols := h.trees.symbols
  weights := h.trees.weights

theorem BuiltBy.syms_perm {s : State} {T : Tree} (h : BuiltBy s T) : T.syms.Perm (presentSyms s.freq) := by
  simpa using h.trees.symbols

/-- The entries of a finished tree: unlinked, no heavier than TOTAL may be, the leaves first in symbol order (R91, R93, R94). -/
theorem BuiltBy.everyNode {s : State} {T : Tree} (h : BuiltBy s T) (hcounts : CountsOk s) :
    EveryNode s fun n e => e.next.toNat = 511 ∧ e.weight ≤ 2 ^ s.cfg.cw - 1 ∧
      ((∃ x, (presentSyms s.freq)[n]? = some x ∧ e.sym = x ∧ e.isLeaf = true) ∨
        (s.nsym ≤ n ∧ e.left.toNat < n ∧ e.right.toNat < n)) := fun n hn => by
  obtain ⟨e, he, hweight⟩ := h.forest.entry_weight_le n hn
  rw [countSum_presentSyms, ← hcounts.sum] at hweight
  obtain ⟨e', he', hnext⟩ := h.unlinked n hn
  obtain rfl : e = e' := Option.some.inj (he.symm.trans he')
  refine ⟨e, he, congrArg BitVec.toNat hnext, hweight.trans hcounts.fits, ?_⟩
  by_cases hlt : n < s.nsym
  · obtain ⟨e', he', hleaf, hsym⟩ := h.leaves.leaf n hlt
    obtain rfl : e = e' := Option.some.inj (he.symm.trans he')
    exact .inl ⟨e.sym, hsym, rfl, hleaf⟩
  · obtain ⟨e', he', hparent⟩ := h.leaves.parent n hn
    obtain rfl : e = e' := Option.some.inj (he.symm.trans he')
    obtain ⟨e', he', hbuilt⟩ := h.built n hn
    obtain rfl : e = e' := Option.some.inj (he.symm.trans he')
    exact .inr ⟨by omega, hbuilt.resolve_left (by rw [hparent (by omega)]; exact Bool.false_ne_true)⟩

/-- Settles O17: a list that ends has no handle twice, so the join writes `a`, `b` and the new parent apart from each other, and
the insertion after it writes the parent and the node before it. -/
theorem mergeJoinsTheTwoFirst : Obligations.MergeJoinsTheTwoFirst := by
  refine ⟨fun s a b rest hp hchain h2 hroom => ?_, fun s hp h2 => ?_, onlyLegalIn rfl⟩
  · have hcap : s.nnodes ≤ Config.nodeCap := Nat.le_of_lt hroom
    obtain ⟨hl, hlen⟩ := (chainAt_eq_some hcap).mp hchain
    have hd := hl.nodup hcap
    have hab : b ≠ a := by rintro rfl; simp at hd
    obtain ⟨hhead, ea, ha, hnext, eb, hb, hrest⟩ := hl
    have hlen : rest.length + 2 < walkFuel := hlen
    obtain ⟨t, ht, hkeep, hnn, hlinked, hother⟩ := mergeStep_list hroom ha hb hab hrest hd hhead hnext (by omega)
    have hadds := (adds_joinHeads hroom ha hb hab).keeps_after hkeep hnn
    have hframe := mergeStep_frame ht
    have hgrows := mergeStep_grows s
    rw [ht] at hgrows
    have hnl : t.nlist = s.nlist - 1 := by rw [hframe]
    have hwa : s.weightAt a = ea.weight := by simp [State.weightAt, ha]
    have hwb : s.weightAt b = eb.weight := by simp [State.weightAt, hb]
    obtain ⟨halt, hreada⟩ := State.readNode_eq_some.mp ha
    obtain ⟨hblt, hreadb⟩ := State.readNode_eq_some.mp hb
    obtain ⟨harest, hbrest⟩ : a ∉ rest ∧ b ∉ rest :=
      ⟨fun h => (List.nodup_cons.mp hd).1 (.tail _ h), (List.nodup_cons.mp (List.nodup_cons.mp hd).2).1⟩
    obtain ⟨v, hparent⟩ := hadds.entry
    rw [exec_merge hp h2, ht, hwa, hwb]
    refine ⟨t, rfl, (chainAt_eq_some (hnn.trans_le hroom)).mpr ⟨hlinked, ?_⟩, ⟨_, hparent, rfl, rfl, rfl, rfl⟩,
      ⟨ea, eb, hreada, ?_, hreadb, ?_⟩, fun n e hn he => ?_, fun n hn hna hnb hprev => ?_, hnl, hnn, ?_⟩
    · rw [(insert_perm _ _ rest).length_eq, List.length_cons]
      omega
    · rw [hother _ (Nat.ne_of_lt halt) (getLast?_takeWhile_toNat_ne harest), joinHeads_read hroom,
        if_neg fun h => hab (BitVec.eq_of_toNat_eq h.symm), if_pos rfl]
      rfl
    · rw [hother _ (Nat.ne_of_lt hblt) (getLast?_takeWhile_toNat_ne hbrest), joinHeads_read hroom, if_pos rfl]
      rfl
    · by_cases hlt : n < s.nnodes
      · exact hadds.keeps.entry n hlt e he
      · exact ⟨e.next, by rw [hgrows.beyond n (by omega), he]⟩
    · rw [hother n hn hprev, joinHeads_read hroom, if_neg hnb, if_neg hna, if_neg hn]
    · rw [hnl]
      exact hframe
  · refine ⟨_, exec_of_not_legal rfl (by simp [hp]) fun hl => ?_, rfl, ?_, rfl, rfl⟩
    · exact absurd hl.2 (by simpa [legalExtra] using h2)
    · rw [State.raise_errinfo, wordInfo_toNat, hp]
      rfl

/-- Settles O18: TREE comes to a state of `BuiltBy` (R93), in which every entry is in the tree of ROOT, so that no weight passes
TOTAL (R94). -/
theorem treeFinalizesOneTree : Obligations.TreeFinalizesOneTree := by
  intro s hs hp
  obtain ⟨hs', ts, hlist⟩ := hs.listed hp
  obtain ⟨t, T, ht, hphase, hT⟩ := treeBody_spec hs.memory.cap hlist
  have hframe := treeBody_frame ht
  have hgrows := treeBody_grows s
  rw [ht] at hgrows
  have hcounts : CountsOk t := ((treeBody_within s).of_go ht).1.counts hs.counts
  have hfreq : t.freq = s.freq := by rw [hframe]
  have htotal : t.total = s.total := by rw [hframe]
  have hnsym : t.nsym = s.nsym := by rw [hframe]
  have hcfg : t.cfg = s.cfg := by rw [hframe]
  have hperm := hT.syms_perm
  have hweighted : T.weighted t.freq := hT.trees.weights T (.head _)
  have hweight : T.weight = s.total := by
    rw [Tree.weight_eq_countSum hweighted, countSum_perm t.freq hperm, countSum_presentSyms, ← hcounts.sum, htotal]
  have hdegen : t.degen = true ↔ s.nsym = 1 := by
    rw [hT.degen, Tree.isLeaf_iff, hperm.length_eq, ← hT.leaves.count, hnsym]
  have hnodes := hT.nodes
  have hroot := hT.root
  have heach := hT.everyNode hcounts
  rw [hfreq] at hweighted hperm
  rw [hfreq, hnsym, hcfg] at heach
  rw [hnsym] at hnodes
  refine ⟨t, T, by rw [exec_tree hp, ht]; rfl, hT.tree, hweight, hweighted, hperm, hnodes, by omega, hT.nlist,
    congrArg BitVec.toNat hT.head, hT.degen, hdegen, hphase, heach, hgrows.beyond, ?_⟩
  rw [hphase]
  exact hframe

/-- Settles O19: a MERGE is the first turn of TREE's loop, and with one node left the loop has no turn. -/
theorem treeMergesUntilOneNodeRemains : Obligations.TreeMergesUntilOneNodeRemains := by
  refine ⟨onlyLegalIn rfl, fun s t hp h2 hm => ?_, fun s e hp h1 he => ?_⟩
  · rw [exec_merge hp h2] at hm
    have ht : mergeStep s = .go () t := (Flow.toOutcome_eq_next.mp hm).resolve_right mergeStep_ne_ended
    have hphase : t.phase = .listed := by rw [mergeStep_frame ht, hp]
    rw [exec_tree hp, exec_tree hphase, treeBody_mergeStep h2 ht]
  · have hloop : mergeLoop s.nlist s = .go () s := by rw [h1]; simp [mergeLoop, h1]
    rw [exec_tree hp, treeBody_eq_go.mpr ⟨s, e, hloop, he, rfl⟩]
    exact ⟨_, rfl, rfl, rfl, rfl, rfl, Memory.read_write_same _ _ _, fun n hn => Memory.read_write_other _ _ hn, rfl⟩

end Sys2Proof.Safety

/-! PROOFS. CODES: the path of each leaf as its code, and no path the beginning of another (42_code_table.md R100, R102, R103). -/

namespace Sys2Proof.Machine

open Sys2Proof Sys2Proof.Safety

/-! ## The paths of a tree -/

/-- Every leaf has one path. -/
theorem Tree.paths_fst (T : Tree) : T.paths.map Prod.fst = T.syms := by
  induction T with
  | leaf x w => rfl
  | node w l r ihl ihr =>
    have hbranch (b : Bool) (ps : List (Byte × Bits)) : (ps.map fun p => (p.1, b :: p.2)).map Prod.fst = ps.map Prod.fst := by
      rw [List.map_map]
      rfl
    rw [Tree.paths, Tree.syms, List.map_append, hbranch, hbranch, ihl, ihr]

/-- The paths of a node begin with the branch taken. -/
theorem Tree.mem_paths_node {w : Nat} {l r : Tree} {p : Byte × Bits} :
    p ∈ (Tree.node w l r).paths ↔ (∃ q ∈ l.paths, p = (q.1, false :: q.2)) ∨ ∃ q ∈ r.paths, p = (q.1, true :: q.2) := by
  simp only [Tree.paths, List.mem_append, List.mem_map, eq_comm]

/-- No path is the beginning of another (R102). -/
theorem Tree.eq_of_path_prefix {T : Tree} {p q : Byte × Bits} (hp : p ∈ T.paths) (hq : q ∈ T.paths) (h : p.2 <+: q.2) :
    p = q := by
  induction T generalizing p q with
  | leaf x w => exact (List.mem_singleton.mp hp).trans (List.mem_singleton.mp hq).symm
  | node w l r ihl ihr =>
    obtain ⟨p', hp', rfl⟩ | ⟨p', hp', rfl⟩ := Tree.mem_paths_node.mp hp <;>
      obtain ⟨q', hq', rfl⟩ | ⟨q', hq', rfl⟩ := Tree.mem_paths_node.mp hq <;>
        obtain ⟨hbranch, h⟩ := List.cons_prefix_cons.mp h
    · rw [ihl hp' hq' h]
    · exact absurd hbranch Bool.false_ne_true
    · exact absurd hbranch.symm Bool.false_ne_true
    · rw [ihr hp' hq' h]

/-- Only a tree of one node has an empty path. -/
theorem Tree.path_ne_nil {T : Tree} (hT : T.isLeaf = false) {p : Byte × Bits} (hp : p ∈ T.paths) : p.2 ≠ [] := by
  cases T with
  | leaf x w => exact absurd hT.symm Bool.false_ne_true
  | node w l r => obtain ⟨q, -, rfl⟩ | ⟨q, -, rfl⟩ := Tree.mem_paths_node.mp hp <;> exact List.cons_ne_nil _ _

/-! ## The code table of a tree -/

/-- A code table at a symbol after the code of one was written. -/
theorem getElem_set_symIdx (tab : Vector Bits 256) (x y : Byte) (b : Bits) :
    (tab.set (symIdx x) b)[symIdx y] = if x = y then b else tab[symIdx y] := by
  have hset : (tab.set (symIdx x) b)[symIdx y] = if (symIdx x).val = (symIdx y).val then b else tab[symIdx y] :=
    Vector.getElem_set ..
  have hidx : (symIdx x).val = (symIdx y).val ↔ x = y := BitVec.toNat_inj
  simp only [hset, hidx]

theorem writePaths_of_not_mem {path : Bits} {ps : List (Byte × Bits)} {x : Byte} (hx : x ∉ ps.map Prod.fst)
    (tab : Vector Bits 256) : (writePaths path ps tab)[symIdx x] = tab[symIdx x] := by
  induction ps generalizing tab with
  | nil => rfl
  | cons q ps ih =>
    obtain ⟨hq, hps⟩ := List.ne_and_not_mem_of_not_mem_cons hx
    exact (ih hps _).trans ((getElem_set_symIdx ..).trans (if_neg hq.symm))

theorem writePaths_of_mem {path : Bits} {ps : List (Byte × Bits)} (hd : (ps.map Prod.fst).Nodup) {p : Byte × Bits}
    (hp : p ∈ ps) (tab : Vector Bits 256) : (writePaths path ps tab)[symIdx p.1] = path ++ p.2 := by
  induction ps generalizing tab with
  | nil => exact absurd hp List.not_mem_nil
  | cons q ps ih =>
    obtain ⟨hq, hps⟩ := List.nodup_cons.mp hd
    obtain rfl | hp := List.mem_cons.mp hp
    · exact (writePaths_of_not_mem hq _).trans ((getElem_set_symIdx ..).trans (if_pos rfl))
    · exact ih hps hp _

theorem Tree.codeTable_of_not_mem {T : Tree} {x : Byte} (hx : x ∉ T.syms) : T.codeTable[symIdx x] = [] :=
  (writePaths_of_not_mem (path := []) (T.paths_fst ▸ hx) _).trans (Vector.getElem_replicate ..)

theorem Tree.codeTable_of_mem {T : Tree} (hd : T.syms.Nodup) {p : Byte × Bits} (hp : p ∈ T.paths) :
    T.codeTable[symIdx p.1] = p.2 :=
  writePaths_of_mem (path := []) (T.paths_fst ▸ hd) hp _

/-- The code of a symbol of the tree is the path of its leaf. -/
theorem Tree.codeTable_mem_paths {T : Tree} (hd : T.syms.Nodup) {x : Byte} (hx : x ∈ T.syms) :
    (x, T.codeTable[symIdx x]) ∈ T.paths := by
  rw [← T.paths_fst] at hx
  obtain ⟨p, hp, rfl⟩ := List.mem_map.mp hx
  rwa [Tree.codeTable_of_mem hd hp]

/-- In a tree of more than one node exactly the symbols of the tree have a code. -/
theorem Tree.codeTable_ne_nil_iff {T : Tree} (hd : T.syms.Nodup) (hT : T.isLeaf = false) {x : Byte} :
    T.codeTable[symIdx x] ≠ [] ↔ x ∈ T.syms :=
  ⟨not_imp_comm.mp Tree.codeTable_of_not_mem, fun hx => Tree.path_ne_nil hT (Tree.codeTable_mem_paths hd hx)⟩

theorem presentSyms_nodup (freq : Vector Nat 256) : (presentSyms freq).Nodup :=
  (presentSyms_pairwise freq).imp fun hlt => by rintro rfl; exact Nat.lt_irrefl _ hlt

/-! ## CODES -/

theorem exec_codes {s : State} (hp : s.phase = .treed) {T : Tree} (hT : s.tree? = some T) :
    exec .codes s = .next { s with code := T.codeTable, treebits := T.ser.length, phase := .coded } := by
  obtain ⟨htree, hh⟩ := treeAt_eq_some.mp hT
  rw [exec_of_legal (i := .codes) (by simp) rfl ⟨by simp [legalPhases, hp], trivial⟩]
  rw [pseudocode, codesBody_eq htree hh, Nat.zero_add]
  rfl

end Sys2Proof.Machine

namespace Sys2Proof.Safety

open Sys2Proof Sys2Proof.Machine

/-- CODES after TREE, from a state of the invariant (R93, R100). -/
theorem Inv.exec_codes {s t : State} (h : Inv s) (hp : s.phase = .treed) (ht : exec .codes s = .next t) :
    ∃ T, BuiltBy t T ∧ t.code = T.codeTable ∧ t.treebits = T.ser.length := by
  obtain ⟨T, hT⟩ := h.built (by simp [hp, builtPhases])
  obtain rfl := Host.Outcome.next.inj ((Machine.exec_codes hp hT.tree).symm.trans ht)
  exact ⟨T, builtBy_congr hT, rfl, rfl⟩

/-- Settles O20: the walk of CODES over the tree of ROOT, and how CODES is taken out of phase. -/
theorem codesRecordsThePaths : Obligations.CodesRecordsThePaths :=
  ⟨onlyLegalIn rfl, fun _ _ hp hT => exec_codes hp hT⟩

/-- Settles O21: the code of a present symbol is the path of its leaf, no path of a tree is the beginning of another, and a path
is shorter than there are leaves. -/
theorem codesAreAPrefixCode : Obligations.CodesAreAPrefixCode := by
  intro s t hs hp hdegen ht
  obtain ⟨T, hT, hcode, -⟩ := hs.exec_codes hp ht
  have hsame : t.degen = s.degen := (exec_same ht .degen).resolve_right (by decide)
  have hleaf : T.isLeaf = false := by rw [← hT.degen, hsame, hdegen]
  have hperm := hT.syms_perm
  have hd : T.syms.Nodup := hperm.nodup_iff.mpr (presentSyms_nodup t.freq)
  have hnsym : T.syms.length = t.nsym := hperm.length_eq.trans hT.leaves.count.symm
  have hpath {x : Byte} (hx : T.codeTable[symIdx x] ≠ []) : (x, T.codeTable[symIdx x]) ∈ T.paths :=
    Tree.codeTable_mem_paths hd ((Tree.codeTable_ne_nil_iff hd hleaf).mp hx)
  have hfree {x y : Byte} (hxy : x ≠ y) (hx : T.codeTable[symIdx x] ≠ []) (hy : T.codeTable[symIdx y] ≠ []) :
      ¬ T.codeTable[symIdx x] <+: T.codeTable[symIdx y] := fun h =>
    hxy (congrArg Prod.fst (Tree.eq_of_path_prefix (hpath hx) (hpath hy) h))
  rw [hcode]
  refine ⟨fun x => ?_, fun x => ?_, ⟨T, hT.tree, hperm, fun p hp => Tree.codeTable_of_mem hd hp⟩, fun x y hxy hx hy =>
    ⟨fun h => hfree hxy hx hy (h ▸ List.prefix_refl _), hfree hxy hx hy⟩⟩
  · rw [Tree.codeTable_ne_nil_iff hd hleaf, hperm.mem_iff, mem_presentSyms]
  · rw [← hnsym]
    by_cases hx : T.codeTable[symIdx x] = []
    · rw [hx]
      exact T.syms_length_pos
    · exact Tree.paths_length (hpath hx)

/-- Settles O22: a serialized tree of `n` leaves has `10 n - 1` bits, and there are 1 to 256 present symbols. -/
theorem treeBitsCountsTheTree : Obligations.TreeBitsCountsTheTree := by
  intro s t hs hp ht
  obtain ⟨T, hT, -, hbits⟩ := hs.exec_codes hp ht
  have hser := T.ser_length
  have hpos := T.syms_length_pos
  have hlen := hT.syms_perm.length_eq
  have hnsym := hT.leaves.count
  have hle := presentSyms_length_le t.freq
  exact ⟨by omega, by omega, by omega, T, hT.tree, hbits⟩

end Sys2Proof.Safety

/-! PROOFS. CHECK: the three sizes and their comparison (42_code_table.md R101). -/

namespace Sys2Proof.Machine

open Sys2Proof Sys2Proof.Safety

/-! ## The sizes -/

/-- PAYBITS as R101 writes it, the sum over the symbols 0 to 255. -/
theorem payloadBits_eq_sum (code : Vector Bits 256) (freq : Vector Nat 256) :
    payloadBits code freq = ((List.finRange 256).map fun i => code[i].length * freq[i]).sum := by
  refine congrArg List.sum (List.ext_getElem ?_ fun n h1 h2 => ?_) <;> simp

theorem notSmallerFlag_iff {est unc : Nat} : notSmallerFlag est unc = true ↔ unc ≤ est := by
  simp [notSmallerFlag]

/-- The state with the three sizes and NOTSMALLER computed (R101). -/
def State.sized (s : State) : State :=
  let pay := payloadBits s.code s.freq
  let est := ceil8 (s.treebits + 8 * s.cfg.frameBytes + pay)
  let unc := 8 * s.total
  { s with paybits := pay, estbits := est, uncbits := unc, notSmaller := notSmallerFlag est unc }

/-- NOTSMALLER compares the sizes beside it. -/
theorem State.sized_notSmaller_iff (s : State) : s.sized.notSmaller = true ↔ s.sized.uncbits ≤ s.sized.estbits :=
  notSmallerFlag_iff

theorem checkBody_of_go_on {s : State} (h : s.sized.notSmaller = false ∨ s.force = true) :
    checkBody s = .go () { s.sized with phase := .checked } :=
  if_neg (show ¬ (s.sized.notSmaller && !s.force) = true by obtain h | h := h <;> simp [h])

theorem checkBody_of_stop {s : State} (h : s.sized.notSmaller = true) (hf : s.force = false) :
    checkBody s = .ended (s.sized.raise .notCompressible 0) :=
  if_pos (show (s.sized.notSmaller && !s.force) = true by simp [h, hf])

theorem exec_check {s : State} (hp : s.phase = .coded) : exec .check s = (checkBody s).toOutcome :=
  exec_of_legal (by simp) rfl ⟨by simp [legalPhases, hp], trivial⟩

end Sys2Proof.Machine

namespace Sys2Proof.Safety

open Sys2Proof Sys2Proof.Machine

/-- Settles O23: CHECK computes the sizes, and then goes on or stops. -/
theorem checkComparesTheSizes : Obligations.CheckComparesTheSizes := by
  refine ⟨onlyLegalIn rfl, fun s hp => ?_⟩
  have hcmp := s.sized_notSmaller_iff
  rw [exec_check hp]
  by_cases hstop : s.sized.notSmaller = true ∧ s.force = false
  · obtain ⟨hn, hf⟩ := hstop
    rw [checkBody_of_stop hn hf]
    refine ⟨_, rfl, payloadBits_eq_sum s.code s.freq, rfl, rfl, hcmp, fun h => ?_, fun _ => ?_⟩
    · simp [hn, hf] at h
    · rw [← hn]
      rfl
  · have hgo : s.sized.notSmaller = false ∨ s.force = true := by simpa [or_iff_not_imp_left] using hstop
    rw [checkBody_of_go_on hgo]
    exact ⟨_, rfl, payloadBits_eq_sum s.code s.freq, rfl, rfl, hcmp, fun _ => ⟨rfl, rfl⟩, fun h => absurd h hstop⟩

end Sys2Proof.Safety

/-! PROOFS. What COMP reads: its steps from states that differ in CTRL, the host's list or unallocated entries (R101, R117). -/

namespace Sys2Proof.Machine

open Sys2Proof Sys2Proof.Safety

/-! ## Twin states -/

/-- The state with other values of what COMP's steps, but for CHECK's test of FORCE, do not read. -/
def State.variant (s : State) (host : List HostAct) (force : Bool) (tailskip : BitVec 3) (node : Memory) : State :=
  { s with host := host, force := force, tailskip := tailskip, node := node }

/-- The two states differ at most in CTRL, the host's list and the NODE entries that are not allocated. -/
def Twin (s t : State) : Prop :=
  ∃ host force tailskip node, t = s.variant host force tailskip node ∧ ∀ n, n < s.nnodes → node.read n = s.node.read n

section
variable {s t : State}

theorem twin_force (s : State) (b : Bool) : Twin s { s with force := b } :=
  ⟨s.host, b, s.tailskip, s.node, rfl, fun _ _ => rfl⟩

theorem Twin.exists_variant (h : Twin s t) : ∃ host force tailskip node, t = s.variant host force tailskip node := by
  obtain ⟨host, force, tailskip, node, ht, -⟩ := h
  exact ⟨host, force, tailskip, node, ht⟩

/-- What reads none of the differing parts gives the same of both. -/
theorem Twin.read {α : Type} (h : Twin s t) (f : State → α)
    (hf : ∀ host force tailskip node, f (s.variant host force tailskip node) = f s := by exact fun _ _ _ _ => rfl) :
    f t = f s := by
  obtain ⟨host, force, tailskip, node, rfl, -⟩ := h
  exact hf ..

theorem Twin.readNode (h : Twin s t) (k : Handle) : t.readNode k = s.readNode k := by
  obtain ⟨host, force, tailskip, node, rfl, hnode⟩ := h
  exact ite_congr rfl (hnode _) fun _ => rfl

/-- An update that neither reads nor writes any of the differing parts. -/
theorem Twin.update (h : Twin s t) (u : State → State)
    (hu : ∀ host force tailskip node, u (s.variant host force tailskip node) = (u s).variant host force tailskip node
      := by exact fun _ _ _ _ => rfl)
    (hnode : (u s).node = s.node := by rfl) (hnn : (u s).nnodes ≤ s.nnodes := by exact Nat.le_refl _) :
    Twin (u s) (u t) := by
  obtain ⟨host, force, tailskip, node, rfl, hread⟩ := h
  exact ⟨host, force, tailskip, node, hu .., fun n hn => hnode ▸ hread n (hn.trans_le hnn)⟩

theorem Twin.setPhase (h : Twin s t) (p : Phase) : Twin { s with phase := p } { t with phase := p } :=
  h.update fun s => { s with phase := p }

theorem Twin.raise (h : Twin s t) (c : ErrCode) (info : Word64) : Twin (s.raise c info) (t.raise c info) :=
  h.update (State.raise c info)

theorem Twin.putNode (h : Twin s t) (k : Handle) (e : NodeEntry) : Twin (s.putNode k e) (t.putNode k e) := by
  obtain ⟨host, force, tailskip, node, rfl, hread⟩ := h
  refine ⟨host, force, tailskip, node.write k.toNat e, rfl, fun n hn => ?_⟩
  simp only [State.putNode, Memory.read_write, hread n hn]

/-- The next byte of IN is the same for both. -/
theorem Twin.inByte (h : Twin s t) :
    (s.inByte = none ∧ t.inByte = none) ∨ ∃ b u v, s.inByte = some (b, u) ∧ t.inByte = some (b, v) ∧ Twin u v := by
  have hbyte : t.inp[t.inPos]? = s.inp[s.inPos]? := h.read fun s => s.inp[s.inPos]?
  cases hb : s.inp[s.inPos]? with
  | none => exact .inl (by simp only [State.inByte, hbyte, hb, and_self])
  | some b =>
    exact .inr ⟨b, _, _, by simp only [State.inByte, hb], by simp only [State.inByte, hbyte, hb],
      h.update fun s => { s with inPos := s.inPos + 1 }⟩

theorem State.writeBits_variant (bs : Bits) (s : State) (host : List HostAct) (force : Bool) (tailskip : BitVec 3)
    (node : Memory) :
    (s.variant host force tailskip node).writeBits bs = (s.writeBits bs).variant host force tailskip node := by
  induction bs generalizing s with
  | nil => rfl
  | cons b bs ih =>
    have hbit : (s.variant host force tailskip node).writeBit b = (s.writeBit b).variant host force tailskip node := by
      by_cases h7 : s.nbits = 7#3 <;> simp [State.writeBit, State.variant, State.emit, h7]
    rw [State.writeBits, hbit, ih, State.writeBits]

theorem Twin.writeBits (h : Twin s t) (bs : Bits) : Twin (s.writeBits bs) (t.writeBits bs) :=
  have he := effect_writeBits bs s
  h.update (State.writeBits bs) (State.writeBits_variant bs s) (he.same .node (by decide))
    (he.same .nnodes (by decide)).le

theorem Twin.pad (h : Twin s t) : Twin s.pad t.pad :=
  have he := effect_pad s
  h.update State.pad (fun _ _ _ _ => by by_cases h0 : s.nbits = 0#3 <;> simp [State.pad, State.variant, State.emit, h0])
    (he.same .node (by decide)) (he.same .nnodes (by decide)).le

end

/-! ## Pseudocode from twin states -/

/-- The two runs come to the same end, in twin states. -/
inductive Flow.Twins {α : Type} : Flow α → Flow α → Prop where
  | go (a : α) {s t : State} (h : Twin s t) : Twins (.go a s) (.go a t)
  | ended {s t : State} (h : Twin s t) : Twins (.ended s) (.ended t)
  | stuck (f : Fault) : Twins (.stuck f) (.stuck f)

section
variable {α β : Type} {s t : State}

theorem Flow.Twins.of_go {a : α} {y : Flow α} (h : (Flow.go a s).Twins y) : ∃ t, y = .go a t ∧ Twin s t := by
  cases h with
  | go a h => exact ⟨_, rfl, h⟩

theorem Flow.Twins.bind {x y : Flow α} {k l : α → State → Flow β} (hx : x.Twins y)
    (hk : ∀ a s t, Twin s t → (k a s).Twins (l a t)) : (x.bind k).Twins (y.bind l) := by
  cases hx with
  | go a h => exact hk a _ _ h
  | ended h => exact .ended h
  | stuck f => exact .stuck f

theorem Flow.Twins.ite {c d : Prop} [Decidable c] [Decidable d] {x y x' y' : Flow α} (hcd : c ↔ d) (hx : c → x.Twins y)
    (hx' : ¬c → x'.Twins y') : (if c then x else x').Twins (if d then y else y') := by
  by_cases hc : c
  · rw [if_pos hc, if_pos (hcd.mp hc)]
    exact hx hc
  · rw [if_neg hc, if_neg (mt hcd.mpr hc)]
    exact hx' hc

/-! ### The operations the commands share -/

theorem needNode_twins (h : Twin s t) (k : Handle) : (s.needNode k).Twins (t.needNode k) := by
  rw [State.needNode, State.needNode, h.readNode]
  cases s.readNode k with
  | none => exact .stuck _
  | some e => exact .go e h

theorem changeNode_twins (h : Twin s t) (k : Handle) (f : NodeEntry → NodeEntry) :
    (s.changeNode k f).Twins (t.changeNode k f) :=
  (needNode_twins h k).bind fun e _ _ h => .go () (h.putNode k (f e))

theorem setNext_twins (h : Twin s t) (k v : Handle) : (s.setNext k v).Twins (t.setNext k v) := changeNode_twins h k _

/-- A new entry need not be the same before it is written. -/
theorem takeHandle_bind_twins {k l : Handle → State → Flow α} (h : Twin s t)
    (hk : ∀ n u v, (∀ e, Twin (u.putNode n e) (v.putNode n e)) → (k n u).Twins (l n v)) :
    (s.takeHandle.bind k).Twins (t.takeHandle.bind l) := by
  obtain ⟨host, force, tailskip, node, rfl, hread⟩ := h
  by_cases hcap : s.nnodes < Config.nodeCap
  · rw [State.takeHandle, State.takeHandle, if_pos hcap, if_pos (by exact hcap)]
    refine hk _ _ _ fun e => ⟨host, force, tailskip, node.write (BitVec.ofNat 9 s.nnodes).toNat e, rfl, fun n hn => ?_⟩
    rw [State.putNode, Memory.read_write, Memory.read_write, handle_toNat hcap]
    exact ite_congr rfl (fun _ => rfl) fun hne => hread n (Nat.lt_of_le_of_ne (Nat.le_of_lt_succ hn) hne)
  · rw [State.takeHandle, State.takeHandle, if_neg hcap, if_neg (by exact hcap)]
    exact .stuck _

theorem findSlot_twins (h : Twin s t) (pass : Nat → Bool) (fuel : Nat) (prev cur : Handle) :
    (s.findSlot pass fuel prev cur).Twins (t.findSlot pass fuel prev cur) := by
  induction fuel generalizing s t prev cur with
  | zero => exact .stuck _
  | succ fuel ih =>
    exact .ite Iff.rfl (fun _ => .go _ h) fun _ => (needNode_twins h cur).bind fun e _ _ h' =>
      .ite Iff.rfl (fun _ => ih h cur e.next) fun _ => .go _ h'

theorem insertSorted_twins (h : Twin s t) (n : Handle) (pass : Nat → Bool) :
    (s.insertSorted n pass).Twins (t.insertSorted n pass) := by
  obtain ⟨_, _, _, _, rfl⟩ := h.exists_variant
  exact (findSlot_twins h pass _ _ _).bind fun _ _ _ h => (setNext_twins h _ _).bind fun _ _ _ h =>
    .ite Iff.rfl (fun _ => .go _ (h.update fun s => { s with head := n })) fun _ => setNext_twins h _ _

theorem raiseDegenerate_twins (h : Twin s t) : (raiseDegenerate s : Flow α).Twins (raiseDegenerate t) := by
  obtain ⟨_, _, _, _, rfl⟩ := h.exists_variant
  exact (needNode_twins h _).bind fun _ _ _ h => .ended (h.raise _ _)

/-! ### The steps of COMP -/

theorem countSymbol_twins (h : Twin s t) (sym : Byte) : (countSymbol sym s).Twins (countSymbol sym t) :=
  .ite (by rw [h.read State.total, h.read State.cfg]) (fun _ => .ended (h.raise _ _)) fun _ => .go _ (h.update (State.bump sym))

theorem freqLoop_twins (h : Twin s t) (fuel : Nat) : (freqLoop fuel s).Twins (freqLoop fuel t) := by
  induction fuel generalizing s t with
  | zero => exact .go _ h
  | succ fuel ih =>
    rw [freqLoop, freqLoop]
    obtain ⟨hs, ht⟩ | ⟨b, u, v, hs, ht, h⟩ := h.inByte
    · rw [hs, ht]
      exact .go _ h
    · rw [hs, ht]
      exact (countSymbol_twins h b).bind fun _ _ _ h => ih h

theorem freqBody_twins (h : Twin s t) : (freqBody s).Twins (freqBody t) := by
  obtain ⟨_, _, _, _, rfl⟩ := h.exists_variant
  exact (freqLoop_twins h _).bind fun _ _ _ h => .go _ (h.setPhase _)

theorem listLeaf_twins (h : Twin s t) (sym : Byte) (w : Nat) : (listLeaf sym w s).Twins (listLeaf sym w t) :=
  takeHandle_bind_twins h fun n _ _ h => (insertSorted_twins (h _) n _).bind fun _ _ _ h =>
    .go _ (h.update fun s => { s with nlist := s.nlist + 1 })

theorem listLoop_twins (h : Twin s t) (ws : List Nat) (k : Nat) : (listLoop ws k s).Twins (listLoop ws k t) := by
  induction ws generalizing s t k with
  | nil => exact .go _ h
  | cons w ws ih =>
    exact Flow.Twins.bind (.ite Iff.rfl (fun _ => listLeaf_twins h _ w) fun _ => .go _ h) fun _ _ _ h => ih h _

theorem listBody_twins (h : Twin s t) : (listBody s).Twins (listBody t) := by
  obtain ⟨_, _, _, _, rfl⟩ := h.exists_variant
  have hempty := h.update (fun s => { s with nnodes := 0, head := Config.nil, nlist := 0 }) (hnn := Nat.zero_le _)
  refine (listLoop_twins hempty _ 0).bind fun _ u v h => ?_
  have hn := h.update fun s => { s with nsym := s.nlist }
  exact .ite (by rw [h.read State.nlist]) (fun _ => .ended (hn.raise _ _)) fun _ => .go _ (hn.setPhase _)

theorem mergeStep_twins (h : Twin s t) : (mergeStep s).Twins (mergeStep t) := by
  obtain ⟨_, _, _, _, rfl⟩ := h.exists_variant
  exact (needNode_twins h _).bind fun ea _ _ h => (needNode_twins h _).bind fun eb _ _ h =>
    takeHandle_bind_twins h fun p _ _ h => (setNext_twins ((h _).update fun s => { s with head := eb.next }) _ _).bind
      fun _ _ _ h => (setNext_twins h _ _).bind fun _ _ _ h => (insertSorted_twins h _ _).bind fun _ _ _ h =>
        .go _ (h.update fun s => { s with nlist := s.nlist - 1 })

theorem mergeLoop_twins (h : Twin s t) (fuel : Nat) : (mergeLoop fuel s).Twins (mergeLoop fuel t) := by
  induction fuel generalizing s t with
  | zero => exact .go _ h
  | succ fuel ih =>
    exact .ite (by rw [h.read State.nlist]) (fun _ => (mergeStep_twins h).bind fun _ _ _ h => ih h) fun _ => .go _ h

theorem treeBody_twins (h : Twin s t) : (treeBody s).Twins (treeBody t) := by
  obtain ⟨_, _, _, _, rfl⟩ := h.exists_variant
  refine (mergeLoop_twins h _).bind fun _ u v h => ?_
  obtain ⟨_, _, _, _, rfl⟩ := h.exists_variant
  refine (setNext_twins (h.update fun s => { s with root := s.head }) _ _).bind fun _ u v h => ?_
  obtain ⟨_, _, _, _, rfl⟩ := h.exists_variant
  exact (needNode_twins (h.update fun s => { s with head := Config.nil }) _).bind fun e _ _ h =>
    .go _ (h.update fun s => { s with degen := e.isLeaf, phase := .treed })

theorem codesWalk_twins (h : Twin s t) (fuel : Nat) (n : Handle) (path : Bits) :
    (codesWalk fuel n path s).Twins (codesWalk fuel n path t) := by
  induction fuel generalizing s t n path with
  | zero => exact .stuck _
  | succ fuel ih =>
    exact (needNode_twins h n).bind fun e _ _ h => .ite Iff.rfl
      (fun _ => .go _ (h.update fun s =>
        { s with code := s.code.set (symIdx e.sym) path, treebits := s.treebits + 9 }))
      fun _ => (ih (h.update fun s => { s with treebits := s.treebits + 1 }) _ _).bind fun _ _ _ h => ih h _ _

theorem codesBody_twins (h : Twin s t) : (codesBody s).Twins (codesBody t) := by
  obtain ⟨_, _, _, _, rfl⟩ := h.exists_variant
  exact (codesWalk_twins (h.update fun s => { s with code := Vector.replicate 256 [], treebits := 0 }) _ _ _).bind
    fun _ _ _ h => .go _ (h.setPhase _)

theorem hdrBody_twins (h : Twin s t) : (hdrBody s).Twins (hdrBody t) :=
  .ite (by rw [h.read State.degen]) (fun _ => raiseDegenerate_twins h) fun _ =>
    .go _ ((h.writeBits magicBits).setPhase .hdrDone)

theorem serWalk_twins (h : Twin s t) (fuel : Nat) (n : Handle) : (serWalk fuel n s).Twins (serWalk fuel n t) := by
  induction fuel generalizing s t n with
  | zero => exact .stuck _
  | succ fuel ih =>
    exact (needNode_twins h n).bind fun e _ _ h => .ite Iff.rfl
      (fun _ => .go _ (h.writeBits (false :: byteBits e.sym)))
      fun _ => (ih (h.writeBits [true]) _).bind fun _ _ _ h => ih h _

theorem streeBody_twins (h : Twin s t) : (streeBody s).Twins (streeBody t) := by
  obtain ⟨_, _, _, _, rfl⟩ := h.exists_variant
  exact (serWalk_twins h _ _).bind fun _ _ _ h => .go _ (h.setPhase _)

theorem encodeSymbol_twins (h : Twin s t) (sym : Byte) : (encodeSymbol sym s).Twins (encodeSymbol sym t) := by
  obtain ⟨_, _, _, _, rfl⟩ := h.exists_variant
  exact .ite Iff.rfl (fun _ => .ended (h.raise _ _)) fun _ => .go _ (h.writeBits _)

theorem payloadLoop_twins (h : Twin s t) (fuel : Nat) : (payloadLoop fuel s).Twins (payloadLoop fuel t) := by
  induction fuel generalizing s t with
  | zero => exact .go _ h
  | succ fuel ih =>
    rw [payloadLoop, payloadLoop]
    obtain ⟨hs, ht⟩ | ⟨b, u, v, hs, ht, h⟩ := h.inByte
    · rw [hs, ht]
      exact .go _ h
    · rw [hs, ht]
      exact (encodeSymbol_twins h b).bind fun _ _ _ h => ih h

theorem payloadBody_twins (h : Twin s t) : (payloadBody s).Twins (payloadBody t) := by
  obtain ⟨_, _, _, _, rfl⟩ := h.exists_variant
  exact (payloadLoop_twins (h.update State.rewind) _).bind fun _ _ _ h => .go _ (h.setPhase _)

theorem flushBody_twins (h : Twin s t) : (flushBody s).Twins (flushBody t) :=
  .go _ (h.pad.update fun s => { s with outFinal := true, phase := .done })

end

end Sys2Proof.Machine

/-! PROOFS. COMP with and without FORCE: its steps before CHECK and after it (43_encoder.md R115, R101, R159). -/

namespace Sys2Proof.Machine

open Sys2Proof Sys2Proof.Safety

/-! ## COMP around CHECK -/

/-- COMP up to CHECK (R115). -/
def beforeCheck (s : State) : Flow Unit :=
  (freqBody s).bind fun _ s => (listBody s).bind fun _ s => (treeBody s).bind fun _ s => codesBody s

/-- COMP from CHECK on (R115). -/
def afterCheck (s : State) : Flow Unit :=
  (hdrBody s).bind fun _ s => (streeBody s).bind fun _ s => (payloadBody s).bind fun _ s => flushBody s

theorem compBody_eq_bind (s : State) :
    compBody s = (beforeCheck s).bind fun _ s => (checkBody s).bind fun _ s => afterCheck s := by
  simp only [compBody, beforeCheck, afterCheck, Flow.bind_assoc]

theorem beforeCheck_twins {s t : State} (h : Twin s t) : (beforeCheck s).Twins (beforeCheck t) :=
  (freqBody_twins h).bind fun _ _ _ h => (listBody_twins h).bind fun _ _ _ h => (treeBody_twins h).bind fun _ _ _ h =>
    codesBody_twins h

theorem afterCheck_twins {s t : State} (h : Twin s t) : (afterCheck s).Twins (afterCheck t) :=
  (hdrBody_twins h).bind fun _ _ _ h => (streeBody_twins h).bind fun _ _ _ h => (payloadBody_twins h).bind fun _ _ _ h =>
    flushBody_twins h

theorem beforeCheck_within (s : State) :
    (beforeCheck s).Within [.counts, .inPos, .node, .nnodes, .list, .nsym, .root, .degen, .codes] s :=
  ((freqBody_within s).mono (by decide)).bind fun _ s _ => ((listBody_within s).mono (by decide)).bind fun _ s _ =>
    ((treeBody_within s).mono (by decide)).bind fun _ s _ => (codesBody_within s).mono (by decide)

theorem afterCheck_within (s : State) : (afterCheck s).Within [.packer, .out, .inPos, .padcnt, .outFinal] s :=
  ((hdrBody_within s).mono (by decide)).bind fun _ s _ => ((streeBody_within s).mono (by decide)).bind fun _ s _ =>
    ((payloadBody_within s).mono (by decide)).bind fun _ s _ => (flushBody_within s).mono (by decide)

theorem Twin.sized {s t : State} (h : Twin s t) : Twin s.sized t.sized := h.update State.sized

/-- A COMP that reaches DONE is one in which no step ended it. -/
theorem compBody_of_done {s t : State} (h : (compBody s).toOutcome = .next t) (hp : t.phase = .done) :
    compBody s = .go () t := by
  refine (Flow.toOutcome_eq_next.mp h).resolve_right fun he => ?_
  have hw := compBody_within s
  rw [he] at hw
  obtain ⟨-, ⟨hf, -⟩ | ⟨hd, -⟩⟩ := hw
  · exact absurd (hp.symm.trans hf) (by decide)
  · exact absurd (hp.symm.trans hd) (by decide)

/-! ## The NODE memories of twin runs -/

/-- No value is held below the first handle of a canonical memory. -/
theorem Memory.read_eq_none {m : Memory} {lo k : Nat} (h : Memory.wfFrom lo m = true) (hk : k < lo) : m.read k = none := by
  cases hr : m.read k with
  | none => rfl
  | some e => exact absurd (Memory.read_bounds h hr).1 (Nat.not_le.mpr hk)

/-- A canonical memory is fixed by what it reads. -/
theorem Memory.ext_of_wfFrom {m m' : Memory} {lo lo' : Nat} (h : Memory.wfFrom lo m = true) (h' : Memory.wfFrom lo' m' = true)
    (hr : ∀ n, m.read n = m'.read n) : m = m' := by
  induction m generalizing m' lo lo' with
  | nil =>
    cases m' with
    | nil => rfl
    | cons p m' => simpa [Memory.read] using hr p.1
  | cons p m ih =>
    cases m' with
    | nil => simpa [Memory.read] using hr p.1
    | cons p' m' =>
      obtain ⟨k, e⟩ := p
      obtain ⟨k', e'⟩ := p'
      simp only [Memory.wfFrom, Bool.and_eq_true, decide_eq_true_eq] at h h'
      have hnone {n : Nat} (hn : n ≤ k) : Memory.read m n = none := Memory.read_eq_none h.2 (Nat.lt_succ_of_le hn)
      have hnone' {n : Nat} (hn : n ≤ k') : Memory.read m' n = none := Memory.read_eq_none h'.2 (Nat.lt_succ_of_le hn)
      simp only [Memory.read] at hr
      obtain rfl : k = k' := by
        obtain hlt | heq | hgt := Nat.lt_trichotomy k k'
        · simpa [hlt.ne, hnone' hlt.le] using hr k
        · exact heq
        · simpa [hgt.ne, hnone hgt.le] using hr k'
      have he : e = e' := by simpa using hr k
      have htail : ∀ n, Memory.read m n = Memory.read m' n := fun n => by
        by_cases hn : n = k
        · rw [hnone hn.le, hnone' hn.le]
        · simpa [hn] using hr n
      rw [he, ih h.2 h'.2 htail]

/-- Runs of COMP from one NODE memory that end in twin states end with one NODE memory. -/
theorem node_eq_of_twins {s s' t t' : State} (hs : MemoryOk s) (hs' : MemoryOk s') (hnode : s'.node = s.node)
    (h : compBody s = .go () t) (h' : compBody s' = .go () t') (ht : Twin t t') : t'.node = t.node := by
  have hwf := (((compBody_within s).of_go h).1.memory hs).wf
  have hwf' := (((compBody_within s').of_go h').1.memory hs').wf
  have hb := compBody_beyond s
  have hb' := compBody_beyond s'
  rw [h] at hb
  rw [h'] at hb'
  obtain ⟨_, _, _, _, rfl, hread⟩ := ht
  refine Memory.ext_of_wfFrom hwf' hwf fun n => ?_
  obtain hn | hn := Nat.lt_or_ge n t.nnodes
  · exact hread n hn
  · rw [hb' n hn, hb n hn, hnode]

/-- Twins that differ in FORCE at most. -/
theorem Twin.eq_setForce {s t : State} (h : Twin s t) {b : Bool} (hforce : t.force = b) (htail : t.tailskip = s.tailskip)
    (hhost : t.host = s.host) (hnode : t.node = s.node) : t = { s with force := b } := by
  obtain ⟨host, force, tailskip, node, rfl, -⟩ := h
  obtain ⟨rfl, rfl, rfl, rfl⟩ : host = s.host ∧ force = b ∧ tailskip = s.tailskip ∧ node = s.node :=
    ⟨hhost, hforce, htail, hnode⟩
  rfl

theorem exec_comp {s : State} (hp : s.phase = .idle) : exec .comp s = (compBody s).toOutcome :=
  exec_of_legal (by simp) rfl ⟨by simp [legalPhases, hp], trivial⟩

/-- A forced COMP that goes through passes CHECK with the sizes it ends with. -/
theorem compBody_forced {s t : State} (hf : s.force = true) (h : compBody s = .go () t) :
    ∃ u, beforeCheck s = .go () u ∧ afterCheck { u.sized with phase := .checked } = .go () t ∧
      t.estbits = u.sized.estbits ∧ t.uncbits = u.sized.uncbits ∧ t.code = u.code := by
  rw [compBody_eq_bind] at h
  obtain ⟨⟨⟩, u, hu, h⟩ := Flow.bind_eq_go.mp h
  have hforce : u.force = true := (((beforeCheck_within s).of_go hu).1.same .ctrl (by decide)).1.trans hf
  rw [checkBody_of_go_on (.inr hforce), Flow.bind_go] at h
  have he := ((afterCheck_within _).of_go h).1
  obtain ⟨-, hest, hunc⟩ := he.same .sizes (by decide)
  exact ⟨u, hu, h, hest, hunc, (he.same .codes (by decide)).1⟩

end Sys2Proof.Machine

namespace Sys2Proof.Safety

open Sys2Proof Sys2Proof.Machine

/-- Settles O32: up to CHECK and behind it the two runs are twins, and CHECK tells them apart only where the estimate is not
smaller. -/
theorem compWithoutForce : Obligations.CompWithoutForce := by
  intro s t hs hp ht hdone
  have hmem (b : Bool) : MemoryOk { s with force := b } := ⟨hs.memory.wf, hs.memory.cap⟩
  rw [exec_comp (s := { s with force := true }) hp] at ht
  rw [exec_comp (s := { s with force := false }) hp]
  have hgo := compBody_of_done ht hdone
  obtain ⟨u, hu, hafter, hest, hunc, hcode⟩ := compBody_forced rfl hgo
  obtain ⟨u', hu', htwin⟩ := (hu ▸ beforeCheck_twins (twin_force { s with force := true } false)).of_go
  have heffect := ((beforeCheck_within _).of_go hu').1
  have hforce : u'.force = false := (heffect.same .ctrl (by decide)).1
  have hest' : u'.sized.estbits = t.estbits := (htwin.sized.read State.estbits).trans hest.symm
  have hunc' : u'.sized.uncbits = t.uncbits := (htwin.sized.read State.uncbits).trans hunc.symm
  have hcmp := u'.sized_notSmaller_iff
  rw [hest', hunc'] at hcmp
  refine ⟨fun hlt => ?_, fun hle => ?_⟩
  · have hn : u'.sized.notSmaller = false := Bool.eq_false_iff.mpr (mt hcmp.mp (Nat.not_le.mpr hlt))
    obtain ⟨t', ht', hend⟩ := (hafter ▸ afterCheck_twins (htwin.sized.setPhase .checked)).of_go
    have hgo' : compBody { s with force := false } = .go () t' := by
      rw [compBody_eq_bind, hu', Flow.bind_go, checkBody_of_go_on (.inl hn), Flow.bind_go, ht']
    have he := ((compBody_within _).of_go hgo).1
    have he' := ((compBody_within _).of_go hgo').1
    obtain ⟨hf, htail⟩ := he'.same .ctrl (by decide)
    rw [hgo', hend.eq_setForce hf (htail.trans (he.same .ctrl (by decide)).2.symm) (he'.host.trans he.host.symm)
      (node_eq_of_twins (hmem true) (hmem false) rfl hgo hgo' hend)]
    rfl
  · have hidle := hs.idle hp
    have hout : u'.out = s.out := heffect.same .out (by decide)
    have hfinal : u'.outFinal = s.outFinal := heffect.same .outFinal (by decide)
    rw [compBody_eq_bind, hu', Flow.bind_go, checkBody_of_stop (hcmp.mpr hle) hforce]
    exact ⟨_, rfl, rfl, rfl, rfl, hout.trans (hidle ▸ rfl), hfinal.trans (hidle ▸ rfl), hest', hunc',
      (htwin.read State.code).trans hcode.symm⟩

end Sys2Proof.Safety

/-! PROOFS. The bit packer a whole string at a time, and its padding (20_memory.md R46). -/

namespace Sys2Proof.Machine

open Sys2Proof Sys2Proof.Safety

/-! ## Strings through the packer -/

/-- What a string through the packer writes: OUT, ACC and NBITS. -/
theorem State.writeBits_eq (bs : Bits) (s : State) :
    s.writeBits bs =
      { s with out := (s.writeBits bs).out, acc := (s.writeBits bs).acc, nbits := (s.writeBits bs).nbits } := by
  obtain ⟨more, a, n, h⟩ := s.writeBits_frame bs
  rw [h]

@[simp] theorem State.writeBits_inPos (bs : Bits) (s : State) : (s.writeBits bs).inPos = s.inPos := by
  rw [State.writeBits_eq]

@[simp] theorem State.writeBits_code (bs : Bits) (s : State) : (s.writeBits bs).code = s.code := by
  rw [State.writeBits_eq]

@[simp] theorem State.writeBits_phase (bs : Bits) (s : State) : (s.writeBits bs).phase = s.phase := by
  rw [State.writeBits_eq]

/-- An update that neither reads nor writes OUT and the packer may come before a string or after it. -/
theorem State.writeBits_comm {u : State → State} (hu : ∀ s b, u (s.writeBit b) = (u s).writeBit b) (bs : Bits)
    (s : State) : u (s.writeBits bs) = (u s).writeBits bs := by
  induction bs generalizing s with
  | nil => rfl
  | cons b bs ih => rw [State.writeBits, ih, hu, State.writeBits]

theorem State.writeBits_setPhase (bs : Bits) (s : State) (p : Phase) :
    { s.writeBits bs with phase := p } = ({ s with phase := p } : State).writeBits bs := by
  refine State.writeBits_comm (u := fun s => { s with phase := p }) (fun s b => ?_) bs s
  by_cases h7 : s.nbits = 7#3 <;> simp [State.writeBit, State.emit, h7]

theorem State.writeBits_setCursor (bs : Bits) (s : State) (n : Nat) :
    { s.writeBits bs with inPos := n } = ({ s with inPos := n } : State).writeBits bs := by
  refine State.writeBits_comm (u := fun s => { s with inPos := n }) (fun s b => ?_) bs s
  by_cases h7 : s.nbits = 7#3 <;> simp [State.writeBit, State.emit, h7]

/-- A byte is its bits shifted in one by one. -/
theorem shiftIn_byteBits (v : Byte) :
    (byteBits v).foldl (fun (v : Byte) (b : Bool) => v <<< 1 ||| (BitVec.ofBool b).setWidth 8) 0#8 = v := by
  revert v
  decide

/-- A whole byte through an empty packer goes to OUT (R46). -/
theorem State.writeBits_byteBits {s : State} (ha : s.acc = 0) (hn : s.nbits = 0) (v : Byte) :
    s.writeBits (byteBits v) = s.emit v := by
  simpa [byteBits, State.writeBits, State.writeBit, State.emit, ha, hn] using shiftIn_byteBits v

/-- Whole bytes through an empty packer go to OUT, and it stays empty (R46). -/
theorem State.writeBits_streamBits {s : State} (ha : s.acc = 0) (hn : s.nbits = 0) (bytes : List Byte) :
    s.writeBits (streamBits bytes) = { s with out := s.out ++ bytes } := by
  induction bytes generalizing s with
  | nil => simp [streamBits_nil, State.writeBits]
  | cons b bs ih =>
    rw [show streamBits (b :: bs) = byteBits b ++ streamBits bs from rfl, writeBits_append, State.writeBits_byteBits ha hn,
      ih (s := s.emit b) ha hn]
    simp [State.emit]

/-! ## Padding -/

/-- Held bits moved to the top of a byte, zeros below (R46). -/
theorem byteBits_shiftLeft (acc : BitVec 8) {n : Nat} (hn : n ≤ 8) :
    byteBits (acc <<< (8 - n)) = ((List.range n).map fun i => acc.getLsbD (n - 1 - i)) ++ List.replicate (8 - n) false := by
  rw [byteBits_eq_range, show List.range 8 = List.range (n + (8 - n)) by rw [Nat.add_sub_of_le hn], List.range_add,
    List.map_append, List.map_map]
  congr 1
  · refine List.map_congr_left fun i hi => ?_
    have hi : i < n := List.mem_range.mp hi
    rw [BitVec.getLsbD_shiftLeft]
    have h2 : ¬ 8 - 1 - i < 8 - n := by omega
    have h3 : 8 - 1 - i - (8 - n) = n - 1 - i := by omega
    have h1 : 8 - 1 - i < 8 := by omega
    simp only [h1, h2, h3, decide_true, decide_false, Bool.not_false, Bool.true_and]
  · refine List.eq_replicate_iff.mpr ⟨by simp, fun b hb => ?_⟩
    obtain ⟨i, hi, rfl⟩ := List.mem_map.mp hb
    have hi : i < 8 - n := List.mem_range.mp hi
    have h2 : 8 - 1 - (n + i) < 8 - n := by omega
    simp only [Function.comp_apply, BitVec.getLsbD_shiftLeft, h2, decide_true, Bool.not_true, Bool.and_false, Bool.false_and]

/-- What padding writes: OUT, the packer and PADCNT. -/
theorem State.pad_eq (s : State) :
    s.pad = { s with out := s.pad.out, acc := s.pad.acc, nbits := s.pad.nbits, padcnt := s.pad.padcnt } := by
  unfold State.pad
  split <;> rfl

/-- OUT after padding shows every bit produced, and PADCNT zeros (R46). -/
theorem State.streamBits_pad (s : State) : streamBits s.pad.out = s.packed ++ List.replicate s.pad.padcnt.toNat false := by
  by_cases h : s.nbits = 0#3
  · simp [State.pad, h, State.packed, State.held]
  · have hpos : s.nbits.toNat ≠ 0 := fun h0 => h (BitVec.eq_of_toNat_eq h0)
    have hlt := s.nbits.isLt
    have hcount : (padCount s.nbits).toNat = 8 - s.nbits.toNat := by
      rw [padCount, BitVec.toNat_ofNat]
      omega
    simp [State.pad, h, State.packed, State.held, byteBits_shiftLeft s.acc hlt.le, hcount]

theorem State.pad_nbits (s : State) : s.pad.nbits = 0 := by
  unfold State.pad
  split
  · assumption
  · rfl

/-- Padding leaves the packer empty (R46). -/
theorem State.pad_acc {s : State} (h : PackerOk s) : s.pad.acc = 0 := by
  unfold State.pad
  split
  · rename_i hn
    have hlt : s.acc.toNat < 1 := by simpa [PackerOk, hn] using h
    exact BitVec.eq_of_toNat_eq (by simpa using hlt)
  · rfl

end Sys2Proof.Machine

/-! PROOFS. HDR, STREE, ENC, PAYLOAD and FLUSH as strings through the packer (43_encoder.md R110 to R114). -/

namespace Sys2Proof.Machine

open Sys2Proof Sys2Proof.Safety

/-! ## HDR and STREE -/

theorem exec_hdr {s : State} (hp : s.phase = .checked) : exec .hdr s = (hdrBody s).toOutcome :=
  exec_of_legal (by simp) rfl ⟨by simp [legalPhases, hp], trivial⟩

theorem hdrBody_of_tree {s : State} (h : s.degen = false) :
    hdrBody s = .go () { s.writeBits magicBits with phase := .hdrDone } := by
  rw [hdrBody, if_neg (by simp [h])]
  rfl

theorem hdrBody_of_degenerate {s : State} {e : NodeEntry} (h : s.degen = true) (he : s.readNode s.root = some e) :
    hdrBody s = .ended (s.raise .degenerate (symInfo e.sym)) := by
  rw [hdrBody, if_pos h, raiseDegenerate, State.needNode_some he, Flow.bind_go]

theorem exec_stree {s : State} (hp : s.phase = .hdrDone) : exec .stree s = (streeBody s).toOutcome :=
  exec_of_legal (by simp) rfl ⟨by simp [legalPhases, hp], trivial⟩

theorem streeBody_eq {s : State} {T : Tree} (hT : s.tree? = some T) :
    streeBody s = .go () { s.writeBits T.ser with phase := .treeOut } := by
  obtain ⟨htree, hh⟩ := treeAt_eq_some.mp hT
  rw [streeBody, serWalk_eq htree hh, Flow.bind_go]

/-! ## ENC -/

theorem exec_enc {s : State} (x : Byte) (hp : s.phase = .treeOut ∨ s.phase = .encoding) :
    exec (.enc x) s = (encBody x s).toOutcome :=
  exec_of_legal (by simp) rfl ⟨by simpa [legalPhases] using hp, trivial⟩

theorem encodeSymbol_of_code {s : State} {x : Byte} (h : s.code[symIdx x] ≠ []) :
    encodeSymbol x s = .go () (s.writeBits s.code[symIdx x]) := if_neg (mt List.length_eq_zero_iff.mp h)

theorem encodeSymbol_of_no_code {s : State} {x : Byte} (h : s.code[symIdx x] = []) :
    encodeSymbol x s = .ended (s.raise .noCode (symInfo x)) := if_pos (List.length_eq_zero_iff.mpr h)

/-! ## PAYLOAD -/

theorem exec_payload {s : State} (hp : s.phase = .treeOut) : exec .payload s = (payloadBody s).toOutcome :=
  exec_of_legal (by simp) rfl ⟨by simp [legalPhases, hp], trivial⟩

/-- The next byte of IN is the first of those behind the cursor. -/
theorem State.inByte_of_drop {s : State} {b : Byte} {rest : List Byte} (h : s.inp.drop s.inPos = b :: rest) :
    s.inByte = some (b, { s with inPos := s.inPos + 1 }) :=
  State.inByte_eq_some.mpr ⟨by rw [← Nat.add_zero s.inPos, ← List.getElem?_drop, h]; rfl, rfl⟩

/-- A turn of PAYLOAD's loop with a byte of IN left. -/
theorem payloadLoop_succ {s : State} {b : Byte} {rest : List Byte} (n : Nat) (h : s.inp.drop s.inPos = b :: rest) :
    payloadLoop (n + 1) s = (encodeSymbol b { s with inPos := s.inPos + 1 }).bind fun _ s => payloadLoop n s := by
  rw [payloadLoop, State.inByte_of_drop h]

theorem State.payloadOf_cons (s : State) (b : Byte) (bs : List Byte) :
    s.payloadOf (b :: bs) = s.code[symIdx b] ++ s.payloadOf bs := List.flatMap_cons

/-- The state with the codes of the bytes `bs`, next in IN, written and the cursor behind them (R113). -/
def State.encoded (bs : List Byte) (s : State) : State :=
  ({ s with inPos := s.inPos + bs.length } : State).writeBits (s.payloadOf bs)

theorem State.encoded_eq (bs : List Byte) (s : State) :
    s.encoded bs = { s with out := (s.encoded bs).out, acc := (s.encoded bs).acc, nbits := (s.encoded bs).nbits,
                            inPos := s.inPos + bs.length } := State.writeBits_eq ..

theorem State.encoded_packed (bs : List Byte) (s : State) : (s.encoded bs).packed = s.packed ++ s.payloadOf bs :=
  State.writeBits_packed ..

theorem State.encoded_out (bs : List Byte) (s : State) : s.out <+: (s.encoded bs).out :=
  (effect_writeBits (s.payloadOf bs) { s with inPos := s.inPos + bs.length }).out

theorem State.encoded_append (as bs : List Byte) (s : State) : (s.encoded as).encoded bs = s.encoded (as ++ bs) := by
  have hpay : (s.encoded as).payloadOf bs = s.payloadOf bs := by rw [State.encoded_eq]; rfl
  have hall : s.payloadOf (as ++ bs) = s.payloadOf as ++ s.payloadOf bs := List.flatMap_append
  rw [State.encoded, hpay, State.encoded, State.writeBits_setCursor, State.encoded, hall, writeBits_append,
    State.writeBits_inPos, List.length_append, Nat.add_assoc]

/-- The code of the next byte of IN. -/
theorem encodeSymbol_next {s : State} {b : Byte} (h : s.code[symIdx b] ≠ []) :
    encodeSymbol b { s with inPos := s.inPos + 1 } = .go () (s.encoded [b]) := by
  rw [encodeSymbol_of_code (by exact h), State.encoded, State.payloadOf, List.flatMap_singleton, List.length_singleton]

/-- The bytes `bs`, next in IN, all of which have a code: the loop writes the codes and goes on behind the bytes (R113). -/
theorem payloadLoop_append {bs rest : List Byte} {s : State} (n : Nat) (hin : s.inp.drop s.inPos = bs ++ rest)
    (hcode : ∀ b ∈ bs, s.code[symIdx b] ≠ []) : payloadLoop (bs.length + n) s = payloadLoop n (s.encoded bs) := by
  induction bs generalizing s with
  | nil => rw [List.length_nil, Nat.zero_add]; rfl
  | cons b bs ih =>
    obtain ⟨hb, hbs⟩ := List.forall_mem_cons.mp hcode
    have hin' : (s.encoded [b]).inp.drop (s.encoded [b]).inPos = bs ++ rest := by
      rw [State.encoded_eq]
      exact drop_succ_of_drop_eq_cons hin
    have hbs' : ∀ x ∈ bs, (s.encoded [b]).code[symIdx x] ≠ [] := by
      rw [State.encoded_eq]
      exact hbs
    rw [List.length_cons, Nat.add_right_comm, payloadLoop_succ _ hin, encodeSymbol_next hb, Flow.bind_go, ih hin' hbs',
      State.encoded_append, List.singleton_append]

/-- PAYLOAD on an input whose bytes all have a code (R113). -/
theorem payloadBody_eq {s : State} (hcode : ∀ b ∈ s.inp, s.code[symIdx b] ≠ []) :
    payloadBody s = .go () { s.rewind.encoded s.inp with phase := .payDone } := by
  have hloop := payloadLoop_append (s := s.rewind) 0 (List.append_nil s.inp).symm hcode
  rw [payloadBody, State.bytesLeft, State.rewind_inp, State.rewind_inPos]
  exact congrArg (Flow.bind · _) hloop

/-- PAYLOAD up to the first byte without a code (R113). -/
theorem payloadBody_of_no_code {s : State} {before after : List Byte} {b : Byte} (hin : s.inp = before ++ b :: after)
    (hcode : ∀ x ∈ before, s.code[symIdx x] ≠ []) (hb : s.code[symIdx b] = []) :
    payloadBody s =
      .ended (({ s.rewind.encoded before with inPos := before.length + 1 } : State).raise .noCode (symInfo b)) := by
  have hloop := payloadLoop_append (s := s.rewind) (after.length + 1) hin hcode
  have hnext : (s.rewind.encoded before).inp.drop (s.rewind.encoded before).inPos = b :: after := by
    rw [State.encoded_eq]
    simp [hin]
  have hlen : s.rewind.bytesLeft = before.length + (after.length + 1) := by
    simp [State.bytesLeft, hin]
  have hpos : (s.rewind.encoded before).inPos = before.length := by rw [State.encoded_eq]; simp
  rw [payloadBody, hlen, hloop, payloadLoop_succ _ hnext, encodeSymbol_of_no_code, hpos]
  · rfl
  · rw [State.encoded_eq]
    exact hb

/-! ## PAYLOAD as a sequence of ENC -/

/-- ENC for each of some bytes, all of which have a code, and what follows. -/
theorem execAll_enc_append {bs : List Byte} {s : State} (is : List Instr) (hp : s.phase = .treeOut ∨ s.phase = .encoding)
    (hcode : ∀ b ∈ bs, s.code[symIdx b] ≠ []) :
    ∃ p, (p = .treeOut ∨ p = .encoding) ∧
      execAll (bs.map .enc ++ is) s = execAll is (({ s with phase := p } : State).writeBits (s.payloadOf bs)) := by
  induction bs generalizing s with
  | nil => exact ⟨s.phase, hp, rfl⟩
  | cons b bs ih =>
    obtain ⟨hb, hbs⟩ := List.forall_mem_cons.mp hcode
    have hexec : exec (.enc b) s = .next (({ s with phase := .encoding } : State).writeBits s.code[symIdx b]) := by
      rw [exec_enc b hp, encBody, encodeSymbol_of_code hb]
      exact congrArg Host.Outcome.next (State.writeBits_setPhase _ s .encoding)
    obtain ⟨p, hp', hrest⟩ := ih (s := ({ s with phase := .encoding } : State).writeBits s.code[symIdx b])
      (.inr (State.writeBits_phase ..)) (by rw [State.writeBits_code]; exact hbs)
    refine ⟨p, hp', ?_⟩
    have hpay : (({ s with phase := .encoding } : State).writeBits s.code[symIdx b]).payloadOf bs = s.payloadOf bs := by
      rw [State.payloadOf, State.writeBits_code]
      rfl
    rw [List.map_cons, List.cons_append, execAll, hexec]
    refine hrest.trans ?_
    rw [hpay, State.writeBits_setPhase, ← writeBits_append, State.payloadOf_cons]

/-- What PAYLOAD writes is what the sequence of ENC does, but for the cursor and the phase. -/
theorem State.encoded_rewind_eq (bs : List Byte) (s : State) (p : Phase) :
    s.rewind.encoded bs =
      { ({ s with phase := p } : State).writeBits (s.payloadOf bs) with inPos := bs.length, phase := s.phase } := by
  have hcursor := State.writeBits_setCursor (s.payloadOf bs) s (0 + bs.length)
  rw [← State.writeBits_setPhase, State.encoded]
  refine hcursor.symm.trans ?_
  rw [State.writeBits_eq, Nat.zero_add]

/-! ## FLUSH -/

theorem exec_flush {s : State} (hp : s.phase = .encoding ∨ s.phase = .payDone) :
    exec .flush s = (flushBody s).toOutcome :=
  exec_of_legal (by simp) rfl ⟨by simpa [legalPhases] using hp, trivial⟩

end Sys2Proof.Machine

namespace Sys2Proof.Safety

open Sys2Proof Sys2Proof.Machine

/-- Settles O24: the magic is two whole bytes through the packer, an empty one or not. -/
theorem hdrWritesTheMagic : Obligations.HdrWritesTheMagic := by
  refine ⟨onlyLegalIn rfl, fun s hp => ⟨fun hd => ?_, fun e hd he => ?_⟩⟩
  · rw [exec_hdr hp, hdrBody_of_tree hd]
    have hpacked := State.writeBits_packed magicBits s
    have hwrites := State.writeBits_eq magicBits s
    have hempty (ha : s.acc = 0) (hn : s.nbits = 0) := State.writeBits_streamBits ha hn [Config.magic0, Config.magic1]
    rw [← magicBits] at hempty
    generalize s.writeBits magicBits = u at hpacked hwrites hempty ⊢
    refine ⟨_, rfl, hpacked, fun ha hn => ?_, rfl, by rw [hwrites]⟩
    rw [hempty ha hn]
    exact ⟨rfl, ha, hn⟩
  · rw [exec_hdr hp, hdrBody_of_degenerate hd he]
    exact ⟨_, rfl, rfl, symInfo_toNat e.sym, rfl, rfl⟩

/-- Settles O25: STREE's walk is the serialized tree through the packer. -/
theorem streeWritesTheTree : Obligations.StreeWritesTheTree := by
  refine ⟨onlyLegalIn rfl, fun s T hp hT => ?_⟩
  rw [exec_stree hp, streeBody_eq hT]
  exact ⟨_, rfl, State.writeBits_packed T.ser s, rfl, (effect_writeBits T.ser s).out, by rw [State.writeBits_eq]⟩

/-- Settles O26: the code through the packer, or the fault. -/
theorem encWritesTheCode : Obligations.EncWritesTheCode := by
  refine ⟨fun x => onlyLegalIn rfl, fun s x hp => ⟨fun hc => ?_, fun hc => ?_⟩⟩
  · rw [exec_enc x hp, encBody, encodeSymbol_of_code hc]
    exact ⟨_, rfl, State.writeBits_packed _ s, rfl, (effect_writeBits _ s).out, by rw [State.writeBits_eq]⟩
  · rw [exec_enc x hp, encBody, encodeSymbol_of_no_code hc]
    exact ⟨_, rfl, rfl, symInfo_toNat x, rfl, rfl⟩

/-- Settles O27: the loop over all of IN where every byte has a code, and else up to the first byte that has none. -/
theorem payloadWritesTheCodes : Obligations.PayloadWritesTheCodes := by
  refine ⟨onlyLegalIn rfl, fun s hp => ⟨fun hc => ?_, fun before b after hin hc hb => ?_⟩⟩
  · rw [exec_payload hp, payloadBody_eq hc]
    refine ⟨_, rfl, State.encoded_packed s.inp s.rewind, ?_, rfl, State.encoded_out s.inp s.rewind, ?_⟩
    · rw [State.encoded_eq]
      exact Nat.zero_add _
    · rw [State.encoded_eq]
      rfl
  · rw [exec_payload hp, payloadBody_of_no_code hin hc hb]
    refine ⟨_, rfl, State.encoded_packed before s.rewind, rfl, rfl, symInfo_toNat b, rfl,
      State.encoded_out before s.rewind, ?_⟩
    rw [State.encoded_eq]
    rfl

/-- Settles O28: the codes of the bytes up to the first that has none, or of all of IN, are what the two have written; then
both fault, or neither. -/
theorem payloadIsEncOfEveryByte : Obligations.PayloadIsEncOfEveryByte := by
  intro s t u hp _ ht hu
  rw [exec_payload hp] at ht
  cases hfind : s.inp.find? fun b => decide (s.code[symIdx b] = []) with
  | none =>
    have hcode : ∀ b ∈ s.inp, s.code[symIdx b] ≠ [] := by simpa using hfind
    obtain ⟨p, hp', hexec⟩ := execAll_enc_append [] (.inl hp) hcode
    rw [List.append_nil, hu] at hexec
    rw [payloadBody_eq hcode, State.encoded_rewind_eq s.inp s p] at ht
    cases ht
    cases hexec
    refine ⟨rfl, ?_⟩
    rw [State.writeBits_phase]
    obtain rfl | rfl := hp' <;> simp
  | some b =>
    obtain ⟨hb, before, after, hin, hbefore⟩ := List.find?_eq_some_iff_append.mp hfind
    have hb : s.code[symIdx b] = [] := by simpa using hb
    have hcode : ∀ x ∈ before, s.code[symIdx x] ≠ [] := by simpa using hbefore
    obtain ⟨p, hp', hexec⟩ := execAll_enc_append ((b :: after).map .enc) (.inl hp) hcode
    rw [← List.map_append, ← hin, hu, List.map_cons, execAll, exec_enc b (by rw [State.writeBits_phase]; exact hp'),
      encBody, encodeSymbol_of_no_code (by rw [State.writeBits_code]; exact hb)] at hexec
    rw [payloadBody_of_no_code hin hcode hb, State.encoded_rewind_eq before s p] at ht
    have hu' := hexec.trans (execAll_of_fault (by simp) rfl)
    cases ht
    cases hu'
    exact ⟨rfl, Iff.rfl⟩

/-- Settles O29: padding completes the held bits to a byte, so OUT shows all bits and the zeros. -/
theorem flushPadsToAByte : Obligations.FlushPadsToAByte := by
  refine ⟨onlyLegalIn rfl, fun s hp hs => ?_⟩
  have hstream := s.streamBits_pad
  have hlen := congrArg List.length hstream
  rw [streamBits_length, List.length_append, List.length_replicate] at hlen
  rw [exec_flush hp, flushBody]
  refine ⟨_, rfl, hstream, ?_, s.pad.padcnt.isLt, State.pad_acc hs, s.pad_nbits, rfl, rfl, ?_⟩
  · exact Nat.mod_eq_zero_of_dvd ⟨_, hlen.symm⟩
  · rw [State.pad_eq]

end Sys2Proof.Safety

/-! PROOFS. COMP as the nine commands: each goes on to the phase the next needs, or ends in FAULT (43_encoder.md R115). -/

namespace Sys2Proof.Machine

open Sys2Proof Sys2Proof.Safety

/-! ## Pseudocode that never ends a command -/

/-- The pseudocode raises no fault and ends no run. -/
def Flow.NeverEnds {α : Type} (x : Flow α) : Prop := x.Spec (fun _ _ => True) (fun _ => False) True

section
variable {α β : Type}

theorem Flow.neverEnds_of_ne_ended {x : Flow α} (h : ∀ t, x ≠ .ended t) : x.NeverEnds := by
  cases x with
  | go a t => trivial
  | ended t => exact h t rfl
  | stuck f => trivial

/-- A sequence whose first part never ends ends as what follows does. -/
theorem Flow.NeverEnds.bind_spec {x : Flow α} {k : α → State → Flow β} {Q : β → State → Prop} {E : State → Prop}
    (hx : x.NeverEnds) (hk : ∀ a t, (k a t).Spec Q E True) : (x.bind k).Spec Q E True :=
  (Flow.Spec.mono hx (fun _ _ => id) (fun _ => False.elim) id).bind fun a t _ => hk a t

theorem Flow.NeverEnds.bind {x : Flow α} {k : α → State → Flow β} (hx : x.NeverEnds)
    (hk : ∀ a t, (k a t).NeverEnds) : (x.bind k).NeverEnds := hx.bind_spec hk

end

theorem needNode_neverEnds (s : State) (h : Handle) : (s.needNode h).NeverEnds :=
  Flow.neverEnds_of_ne_ended fun _ => State.needNode_ne_ended

theorem setNext_neverEnds (s : State) (h v : Handle) : (s.setNext h v).NeverEnds :=
  Flow.neverEnds_of_ne_ended fun _ => State.changeNode_ne_ended

theorem mergeLoop_neverEnds (fuel : Nat) (s : State) : (mergeLoop fuel s).NeverEnds := by
  induction fuel generalizing s with
  | zero => trivial
  | succ fuel ih =>
    unfold mergeLoop
    split
    · exact (Flow.neverEnds_of_ne_ended fun _ => mergeStep_ne_ended).bind fun _ t => ih t
    · trivial

theorem codesWalk_neverEnds (fuel : Nat) (n : Handle) (path : Bits) (s : State) : (codesWalk fuel n path s).NeverEnds := by
  induction fuel generalizing n path s with
  | zero => trivial
  | succ fuel ih =>
    refine (needNode_neverEnds s n).bind fun e t => ?_
    split
    · trivial
    · exact (ih e.left _ _).bind fun _ u => ih e.right _ u

theorem serWalk_neverEnds (fuel : Nat) (n : Handle) (s : State) : (serWalk fuel n s).NeverEnds := by
  induction fuel generalizing n s with
  | zero => trivial
  | succ fuel ih =>
    refine (needNode_neverEnds s n).bind fun e t => ?_
    split
    · trivial
    · exact (ih e.left _).bind fun _ u => ih e.right u

/-! ## The phases the nine commands leave -/

/-- From any state the command goes on to a phase of the last column of R184, or ends in FAULT, or is stuck. -/
def LeavesItsPhase (i : Instr) : Prop :=
  ∀ s, (pseudocode i s).Spec (fun _ t => t.phase ∈ leaves i) (fun t => t.phase = .fault) True

theorem leavesItsPhase_freq : LeavesItsPhase .freq := fun s =>
  ((freqLoop_spec _ s).mono (fun _ _ => id) (fun _ => id) False.elim).bind fun _ _ _ => List.mem_singleton.mpr rfl

theorem leavesItsPhase_list : LeavesItsPhase .list := fun s => by
  obtain ⟨t, _, _, ht, hp, -⟩ | ⟨t, ht, hp, -⟩ := listBody_spec s
  · rw [show pseudocode .list s = .go () t from ht]
    exact List.mem_singleton.mpr hp
  · rw [show pseudocode .list s = .ended t from ht]
    exact hp

theorem leavesItsPhase_tree : LeavesItsPhase .tree := fun s =>
  (mergeLoop_neverEnds _ s).bind_spec fun _ t => (setNext_neverEnds { t with root := t.head } t.head _).bind_spec fun _ u =>
    (needNode_neverEnds { u with head := Config.nil } u.root).bind_spec fun _ _ => List.mem_singleton.mpr rfl

theorem leavesItsPhase_codes : LeavesItsPhase .codes := fun _ =>
  (codesWalk_neverEnds ..).bind_spec fun _ _ => List.mem_singleton.mpr rfl

/-- CHECK goes on, or stops because the estimate is not smaller and FORCE is not set (R101). -/
theorem checkBody_cases (s : State) :
    ((s.sized.notSmaller = false ∨ s.force = true) ∧ checkBody s = .go () { s.sized with phase := .checked }) ∨
    (s.sized.notSmaller = true ∧ s.force = false ∧ checkBody s = .ended (s.sized.raise .notCompressible 0)) := by
  by_cases h : s.sized.notSmaller = false ∨ s.force = true
  · exact .inl ⟨h, checkBody_of_go_on h⟩
  · rw [not_or, Bool.not_eq_false, Bool.not_eq_true] at h
    exact .inr ⟨h.1, h.2, checkBody_of_stop h.1 h.2⟩

theorem leavesItsPhase_check : LeavesItsPhase .check := fun s => by
  obtain ⟨-, h⟩ | ⟨-, -, h⟩ := checkBody_cases s
  · rw [show pseudocode .check s = _ from h]
    exact List.mem_singleton.mpr rfl
  · rw [show pseudocode .check s = _ from h]
    rfl

theorem leavesItsPhase_hdr : LeavesItsPhase .hdr := fun s => by
  cases hd : s.degen with
  | false =>
    rw [show pseudocode .hdr s = _ from hdrBody_of_tree hd]
    exact List.mem_singleton.mpr rfl
  | true =>
    rw [show pseudocode .hdr s = raiseDegenerate s from if_pos hd]
    exact (needNode_neverEnds s s.root).bind_spec fun _ _ => rfl

theorem leavesItsPhase_stree : LeavesItsPhase .stree := fun _ =>
  (serWalk_neverEnds ..).bind_spec fun _ _ => List.mem_singleton.mpr rfl

theorem leavesItsPhase_payload : LeavesItsPhase .payload := fun s =>
  ((payloadLoop_spec _ s.rewind).mono (fun _ _ => id) (fun _ => id) False.elim).bind fun _ _ _ => List.mem_singleton.mpr rfl

theorem leavesItsPhase_flush : LeavesItsPhase .flush := fun _ => List.mem_singleton.mpr rfl

/-- A legal command that comes to a state outside FAULT went on to it. -/
theorem LeavesItsPhase.of_not_fault {i : Instr} (h : LeavesItsPhase i) {s t : State}
    (ht : (pseudocode i s).toOutcome = .next t) (hp : t.phase ≠ .fault) : pseudocode i s = .go () t := by
  refine (Flow.toOutcome_eq_next.mp ht).resolve_right fun he => hp ?_
  have hs := h s
  rwa [he] at hs

/-- A legal command that comes to FAULT ended there. -/
theorem LeavesItsPhase.of_fault {i : Instr} (h : LeavesItsPhase i) {s t : State}
    (ht : (pseudocode i s).toOutcome = .next t) (hp : t.phase = .fault) : pseudocode i s = .ended t := by
  refine (Flow.toOutcome_eq_next.mp ht).resolve_left fun hg => fault_not_mem_leaves i ?_
  have hs := h s
  rw [hg] at hs
  exact hp ▸ hs

/-! ## A sequence of commands -/

/-- The pseudocode of some commands in sequence, no phase tested again (log 14). -/
def runAll : List Instr → State → Flow Unit
  | [], s => .go () s
  | i :: is, s => (pseudocode i s).bind fun _ t => runAll is t

/-- The first command is legal in the phases `ps`, and each other in those the one before leaves (R184). -/
def chained : List Phase → List Instr → Bool
  | _, [] => true
  | ps, i :: is =>
    decide (i ≠ .clr ∧ i ≠ .merge ∧ i.wellFormed = true ∧ ps ⊆ legalPhases i) && chained (leaves i) is

theorem clr_not_mem_of_chained {is : List Instr} {ps : List Phase} (h : chained ps is = true) : Instr.clr ∉ is := by
  induction is generalizing ps with
  | nil => exact List.not_mem_nil
  | cons i is ih =>
    simp only [chained, Bool.and_eq_true, decide_eq_true_eq] at h
    obtain ⟨⟨hc, -⟩, hrest⟩ := h
    exact fun hm => (List.mem_cons.mp hm).elim hc.symm (ih hrest)

/-- Commands issued one by one come to what their pseudocode in sequence does: none finds itself out of phase, and in FAULT
the rest are dropped (R150). -/
theorem execAll_eq_runAll {is : List Instr} {ps : List Phase} {s : State} (hx : ∀ i ∈ is, LeavesItsPhase i)
    (hch : chained ps is = true) (hs : s.phase ∈ ps) : execAll is s = (runAll is s).toOutcome := by
  induction is generalizing ps s with
  | nil => rfl
  | cons i is ih =>
    obtain ⟨hi, his⟩ := List.forall_mem_cons.mp hx
    have hclr := clr_not_mem_of_chained hch
    simp only [chained, Bool.and_eq_true, decide_eq_true_eq] at hch
    obtain ⟨⟨hc, hm, hw, hps⟩, hrest⟩ := hch
    have hspec := hi s
    rw [execAll, runAll, exec_of_legal hc hw (legal_of_phase hm (hps hs))]
    cases hflow : pseudocode i s with
    | go a t =>
      rw [hflow] at hspec
      exact ih his hrest hspec
    | ended t =>
      rw [hflow] at hspec
      exact execAll_of_fault (List.ne_and_not_mem_of_not_mem_cons hclr).2 hspec
    | stuck f => rfl

/-- The nine commands of a compression (R115). -/
def compSteps : List Instr := [.freq, .list, .tree, .codes, .check, .hdr, .stree, .payload, .flush]

theorem compBody_eq_runAll (s : State) : compBody s = runAll compSteps s := rfl

theorem leavesItsPhase_compSteps : ∀ i ∈ compSteps, LeavesItsPhase i := by
  simp only [compSteps, List.forall_mem_cons]
  exact ⟨leavesItsPhase_freq, leavesItsPhase_list, leavesItsPhase_tree, leavesItsPhase_codes, leavesItsPhase_check,
    leavesItsPhase_hdr, leavesItsPhase_stree, leavesItsPhase_payload, leavesItsPhase_flush,
    fun _ h => absurd h List.not_mem_nil⟩

/-- The nine commands issued one by one come to what COMP's pseudocode does (R115). -/
theorem execAll_compSteps {s : State} (hp : s.phase = .idle) : execAll compSteps s = (compBody s).toOutcome := by
  rw [compBody_eq_runAll]
  exact execAll_eq_runAll (ps := [.idle]) leavesItsPhase_compSteps (by decide) (List.mem_singleton.mpr hp)

end Sys2Proof.Machine

namespace Sys2Proof.Safety

open Sys2Proof Sys2Proof.Machine

/-- Settles O30: COMP is the pseudocode of the nine in sequence, and so are the nine issued one by one. -/
theorem compIsTheNineCommands : Obligations.CompIsTheNineCommands :=
  ⟨onlyLegalIn rfl, fun _ hp => (exec_comp hp).trans (execAll_compSteps hp).symm⟩

end Sys2Proof.Safety

/-! PROOFS. What COMP comes to: the stream of R70 and its sizes, or one of four faults (43_encoder.md R115, R116). -/

namespace Sys2Proof.Machine

open Sys2Proof Sys2Proof.Safety

/-! ## PAYBITS is the length of the payload -/

theorem symIdx_ofNat (i : Fin 256) : symIdx (BitVec.ofNat 8 i.val) = i :=
  Fin.ext ((BitVec.toNat_ofNat i.val 8).trans (Nat.mod_eq_of_lt i.isLt))

/-- A sum over the symbols 0 to 255, each as often as it is among some bytes, is a sum over the bytes. -/
theorem sum_count_eq (g : Fin 256 → Nat) (bytes : List Byte) :
    ((List.finRange 256).map fun i => g i * bytes.count (BitVec.ofNat 8 i.val)).sum =
      (bytes.map fun b => g (symIdx b)).sum := by
  induction bytes with
  | nil =>
    simp only [List.count_nil, Nat.mul_zero, List.map_const', List.sum_replicate, smul_zero, List.map_nil, List.sum_nil]
  | cons b bs ih =>
    have hsym (i : Fin 256) : b = BitVec.ofNat 8 i.val ↔ i = symIdx b :=
      ⟨fun h => h ▸ (symIdx_ofNat i).symm,
        fun h => BitVec.toNat_inj.mp (congrArg Fin.val (h.symm.trans (symIdx_ofNat i).symm))⟩
    have hone : ((List.finRange 256).map fun i => g i * if b = BitVec.ofNat 8 i.val then 1 else 0).sum = g (symIdx b) := by
      simp only [← Fin.sum_univ_def, hsym, mul_ite, Nat.mul_one, Nat.mul_zero, Finset.sum_ite_eq', Finset.mem_univ, if_true]
    simp only [List.count_cons, beq_iff_eq, Nat.mul_add, List.sum_map_add, ih, hone, List.map_cons, List.sum_cons,
      Nat.add_comm]

/-- PAYBITS is the number of bits of the payload, the counts being those of the bytes (R101, R116). -/
theorem payloadBits_eq_length {code : Vector Bits 256} {freq : Vector Nat 256} {bytes : List Byte}
    (h : ∀ x : Byte, freq[symIdx x] = bytes.count x) :
    payloadBits code freq = (bytes.flatMap fun b => code[symIdx b]).length := by
  have hfreq (i : Fin 256) : freq[i] = bytes.count (BitVec.ofNat 8 i.val) := by
    simpa only [symIdx_ofNat] using h (.ofNat 8 i)
  rw [payloadBits_eq_sum, List.length_flatMap]
  simp only [hfreq]
  exact sum_count_eq (fun i => code[i].length) bytes

end Sys2Proof.Machine

namespace Sys2Proof.Safety

open Sys2Proof Sys2Proof.Machine

/-! ## COMP up to CHECK -/

/-- FREQ from IDLE counts all of IN, or finds more bytes than the counts have room for (R83). -/
theorem Inv.freqBody_spec {s : State} (hs : Inv s) (hp : s.phase = .idle) :
    (freqBody s).Spec (fun _ t => (∀ x : Byte, t.freq[symIdx x] = s.inp.count x) ∧ t.total = s.inp.length)
      (fun t => t.err = .countOverflow ∧ s.cfg.maxCount < s.inp.length) False := by
  have hidle := hs.idle hp
  have hpos : s.inPos = 0 := hidle ▸ rfl
  have htotal : s.total = 0 := hidle ▸ rfl
  have hfreq (x : Byte) : s.freq[symIdx x] = 0 := by rw [← hidle]; simp
  obtain ⟨hroom, hfull, -⟩ := freqCountsTheInput
  have hroom := hroom s hp (by omega)
  have hfull := hfull s hp (by omega) (by omega)
  simp only [hpos, htotal, Nat.zero_add, Nat.sub_zero, List.drop_zero, exec_freq hp, hfreq] at hroom hfull
  obtain hle | hlt := le_or_gt s.inp.length s.cfg.maxCount
  · obtain ⟨t, ht, hcount, htot, -, hphase, -⟩ := hroom hle
    rw [show freqBody s = .go () t from leavesItsPhase_freq.of_not_fault ht (by simp [hphase])]
    exact ⟨hcount, htot⟩
  · obtain ⟨t, b, ht, -, herr, -, hphase, -⟩ := hfull hlt
    rw [show freqBody s = .ended t from leavesItsPhase_freq.of_fault ht hphase]
    exact ⟨herr, hlt⟩

/-- LIST builds its list, or finds every count zero (R84). -/
theorem listBody_listed_or_empty (s : State) :
    (listBody s).Spec (fun _ t => ∃ hs ts, ListedBy t hs ts)
      (fun t => t.err = .emptyInput ∧ ∀ x : Byte, s.freq[symIdx x] = 0) False := by
  obtain ⟨t, hs, ts, ht, -, hl⟩ | ⟨t, ht, -⟩ := listBody_spec s
  · rw [ht]
    exact ⟨hs, ts, hl⟩
  · have hempty : presentSyms s.freq = [] := by
      by_contra hne
      obtain ⟨u, -, -, hu⟩ := listBody_eq_go hne
      simp [hu] at ht
    have hzero (x : Byte) : s.freq[symIdx x] = 0 := by
      have hx := mt mem_presentSyms.mpr (hempty ▸ List.not_mem_nil (a := x))
      omega
    rw [listBody_of_zeros fun w hw => by obtain ⟨x, rfl⟩ := exists_symbol_of_mem hw; exact hzero x]
    exact ⟨rfl, hzero⟩

/-- Where COMP from `s` comes to before CHECK: the counts of IN, the tree and its codes. -/
structure Coded (s u : State) (T : Tree) : Prop where
  built : BuiltBy u T
  code : u.code = T.codeTable
  treebits : u.treebits = T.ser.length
  freq : ∀ x : Byte, u.freq[symIdx x] = s.inp.count x
  total : u.total = s.inp.length

/-- COMP from IDLE up to CHECK (R115). -/
theorem Inv.beforeCheck_spec {s : State} (hs : Inv s) (hp : s.phase = .idle) :
    (beforeCheck s).Spec (fun _ u => ∃ T, Coded s u T)
      (fun t => t.err = .countOverflow ∧ s.cfg.maxCount < s.inp.length ∨ t.err = .emptyInput ∧ s.inp = []) False := by
  refine (((hs.freqBody_spec hp).and (freqBody_within s)).mono (fun _ _ => id) (fun _ ⟨hfull, _⟩ => .inl hfull)
    And.left).bind ?_
  rintro ⟨⟩ a ⟨⟨hfreq, htotal⟩, ha, -⟩
  have hzero (h : ∀ x : Byte, a.freq[symIdx x] = 0) : s.inp = [] :=
    List.eq_nil_iff_forall_not_mem.mpr fun x => List.count_eq_zero.mp ((hfreq x).symm.trans (h x))
  refine (((listBody_listed_or_empty a).and (listBody_within a)).mono (fun _ _ => id)
    (fun _ ⟨⟨herr, hnone⟩, _⟩ => .inr ⟨herr, hzero hnone⟩) And.left).bind ?_
  rintro ⟨⟩ b ⟨⟨hs', ts, hlist⟩, hb, -⟩
  obtain ⟨c, T, hc, -, hT⟩ := treeBody_spec (hb.memory (ha.memory hs.memory)).cap hlist
  have hframe := treeBody_frame hc
  have hcounts : b.freq = a.freq ∧ b.total = a.total := hb.same .counts (by decide)
  obtain ⟨htree, hh⟩ := hT.treeOf
  rw [hc, Flow.bind_go, codesBody_eq htree hh]
  refine ⟨T, builtBy_congr hT, rfl, Nat.zero_add _, ?_, ?_⟩
  · rw [hframe]
    exact hcounts.1 ▸ hfreq
  · rw [hframe]
    exact hcounts.2.trans htotal

/-- Every byte of IN has a leaf, hence a code unless the tree is one leaf (R102). -/
theorem Coded.code_ne_nil {s u : State} {T : Tree} (h : Coded s u T) (hd : u.degen = false) {b : Byte} (hb : b ∈ s.inp) :
    u.code[symIdx b] ≠ [] := by
  have hperm := h.built.syms_perm
  have hnodup := hperm.nodup_iff.mpr (presentSyms_nodup u.freq)
  rw [h.code, Tree.codeTable_ne_nil_iff hnodup (h.built.degen ▸ hd), hperm.mem_iff, mem_presentSyms, h.freq]
  exact List.count_pos_iff.mpr hb

/-- With a single-leaf tree IN has no two distinct bytes. -/
theorem Coded.eq_of_degen {s u : State} {T : Tree} (h : Coded s u T) (hd : u.degen = true) {x y : Byte} (hx : x ∈ s.inp)
    (hy : y ∈ s.inp) : x = y := by
  have hperm := h.built.syms_perm
  have hone := (Tree.isLeaf_iff T).mp (h.built.degen ▸ hd)
  obtain ⟨z, hz⟩ := List.length_eq_one_iff.mp hone
  have hmem {x : Byte} (hx : x ∈ s.inp) : x = z := by
    have hx' : x ∈ T.syms := hperm.mem_iff.mpr (mem_presentSyms.mpr (h.freq x ▸ List.count_pos_iff.mpr hx))
    simpa [hz] using hx'
  rw [hmem hx, hmem hy]

/-! ## COMP from CHECK on -/

/-- From `s` to `t` the string `bs` went out; besides, only the cursor over IN and the phase may have changed. -/
structure Appended (s : State) (bs : Bits) (t : State) : Prop where
  packed : t.packed = s.packed ++ bs
  effect : Effect [.packer, .out, .inPos] s t

theorem appended_writeBits (bs : Bits) (s : State) (p : Phase) : Appended s bs { s.writeBits bs with phase := p } :=
  ⟨State.writeBits_packed bs s, ((effect_writeBits bs s).trans (effect_phase _ _ p)).mono (by decide)⟩

theorem Appended.trans {s t u : State} {as bs : Bits} (h : Appended s as t) (h' : Appended t bs u) :
    Appended s (as ++ bs) u :=
  ⟨by rw [h'.packed, h.packed, List.append_assoc], h.effect.trans h'.effect⟩

theorem hdrBody_appended {s : State} (hd : s.degen = false) : ∃ t, hdrBody s = .go () t ∧ Appended s magicBits t :=
  ⟨_, hdrBody_of_tree hd, appended_writeBits magicBits s .hdrDone⟩

theorem streeBody_appended {s : State} {T : Tree} (hT : BuiltBy s T) : ∃ t, streeBody s = .go () t ∧ Appended s T.ser t :=
  ⟨_, streeBody_eq hT.tree, appended_writeBits T.ser s .treeOut⟩

theorem payloadBody_appended {s : State} (hcode : ∀ b ∈ s.inp, s.code[symIdx b] ≠ []) :
    ∃ t, payloadBody s = .go () t ∧ Appended s (s.payloadOf s.inp) t :=
  have hgo := payloadBody_eq hcode
  ⟨_, hgo, State.encoded_packed s.inp s.rewind, ((payloadBody_within s).of_go hgo).1⟩

/-- COMP behind CHECK, on a tree of more than one leaf: magic, tree, payload and padding go out (R70). -/
theorem afterCheck_eq {s : State} {T : Tree} (hT : BuiltBy s T) (hd : s.degen = false)
    (hcode : ∀ b ∈ s.inp, s.code[symIdx b] ≠ []) :
    ∃ t, afterCheck s = .go () t ∧ t.phase = .done ∧ t.outFinal = true ∧
      streamBits t.out = s.packed ++ (magicBits ++ T.ser ++ s.payloadOf s.inp) ++ List.replicate t.padcnt.toNat false := by
  obtain ⟨u, hu, hmagic⟩ := hdrBody_appended hd
  obtain ⟨v, hv, htree⟩ := streeBody_appended (hT.of_effect hmagic.effect (by decide))
  have hsv := hmagic.trans htree
  have hinp : v.inp = s.inp := hsv.effect.inp
  have hsame : v.code = s.code := (hsv.effect.same .codes (by decide)).1
  obtain ⟨w, hw, hpayload⟩ := payloadBody_appended (s := v) (by rw [hinp, hsame]; exact hcode)
  rw [State.payloadOf, hinp, hsame] at hpayload
  refine ⟨_, by rw [afterCheck, hu, Flow.bind_go, hv, Flow.bind_go, hw, Flow.bind_go, flushBody], rfl, rfl, ?_⟩
  exact w.streamBits_pad.trans (congrArg (· ++ List.replicate w.pad.padcnt.toNat false) (hsv.trans hpayload).packed)

/-! ## The whole run -/

/-- What a COMP from `s` that goes through comes to, `T` being the tree it writes (R115, R116). -/
structure Compressed (s t : State) (T : Tree) : Prop where
  phase : t.phase = .done
  outFinal : t.outFinal = true
  coded : Coded s t T
  paybits : t.paybits = (t.payloadOf s.inp).length
  estbits : t.estbits = ceil8 (t.treebits + 8 * s.cfg.frameBytes + t.paybits)
  stream : streamBits t.out = magicBits ++ T.ser ++ t.payloadOf s.inp ++ List.replicate t.padcnt.toNat false

/-- With which code a COMP from `s` may fault, and why (R115). -/
inductive CompFault (s : State) : ErrCode → Prop where
  | countOverflow (h : s.cfg.maxCount < s.inp.length) : CompFault s .countOverflow
  | emptyInput (h : s.inp = []) : CompFault s .emptyInput
  | notCompressible (h : s.force = false) : CompFault s .notCompressible
  | degenerate (h : ∀ x ∈ s.inp, ∀ y ∈ s.inp, x = y) : CompFault s .degenerate

/-- What COMP has made of IN before CHECK stays while the tables do. -/
theorem Coded.of_effect {fs : List Field} {s t u : State} {T : Tree} (h : Coded s t T) (he : Effect fs t u)
    (hd : ∀ f ∈ treeFields, f ∉ fs) (hc : Field.codes ∉ fs) : Coded s u T := by
  obtain ⟨hfreq, htotal⟩ := he.same .counts (hd _ (by decide))
  obtain ⟨hcode, hbits⟩ := he.same .codes hc
  exact ⟨h.built.of_effect he hd, hcode.trans h.code, hbits.trans h.treebits, hfreq ▸ h.freq, htotal.trans h.total⟩

theorem effect_sized (s : State) : Effect [.sizes, .notSmaller] s { s.sized with phase := .checked } :=
  Effect.of (same := by rintro ⟨⟩ <;> simp [Field.Same, State.sized])

/-- COMP behind CHECK, whose sizes stand in `s'`: it goes through, or refuses a single-leaf tree with nothing gone out
(R110). -/
theorem Coded.afterCheck_spec {s s' : State} {T : Tree} (h : Coded s s' T) (hinp : s'.inp = s.inp) (hcfg : s'.cfg = s.cfg)
    (hpacked : s'.packed = []) (hpay : s'.paybits = payloadBits s'.code s'.freq)
    (hest : s'.estbits = ceil8 (s'.treebits + 8 * s'.cfg.frameBytes + s'.paybits)) :
    (afterCheck s').Spec (fun _ t => ∃ T, Compressed s t T)
      (fun t => CompFault s t.err ∧ t.out = s'.out ∧ t.outFinal = s'.outFinal) False := by
  cases hd : s'.degen with
  | true =>
    obtain ⟨e, hroot, -⟩ := h.built.treeOf.1.root
    rw [afterCheck, hdrBody_of_degenerate hd hroot]
    exact ⟨.degenerate fun x hx y hy => h.eq_of_degen hd hx hy, rfl, rfl⟩
  | false =>
    obtain ⟨t, ht, hphase, hfinal, hstream⟩ := afterCheck_eq h.built hd (fun b hb => h.code_ne_nil hd (hinp ▸ hb))
    have he := ((afterCheck_within s').of_go ht).1
    have hend := h.of_effect he (by decide) (by decide)
    obtain ⟨hcode, hbits⟩ := he.same .codes (by decide)
    obtain ⟨hfreq, -⟩ := he.same .counts (by decide)
    obtain ⟨hpay', hest', -⟩ := he.same .sizes (by decide)
    have hlen : t.paybits = (t.payloadOf s.inp).length := by
      rw [hpay', hpay, ← hcode, ← hfreq, payloadBits_eq_length hend.freq, State.payloadOf]
    rw [ht]
    refine ⟨T, hphase, hfinal, hend, hlen, by rw [hest', hest, hbits, hcfg, hpay'], ?_⟩
    rw [hstream, hpacked, hinp, State.payloadOf, State.payloadOf, hcode, List.nil_append]

/-- COMP from IDLE goes through, or faults with nothing gone out (R115). -/
theorem Inv.compBody_spec {s : State} (hs : Inv s) (hp : s.phase = .idle) :
    (compBody s).Spec (fun _ t => ∃ T, Compressed s t T)
      (fun t => CompFault s t.err ∧ t.out = s.out ∧ t.outFinal = s.outFinal) False := by
  rw [compBody_eq_bind]
  refine (((hs.beforeCheck_spec hp).and (beforeCheck_within s)).mono (fun _ _ => id) ?_ And.left).bind ?_
  · rintro t ⟨herr, he, -⟩
    refine ⟨?_, he.same .out (by decide), he.same .outFinal (by decide)⟩
    obtain ⟨herr, h⟩ | ⟨herr, h⟩ := herr
    · exact herr ▸ .countOverflow h
    · exact herr ▸ .emptyInput h
  rintro ⟨⟩ u ⟨⟨T, hcoded⟩, he, -⟩
  have hout : u.out = s.out := he.same .out (by decide)
  have hfinal : u.outFinal = s.outFinal := he.same .outFinal (by decide)
  have hforce : u.force = s.force := (he.same .ctrl (by decide)).1
  obtain ⟨-, hcheck⟩ | ⟨-, hunforced, hcheck⟩ := checkBody_cases u
  · obtain ⟨hacc, hnbits⟩ := he.same .packer (by decide)
    have hpacked : u.packed = [] := by
      rw [State.packed, State.held_def, hout, hacc, hnbits, ← hs.idle hp]
      rfl
    rw [hcheck, Flow.bind_go]
    exact ((hcoded.of_effect (effect_sized u) (by decide) (by decide)).afterCheck_spec he.inp he.cfg hpacked rfl rfl).mono
      (fun _ _ => id) (fun _ ⟨herr, ho, hf⟩ => ⟨herr, ho.trans hout, hf.trans hfinal⟩) id
  · rw [hcheck]
    exact ⟨.notCompressible (hforce.symm.trans hunforced), hout, hfinal⟩

/-- Settles O31: room for the counts, FORCE and two distinct bytes rule out each of the four faults. -/
theorem compWritesTheStream : Obligations.CompWritesTheStream := by
  rintro s hs hp hforce hroom ⟨x, hx, y, hy, hxy⟩
  have hspec := hs.compBody_spec hp
  rw [exec_comp hp]
  cases hflow : compBody s with
  | go a t =>
    rw [hflow] at hspec
    obtain ⟨T, hT⟩ := hspec
    have hcoded := hT.coded
    exact ⟨t, T, rfl, hT.phase, hT.outFinal, hcoded.built.tree, hcoded.code, hcoded.freq, hcoded.total,
      hcoded.built.syms_perm, hT.stream⟩
  | ended t =>
    rw [hflow] at hspec
    obtain ⟨hfault, -⟩ := hspec
    generalize t.err = c at hfault
    cases hfault with
    | countOverflow h => exact absurd hroom (Nat.not_le.mpr h)
    | emptyInput h => exact absurd (h ▸ hx) List.not_mem_nil
    | notCompressible h => exact absurd (h.symm.trans hforce) Bool.false_ne_true
    | degenerate h => exact absurd (h x hx y hy) hxy
  | stuck f => exact (hflow ▸ hspec).elim

/-- Settles O33: a COMP that comes to FAULT did not go through. -/
theorem compFaultsWithNoOutput : Obligations.CompFaultsWithNoOutput := by
  intro s t hs hp ht hfault
  have hspec := hs.compBody_spec hp
  rw [exec_comp hp] at ht
  obtain hgo | hended := Flow.toOutcome_eq_next.mp ht
  · rw [hgo] at hspec
    obtain ⟨T, hT⟩ := hspec
    exact absurd (hT.phase.symm.trans hfault) (by decide)
  · rw [hended] at hspec
    obtain ⟨herr, hout, hfinal⟩ := hspec
    have hidle := hs.idle hp
    refine ⟨?_, hout.trans (hidle ▸ rfl), hfinal.trans (hidle ▸ rfl)⟩
    generalize t.err = c at herr
    cases herr <;> decide

/-- Settles O34: a run that reached DONE went through; OUT has the stream's bits, of which fewer than eight are padding. -/
theorem sizeAccounting : Obligations.SizeAccounting := by
  intro s t hs hp ht hdone
  rw [← compIsTheNineCommands.2 s hp, or_self, exec_comp hp] at ht
  have hspec := hs.compBody_spec hp
  rw [compBody_of_done ht hdone] at hspec
  obtain ⟨T, hT⟩ := hspec
  have hpad := t.padcnt.isLt
  have hlen : 8 * t.out.length = 16 + t.treebits + t.paybits + t.padcnt.toNat := by
    rw [← streamBits_length, hT.stream, hT.coded.treebits, hT.paybits]
    simp only [List.length_append, List.length_replicate, magicBits, streamBits_length, List.length_cons, List.length_nil]
  have hest := hT.estbits
  unfold ceil8 at *
  exact ⟨by omega, by omega, by omega, T, hT.coded.built.tree, hT.stream⟩

end Sys2Proof.Safety

/-! PROOFS. COMP depends on IN and FORCE alone: from IDLE two states with the same of both are twins (43_encoder.md R117). -/

namespace Sys2Proof.Machine

open Sys2Proof Sys2Proof.Safety

/-- Twin runs in sequence, what each first part has written being known. -/
theorem Flow.Twins.bind_within {α β : Type} {fs : List Field} {s t : State} {x y : Flow α} {k l : α → State → Flow β}
    (hx : x.Twins y) (hs : x.Within fs s) (ht : y.Within fs t)
    (hk : ∀ a u v, Twin u v → Effect fs s u → Effect fs t v → (k a u).Twins (l a v)) : (x.bind k).Twins (y.bind l) := by
  cases hx with
  | go a h => exact hk a _ _ h hs.1 ht.1
  | ended h => exact .ended h
  | stuck f => exact .stuck f

/-- CHECK does not tell apart twins with the same FORCE. -/
theorem checkBody_twins {s t : State} (h : Twin s t) (hforce : t.force = s.force) : (checkBody s).Twins (checkBody t) := by
  have hsame : t.sized.notSmaller = s.sized.notSmaller := h.sized.read State.notSmaller
  obtain ⟨hgo, hs⟩ | ⟨hn, hf, hs⟩ := checkBody_cases s
  · rw [hs, checkBody_of_go_on (by rwa [hsame, hforce])]
    exact .go _ (h.sized.setPhase _)
  · rw [hs, checkBody_of_stop (hsame.trans hn) (hforce.trans hf)]
    exact .ended (h.sized.raise _ _)

/-- COMP from twins with the same FORCE comes to the same end, in twins. -/
theorem compBody_twins {s t : State} (h : Twin s t) (hforce : t.force = s.force) : (compBody s).Twins (compBody t) := by
  rw [compBody_eq_bind, compBody_eq_bind]
  refine (beforeCheck_twins h).bind_within (beforeCheck_within s) (beforeCheck_within t) fun _ u v huv hu hv => ?_
  have hsame : v.force = u.force :=
    ((hv.same .ctrl (by decide)).1.trans hforce).trans (hu.same .ctrl (by decide)).1.symm
  exact (checkBody_twins huv hsame).bind fun _ _ _ h => afterCheck_twins h

/-- The next states of twin runs are twins. -/
theorem Flow.Twins.next {x y : Flow Unit} (h : x.Twins y) {s t : State} (hs : x.toOutcome = .next s)
    (ht : y.toOutcome = .next t) : Twin s t := by
  cases h with
  | go a h => cases hs; cases ht; exact h
  | ended h => cases hs; cases ht; exact h
  | stuck f => cases hs

end Sys2Proof.Machine

namespace Sys2Proof.Safety

open Sys2Proof Sys2Proof.Machine

/-- In IDLE only what CLR keeps may differ: CTRL, the host's list, the NODE memory, IN and the parameters (R80). -/
theorem Inv.twin_of_idle {s t : State} (hs : Inv s) (ht : Inv t) (hps : s.phase = .idle) (hpt : t.phase = .idle)
    (hinp : s.inp = t.inp) (hcfg : s.cfg = t.cfg) : Twin s t := by
  have hnn : s.nnodes = 0 := hs.idle hps ▸ rfl
  refine ⟨t.host, t.force, t.tailskip, t.node, ?_, fun n hn => absurd hn (by omega)⟩
  rw [← hs.idle hps, ← ht.idle hpt]
  simp only [State.variant, State.cleared, hinp, hcfg]

/-- Settles O35: the runs start in twins, so they end in twins, and COMP writes neither CTRL nor the host's list. -/
theorem compDependsOnInputAndForceOnly : Obligations.CompDependsOnInputAndForceOnly := by
  intro s s' t t' hs hs' hp hp' hinp hforce hcfg ht ht'
  obtain ⟨hf, -⟩ := (exec_same ht .ctrl).resolve_right (by decide)
  obtain ⟨hf', htail'⟩ := (exec_same ht' .ctrl).resolve_right (by decide)
  obtain ⟨-, hhost', -⟩ := exec_const ht'
  rw [exec_comp hp] at ht
  rw [exec_comp hp'] at ht'
  obtain ⟨host, force, tailskip, node, rfl, hread⟩ :=
    (compBody_twins (hs.twin_of_idle hs' hp hp' hinp hcfg) hforce.symm).next ht ht'
  obtain ⟨rfl, rfl, rfl⟩ : host = s'.host ∧ force = t.force ∧ tailskip = s'.tailskip :=
    ⟨hhost', hf'.trans (hforce.symm.trans hf.symm), htail'⟩
  exact ⟨rfl, hread⟩

end Sys2Proof.Safety

/-! PROOFS. The bit unpacker by the bits still unread, and DHDR (20_memory.md R45, 44_decoder.md R130). -/

namespace Sys2Proof.Machine

open Sys2Proof Sys2Proof.Safety

/-! ## Reading by the unread bits -/

/-- The state with the bit cursor moved over `n` bits. -/
def State.skip (n : Nat) (s : State) : State := { s with bitPos := s.bitPos + n }

theorem State.skip_skip (m n : Nat) (s : State) : (s.skip m).skip n = s.skip (m + n) := by
  simp only [State.skip, Nat.add_assoc]

theorem State.unread_skip (n : Nat) (s : State) : (s.skip n).unread = s.unread.drop n := List.drop_drop.symm

/-- Moving the cursor over the first of the unread bits leaves the others. -/
theorem State.unread_skip_of_append {s : State} {bs rest : Bits} (h : s.unread = bs ++ rest) :
    (s.skip bs.length).unread = rest := by
  rw [State.unread_skip, h, List.drop_left]

/-- `ReadBit` with a bit unread (R45). -/
theorem State.readBit_of_unread {s : State} {b : Bool} {rest : Bits} (h : s.unread = b :: rest) :
    s.readBit = some (b, s.skip 1) := by
  have hleft : s.bitsLeft ≠ 0 := by
    rw [← s.unread_length, h]
    exact Nat.succ_ne_zero _
  cases hread : s.readBit with
  | none => exact absurd (State.readBit_eq_none.mp hread) hleft
  | some p =>
    obtain ⟨b', t⟩ := p
    have hfirst := (State.readBit_unread hread).symm.trans h
    obtain ⟨-, -, rfl⟩ := State.readBit_eq_some.mp hread
    rw [(List.cons.inj hfirst).1]
    rfl

/-- `ReadBit` with no bit unread (R45). -/
theorem State.readBit_of_unread_nil {s : State} (h : s.unread = []) : s.readBit = none :=
  State.readBit_eq_none.mpr (s.unread_length ▸ h ▸ rfl)

theorem byteBits_injective : Function.Injective byteBits := Function.LeftInverse.injective shiftIn_byteBits

/-- `Read8` where a byte is needed and eight bits are unread (R45). -/
theorem needByte_of_unread {s : State} {v : Byte} {rest : Bits} (h : s.unread = byteBits v ++ rest) :
    needByte s = .go v (s.skip 8) := by
  unfold needByte
  cases hread : s.read8 with
  | none =>
    have hlen := s.unread_length.trans_lt (State.read8_eq_none.mp hread)
    rw [h, List.length_append, byteBits_length] at hlen
    omega
  | some p =>
    obtain ⟨w, t⟩ := p
    obtain ⟨-, hw, rfl⟩ := State.read8_eq_some hread
    rw [byteBits_injective (List.append_inj_left (hw.symm.trans h) rfl)]
    rfl

/-- `Read8` where a byte is needed and too few bits are unread (R130, R131). -/
theorem needByte_of_short {s : State} (h : s.unread.length < 8) : needByte s = raiseEos s := by
  rw [needByte, State.read8_eq_none.mpr (s.unread_length ▸ h)]

/-- At byte `k` of IN the unread bits begin with the bits of that byte, if LIMIT lies behind it (R44, R45). -/
theorem State.unread_of_byte {s : State} {k : Nat} {v : Byte} (hpos : s.bitPos = 8 * k) (hlim : 8 * k + 8 ≤ s.limit)
    (hv : s.inp[k]? = some v) : s.unread = byteBits v ++ (s.skip 8).unread := by
  obtain ⟨hk, rfl⟩ := List.getElem?_eq_some_iff.mp hv
  have hlen : (streamBits (s.inp.take k)).length = 8 * k := by
    rw [streamBits_length, List.length_take, Nat.min_eq_left hk.le]
  have hbits : streamBits s.inp = streamBits (s.inp.take k) ++ (byteBits s.inp[k] ++ streamBits (s.inp.drop (k + 1))) := by
    rw [← streamBits_singleton, ← streamBits_append, ← streamBits_append, List.singleton_append, List.cons_getElem_drop_succ,
      List.take_append_drop]
  have hunread : s.unread = byteBits s.inp[k] ++ (streamBits (s.inp.drop (k + 1))).take (s.limit - 8 * k - 8) := by
    rw [State.unread, hpos, List.drop_take, hbits, ← hlen, List.drop_left, hlen, List.take_append, byteBits_length,
      List.take_of_length_le (by rw [byteBits_length]; omega)]
  have hskip : (s.skip 8).unread = _ := State.unread_skip_of_append hunread
  rw [hskip, hunread]

/-! ## DHDR -/

theorem exec_dhdr {s : State} (hp : s.phase = .idle) : exec .dhdr s = (dhdrBody s).toOutcome :=
  exec_of_legal (by simp) rfl ⟨by simp [legalPhases, hp], trivial⟩

/-- DHDR with too few bits for the first byte (R130). -/
theorem dhdrBody_of_short {s : State} (h : s.unread.length < 8) : dhdrBody s = raiseEos s := by
  rw [dhdrBody, needByte_of_short h]
  rfl

/-- DHDR with a first byte that is not the magic's (R130). -/
theorem dhdrBody_of_wrong_first {s : State} {v : Byte} {rest : Bits} (h : s.unread = byteBits v ++ rest)
    (hv : v ≠ Config.magic0) : dhdrBody s = .ended ((s.skip 8).raise .corruptHeader (symInfo v)) := by
  rw [dhdrBody, needByte_of_unread h, Flow.bind_go, if_neg hv]

/-- DHDR with the first byte of the magic and too few bits for the second (R130). -/
theorem dhdrBody_of_short_second {s : State} {rest : Bits} (h : s.unread = byteBits Config.magic0 ++ rest)
    (hrest : rest.length < 8) : dhdrBody s = raiseEos (s.skip 8) := by
  have hskip : (s.skip 8).unread = rest := State.unread_skip_of_append h
  rw [dhdrBody, needByte_of_unread h, Flow.bind_go, if_pos rfl, needByte_of_short (hskip ▸ hrest)]
  rfl

/-- DHDR with the first byte of the magic and any second byte (R130). -/
theorem dhdrBody_of_second {s : State} {v : Byte} {rest : Bits}
    (h : s.unread = byteBits Config.magic0 ++ (byteBits v ++ rest)) :
    dhdrBody s = if v = Config.magic1 then .go () { s.skip 16 with phase := .dhdrOk }
      else .ended ((s.skip 16).raise .corruptHeader (symInfo v + 0x100#64)) := by
  have hskip : (s.skip 8).unread = byteBits v ++ rest := State.unread_skip_of_append h
  rw [dhdrBody, needByte_of_unread h, Flow.bind_go, if_pos rfl, needByte_of_unread hskip, Flow.bind_go, State.skip_skip]

/-- DHDR on the magic (R130). -/
theorem dhdrBody_of_magic {s : State} {rest : Bits} (h : s.unread = magicBits ++ rest) :
    dhdrBody s = .go () { s.skip 16 with phase := .dhdrOk } :=
  (dhdrBody_of_second (v := Config.magic1) h).trans (if_pos rfl)

theorem symInfo_add_0x100_toNat (v : Byte) : (symInfo v + 0x100#64).toNat = 0x100 + v.toNat := by
  have hv := v.isLt
  rw [BitVec.toNat_add, symInfo_toNat, BitVec.toNat_ofNat]
  omega

end Sys2Proof.Machine

namespace Sys2Proof.Safety

open Sys2Proof Sys2Proof.Machine

/-- Settles O36: the two bytes of IN as the first unread bits, one after the other. -/
theorem dhdrChecksTheMagic : Obligations.DhdrChecksTheMagic := by
  refine ⟨onlyLegalIn rfl, fun s hp hpos => ?_⟩
  have hlen : s.unread.length = s.limit := by rw [s.unread_length, State.bitsLeft, hpos, Nat.sub_zero]
  have hskip (n : Nat) : s.skip n = { s with bitPos := n } := by rw [State.skip, hpos, Nat.zero_add]
  have hfirst {v : Byte} (hlim : 8 ≤ s.limit) (hv : s.inp[0]? = some v) : s.unread = byteBits v ++ (s.skip 8).unread :=
    State.unread_of_byte (k := 0) hpos hlim hv
  have hboth {v w : Byte} (hlim : 16 ≤ s.limit) (hv : s.inp[0]? = some v) (hw : s.inp[1]? = some w) :
      s.unread = byteBits v ++ (byteBits w ++ ((s.skip 8).skip 8).unread) := by
    rw [← State.unread_of_byte (s := s.skip 8) (k := 1) (by rw [hskip]) hlim hw]
    exact hfirst (by omega) hv
  rw [exec_dhdr hp]
  refine ⟨fun hlim => ?_, fun v hlim hv hne => ?_, fun hlim hlim' hv => ?_, fun v hlim hv hw hne => ?_, fun hlim hv hw => ?_⟩
  · rw [dhdrBody_of_short (hlen ▸ hlim)]
    exact ⟨_, rfl, by rw [State.raise_errinfo, hpos]; rfl, rfl⟩
  · rw [dhdrBody_of_wrong_first (hfirst hlim hv) hne, hskip]
    exact ⟨_, rfl, symInfo_toNat v, rfl⟩
  · rw [dhdrBody_of_short_second (hfirst hlim hv) (by rw [State.unread_skip, List.length_drop, hlen]; omega), hskip]
    exact ⟨_, rfl, rfl, rfl⟩
  · rw [dhdrBody_of_second (hboth hlim hv hw), if_neg (by exact hne), hskip]
    exact ⟨_, rfl, symInfo_add_0x100_toNat v, rfl⟩
  · rw [dhdrBody_of_magic (hboth hlim hv hw), hskip]
    rfl

end Sys2Proof.Safety

/-! PROOFS. DTREE on a serialized tree: it reads exactly those bits and lays the tree out in preorder (44_decoder.md R131, R137). -/

namespace Sys2Proof.Machine

open Sys2Proof Sys2Proof.Safety

/-! ## Serialized trees and subtrees in preorder -/

theorem Tree.height_lt_size (T : Tree) : T.height < T.size := by
  induction T with
  | leaf x w => exact Nat.one_pos
  | node w l r ihl ihr => simp only [Tree.height, Tree.size]; omega

theorem Tree.preorder_length (T : Tree) : T.preorder.length = T.size := by
  induction T with
  | leaf x w => rfl
  | node w l r ihl ihr =>
    rw [Tree.preorder, List.length_cons, List.length_append, ihl, ihr, Tree.size, Nat.add_comm 1, Nat.add_right_comm]

/-- A subtree of a tree laid out is laid out from the handle that is its place in preorder (R131). -/
theorem LaidAt.of_preorder {m : Memory} {n k : Nat} {T U : Tree} (h : LaidAt m n T) (hk : T.preorder[k]? = some U) :
    LaidAt m (n + k) U := by
  induction T generalizing n k with
  | leaf x w =>
    obtain ⟨hlt, rfl⟩ := List.getElem?_eq_some_iff.mp hk
    obtain rfl : k = 0 := Nat.lt_one_iff.mp hlt
    exact h
  | node w l r ihl ihr =>
    cases k with
    | zero =>
      obtain rfl := Option.some.inj hk
      exact h
    | succ k =>
      obtain ⟨-, hl, hr⟩ := h
      rw [Tree.preorder, List.getElem?_cons_succ] at hk
      obtain hlt | hge := Nat.lt_or_ge k l.size
      · rw [List.getElem?_append_left (by rwa [Tree.preorder_length])] at hk
        rw [show n + (k + 1) = n + 1 + k by omega]
        exact ihl hl hk
      · rw [List.getElem?_append_right (by rwa [Tree.preorder_length]), Tree.preorder_length] at hk
        rw [show n + (k + 1) = n + 1 + l.size + (k - l.size) by omega]
        exact ihr hr hk

/-- No serialized tree is the beginning of another (R71). -/
theorem Tree.ser_append_inj {T U : Tree} {as bs : Bits} (h : T.ser ++ as = U.ser ++ bs) : T.ser = U.ser ∧ as = bs := by
  induction T generalizing U as bs with
  | leaf x w =>
    cases U with
    | leaf y v => exact List.append_inj h rfl
    | node v l' r' => exact absurd (List.cons.inj h).1 Bool.false_ne_true
  | node w l r ihl ihr =>
    cases U with
    | leaf y v => exact absurd (List.cons.inj h).1.symm Bool.false_ne_true
    | node v l' r' =>
      have htail : l.ser ++ (r.ser ++ as) = l'.ser ++ (r'.ser ++ bs) := by
        rw [← List.append_assoc, ← List.append_assoc]
        exact (List.cons.inj h).2
      obtain ⟨hl, htail⟩ := ihl htail
      obtain ⟨hr, hrest⟩ := ihr htail
      exact ⟨by rw [Tree.ser, Tree.ser, hl, hr], hrest⟩

/-! ## One call of `build()` -/

/-- What a call of `build()` that reads `T` leaves: the tree laid out, its handles taken and its bits read; nothing else. -/
structure Deserialized (s : State) (n : Handle) (t : State) (T : Tree) : Prop where
  built : Built s n t T
  frame : t = { s with node := t.node, nnodes := t.nnodes, bitPos := s.bitPos + T.ser.length }

theorem Deserialized.unread {s t : State} {n : Handle} {T : Tree} (h : Deserialized s n t T) :
    t.unread = s.unread.drop T.ser.length := by
  rw [h.frame]
  exact s.unread_skip T.ser.length

/-- An entry there was before a call of `build()` reads the same after it. -/
theorem Built.readNode_before {s t : State} {n h : Handle} {T : Tree} {e : NodeEntry} (hT : Built s n t T)
    (he : s.readNode h = some e) : t.readNode h = some e := by
  obtain ⟨hlt, hread⟩ := State.readNode_eq_some.mp he
  exact State.readNode_eq_some.mpr ⟨by rw [hT.nnodes]; omega, (hT.before _ hlt).trans hread⟩

/-- A parent in place, its left subtree built behind it, its right subtree behind that: the parent with its two links is a
tree laid out. -/
theorem Built.parent {s u v : State} {l r : Handle} {L R : Tree} (hroom : s.nnodes < Config.nodeCap)
    (hL : Built (s.withNew (parentEntry 0 Config.nil Config.nil)) l u L)
    (hR : Built (u.putNode (BitVec.ofNat 9 s.nnodes) (parentEntry 0 l Config.nil)) r v R) (w : Nat) :
    Built s (BitVec.ofNat 9 s.nnodes) (v.putNode (BitVec.ofNat 9 s.nnodes) (parentEntry 0 l r)) (.node w L R) := by
  have hn := handle_toNat hroom
  have hnu : u.nnodes = s.nnodes + 1 + L.size := hL.nnodes
  have hnv : v.nnodes = s.nnodes + 1 + L.size + R.size := hR.nnodes.trans (by rw [State.putNode_nnodes, hnu])
  have hnew (k : Nat) : (s.withNew (parentEntry 0 Config.nil Config.nil)).node.read k = _ := withNew_read hroom k
  have hu (k : Nat) : (u.putNode (BitVec.ofNat 9 s.nnodes) (parentEntry 0 l Config.nil)).node.read k = _ :=
    (Memory.read_write ..).trans (by rw [hn])
  have hv (k : Nat) : (v.putNode (BitVec.ofNat 9 s.nnodes) (parentEntry 0 l r)).node.read k = _ :=
    (Memory.read_write ..).trans (by rw [hn])
  have hleft (k : Nat) (hk : k < s.nnodes + 1 + L.size) (hne : k ≠ s.nnodes) : v.node.read k = u.node.read k :=
    (hR.before k (by rw [State.putNode_nnodes]; omega)).trans ((hu k).trans (if_neg hne))
  refine ⟨rfl, ⟨?_, ?_, ?_⟩, ?_, hR.cap, fun k hk => ?_⟩
  · rw [hv, if_pos rfl, hL.handle, hR.handle, State.putNode_nnodes, hnu]
    rfl
  · refine hL.laid.congr fun k h1 h2 => ?_
    have h1 : s.nnodes + 1 ≤ k := h1
    exact (hv k).trans ((if_neg (by omega)).trans (hleft k h2 (by omega)))
  · have hlaid := hR.laid
    rw [State.putNode_nnodes, hnu] at hlaid
    exact hlaid.congr fun k h1 h2 => (hv k).trans (if_neg (by omega))
  · rw [State.putNode_nnodes, hnv, Tree.size]
    omega
  · rw [hv, if_neg (by omega), hleft k (by omega) (by omega), hL.before k (Nat.lt_succ_of_lt hk), hnew, if_neg (by omega)]

/-- A call of `build()` behind its flag bit, a handle being left (R131). -/
theorem buildTree_succ {s : State} {f : Bool} {rest : Bits} (fuel : Nat) (h : s.unread = f :: rest)
    (hroom : s.nnodes < Config.nodeCap) :
    buildTree (fuel + 1) s =
      if f then
        (buildTree fuel ((s.skip 1).withNew (parentEntry 0 Config.nil Config.nil))).bind fun l u =>
          (u.changeNode (BitVec.ofNat 9 (s.skip 1).nnodes) fun e => { e with left := l }).bind fun _ u =>
            (buildTree fuel u).bind fun r u =>
              (u.changeNode (BitVec.ofNat 9 (s.skip 1).nnodes) fun e => { e with right := r }).bind fun _ u =>
                .go (BitVec.ofNat 9 (s.skip 1).nnodes) u
      else
        (needByte { s.skip 1 with nnodes := s.nnodes + 1 }).bind fun sym u =>
          .go (BitVec.ofNat 9 s.nnodes) (u.putNode (BitVec.ofNat 9 s.nnodes) (leafEntry sym 0)) := by
  have hroom' : (s.skip 1).nnodes < Config.nodeCap := hroom
  rw [buildTree, State.readBit_of_unread h]
  dsimp only
  rw [if_neg hroom'.ne, State.takeHandle_eq_go.mpr ⟨hroom', rfl, rfl⟩, Flow.bind_go]
  rfl

/-- The two subtrees of a node built one after the other, and its links to them (R131). -/
theorem buildParent_eq {b : State → Flow Handle} {s u v : State} {l r : Handle} {L R : Tree} (hroom : s.nnodes < Config.nodeCap)
    (hu : b (s.withNew (parentEntry 0 Config.nil Config.nil)) = .go l u)
    (hL : Built (s.withNew (parentEntry 0 Config.nil Config.nil)) l u L)
    (hv : b (u.putNode (BitVec.ofNat 9 s.nnodes) (parentEntry 0 l Config.nil)) = .go r v)
    (hR : Built (u.putNode (BitVec.ofNat 9 s.nnodes) (parentEntry 0 l Config.nil)) r v R) :
    ((b (s.withNew (parentEntry 0 Config.nil Config.nil))).bind fun l u =>
      (u.changeNode (BitVec.ofNat 9 s.nnodes) fun e => { e with left := l }).bind fun _ u =>
        (b u).bind fun r u => (u.changeNode (BitVec.ofNat 9 s.nnodes) fun e => { e with right := r }).bind fun _ u =>
          Flow.go (BitVec.ofNat 9 s.nnodes) u) =
      .go (BitVec.ofNat 9 s.nnodes) (v.putNode (BitVec.ofNat 9 s.nnodes) (parentEntry 0 l r)) := by
  have hn := handle_toNat hroom
  have hnew : (s.withNew (parentEntry 0 Config.nil Config.nil)).readNode (BitVec.ofNat 9 s.nnodes) = _ :=
    State.readNode_eq_some.mpr ⟨hn.trans_lt (Nat.lt_succ_self _), (withNew_read hroom _).trans (if_pos hn)⟩
  have hleft := readNode_putNode_same (parentEntry 0 l Config.nil) (hL.readNode_before hnew)
  rw [hu, Flow.bind_go, State.changeNode_eq_go.mpr ⟨_, hL.readNode_before hnew, rfl⟩, Flow.bind_go]
  refine (congrArg (Flow.bind · _) hv).trans ?_
  rw [Flow.bind_go, State.changeNode_eq_go.mpr ⟨_, hR.readNode_before hleft, rfl⟩, Flow.bind_go]
  rfl

/-- `build()` where the unread bits begin with a serialized tree there are handles for: it reads that tree (R131, R137). -/
theorem buildTree_of_ser {T : Tree} {fuel : Nat} {s : State} {rest : Bits} (h : s.unread = T.ser ++ rest)
    (hcap : s.nnodes + T.size ≤ Config.nodeCap) (hfuel : T.height < fuel) :
    ∃ n t, buildTree fuel s = .go n t ∧ Deserialized s n t T := by
  induction T generalizing fuel s rest with
  | leaf x w =>
    obtain ⟨fuel, rfl⟩ := Nat.exists_eq_succ_of_ne_zero (Nat.ne_zero_of_lt hfuel)
    have hroom : s.nnodes < Config.nodeCap := hcap
    have hbyte : ({ s.skip 1 with nnodes := s.nnodes + 1 } : State).unread = byteBits x ++ rest :=
      State.unread_skip_of_append (bs := [false]) h
    have hread (k : Nat) : (s.node.write (BitVec.ofNat 9 s.nnodes).toNat (leafEntry x 0)).read k = _ :=
      (Memory.read_write ..).trans (by rw [handle_toNat hroom])
    rw [buildTree_succ fuel h hroom, if_neg Bool.false_ne_true, needByte_of_unread hbyte, Flow.bind_go]
    exact ⟨_, _, rfl, ⟨rfl, (hread _).trans (if_pos rfl), rfl, hcap, fun k hk => (hread k).trans (if_neg hk.ne)⟩, rfl⟩
  | node w l r ihl ihr =>
    obtain ⟨fuel, rfl⟩ := Nat.exists_eq_succ_of_ne_zero (Nat.ne_zero_of_lt hfuel)
    have hsize : (Tree.node w l r).size = 1 + l.size + r.size := rfl
    have hheight : (Tree.node w l r).height = max l.height r.height + 1 := rfl
    have hroom : s.nnodes < Config.nodeCap := by omega
    have hbits : s.unread = true :: (l.ser ++ (r.ser ++ rest)) := by
      rw [h, Tree.ser, List.cons_append, List.append_assoc]
    have hunread : ((s.skip 1).withNew (parentEntry 0 Config.nil Config.nil)).unread = l.ser ++ (r.ser ++ rest) :=
      State.unread_skip_of_append (bs := [true]) hbits
    obtain ⟨a, u, hu, hL⟩ := ihl hunread (show s.nnodes + 1 + l.size ≤ _ by omega) (show l.height < fuel by omega)
    have hnu : u.nnodes = s.nnodes + 1 + l.size := hL.built.nnodes
    obtain ⟨b, v, hv, hR⟩ := ihr (s := u.putNode (BitVec.ofNat 9 s.nnodes) (parentEntry 0 a Config.nil)) (rest := rest)
      (hL.unread.trans (by rw [hunread, List.drop_left])) (show u.nnodes + r.size ≤ _ by omega)
      (show r.height < fuel by omega)
    have hB := hL.built.parent (s := s.skip 1) hroom hR.built w
    rw [buildTree_succ fuel hbits hroom, if_pos rfl, buildParent_eq (s := s.skip 1) hroom hu hL.built hv hR.built]
    refine ⟨_, _, rfl, ⟨hB.handle, hB.laid, hB.nnodes, hB.cap, hB.before⟩, ?_⟩
    have hpos : s.bitPos + (Tree.node w l r).ser.length = s.bitPos + 1 + l.ser.length + r.ser.length := by
      rw [Tree.ser, List.length_cons, List.length_append]
      omega
    rw [hpos, hR.frame, hL.frame]
    rfl

/-! ## DTREE -/

theorem exec_dtree {s : State} (hp : s.phase = .dhdrOk) : exec .dtree s = (dtreeBody s).toOutcome :=
  exec_of_legal (by simp) rfl ⟨by simp [legalPhases, hp], trivial⟩

/-- The state after DTREE has read `T`, the memory `m` holding its nodes (R131). -/
def State.withTree (s : State) (m : Memory) (T : Tree) : State :=
  { s with node := m, nnodes := T.size, root := 0#9, bitPos := s.bitPos + T.ser.length, degen := T.isLeaf, phase := .dtreeOk }

theorem readBy_withTree {m : Memory} {T : Tree} (hm : LaidAt m 0 T) (hcap : T.size ≤ Config.nodeCap) (s : State) :
    ReadBy (s.withTree m T) T.zeroed := readBy_of_laidAt hm rfl hcap rfl rfl

theorem Tree.isLeaf_zeroed (T : Tree) : T.zeroed.isLeaf = T.isLeaf := by
  cases T <;> rfl

/-- DTREE where the unread bits begin with a serialized tree of at most 511 nodes (R131, R137). -/
theorem dtreeBody_of_ser {s : State} {T : Tree} {rest : Bits} (h : s.unread = T.ser ++ rest) (hcap : T.size ≤ Config.nodeCap) :
    ∃ m, LaidAt m 0 T ∧ dtreeBody s = .go () (s.withTree m T) := by
  obtain ⟨n, t, ht, hD⟩ := buildTree_of_ser (s := { s with nnodes := 0 }) (fuel := walkFuel) h
    (show 0 + T.size ≤ _ by rwa [Nat.zero_add]) (T.height_lt_size.trans_le (hcap.trans (by decide)))
  have hn : n = 0#9 := hD.built.handle
  have hnodes : t.nnodes = T.size := hD.built.nnodes.trans (Nat.zero_add _)
  have hlaid : LaidAt t.node 0 T := hD.built.laid
  have hroot : TreeOf t n T.zeroed := hn ▸ hlaid.treeOf (by omega) hD.built.cap
  obtain ⟨e, he, hleaf, -⟩ := hroot.root
  have hread : ({ t with root := n } : State).readNode n = some e := he
  refine ⟨t.node, hlaid, ?_⟩
  rw [dtreeBody, ht, Flow.bind_go]
  dsimp only
  rw [State.needNode_some hread, Flow.bind_go, hleaf, T.isLeaf_zeroed, hn, hD.frame, hnodes]
  rfl

theorem needByte_reads {s t : State} {v : Byte} (h : needByte s = .go v t) : s.unread = byteBits v ++ t.unread := by
  unfold needByte at h
  split at h
  · rename_i w u hu
    cases h
    exact (State.read8_eq_some hu).2.1
  · cases h

/-- What `build()` goes on with was a serialized tree, read whole (R131). -/
theorem buildTree_reads {fuel : Nat} {s t : State} {n : Handle} (h : buildTree fuel s = .go n t) :
    ∃ T : Tree, s.unread = T.ser ++ t.unread := by
  induction fuel generalizing s t n with
  | zero => cases h
  | succ fuel ih =>
    rw [buildTree] at h
    split at h
    · cases h
    · rename_i f u hu
      have hflag := State.readBit_unread hu
      split at h
      · cases h
      · obtain ⟨a, v, hv, h⟩ := Flow.bind_eq_go.mp h
        obtain ⟨-, -, rfl⟩ := State.takeHandle_eq_go.mp hv
        split at h
        · rename_i hf
          obtain ⟨l, v, hl, h⟩ := Flow.bind_eq_go.mp h
          obtain ⟨⟨⟩, v', hv', h⟩ := Flow.bind_eq_go.mp h
          obtain ⟨r, w, hr, h⟩ := Flow.bind_eq_go.mp h
          obtain ⟨⟨⟩, w', hw', h⟩ := Flow.bind_eq_go.mp h
          obtain ⟨_, -, rfl⟩ := State.changeNode_eq_go.mp hv'
          obtain ⟨_, -, rfl⟩ := State.changeNode_eq_go.mp hw'
          obtain ⟨L, hL⟩ := ih hl
          obtain ⟨R, hR⟩ := ih hr
          cases h
          refine ⟨.node 0 L R, ?_⟩
          rw [hflag, hf, Tree.ser, List.cons_append, List.append_assoc]
          exact congrArg (true :: ·) (hL.trans (congrArg (L.ser ++ ·) hR))
        · rename_i hf
          obtain ⟨x, v, hx, h⟩ := Flow.bind_eq_go.mp h
          cases h
          rw [Bool.not_eq_true] at hf
          have hbyte := needByte_reads hx
          refine ⟨.leaf x 0, ?_⟩
          rw [hflag, hf]
          exact congrArg (false :: ·) hbyte

/-- DTREE where the bits end inside a serialized tree: it faults, with nothing emitted (R131). -/
theorem dtreeBody_of_cut {s : State} {T : Tree} (h : s.unread <+: T.ser) (hlt : s.unread.length < T.ser.length) :
    ∃ t, dtreeBody s = .ended t ∧ t.out = s.out := by
  have hspec := dtreeBody_spec s
  have hwithin := dtreeBody_within s
  cases hflow : dtreeBody s with
  | go a t =>
    obtain ⟨n, u, hu, -⟩ := Flow.bind_eq_go.mp hflow
    obtain ⟨U, hU⟩ := buildTree_reads hu
    have hU : s.unread = U.ser ++ u.unread := hU
    obtain ⟨more, hmore⟩ := h
    have hser : U.ser ++ (u.unread ++ more) = T.ser ++ [] := by
      rw [← List.append_assoc, ← hU, hmore, List.append_nil]
    have hle := congrArg List.length hU
    rw [(Tree.ser_append_inj hser).1, List.length_append] at hle
    omega
  | ended t =>
    rw [hflow] at hwithin
    exact ⟨t, rfl, hwithin.1.same .out (by decide)⟩
  | stuck f => exact (hflow ▸ hspec).elim

end Sys2Proof.Machine

namespace Sys2Proof.Safety

open Sys2Proof Sys2Proof.Machine

/-- Settles O37: the memory after DTREE holds the tree laid out, each subtree at its place in preorder. -/
theorem dtreeInvertsTheSerialization : Obligations.DtreeInvertsTheSerialization := by
  refine ⟨onlyLegalIn rfl, fun s T rest hp h hcap => ?_⟩
  obtain ⟨m, hm, hgo⟩ := dtreeBody_of_ser h hcap
  have hread := readBy_withTree hm hcap s
  have hexec : exec .dtree s = .next (s.withTree m T) := by rw [exec_dtree hp, hgo, Flow.toOutcome_go]
  have hsub {n : Nat} {U : Tree} (hU : T.preorder[n]? = some U) : LaidAt m n U := by
    have := hm.of_preorder hU
    rwa [Nat.zero_add] at this
  refine ⟨_, hexec, hread.tree, rfl, rfl, rfl, State.unread_skip_of_append h, rfl, rfl, ?_, fun n x w hx => hsub hx,
    fun n w l r hx => (hsub hx).1, frameOfUnallocatedNodes .dtree s _ hexec, rfl⟩
  exact hread.unlinked.mono fun n e ⟨hnext, hweight⟩ => ⟨congrArg BitVec.toNat hnext, hweight⟩

end Sys2Proof.Safety

/-! PROOFS. DSYM and DPAYLOAD as walks of the tree by the unread bits (44_decoder.md R132, R133). -/

namespace Sys2Proof.Machine

open Sys2Proof Sys2Proof.Safety

/-! ## Walks and decoding of bit strings -/

/-- The paths through a node that begin with a given branch are those of the subtree there. -/
theorem Tree.cons_mem_paths {w : Nat} {l r : Tree} {x : Byte} {b : Bool} {p : Bits} :
    (x, b :: p) ∈ (Tree.node w l r).paths ↔ (x, p) ∈ (if b then r else l).paths := by
  cases b <;> simp [Tree.paths]

theorem Tree.walk_cons (w : Nat) (l r : Tree) (b : Bool) (bs : Bits) :
    (Tree.node w l r).walk (b :: bs) = (if b then r else l).walk bs := by
  cases b <;> rfl

/-- A walk takes the path of a leaf off the bits (R100, R132). -/
theorem Tree.walk_eq_some {T : Tree} {x : Byte} {bs rest : Bits} :
    T.walk bs = some (x, rest) ↔ ∃ p, (x, p) ∈ T.paths ∧ bs = p ++ rest := by
  induction T generalizing bs with
  | leaf y w => simp [Tree.walk, Tree.paths, eq_comm]
  | node w l r ihl ihr =>
    cases bs with
    | nil => simp [Tree.walk, Tree.mem_paths_node]
    | cons b bs =>
      have ih : (if b then r else l).walk bs = some (x, rest) ↔ ∃ p, (x, p) ∈ (if b then r else l).paths ∧ bs = p ++ rest := by
        cases b
        exacts [ihl, ihr]
      rw [Tree.walk_cons, ih]
      constructor
      · rintro ⟨p, hp, rfl⟩
        exact ⟨b :: p, Tree.cons_mem_paths.mpr hp, rfl⟩
      · rintro ⟨p, hp, h⟩
        cases p with
        | nil => exact absurd rfl (Tree.path_ne_nil rfl hp)
        | cons c p =>
          obtain ⟨rfl, rfl⟩ := List.cons.inj h
          exact ⟨p, Tree.cons_mem_paths.mp hp, rfl⟩

/-- A walk that reads a symbol uses a bit, unless the tree is a leaf. -/
theorem Tree.walk_length_lt {T : Tree} (hT : T.isLeaf = false) {x : Byte} {bs rest : Bits} (h : T.walk bs = some (x, rest)) :
    rest.length < bs.length := by
  obtain ⟨p, hp, rfl⟩ := Tree.walk_eq_some.mp h
  have hpos : 0 < p.length := List.length_pos_of_ne_nil (Tree.path_ne_nil hT hp)
  rw [List.length_append]
  omega

theorem Tree.decodeUpTo_nil {T : Tree} (hT : T.isLeaf = false) (n : Nat) : T.decodeUpTo n [] = [] := by
  cases T with
  | leaf x w => exact absurd hT.symm Bool.false_ne_true
  | node w l r => cases n <;> rfl

/-- More walks than there are bits read nothing more. -/
theorem Tree.decodeUpTo_eq {T : Tree} (hT : T.isLeaf = false) {m n : Nat} {bs : Bits} (hm : bs.length ≤ m) (hn : bs.length ≤ n) :
    T.decodeUpTo m bs = T.decodeUpTo n bs := by
  induction m generalizing n bs with
  | zero =>
    rw [List.eq_nil_of_length_eq_zero (Nat.le_zero.mp hm), Tree.decodeUpTo_nil hT, Tree.decodeUpTo_nil hT]
  | succ m ih =>
    cases n with
    | zero => rw [List.eq_nil_of_length_eq_zero (Nat.le_zero.mp hn), Tree.decodeUpTo_nil hT, Tree.decodeUpTo_nil hT]
    | succ n =>
      rw [Tree.decodeUpTo, Tree.decodeUpTo]
      cases hwalk : T.walk bs with
      | none => rfl
      | some q =>
        have hlt := Tree.walk_length_lt hT hwalk
        exact congrArg (q.1 :: ·) (ih (by omega) (by omega))

/-- The payload of a symbol and more decodes to the symbol and more (R132, R133). -/
theorem Tree.decodeAll_of_walk {T : Tree} (hT : T.isLeaf = false) {x : Byte} {bs rest : Bits} (h : T.walk bs = some (x, rest)) :
    T.decodeAll bs = x :: T.decodeAll rest := by
  have hlt := Tree.walk_length_lt hT h
  rw [Tree.decodeAll, Tree.decodeUpTo_eq hT (Nat.le_refl _) (Nat.le_succ _), Tree.decodeUpTo, h]
  exact congrArg (x :: ·) (Tree.decodeUpTo_eq hT hlt.le (Nat.le_refl _))

/-- A walk the bits' end cuts short gives nothing (R132). -/
theorem Tree.decodeAll_of_cut {T : Tree} {bs : Bits} (h : T.walk bs = none) : T.decodeAll bs = [] := by
  rw [Tree.decodeAll]
  cases hlen : bs.length with
  | zero => rfl
  | succ n => rw [Tree.decodeUpTo, h]

/-! ## DSYM -/

/-- One branch of the tree walker (R132). -/
theorem symbolWalk_branch {s : State} {cur : Handle} {e : NodeEntry} {b : Bool} {rest : Bits} (fuel : Nat)
    (he : s.readNode cur = some e) (hl : e.isLeaf = false) (h : s.unread = b :: rest) :
    symbolWalk (fuel + 1) cur s = symbolWalk fuel (if b then e.right else e.left) (s.skip 1) := by
  rw [symbolWalk, State.needNode_some he, Flow.bind_go, if_neg (by simp [hl]), State.readBit_of_unread h]

theorem TreeOf.branch {s : State} {e : NodeEntry} {l r : Tree} (hl : TreeOf s e.left l) (hr : TreeOf s e.right r) (b : Bool) :
    TreeOf (s.skip 1) (if b then e.right else e.left) (if b then r else l) := by
  cases b
  exacts [treeOf_congr hl, treeOf_congr hr]

/-- The tree walker where the unread bits begin with the path of a leaf (R132). -/
theorem symbolWalk_of_path {T : Tree} {fuel : Nat} {cur : Handle} {s : State} {x : Byte} {p rest : Bits} (hT : TreeOf s cur T)
    (hp : (x, p) ∈ T.paths) (h : s.unread = p ++ rest) (hfuel : p.length < fuel) :
    symbolWalk fuel cur s = .go () ((s.skip p.length).emit x) := by
  induction p generalizing T fuel cur s with
  | nil =>
    cases T with
    | leaf y w =>
      obtain ⟨fuel, rfl⟩ := Nat.exists_eq_succ_of_ne_zero (Nat.ne_zero_of_lt hfuel)
      obtain ⟨e, he, hl, rfl, -⟩ := hT
      obtain ⟨rfl, -⟩ := Prod.mk.inj (List.mem_singleton.mp hp)
      rw [symbolWalk, State.needNode_some he, Flow.bind_go, if_pos hl]
      rfl
    | node w l r => exact absurd rfl (Tree.path_ne_nil rfl hp)
  | cons b p ih =>
    cases T with
    | leaf y w => exact absurd (Prod.mk.inj (List.mem_singleton.mp hp)).2 (List.cons_ne_nil _ _)
    | node w l r =>
      obtain ⟨fuel, rfl⟩ := Nat.exists_eq_succ_of_ne_zero (Nat.ne_zero_of_lt hfuel)
      obtain ⟨e, he, hl, -, h1, h2⟩ := hT
      rw [symbolWalk_branch fuel he hl h, ih (h1.branch h2 b) (Tree.cons_mem_paths.mp hp)
        (State.unread_skip_of_append (bs := [b]) h) (Nat.lt_of_succ_lt_succ hfuel), State.skip_skip, List.length_cons,
        Nat.add_comm]

/-- DSYM at the end of the stream: the bits left are dropped (R132). -/
def State.exhausted (s : State) : State := { s with bitPos := s.bitPos + s.unread.length, outFinal := true, phase := .ddone }

/-- The tree walker where the unread bits end inside the walk (R132). -/
theorem symbolWalk_of_cut {T : Tree} {fuel : Nat} {cur : Handle} {s : State} (hT : TreeOf s cur T)
    (h : T.walk s.unread = none) (hfuel : s.unread.length < fuel) : symbolWalk fuel cur s = .ended s.exhausted := by
  obtain ⟨bs, hbs⟩ : ∃ bs, s.unread = bs := ⟨_, rfl⟩
  induction bs generalizing T fuel cur s with
  | nil =>
    cases T with
    | leaf y w => cases h
    | node w l r =>
      obtain ⟨fuel, rfl⟩ := Nat.exists_eq_succ_of_ne_zero (Nat.ne_zero_of_lt hfuel)
      obtain ⟨e, he, hl, -⟩ := hT
      rw [symbolWalk, State.needNode_some he, Flow.bind_go, if_neg (by simp [hl]), State.readBit_of_unread_nil hbs,
        State.exhausted, hbs]
      rfl
  | cons b bs ih =>
    cases T with
    | leaf y w => cases h
    | node w l r =>
      obtain ⟨fuel, rfl⟩ := Nat.exists_eq_succ_of_ne_zero (Nat.ne_zero_of_lt hfuel)
      obtain ⟨e, he, hl, -, h1, h2⟩ := hT
      have hskip : (s.skip 1).unread = bs := State.unread_skip_of_append (bs := [b]) hbs
      have hpos : s.bitPos + 1 + bs.length = s.bitPos + (b :: bs).length := by rw [List.length_cons]; omega
      rw [hbs, Tree.walk_cons] at h
      rw [hbs, List.length_cons] at hfuel
      rw [symbolWalk_branch fuel he hl hbs, ih (h1.branch h2 b) (hskip.symm ▸ h) (hskip.symm ▸ Nat.lt_of_succ_lt_succ hfuel)
        hskip, State.exhausted, State.exhausted, hskip, hbs, ← hpos]
      rfl

theorem exec_dsym {s : State} (hp : s.phase = .dtreeOk) : exec .dsym s = (dsymBody s).toOutcome :=
  exec_of_legal (by simp) rfl ⟨by simp [legalPhases, hp], trivial⟩

/-- DSYM where the unread bits begin with the path of a leaf (R132). -/
theorem dsymBody_of_path {T : Tree} {s : State} {x : Byte} {p rest : Bits} (hd : s.degen = false) (hT : TreeOf s s.root T)
    (hp : (x, p) ∈ T.paths) (h : s.unread = p ++ rest) : dsymBody s = .go () ((s.skip p.length).emit x) := by
  have hfuel : p.length < s.bitsLeft + 1 := by
    rw [← s.unread_length, h, List.length_append]
    omega
  rw [dsymBody, if_neg (by simp [hd]), symbolWalk_of_path hT hp h hfuel]

/-- DSYM where the unread bits end inside the walk (R132). -/
theorem dsymBody_of_cut {T : Tree} {s : State} (hd : s.degen = false) (hT : TreeOf s s.root T)
    (h : T.walk s.unread = none) : dsymBody s = .ended s.exhausted := by
  rw [dsymBody, if_neg (by simp [hd]), symbolWalk_of_cut hT h (s.unread_length ▸ Nat.lt_succ_self _)]

/-- DSYM on a single-leaf tree (R132). -/
theorem dsymBody_of_degenerate {s : State} {e : NodeEntry} (hd : s.degen = true) (he : s.readNode s.root = some e) :
    dsymBody s = .ended (s.raise .degenerate (symInfo e.sym)) := by
  rw [dsymBody, if_pos hd, raiseDegenerate, State.needNode_some he, Flow.bind_go]

/-! ## DPAYLOAD -/

theorem exec_dpayload {s : State} (hp : s.phase = .dtreeOk) : exec .dpayload s = (dpayloadBody s).toOutcome :=
  exec_of_legal (by simp) rfl ⟨by simp [legalPhases, hp], trivial⟩

/-- DPAYLOAD at its end: the symbols of all unread bits are out and the stream is exhausted (R133). -/
def State.decoded (T : Tree) (s : State) : State :=
  { s with out := s.out ++ T.decodeAll s.unread, bitPos := s.bitPos + s.unread.length, outFinal := true, phase := .ddone }

theorem State.decoded_of_cut {T : Tree} {s : State} (h : T.walk s.unread = none) : s.decoded T = s.exhausted := by
  rw [State.decoded, Tree.decodeAll_of_cut h, List.append_nil]
  rfl

/-- A symbol decoded before the others. -/
theorem State.decoded_of_path {T : Tree} {s : State} {x : Byte} {p rest : Bits} (hleaf : T.isLeaf = false)
    (hp : (x, p) ∈ T.paths) (h : s.unread = p ++ rest) : ((s.skip p.length).emit x).decoded T = s.decoded T := by
  have hrest : ((s.skip p.length).emit x).unread = rest := State.unread_skip_of_append h
  have hout : (s.out ++ [x]) ++ T.decodeAll rest = s.out ++ T.decodeAll s.unread := by
    rw [Tree.decodeAll_of_walk hleaf (Tree.walk_eq_some.mpr ⟨p, hp, h⟩), List.append_assoc, List.singleton_append]
  have hpos : s.bitPos + p.length + rest.length = s.bitPos + s.unread.length := by
    rw [h, List.length_append, Nat.add_assoc]
  rw [State.decoded, State.decoded, hrest, ← hout, ← hpos]
  rfl

/-- DPAYLOAD's loop decodes all unread bits (R133). -/
theorem dpayloadLoop_eq {T : Tree} {fuel : Nat} {s : State} (hd : s.degen = false) (hT : TreeOf s s.root T)
    (hleaf : T.isLeaf = false) (hfuel : s.unread.length < fuel) : dpayloadLoop fuel s = .ended (s.decoded T) := by
  induction fuel generalizing s with
  | zero => exact absurd hfuel (Nat.not_lt_zero _)
  | succ fuel ih =>
    rw [dpayloadLoop]
    cases hwalk : T.walk s.unread with
    | none => rw [dsymBody_of_cut hd hT hwalk, Flow.bind_ended, State.decoded_of_cut hwalk]
    | some q =>
      obtain ⟨x, rest⟩ := q
      have hlt := Tree.walk_length_lt hleaf hwalk
      obtain ⟨p, hp, hbits⟩ := Tree.walk_eq_some.mp hwalk
      have hrest : ((s.skip p.length).emit x).unread = rest := State.unread_skip_of_append hbits
      rw [dsymBody_of_path hd hT hp hbits, Flow.bind_go, ← State.decoded_of_path hleaf hp hbits]
      exact ih hd (treeOf_congr hT) (by rw [hrest]; omega)

theorem dpayloadBody_eq {T : Tree} {s : State} (hd : s.degen = false) (hT : TreeOf s s.root T) (hleaf : T.isLeaf = false) :
    dpayloadBody s = .ended (s.decoded T) := dpayloadLoop_eq hd hT hleaf (s.unread_length ▸ Nat.lt_succ_self _)

/-! ## DPAYLOAD as a sequence of DSYM, from any state -/

/-- The tree walker goes on at a leaf, or takes a branch by the next bit (R132). -/
theorem symbolWalk_succ_go {fuel : Nat} {cur : Handle} {s t : State} (h : symbolWalk (fuel + 1) cur s = .go () t) :
    (∃ e, s.readNode cur = some e ∧ e.isLeaf = true ∧ t = s.emit e.sym) ∨
    ∃ b u next, s.readBit = some (b, u) ∧ symbolWalk fuel next u = .go () t := by
  obtain ⟨e, u, hu, hrest⟩ := Flow.bind_eq_go.mp h
  obtain ⟨he, rfl⟩ := State.needNode_eq_go.mp hu
  split at hrest
  · cases hrest
    exact .inl ⟨e, he, ‹_›, rfl⟩
  · split at hrest
    · cases hrest
    · exact .inr ⟨_, _, _, ‹_›, hrest⟩

/-- The tree walker goes on in the same phase, with no more bits left, whatever the links (R132). -/
theorem symbolWalk_go {fuel : Nat} {cur : Handle} {s t : State} (h : symbolWalk fuel cur s = .go () t) :
    t.phase = s.phase ∧ t.bitsLeft ≤ s.bitsLeft := by
  induction fuel generalizing cur s with
  | zero => cases h
  | succ fuel ih =>
    obtain ⟨e, -, -, rfl⟩ | ⟨b, u, next, hu, hrest⟩ := symbolWalk_succ_go h
    · exact ⟨rfl, Nat.le_refl _⟩
    · have hbits := State.readBit_bitsLeft hu
      obtain ⟨hphase, hle⟩ := ih hrest
      obtain ⟨-, -, rfl⟩ := State.readBit_eq_some.mp hu
      exact ⟨hphase, by omega⟩

/-- DSYM that goes on has read a bit, or found a leaf at ROOT though DEGEN is 0, which no run leaves (R132). -/
theorem dsymBody_go {s t : State} (h : dsymBody s = .go () t) :
    s.degen = false ∧ t.phase = s.phase ∧
      (t.bitsLeft < s.bitsLeft ∨ ∃ e, s.readNode s.root = some e ∧ e.isLeaf = true ∧ t = s.emit e.sym) := by
  unfold dsymBody at h
  split at h
  · obtain ⟨e, u, -, h⟩ := Flow.bind_eq_go.mp h
    cases h
  · rename_i hd
    refine ⟨Bool.not_eq_true _ ▸ hd, (symbolWalk_go h).1, ?_⟩
    obtain hleaf | ⟨b, u, next, hu, hrest⟩ := symbolWalk_succ_go h
    · exact .inr hleaf
    · have hbits := State.readBit_bitsLeft hu
      have hle := (symbolWalk_go hrest).2
      exact .inl (by omega)

/-- With a leaf at ROOT and DEGEN = 0 the loop has no end (R132, log 17). -/
theorem dpayloadLoop_of_leaf {s : State} {e : NodeEntry} (hd : s.degen = false) (he : s.readNode s.root = some e)
    (hl : e.isLeaf = true) (fuel : Nat) : dpayloadLoop fuel s = .stuck .endlessWalk := by
  induction fuel generalizing s with
  | zero => rfl
  | succ fuel ih =>
    have hbody : dsymBody s = .go () (s.emit e.sym) := by
      rw [dsymBody, if_neg (by simp [hd]), symbolWalk, State.needNode_some he, Flow.bind_go, if_pos hl]
    rw [dpayloadLoop, hbody, Flow.bind_go]
    exact ih hd he

/-- More turns than there are bits left change nothing (R133). -/
theorem dpayloadLoop_fuel {m n : Nat} {s : State} (hm : s.bitsLeft < m) (hn : s.bitsLeft < n) :
    dpayloadLoop m s = dpayloadLoop n s := by
  induction m generalizing n s with
  | zero => exact absurd hm (Nat.not_lt_zero _)
  | succ m ih =>
    obtain ⟨n, rfl⟩ := Nat.exists_eq_succ_of_ne_zero (Nat.ne_zero_of_lt hn)
    rw [dpayloadLoop, dpayloadLoop]
    cases hflow : dsymBody s with
    | go a t =>
      obtain ⟨hd, -, hlt | ⟨e, he, hl, rfl⟩⟩ := dsymBody_go hflow
      · exact ih (by omega) (by omega)
      · exact (dpayloadLoop_of_leaf (s := s.emit e.sym) hd he hl m).trans
          (dpayloadLoop_of_leaf (s := s.emit e.sym) hd he hl n).symm
    | ended t => rfl
    | stuck f => rfl

/-- A DSYM that goes on, and then DPAYLOAD, is DPAYLOAD. -/
theorem dpayloadBody_of_go {s t : State} (h : dsymBody s = .go () t) : dpayloadBody s = dpayloadBody t := by
  rw [dpayloadBody, dpayloadLoop, h, Flow.bind_go, dpayloadBody]
  obtain ⟨hd, -, hlt | ⟨e, he, hl, rfl⟩⟩ := dsymBody_go h
  · exact dpayloadLoop_fuel hlt (Nat.lt_succ_self _)
  · exact (dpayloadLoop_of_leaf (s := s.emit e.sym) hd he hl _).trans
      (dpayloadLoop_of_leaf (s := s.emit e.sym) hd he hl _).symm

end Sys2Proof.Machine

namespace Sys2Proof.Safety

open Sys2Proof Sys2Proof.Machine

/-- Settles O39: a walk reads the path of a leaf, or the stream ends inside it. -/
theorem dsymWalksTheTree : Obligations.DsymWalksTheTree := by
  refine ⟨onlyLegalIn rfl, fun s T hp hT => ⟨fun x rest hd _ hwalk => ?_, fun hd _ hwalk => ?_, fun e hd he => ?_⟩⟩
  · obtain ⟨htree, -⟩ := treeAt_eq_some.mp hT
    obtain ⟨p, hpath, hbits⟩ := Tree.walk_eq_some.mp hwalk
    rw [exec_dsym hp, dsymBody_of_path hd htree hpath hbits]
    refine ⟨_, rfl, rfl, State.unread_skip_of_append hbits, ?_, rfl⟩
    rw [hbits, List.length_append]
    exact Nat.add_assoc ..
  · rw [exec_dsym hp, dsymBody_of_cut hd (treeAt_eq_some.mp hT).1 hwalk]
    rfl
  · rw [exec_dsym hp, dsymBody_of_degenerate hd he]
    exact ⟨_, rfl, rfl, symInfo_toNat e.sym, rfl, rfl⟩

/-- Settles O40: the loop of DSYM to the end of the stream, or to the fault of its first turn. -/
theorem dpayloadDecodesTheRest : Obligations.DpayloadDecodesTheRest := by
  refine ⟨onlyLegalIn rfl, fun s T hp hT hd hleaf => ?_, fun s e hp hd he => ?_⟩
  · rw [exec_dpayload hp, dpayloadBody_eq hd (treeAt_eq_some.mp hT).1 hleaf]
    rfl
  · rw [exec_dpayload hp, dpayloadBody, dpayloadLoop, dsymBody_of_degenerate hd he]
    exact ⟨_, rfl, rfl, symInfo_toNat e.sym, rfl, rfl⟩

/-- Settles O41: the loop's first turn is DSYM's pseudocode, and one that ends leaves DTREEOK. -/
theorem dpayloadIsRepeatedDsym : Obligations.DpayloadIsRepeatedDsym := by
  intro s t hp ht
  rw [exec_dsym hp] at ht
  rw [exec_dpayload hp]
  obtain hgo | hended := Flow.toOutcome_eq_next.mp ht
  · obtain ⟨-, hphase, -⟩ := dsymBody_go hgo
    rw [if_pos (hphase.trans hp), exec_dpayload (hphase.trans hp), dpayloadBody_of_go hgo]
  · have hphase : t.phase ≠ .dtreeOk := by
      have hwithin := dsymBody_within s
      rw [hended] at hwithin
      obtain ⟨-, ⟨hf, -⟩ | ⟨hf, -⟩⟩ := hwithin <;> rw [hf] <;> decide
    rw [if_neg hphase, dpayloadBody, dpayloadLoop, hended]
    rfl

end Sys2Proof.Safety

/-! PROOFS. DECOMP: the three steps in sequence, the stream they decode, and their faults (44_decoder.md R134). -/

namespace Sys2Proof.Machine

open Sys2Proof Sys2Proof.Safety

theorem exec_decomp {s : State} (hp : s.phase = .idle) : exec .decomp s = (decompBody s).toOutcome :=
  exec_of_legal (by simp) rfl ⟨by simp [legalPhases, hp], trivial⟩

/-! ## The steps one by one -/

theorem leavesItsPhase_dhdr : LeavesItsPhase .dhdr := fun s =>
  ((needByte_spec s).mono (fun _ _ => id) (fun _ => id) False.elim).bind fun _ t _ => by
    split
    · refine ((needByte_spec t).mono (fun _ _ => id) (fun _ => id) False.elim).bind fun _ u _ => ?_
      split
      · exact List.mem_singleton.mpr rfl
      · rfl
    · rfl

theorem leavesItsPhase_dtree : LeavesItsPhase .dtree := fun s =>
  (dtreeBody_spec s).mono (fun _ _ ⟨hp, _⟩ => List.mem_singleton.mpr hp) (fun _ => id) False.elim

/-- A command and those behind it: they go on from where its pseudocode does, and are dropped where it faults (R150). -/
theorem execAll_cons_eq {i : Instr} {is : List Instr} {k : State → Flow Unit} {s : State} (hx : LeavesItsPhase i)
    (hs : exec i s = (pseudocode i s).toOutcome) (hclr : Instr.clr ∉ is)
    (hk : ∀ t, t.phase ∈ leaves i → execAll is t = (k t).toOutcome) :
    execAll (i :: is) s = ((pseudocode i s).bind fun _ t => k t).toOutcome := by
  have hspec := hx s
  rw [execAll, hs]
  cases hflow : pseudocode i s with
  | go a t =>
    rw [hflow] at hspec
    exact hk t hspec
  | ended t =>
    rw [hflow] at hspec
    exact execAll_of_fault hclr hspec
  | stuck f => rfl

theorem execAll_singleton (i : Instr) (s : State) : execAll [i] s = exec i s := by
  rw [execAll]
  cases exec i s <;> rfl

/-- DHDR, DTREE and DPAYLOAD issued one by one come to what DECOMP's pseudocode does (R134). -/
theorem execAll_decompSteps {s : State} (hp : s.phase = .idle) :
    execAll [.dhdr, .dtree, .dpayload] s = (decompBody s).toOutcome := by
  refine execAll_cons_eq leavesItsPhase_dhdr (exec_dhdr hp) (by decide) fun t ht => ?_
  refine execAll_cons_eq leavesItsPhase_dtree (exec_dtree (List.mem_singleton.mp ht)) (by decide) fun u hu => ?_
  rw [execAll_singleton, exec_dpayload (List.mem_singleton.mp hu)]

/-! ## The stream of a tree -/

theorem Tree.walk_zeroed (T : Tree) (bs : Bits) : T.zeroed.walk bs = T.walk bs := by
  induction T generalizing bs with
  | leaf x w => rfl
  | node w l r ihl ihr =>
    cases bs with
    | nil => rfl
    | cons b bs => rw [Tree.zeroed, Tree.walk, Tree.walk, ihl, ihr]

theorem Tree.decodeAll_zeroed (T : Tree) (bs : Bits) : T.zeroed.decodeAll bs = T.decodeAll bs := by
  have hupto (n : Nat) : T.zeroed.decodeUpTo n bs = T.decodeUpTo n bs := by
    induction n generalizing bs with
    | zero => rfl
    | succ n ih =>
      rw [Tree.decodeUpTo, Tree.decodeUpTo, Tree.walk_zeroed]
      cases T.walk bs with
      | none => rfl
      | some q => exact congrArg (q.1 :: ·) (ih q.2)
  exact hupto bs.length

/-- The state after DECOMP has read `T` and decoded the bits `rest` behind it, the memory `m` holding the nodes (R134). -/
def State.decompressed (s : State) (m : Memory) (T : Tree) (rest : Bits) : State :=
  { s with node := m, nnodes := T.size, root := 0#9, degen := false, out := s.out ++ T.decodeAll rest,
           bitPos := s.bitPos + s.unread.length, outFinal := true, phase := .ddone }

/-- DECOMP on the magic, a serialized tree and more bits: the header and the tree are read, the rest is decoded (R75, R134). -/
theorem decompBody_of_stream {s : State} {T : Tree} {rest : Bits} (h : s.unread = magicBits ++ T.ser ++ rest)
    (hleaf : T.isLeaf = false) (hcap : T.size ≤ Config.nodeCap) :
    ∃ m, LaidAt m 0 T ∧ decompBody s = .ended (s.decompressed m T rest) := by
  rw [List.append_assoc] at h
  have htail : ({ s.skip 16 with phase := .dhdrOk } : State).unread = T.ser ++ rest := State.unread_skip_of_append h
  obtain ⟨m, hm, hgo⟩ := dtreeBody_of_ser htail hcap
  have htree := (readBy_withTree hm hcap { s.skip 16 with phase := .dhdrOk }).treeOf
  have hrest : (({ s.skip 16 with phase := .dhdrOk } : State).withTree m T).unread = rest := State.unread_skip_of_append htail
  have hpos : s.bitPos + 16 + T.ser.length + rest.length = s.bitPos + s.unread.length := by
    have hmagic : magicBits.length = 16 := rfl
    rw [h, List.length_append, List.length_append, hmagic]
    omega
  refine ⟨m, hm, ?_⟩
  rw [decompBody, dhdrBody_of_magic h, Flow.bind_go, hgo, Flow.bind_go,
    dpayloadBody_eq (by exact hleaf) htree (T.isLeaf_zeroed.trans hleaf), State.decoded, Tree.decodeAll_zeroed, hrest,
    State.decompressed, ← hpos, ← hleaf]
  rfl

/-! ## Faults -/

theorem needByte_fault (s : State) : (needByte s).Spec (fun _ _ => True) (fun t => t.err = .unexpectedEos) True := by
  unfold needByte
  split
  · trivial
  · rfl

theorem dhdrBody_fault (s : State) :
    (dhdrBody s).Spec (fun _ _ => True) (fun t => t.err ∈ [.unexpectedEos, .corruptHeader]) True := by
  have hbyte (u : State) := (needByte_fault u).mono (E' := fun t => t.err ∈ [.unexpectedEos, .corruptHeader]) (fun _ _ => id)
    (fun t ht => ht ▸ List.mem_cons_self) id
  refine (hbyte s).bind fun _ t _ => ?_
  split
  · refine (hbyte t).bind fun _ u _ => ?_
    split
    · trivial
    · exact List.mem_cons_of_mem _ List.mem_cons_self
  · exact List.mem_cons_of_mem _ List.mem_cons_self

theorem buildTree_fault (fuel : Nat) (s : State) :
    (buildTree fuel s).Spec (fun _ _ => True) (fun t => t.err ∈ [.unexpectedEos, .nodeOverflow]) True := by
  have hchange (u : State) (n : Handle) (f : NodeEntry → NodeEntry) : (u.changeNode n f).NeverEnds :=
    Flow.neverEnds_of_ne_ended fun _ => State.changeNode_ne_ended
  induction fuel generalizing s with
  | zero => trivial
  | succ fuel ih =>
    rw [buildTree]
    split
    · exact List.mem_cons_self
    · split
      · exact List.mem_cons_of_mem _ List.mem_cons_self
      · refine (Flow.neverEnds_of_ne_ended fun _ => State.takeHandle_ne_ended).bind_spec fun n u => ?_
        split
        · exact (ih _).bind fun _ _ _ => (hchange ..).bind_spec fun _ _ => (ih _).bind fun _ _ _ =>
            (hchange ..).bind_spec fun _ _ => trivial
        · exact ((needByte_fault u).mono (fun _ _ => id) (fun t ht => ht ▸ List.mem_cons_self) id).bind fun _ _ _ => trivial

theorem dtreeBody_fault (s : State) :
    (dtreeBody s).Spec (fun _ _ => True) (fun t => t.err ∈ [.unexpectedEos, .nodeOverflow]) True :=
  (buildTree_fault walkFuel _).bind fun r t _ => (needNode_neverEnds { t with root := r } r).bind_spec fun _ _ => trivial

/-- The tree walker ends a command only at the end of the stream (R132). -/
theorem symbolWalk_ended (fuel : Nat) (cur : Handle) (s : State) :
    (symbolWalk fuel cur s).Spec (fun _ _ => True) (fun t => t.phase = .ddone) True := by
  induction fuel generalizing cur s with
  | zero => trivial
  | succ fuel ih =>
    refine (needNode_neverEnds s cur).bind_spec fun e t => ?_
    split
    · trivial
    · split
      · rfl
      · exact ih _ _

/-- With DEGEN = 0 DPAYLOAD ends only at the end of the stream (R133). -/
theorem dpayloadLoop_ended (fuel : Nat) {s : State} (hd : s.degen = false) :
    (dpayloadLoop fuel s).Spec (fun _ _ => False) (fun t => t.phase = .ddone) True := by
  induction fuel generalizing s with
  | zero => trivial
  | succ fuel ih =>
    have hbody : dsymBody s = symbolWalk (s.bitsLeft + 1) s.root s := if_neg (by simp [hd])
    refine (((hbody ▸ symbolWalk_ended ..).and (dsymBody_within s)).mono (fun _ _ => id) (fun _ => And.left) And.left).bind ?_
    rintro ⟨⟩ t ⟨-, he, -⟩
    have hsame : t.degen = s.degen := he.same .degen (by decide)
    exact ih (hsame.trans hd)

/-- DPAYLOAD ends at the end of the stream, or faults before anything is emitted (R133). -/
theorem dpayloadBody_ended (s : State) :
    (dpayloadBody s).Spec (fun _ _ => False)
      (fun t => t.phase = .ddone ∨ t.err = .degenerate ∧ t.out = s.out ∧ t.outFinal = s.outFinal) True := by
  cases hd : s.degen with
  | false => exact (dpayloadLoop_ended _ hd).mono (fun _ _ => id) (fun _ => .inl) id
  | true =>
    rw [dpayloadBody, dpayloadLoop]
    obtain ⟨e, he, -⟩ | ⟨-, hstuck⟩ := s.needNode_cases s.root
    · rw [dsymBody_of_degenerate hd he]
      exact .inr ⟨rfl, rfl, rfl⟩
    · rw [dsymBody, if_pos hd, raiseDegenerate, hstuck]
      trivial

/-- The codes with which DECOMP may fault (R134). -/
def decompErrs : List ErrCode := [.unexpectedEos, .corruptHeader, .nodeOverflow, .degenerate]

/-- How a DECOMP from `s` faults: nothing is emitted (R134). -/
structure DecompFault (s t : State) : Prop where
  err : t.err ∈ decompErrs
  out : t.out = s.out
  outFinal : t.outFinal = s.outFinal

/-- DECOMP ends at the end of the stream, or faults before anything is emitted (R134). -/
theorem decompBody_ended (s : State) :
    (decompBody s).Spec (fun _ _ => False) (fun t => t.phase = .ddone ∨ DecompFault s t) True := by
  have hheader : [ErrCode.unexpectedEos, .corruptHeader] ⊆ decompErrs := by decide
  have htree : [ErrCode.unexpectedEos, .nodeOverflow] ⊆ decompErrs := by decide
  refine (((dhdrBody_fault s).and (dhdrBody_within s)).mono (fun _ _ => id) ?_ And.left).bind ?_
  · rintro t ⟨herr, he, -⟩
    exact .inr ⟨hheader herr, he.same .out (by decide), he.same .outFinal (by decide)⟩
  rintro ⟨⟩ t ⟨-, ht, -⟩
  refine (((dtreeBody_fault t).and (dtreeBody_within t)).mono (fun _ _ => id) ?_ And.left).bind ?_
  · rintro u ⟨herr, he, -⟩
    have he := (ht.mono (by decide)).trans he
    exact .inr ⟨htree herr, he.same .out (by decide), he.same .outFinal (by decide)⟩
  rintro ⟨⟩ u ⟨-, hu, -⟩
  have hu := (ht.mono (by decide)).trans hu
  refine (dpayloadBody_ended u).mono (fun _ _ => id) ?_ id
  rintro v (hdone | ⟨herr, hout, hfinal⟩)
  · exact .inl hdone
  · exact .inr ⟨herr ▸ by decide, hout.trans (hu.same .out (by decide)), hfinal.trans (hu.same .outFinal (by decide))⟩

end Sys2Proof.Machine

namespace Sys2Proof.Safety

open Sys2Proof Sys2Proof.Machine

/-- Settles O42: DECOMP is the pseudocode of the three in sequence, and so are the three issued one by one. -/
theorem decompIsTheThreeCommands : Obligations.DecompIsTheThreeCommands :=
  ⟨onlyLegalIn rfl, fun _ hp => (exec_decomp hp).trans (execAll_decompSteps hp).symm⟩

/-- Settles O43: header and tree read, all bits behind them decoded. -/
theorem decompDecodesAStream : Obligations.DecompDecodesAStream := by
  intro s T rest hp hpos h hleaf hcap
  obtain ⟨m, hm, hgo⟩ := decompBody_of_stream h hleaf hcap
  have hend : s.bitPos + s.unread.length = s.limit := by
    rw [s.unread_length, State.bitsLeft, hpos, Nat.sub_zero, Nat.zero_add]
  rw [exec_decomp hp, hgo]
  exact ⟨_, rfl, rfl, hend, rfl, rfl, (readBy_of_laidAt (s := s.decompressed m T rest) hm rfl hcap rfl hleaf.symm).tree, rfl⟩

/-- Settles O44: DHDR and DTREE emit nothing, and DPAYLOAD faults before it emits. -/
theorem decompFaultsWithNoOutput : Obligations.DecompFaultsWithNoOutput := by
  intro s t hp ht hfault
  have hspec := decompBody_ended s
  rw [exec_decomp hp] at ht
  obtain hgo | hended := Flow.toOutcome_eq_next.mp ht
  · rw [hgo] at hspec
    exact hspec.elim
  · rw [hended] at hspec
    obtain hdone | ⟨herr, hout, hfinal⟩ := hspec
    · exact absurd (hdone.symm.trans hfault) (by decide)
    · exact ⟨herr, hout, hfinal⟩

end Sys2Proof.Safety

/-! PROOFS. The round trip: DECOMP of what COMP wrote, with padding left in or payload withheld (44_decoder.md R135, R136). -/

namespace Sys2Proof.Machine

open Sys2Proof Sys2Proof.Safety

/-! ## Decoding codes and zeros -/

/-- A walk that ends inside the path of a leaf gives nothing (R102, R132). -/
theorem Tree.walk_of_cut {T : Tree} {x : Byte} {p q : Bits} (hp : (x, p) ∈ T.paths) (hq : q <+: p)
    (hlt : q.length < p.length) : T.walk q = none := by
  cases hwalk : T.walk q with
  | none => rfl
  | some r =>
    obtain ⟨p', hp', rfl⟩ := Tree.walk_eq_some.mp hwalk
    obtain ⟨-, rfl⟩ := Prod.mk.inj (Tree.eq_of_path_prefix hp' hp ((List.prefix_append p' r.2).trans hq))
    rw [List.length_append] at hlt
    omega

/-- The leftmost leaf lies at the end of left branches only (R136). -/
theorem Tree.leftmost_mem_paths (T : Tree) : (T.leftmost.1, List.replicate T.leftmost.2 false) ∈ T.paths := by
  induction T with
  | leaf x w => exact List.mem_cons_self
  | node w l r ihl ihr => exact Tree.cons_mem_paths.mpr ihl

theorem Tree.leftmost_depth_pos {T : Tree} (hT : T.isLeaf = false) : 1 ≤ T.leftmost.2 := by
  cases T with
  | leaf x w => exact absurd hT.symm Bool.false_ne_true
  | node w l r => exact Nat.succ_pos _

section
variable {T : Tree} (hT : T.isLeaf = false)
include hT

/-- Zeros decode to copies of the symbol of the leftmost leaf (R136). -/
theorem Tree.decodeAll_zeros (n : Nat) :
    T.decodeAll (List.replicate n false) = List.replicate (n / T.leftmost.2) T.leftmost.1 := by
  have hpath := T.leftmost_mem_paths
  have hpos := Tree.leftmost_depth_pos hT
  induction n using Nat.strong_induction_on with
  | h n ih =>
    obtain hlt | hge := Nat.lt_or_ge n T.leftmost.2
    · have hcut : List.replicate n false <+: List.replicate T.leftmost.2 false :=
        ⟨List.replicate (T.leftmost.2 - n) false, by rw [← List.replicate_add, Nat.add_sub_of_le hlt.le]⟩
      rw [Tree.decodeAll_of_cut (Tree.walk_of_cut hpath hcut (by simpa only [List.length_replicate] using hlt)),
        Nat.div_eq_of_lt hlt, List.replicate_zero]
    · obtain ⟨m, rfl⟩ := Nat.exists_eq_add_of_le hge
      rw [List.replicate_add, Tree.decodeAll_of_walk hT (Tree.walk_eq_some.mpr ⟨_, hpath, rfl⟩), ih m (by omega),
        Nat.add_div_left _ hpos, List.replicate_succ]

variable {code : Byte → Bits} {bytes : List Byte} (hcode : ∀ b ∈ bytes, (b, code b) ∈ T.paths)
include hcode

/-- The codes of some bytes, and more, decode to the bytes, and more (R102, R137). -/
theorem Tree.decodeAll_codes (rest : Bits) : T.decodeAll (bytes.flatMap code ++ rest) = bytes ++ T.decodeAll rest := by
  induction bytes with
  | nil => rfl
  | cons b bs ih =>
    obtain ⟨hb, hbs⟩ := List.forall_mem_cons.mp hcode
    have hwalk : T.walk ((b :: bs).flatMap code ++ rest) = some (b, bs.flatMap code ++ rest) :=
      Tree.walk_eq_some.mpr ⟨code b, hb, by rw [List.flatMap_cons, List.append_assoc]⟩
    rw [Tree.decodeAll_of_walk hT hwalk, ih hbs, List.cons_append]

/-- The codes of some bytes, cut short, decode to fewer bytes (R136). -/
theorem Tree.decodeAll_take_codes {m : Nat} (hm : m < (bytes.flatMap code).length) :
    ∃ k < bytes.length, T.decodeAll ((bytes.flatMap code).take m) = bytes.take k := by
  induction bytes generalizing m with
  | nil => exact absurd hm (Nat.not_lt_zero _)
  | cons b bs ih =>
    obtain ⟨hb, hbs⟩ := List.forall_mem_cons.mp hcode
    rw [List.flatMap_cons, List.length_append] at hm
    rw [List.flatMap_cons]
    obtain hlt | hge := Nat.lt_or_ge m (code b).length
    · refine ⟨0, Nat.succ_pos _, ?_⟩
      rw [List.take_append_of_le_length hlt.le]
      exact Tree.decodeAll_of_cut (Tree.walk_of_cut hb (List.take_prefix _ _) (by rw [List.length_take]; omega))
    · obtain ⟨n, rfl⟩ := Nat.exists_eq_add_of_le hge
      obtain ⟨k, hk, hdec⟩ := ih hbs (m := n) (by omega)
      refine ⟨k + 1, Nat.succ_lt_succ hk, ?_⟩
      rw [List.take_length_add_append, Tree.decodeAll_of_walk hT (Tree.walk_eq_some.mpr ⟨_, hb, rfl⟩), hdec, List.take_succ_cons]

end

theorem Tree.size_eq (T : Tree) : T.size + 1 = 2 * T.syms.length := by
  induction T with
  | leaf x w => rfl
  | node w l r ihl ihr =>
    rw [Tree.size, Tree.syms, List.length_append]
    omega

/-! ## DECOMP of a stream that is cut or padded -/

/-- The unread bits at the start: those of IN but for the last TAILSKIP (R45). -/
theorem State.unread_of_start {s : State} (hpos : s.bitPos = 0) :
    s.unread = (streamBits s.inp).take ((streamBits s.inp).length - s.tailskip.toNat) := by
  rw [State.unread, hpos, List.drop_zero, State.limit, streamBits_length]

/-- DECOMP where the bits end inside the serialized tree: it faults, with nothing emitted (R131, R134). -/
theorem decompBody_of_cut {s : State} {T : Tree} {cut : Bits} (h : s.unread = magicBits ++ cut) (hcut : cut <+: T.ser)
    (hlt : cut.length < T.ser.length) : ∃ t, decompBody s = .ended t ∧ t.out = s.out := by
  have htail : ({ s.skip 16 with phase := .dhdrOk } : State).unread = cut := State.unread_skip_of_append h
  obtain ⟨t, ht, hout⟩ := dtreeBody_of_cut (s := { s.skip 16 with phase := .dhdrOk }) (htail ▸ hcut) (htail ▸ hlt)
  exact ⟨t, by rw [decompBody, dhdrBody_of_magic h, Flow.bind_go, ht, Flow.bind_ended], hout⟩

/-! ## COMP that reached DONE -/

/-- COMP goes through only on a tree of more than one leaf (R110). -/
theorem compBody_degen {s t : State} (h : compBody s = .go () t) : t.degen = false := by
  rw [compBody_eq_bind] at h
  obtain ⟨⟨⟩, u, -, h⟩ := Flow.bind_eq_go.mp h
  obtain ⟨⟨⟩, v, -, h⟩ := Flow.bind_eq_go.mp h
  have hsame : t.degen = v.degen := ((afterCheck_within v).of_go h).1.same .degen (by decide)
  obtain ⟨⟨⟩, w, hw, -⟩ := Flow.bind_eq_go.mp h
  rw [hsame]
  cases hd : v.degen with
  | false => rfl
  | true =>
    rw [hdrBody, if_pos hd] at hw
    obtain ⟨e, x, -, hx⟩ := Flow.bind_eq_go.mp hw
    cases hx

end Sys2Proof.Machine

namespace Sys2Proof.Safety

open Sys2Proof Sys2Proof.Machine

/-- A COMP that reached DONE went through, on a tree of more than one leaf. -/
theorem Inv.compressed_of_done {s t : State} (hs : Inv s) (hp : s.phase = .idle) (ht : exec .comp s = .next t)
    (hdone : t.phase = .done) : ∃ T, Compressed s t T ∧ T.isLeaf = false := by
  rw [exec_comp hp] at ht
  have hgo := compBody_of_done ht hdone
  have hspec := hs.compBody_spec hp
  rw [hgo] at hspec
  obtain ⟨T, hT⟩ := hspec
  exact ⟨T, hT, hT.coded.built.degen.symm.trans (compBody_degen hgo)⟩

theorem Coded.size_le {s t : State} {T : Tree} (h : Coded s t T) : T.size ≤ Config.nodeCap := by
  have hle := presentSyms_length_le t.freq
  rw [← h.built.syms_perm.length_eq] at hle
  have hsize := T.size_eq
  exact show T.size ≤ 511 by omega

/-- The code of a byte of IN is the path of its leaf (R100). -/
theorem Coded.code_mem_paths {s t : State} {T : Tree} (h : Coded s t T) {b : Byte} (hb : b ∈ s.inp) :
    (b, t.code[symIdx b]) ∈ T.paths := by
  have hperm := h.built.syms_perm
  have hmem : b ∈ T.syms := hperm.mem_iff.mpr (mem_presentSyms.mpr (h.freq b ▸ List.count_pos_iff.mpr hb))
  rw [h.code]
  exact Tree.codeTable_mem_paths (hperm.nodup_iff.mpr (presentSyms_nodup t.freq)) hmem

theorem Coded.inp_ne_nil {s t : State} {T : Tree} (h : Coded s t T) : s.inp ≠ [] := by
  obtain ⟨x, hx⟩ := List.exists_mem_of_length_pos T.syms_length_pos
  have hcount := mem_presentSyms.mp (h.built.syms_perm.mem_iff.mp hx)
  rw [h.freq] at hcount
  exact List.ne_nil_of_mem (List.count_pos_iff.mp hcount)

/-- DECOMP where the bits end inside the payload: fewer bytes than the input has (R136). -/
theorem Coded.decomp_of_short_payload {s t s' : State} {T : Tree} {m : Nat} (h : Coded s t T) (hleaf : T.isLeaf = false)
    (hp' : s'.phase = .idle) (hout : s'.out = []) (hm : m < (t.payloadOf s.inp).length)
    (hbits : s'.unread = magicBits ++ T.ser ++ (t.payloadOf s.inp).take m) :
    ∃ u, exec .decomp s' = .next u ∧ u.out <+: s.inp ∧ u.out ≠ s.inp := by
  obtain ⟨mem, -, hgo⟩ := decompBody_of_stream hbits hleaf h.size_le
  obtain ⟨k, hlt, hdec⟩ := Tree.decodeAll_take_codes hleaf (fun b hb => h.code_mem_paths hb) hm
  have hdec : T.decodeAll ((t.payloadOf s.inp).take m) = s.inp.take k := hdec
  refine ⟨_, by rw [exec_decomp hp', hgo]; rfl, ?_⟩
  rw [State.decompressed, hout, List.nil_append, hdec]
  exact ⟨List.take_prefix k s.inp, fun heq => Nat.not_le.mpr hlt (List.take_eq_self_iff _ |>.mp heq)⟩

/-- DECOMP where the bits end inside the serialized tree: nothing (R131, R136). -/
theorem Coded.decomp_of_short_tree {s t s' : State} {T : Tree} {m : Nat} (h : Coded s t T) (hp' : s'.phase = .idle)
    (hout : s'.out = []) (hm : m < T.ser.length) (hbits : s'.unread = magicBits ++ T.ser.take m) :
    ∃ u, exec .decomp s' = .next u ∧ u.out <+: s.inp ∧ u.out ≠ s.inp := by
  obtain ⟨u, hu, hnone⟩ := decompBody_of_cut hbits (List.take_prefix _ _) (by rw [List.length_take]; omega)
  refine ⟨u, by rw [exec_decomp hp', hu]; rfl, ?_⟩
  rw [hnone, hout]
  exact ⟨List.nil_prefix, h.inp_ne_nil.symm⟩

section
variable {s t s' : State} {T : Tree} (hT : Compressed s t T) (hleaf : T.isLeaf = false) (hs' : Inv s')
  (hp' : s'.phase = .idle) (hinp : s'.inp = t.out)
include hT hleaf hs' hp' hinp

/-- With no more than the padding withheld DECOMP gives the input, and copies of the leftmost leaf's symbol (R135, R136). -/
theorem Compressed.decomp_of_le (hk : s'.tailskip.toNat ≤ t.padcnt.toNat) :
    ∃ u, exec .decomp s' = .next u ∧ u.phase = .ddone ∧ u.outFinal = true ∧
      u.out = s.inp ++ List.replicate ((t.padcnt.toNat - s'.tailskip.toNat) / T.leftmost.2) T.leftmost.1 := by
  have hidle := hs'.idle hp'
  have hout : s'.out = [] := hidle ▸ rfl
  have hunread : s'.unread = magicBits ++ T.ser ++
      (t.payloadOf s.inp ++ List.replicate (t.padcnt.toNat - s'.tailskip.toNat) false) := by
    rw [State.unread_of_start (hidle ▸ rfl), hinp, hT.stream, List.length_append, List.length_replicate, Nat.add_sub_assoc hk,
      List.take_length_add_append, List.take_replicate, Nat.min_eq_left (Nat.sub_le _ _), List.append_assoc]
  obtain ⟨m, -, hgo⟩ := decompBody_of_stream hunread hleaf hT.coded.size_le
  refine ⟨_, by rw [exec_decomp hp', hgo]; rfl, rfl, rfl, ?_⟩
  rw [State.decompressed, hout, List.nil_append, State.payloadOf,
    Tree.decodeAll_codes hleaf (fun b hb => hT.coded.code_mem_paths hb), Tree.decodeAll_zeros hleaf]

/-- With payload bits withheld DECOMP loses the end of the input (R136). -/
theorem Compressed.decomp_of_gt (hk : t.padcnt.toNat < s'.tailskip.toNat) :
    ∃ u, exec .decomp s' = .next u ∧ u.out <+: s.inp ∧ u.out ≠ s.inp := by
  have hidle := hs'.idle hp'
  have hout : s'.out = [] := hidle ▸ rfl
  have hskip := s'.tailskip.isLt
  have hser := T.ser_length
  have hpos := T.syms_length_pos
  have hunread := State.unread_of_start (s := s') (hidle ▸ rfl)
  rw [hinp, hT.stream, List.append_assoc magicBits, List.length_append, List.length_replicate,
    List.take_append_of_le_length (by omega)] at hunread
  obtain hin | hcut := le_or_gt s'.tailskip.toNat (t.padcnt.toNat + (t.payloadOf s.inp).length)
  · obtain ⟨m, hm⟩ := Nat.exists_eq_add_of_le hin
    have hindex : (magicBits ++ (T.ser ++ t.payloadOf s.inp)).length + t.padcnt.toNat - s'.tailskip.toNat =
        (magicBits ++ T.ser).length + m := by
      simp only [List.length_append]
      omega
    rw [hindex, ← List.append_assoc, List.take_length_add_append] at hunread
    exact hT.coded.decomp_of_short_payload hleaf hp' hout (by omega) hunread
  · have hle : s'.tailskip.toNat ≤ T.ser.length + (t.payloadOf s.inp).length + t.padcnt.toNat := by omega
    obtain ⟨m, hm⟩ := Nat.exists_eq_add_of_le hle
    have hindex : (magicBits ++ (T.ser ++ t.payloadOf s.inp)).length + t.padcnt.toNat - s'.tailskip.toNat =
        magicBits.length + m := by
      simp only [List.length_append]
      omega
    rw [hindex, List.take_length_add_append, List.take_append_of_le_length (by omega)] at hunread
    exact hT.coded.decomp_of_short_tree hp' hout (by omega) hunread

end

/-- Settles O46: the stream is that of R70; what is withheld is padding, or reaches into the payload. -/
theorem paddingDecodesAsTheLeftmostLeaf : Obligations.PaddingDecodesAsTheLeftmostLeaf := by
  intro s t s' hs hp ht hdone hs' hp' hinp
  obtain ⟨T, hT, hleaf⟩ := hs.compressed_of_done hp ht hdone
  have htree := hT.coded.built.tree
  have hdepth := Tree.leftmost_depth_pos hleaf
  obtain hk | hk := le_or_gt s'.tailskip.toNat t.padcnt.toNat
  · obtain ⟨u, hu, hphase, -, hout⟩ := hT.decomp_of_le hleaf hs' hp' hinp hk
    exact ⟨u, T, htree, hdepth, hu, fun _ => ⟨hphase, hout⟩, fun hk' => absurd hk (Nat.not_le.mpr hk')⟩
  · obtain ⟨u, hu, hout⟩ := hT.decomp_of_gt hleaf hs' hp' hinp hk
    exact ⟨u, T, htree, hdepth, hu, fun hk' => absurd hk (Nat.not_lt.mpr hk'), fun _ => hout⟩

/-- Settles O45: with PADCNT bits withheld no zero is left, and with none withheld PADCNT zeros are, which decode to a symbol
unless they end inside the walk to the leftmost leaf. -/
theorem decompInvertsComp : Obligations.DecompInvertsComp := by
  intro s t s' hs hp ht hdone hs' hp' hinp
  obtain ⟨T, hT, hleaf⟩ := hs.compressed_of_done hp ht hdone
  have hdepth := Tree.leftmost_depth_pos hleaf
  obtain hk | hk := le_or_gt s'.tailskip.toNat t.padcnt.toNat
  · obtain ⟨u, hu, hphase, hfinal, hout⟩ := hT.decomp_of_le hleaf hs' hp' hinp hk
    refine ⟨u, T, hu, hT.coded.built.tree, fun heq => ⟨hphase, hfinal, ?_⟩, fun hzero => ?_⟩
    · rw [hout, heq, Nat.sub_self, Nat.zero_div, List.replicate_zero, List.append_nil]
    · have hdiv : t.padcnt.toNat / T.leftmost.2 = 0 ↔ t.padcnt.toNat < T.leftmost.2 := by
        rw [Nat.div_eq_zero_iff]
        omega
      rw [hout, List.append_right_eq_self, List.replicate_eq_nil_iff, hzero]
      exact hdiv
  · obtain ⟨u, hu, -⟩ := hT.decomp_of_gt hleaf hs' hp' hinp hk
    exact ⟨u, T, hu, hT.coded.built.tree, fun heq => absurd hk (heq ▸ Nat.lt_irrefl _),
      fun hzero => absurd hk (hzero ▸ Nat.not_lt_zero _)⟩

end Sys2Proof.Safety

/-! PROOFS. The command port: a word dropped, illegal, or taken as its command (60_exceptions.md R150 to R156). -/

namespace Sys2Proof.Machine

open Sys2Proof Sys2Proof.Safety

/-- A step with a word next in line takes the word, the command port moved past it (R150). -/
theorem step_command {s : State} {w : Word} {rest : List HostAct} (hv : s.cfg.valid = true) (hh : s.host = .command w :: rest) :
    step s = takeWord w { s with host := rest } := by
  simp only [step, hv, if_true, hh, takeAct]

/-- In FAULT a word other than CLR's is dropped (R150 step 1, R168). -/
theorem takeWord_of_dropped {w : Word} {s : State} (hf : s.phase = .fault) (hw : w ≠ encode .clr) : takeWord w s = .next s :=
  if_pos ⟨hf, hw⟩

/-- A word that is not dropped and spells no command is illegal (R150 step 2, R155). -/
theorem takeWord_of_reject {w : Word} {s : State} {r : Reject} (hf : s.phase ≠ .fault) (hd : decode w = .reject r) :
    takeWord w s = .next (s.raise .illegalCmd (wordInfo w s.phase)) := by
  rw [takeWord, if_neg fun h => hf h.1, hd]

/-- A word that is not dropped is taken as the command it spells (R150 step 2, R63). -/
theorem takeWord_of_instr {w : Word} {s : State} {i : Instr} (hf : s.phase ≠ .fault ∨ w = encode .clr)
    (hd : decode w = .instr i) : takeWord w s = exec i s := by
  rw [takeWord, if_neg fun h => hf.elim (· h.1) h.2, hd]

end Sys2Proof.Machine

namespace Sys2Proof.Safety

open Sys2Proof Sys2Proof.Machine

/-- Settles O4: a word that hits no row is rejected by the decoder, and taking it raises the fault. -/
theorem illegalWordRaises : Obligations.IllegalWordRaises := by
  intro s w rest hv hh hf hrows
  obtain ⟨r, hr⟩ := decode_reject_iff.mpr fun q hq => beq_false_of_ne (hrows q hq)
  exact ⟨_, (step_command hv hh).trans (takeWord_of_reject hf hr), rfl, wordInfo_toNat w s.phase, rfl, rfl⟩

/-- Settles O5: the word is taken as the command it spells. -/
theorem stepRunsTheDecodedCommand : Obligations.StepRunsTheDecodedCommand :=
  fun _ _ _ _ hv hh hd hf => (step_command hv hh).trans (takeWord_of_instr hf hd)

/-- Settles O6: the one word that is not dropped is CLR's, which the step runs. -/
theorem faultDropsEveryWordButClr : Obligations.FaultDropsEveryWordButClr := by
  intro s w rest hv hh hf
  refine ⟨fun hw => (step_command hv hh).trans (takeWord_of_dropped hf hw), ?_⟩
  rintro rfl
  exact ⟨_, stepRunsTheDecodedCommand s _ rest .clr hv hh (decodeOfEncodeIsTheCommand .clr rfl) (.inr rfl), rfl, rfl, rfl⟩

/-- Settles O7: a well-formed command that is not legal is rejected with its own word. -/
theorem wrongPhaseRaisesSequence : Obligations.WrongPhaseRaisesSequence :=
  fun i s hw hf hl => ⟨_, exec_of_not_legal hw hf hl, rfl, wordInfo_toNat (encode i) s.phase, rfl, rfl⟩

end Sys2Proof.Safety

/-! PROOFS. The fault record: the first fault stays until CLR or reset (60_exceptions.md R166, R168). -/

namespace Sys2Proof.Machine

open Sys2Proof Sys2Proof.Safety

/-! ## Where a command that goes on leaves PHASE -/

/-- Pseudocode that, where it goes on, leaves a phase of `ps`. -/
def Flow.GoesTo (ps : List Phase) (x : Flow Unit) : Prop := x.Spec (fun _ t => t.phase ∈ ps) (fun _ => True) True

theorem Flow.goesTo_iff {ps : List Phase} {x : Flow Unit} : x.GoesTo ps ↔ ∀ t, x = .go () t → t.phase ∈ ps := by
  cases x <;> simp [Flow.GoesTo]

/-- A sequence leaves the phase its last part does. -/
theorem Flow.GoesTo.bind {α : Type} {ps : List Phase} {x : Flow α} {k : α → State → Flow Unit}
    (hk : ∀ a t, (k a t).GoesTo ps) : (x.bind k).GoesTo ps := by
  cases x with
  | go a t => exact hk a t
  | ended t => trivial
  | stuck f => trivial

theorem LeavesItsPhase.goesTo {i : Instr} (h : LeavesItsPhase i) (s : State) : (pseudocode i s).GoesTo (leaves i) :=
  (h s).mono (fun _ _ => id) (fun _ _ => trivial) id

/-- A legal command that goes on leaves a phase of the last column of R184. -/
theorem pseudocode_goesTo {i : Instr} {s : State} (hl : Legal i s) : (pseudocode i s).GoesTo (leaves i) := by
  obtain ⟨hp, -⟩ := hl
  cases i with
  | clr => exact List.mem_singleton.mpr rfl
  | ctl opd => exact hp
  | cnt sym => exact .bind fun _ _ => List.mem_singleton.mpr rfl
  | freq => exact leavesItsPhase_freq.goesTo s
  | list => exact leavesItsPhase_list.goesTo s
  | merge => exact Flow.goesTo_iff.mpr fun t ht => by rw [mergeStep_frame ht]; exact hp
  | tree => exact leavesItsPhase_tree.goesTo s
  | codes => exact leavesItsPhase_codes.goesTo s
  | check => exact leavesItsPhase_check.goesTo s
  | hdr => exact leavesItsPhase_hdr.goesTo s
  | stree => exact leavesItsPhase_stree.goesTo s
  | enc sym => exact .bind fun _ _ => List.mem_singleton.mpr rfl
  | payload => exact leavesItsPhase_payload.goesTo s
  | flush => exact leavesItsPhase_flush.goesTo s
  | comp =>
    exact .bind fun _ _ => .bind fun _ _ => .bind fun _ _ => .bind fun _ _ => .bind fun _ _ => .bind fun _ _ => .bind fun _ _ =>
      .bind fun _ _ => List.mem_singleton.mpr rfl
  | dhdr => exact leavesItsPhase_dhdr.goesTo s
  | dtree => exact leavesItsPhase_dtree.goesTo s
  | dsym =>
    refine Flow.goesTo_iff.mpr fun t ht => ?_
    obtain ⟨-, hphase, -⟩ := dsymBody_go ht
    exact List.mem_cons.mpr (.inl (hphase.trans (List.mem_singleton.mp hp)))
  | dpayload => exact (dpayloadBody_ended s).mono (fun _ _ => False.elim) (fun _ _ => trivial) id
  | decomp => exact (decompBody_ended s).mono (fun _ _ => False.elim) (fun _ _ => trivial) id

end Sys2Proof.Machine

namespace Sys2Proof.Safety

open Sys2Proof Sys2Proof.Machine

/-! ## The fault record -/

/-- A fault raised is on record (R152). -/
theorem faultOk_raise (s : State) {c : ErrCode} (hc : c ≠ .none) (i : Word64) : FaultOk (s.raise c i) :=
  ⟨iff_of_true rfl hc, fun h => absurd h hc⟩

theorem faultOk_of_none {s : State} (hf : s.phase ≠ .fault) (herr : s.err = .none) (hinfo : s.errinfo = 0) : FaultOk s :=
  ⟨iff_of_false hf (not_not_intro herr), fun _ => hinfo⟩

/-- Pseudocode that raises no fault and leaves FAULT alone keeps an empty fault record empty. -/
theorem FaultOk.of_calm {s t : State} (h : FaultOk s) (hs : s.phase ≠ .fault) (hc : Calm s t) (ht : t.phase ≠ .fault) :
    FaultOk t := by
  have herr : s.err = .none := not_not.mp (mt h.recorded.mpr hs)
  exact faultOk_of_none ht (hc.err.trans herr) (hc.errinfo.trans (h.info herr))

/-- What a command ends with is a fault on record, or the end of the run (R152, 44_decoder.md R132). -/
theorem FaultOk.of_halted {s t : State} (h : FaultOk s) (hs : s.phase ≠ .fault) (ht : Halted s t) : FaultOk t := by
  obtain ⟨hp, herr⟩ | ⟨hp, hc⟩ := ht
  · exact ⟨iff_of_true hp herr, fun h => absurd h herr⟩
  · exact h.of_calm hs hc (by simp [hp])

/-- Every command keeps PHASE and the fault record in step. -/
theorem exec_faultOk {i : Instr} {s t : State} (hs : FaultOk s) (h : exec i s = .next t) : FaultOk t := by
  obtain ⟨-, he⟩ | ⟨-, he⟩ | ⟨-, c, info, hn, he⟩ | ⟨hc, hf, hl, he⟩ := exec_cases i s
  · cases he.symm.trans h
    exact faultOk_of_none (by simp) rfl rfl
  · cases he.symm.trans h
    exact hs
  · cases he.symm.trans h
    exact faultOk_raise s hn info
  · refine Flow.Spec.next (((pseudocode_goesTo hl).and (pseudocode_within hc s)).mono ?_ ?_ id) (he.symm.trans h)
    · rintro _ u ⟨hp, -, hcalm⟩
      exact hs.of_calm hf hcalm fun hu => fault_not_mem_leaves i (hu ▸ hp)
    · exact fun u ⟨_, _, hhalt⟩ => hs.of_halted hf hhalt

/-- Settles O54: in FAULT only CLR's word and reset do anything to the block but for IN, and both leave IDLE. -/
theorem firstFaultStays : Obligations.FirstFaultStays := by
  intro s t hs h
  obtain ⟨-, ⟨-, rfl⟩ | ⟨w, rest, -, -, -, rfl⟩ | ⟨w, rest, -, hf, -, rfl⟩ | ⟨w, rest, i, hh, hd, he⟩ | ⟨rest, hh, rfl⟩ |
    ⟨bytes, rest, -, -, -, rfl⟩⟩ := step_cases h
  · exact ⟨hs, fun hp => .inl ⟨hp, rfl, rfl⟩⟩
  · exact ⟨⟨hs.recorded, hs.info⟩, fun hp => .inl ⟨hp, rfl, rfl⟩⟩
  · exact ⟨faultOk_raise _ (by decide) _, fun hp => absurd hp hf⟩
  · refine ⟨exec_faultOk (s := { s with host := rest }) ⟨hs.recorded, hs.info⟩ he, fun hp => ?_⟩
    by_cases hc : i = .clr
    · subst hc
      obtain rfl := (encodeOfDecodeIsTheWord w .clr hd).2
      cases exec_clr he
      exact .inr ⟨rfl, rfl, rest, .inl hh⟩
    · cases (exec_of_fault (s := { s with host := rest }) hc hp).symm.trans he
      exact .inl ⟨hp, rfl, rfl⟩
  · exact ⟨faultOk_of_none (by simp [State.reset]) rfl rfl, fun _ => .inr ⟨rfl, rfl, rest, .inr hh⟩⟩
  · exact ⟨⟨hs.recorded, hs.info⟩, fun hp => .inl ⟨hp, rfl, rfl⟩⟩

end Sys2Proof.Safety

/-! PROOFS. DTREE on a tree that is cut short or too large: it faults at the first node it cannot read (44_decoder.md R131,
60_exceptions.md R163, R164). -/

namespace Sys2Proof.Machine

open Sys2Proof Sys2Proof.Safety

/-! ## A serialized tree node by node -/

theorem Tree.serNodes_flatten (T : Tree) : T.serNodes.flatten = T.ser := by
  induction T with
  | leaf x w => simp [Tree.serNodes, Tree.ser]
  | node w l r ihl ihr => simp [Tree.serNodes, Tree.ser, ihl, ihr]

theorem Tree.serNodes_length (T : Tree) : T.serNodes.length = T.size := by
  induction T with
  | leaf x w => rfl
  | node w l r ihl ihr => simp only [Tree.serNodes, Tree.size, List.length_cons, List.length_append, ihl, ihr]; omega

theorem Tree.nil_not_mem_serNodes (T : Tree) : [] ∉ T.serNodes := by
  induction T with
  | leaf x w => simp [Tree.serNodes]
  | node w l r ihl ihr => simp [Tree.serNodes, ihl, ihr]

theorem Tree.serBefore_mono (T : Tree) {m n : Nat} (h : m ≤ n) : T.serBefore m ≤ T.serBefore n :=
  (List.take_prefix_take_left h).sublist.flatten.length_le

/-- Behind node `n` the serialized tree is longer by that node. -/
theorem Tree.serBefore_succ {T : Tree} {n : Nat} {nd : Bits} (h : T.serNodes[n]? = some nd) :
    T.serBefore (n + 1) = T.serBefore n + nd.length := by
  simp [Tree.serBefore, List.take_add_one, h]

/-! ## The nodes read, and the fault at the next one -/

/-- From `s` to `u` `build()` has read the nodes `nds` whole and has given each a handle (R131). -/
structure Passed (s : State) (nds : List Bits) (u : State) : Prop where
  bits : s.unread = nds.flatten ++ u.unread
  frame : u = { s with node := u.node, nnodes := s.nnodes + nds.length, bitPos := s.bitPos + nds.flatten.length }

theorem Passed.nnodes {s u : State} {nds : List Bits} (h : Passed s nds u) : u.nnodes = s.nnodes + nds.length :=
  congrArg State.nnodes h.frame

theorem Passed.refl (s : State) : Passed s [] s := ⟨rfl, rfl⟩

theorem Passed.trans {s u v : State} {as bs : List Bits} (h : Passed s as u) (h' : Passed u bs v) : Passed s (as ++ bs) v := by
  refine ⟨by rw [h.bits, h'.bits, List.flatten_append, List.append_assoc], ?_⟩
  rw [h'.frame, h.frame, List.length_append, List.flatten_append, List.length_append, ← Nat.add_assoc, ← Nat.add_assoc]

/-- A write of an entry reads nothing and gives no handle. -/
theorem Passed.putNode {s u : State} {nds : List Bits} (h : Passed s nds u) (n : Handle) (e : NodeEntry) :
    Passed s nds (u.putNode n e) := ⟨h.bits, by rw [h.frame]; rfl⟩

/-- The flag of an internal node is all of it. -/
theorem passed_flag {s : State} {rest : Bits} (h : s.unread = true :: rest) (e : NodeEntry) :
    Passed s [[true]] ((s.skip 1).withNew e) := by
  refine ⟨?_, rfl⟩
  have hrest : ((s.skip 1).withNew e).unread = rest := State.unread_skip_of_append (bs := [true]) h
  rw [hrest, h]
  rfl

theorem Deserialized.passed {s t : State} {n : Handle} {T : Tree} {rest : Bits} (h : Deserialized s n t T)
    (hs : s.unread = T.ser ++ rest) : Passed s T.serNodes t := by
  refine ⟨by rw [h.unread, hs, List.drop_left, T.serNodes_flatten], ?_⟩
  rw [T.serNodes_flatten, T.serNodes_length, ← h.built.nnodes]
  exact h.frame

/-- How `build()` may fault in `u`, where the node `nd` is next (R131): at its flag, when no bit is left; behind its flag, when
no handle is left; or behind its handle, when a leaf's eight symbol bits are not all there. -/
inductive NodeFault (u : State) (nd : Bits) : State → Prop where
  | noFlag (hbits : u.unread = []) (hcap : u.nnodes ≤ Config.nodeCap) :
    NodeFault u nd (u.raise .unexpectedEos (BitVec.ofNat 64 u.bitPos))
  | noHandle (hbits : u.unread ≠ []) (hfull : u.nnodes = Config.nodeCap) :
    NodeFault u nd ((u.skip 1).raise .nodeOverflow (BitVec.ofNat 64 (u.skip 1).bitPos))
  | noSymbol (hbits : u.unread ≠ []) (hroom : u.nnodes < Config.nodeCap) (hlen : nd.length = 9) (hshort : u.unread.length < 9) :
    NodeFault u nd (({ u.skip 1 with nnodes := u.nnodes + 1 } : State).raise .unexpectedEos (BitVec.ofNat 64 (u.skip 1).bitPos))

/-- `build()`, from `s` on the nodes `nds`, faults in `t` at one of them, those before it read. -/
def StopsIn (s : State) (nds : List Bits) (t : State) : Prop :=
  ∃ done nd later u, nds = done ++ nd :: later ∧ Passed s done u ∧ NodeFault u nd t

theorem NodeFault.stopsIn {s t : State} {nd : Bits} (h : NodeFault s nd t) (later : List Bits) : StopsIn s (nd :: later) t :=
  ⟨[], nd, later, s, rfl, .refl s, h⟩

theorem StopsIn.append {s t : State} {nds : List Bits} (h : StopsIn s nds t) (more : List Bits) : StopsIn s (nds ++ more) t := by
  obtain ⟨done, nd, later, u, rfl, hu, ht⟩ := h
  exact ⟨done, nd, later ++ more, u, by rw [List.append_assoc, List.cons_append], hu, ht⟩

theorem StopsIn.after {s u t : State} {as nds : List Bits} (h : StopsIn u nds t) (hu : Passed s as u) :
    StopsIn s (as ++ nds) t := by
  obtain ⟨done, nd, later, v, rfl, hv, ht⟩ := h
  exact ⟨as ++ done, nd, later, v, (List.append_assoc ..).symm, hu.trans hv, ht⟩

/-! ## One call of `build()` -/

/-- A call of `build()` faults at its own node, or has a bit and a handle for it. -/
theorem buildTree_ownNode (fuel : Nat) {s : State} (hc : s.nnodes ≤ Config.nodeCap) (nd : Bits) :
    (∃ t, buildTree (fuel + 1) s = .ended t ∧ NodeFault s nd t) ∨
      (∃ f rest, s.unread = f :: rest) ∧ s.nnodes < Config.nodeCap := by
  cases hbits : s.unread with
  | nil => exact .inl ⟨_, by rw [buildTree, State.readBit_of_unread_nil hbits]; rfl, .noFlag hbits hc⟩
  | cons f rest =>
    obtain hfull | hroom := hc.eq_or_lt
    · have hfull' : (s.skip 1).nnodes = Config.nodeCap := hfull
      refine .inl ⟨_, ?_, .noHandle (by simp [hbits]) hfull⟩
      rw [buildTree, State.readBit_of_unread hbits]
      exact if_pos hfull'
    · exact .inr ⟨⟨f, rest, rfl⟩, hroom⟩

/-- An internal node with its left subtree read: what is left is to read the right one, and then to go on (R131). -/
theorem buildParent_of_left {b : State → Flow Handle} {s u : State} {l : Handle} {L : Tree} (hroom : s.nnodes < Config.nodeCap)
    (hu : b (s.withNew (parentEntry 0 Config.nil Config.nil)) = .go l u)
    (hL : Built (s.withNew (parentEntry 0 Config.nil Config.nil)) l u L) (k : Handle → State → Flow Handle) :
    ((b (s.withNew (parentEntry 0 Config.nil Config.nil))).bind fun l u =>
      (u.changeNode (BitVec.ofNat 9 s.nnodes) fun e => { e with left := l }).bind fun _ u => (b u).bind k) =
      (b (u.putNode (BitVec.ofNat 9 s.nnodes) (parentEntry 0 l Config.nil))).bind k := by
  have hnew : (s.withNew (parentEntry 0 Config.nil Config.nil)).readNode (BitVec.ofNat 9 s.nnodes) = _ :=
    State.readNode_eq_some.mpr ⟨(handle_toNat hroom).trans_lt (Nat.lt_succ_self _),
      (withNew_read hroom _).trans (if_pos (handle_toNat hroom))⟩
  rw [hu, Flow.bind_go, State.changeNode_eq_go.mpr ⟨_, hL.readNode_before hnew, rfl⟩, Flow.bind_go]
  rfl

/-- `build()` at a leaf for which bits or a handle are missing (R131, R163, R164). -/
theorem buildTree_leaf_stopsIn (fuel : Nat) {s : State} {x : Byte} {more rest : Bits}
    (h : s.unread ++ more = false :: (byteBits x ++ rest)) (hc : s.nnodes ≤ Config.nodeCap)
    (hnot : ¬ (s.nnodes + 1 ≤ Config.nodeCap ∧ 9 ≤ s.unread.length)) :
    ∃ t, buildTree (fuel + 1) s = .ended t ∧ StopsIn s [false :: byteBits x] t := by
  obtain ⟨t, ht, hfault⟩ | ⟨⟨f, bits, hbits⟩, hroom⟩ := buildTree_ownNode fuel hc (false :: byteBits x)
  · exact ⟨t, ht, hfault.stopsIn []⟩
  · rw [hbits] at h
    obtain ⟨rfl, -⟩ := List.cons.inj h
    have hshort : s.unread.length < 9 := Nat.not_le.mp fun hl => hnot ⟨hroom, hl⟩
    have hbyte : ({ s.skip 1 with nnodes := s.nnodes + 1 } : State).unread = bits :=
      State.unread_skip_of_append (bs := [false]) hbits
    have hfew : bits.length < 8 := by
      rw [hbits, List.length_cons] at hshort
      omega
    refine ⟨_, ?_, (NodeFault.noSymbol (by simp [hbits]) hroom rfl hshort).stopsIn []⟩
    rw [buildTree_succ fuel hbits hroom, if_neg Bool.false_ne_true, needByte_of_short (hbyte ▸ hfew)]
    rfl

/-- `build()` at an internal node with bits and handles for its left subtree: it comes to the right one (R131). -/
theorem buildTree_toRight {fuel : Nat} {s : State} {l : Tree} {tail : Bits} (h : s.unread = true :: (l.ser ++ tail))
    (hcap : s.nnodes + 1 + l.size ≤ Config.nodeCap) (hf : l.size ≤ fuel) :
    ∃ u k, buildTree (fuel + 1) s = (buildTree fuel u).bind k ∧ Passed s ([true] :: l.serNodes) u := by
  have hroom : s.nnodes < Config.nodeCap := by omega
  have hunread : ((s.skip 1).withNew (parentEntry 0 Config.nil Config.nil)).unread = l.ser ++ tail :=
    State.unread_skip_of_append (bs := [true]) h
  obtain ⟨a, u, hu, hL⟩ := buildTree_of_ser hunread hcap (l.height_lt_size.trans_le hf)
  have hbuild := buildTree_succ fuel h hroom
  rw [if_pos rfl, buildParent_of_left (s := s.skip 1) hroom hu hL.built] at hbuild
  exact ⟨_, _, hbuild, ((passed_flag h _).trans (hL.passed hunread)).putNode _ _⟩

/-- `build()` where the unread bits and `T.ser` agree as far as both go, and bits or handles do not suffice for all of `T`: it
faults at one of the nodes of `T` (R131, R163, R164). -/
theorem buildTree_stopsIn {T : Tree} {fuel : Nat} {s : State} {more rest : Bits} (h : s.unread ++ more = T.ser ++ rest)
    (hc : s.nnodes ≤ Config.nodeCap) (hf : Config.nodeCap < fuel + s.nnodes)
    (hnot : ¬ (s.nnodes + T.size ≤ Config.nodeCap ∧ T.ser.length ≤ s.unread.length)) :
    ∃ t, buildTree fuel s = .ended t ∧ StopsIn s T.serNodes t := by
  obtain ⟨fuel, rfl⟩ : ∃ n, fuel = n + 1 := Nat.exists_eq_succ_of_ne_zero (by omega)
  induction T generalizing fuel s more rest with
  | leaf x w => exact buildTree_leaf_stopsIn fuel h hc hnot
  | node w l r ihl ihr =>
    obtain ⟨t, ht, hfault⟩ | ⟨⟨f, bits, hbits⟩, hroom⟩ := buildTree_ownNode fuel hc [true]
    · exact ⟨t, ht, hfault.stopsIn _⟩
    rw [hbits] at h
    obtain ⟨rfl, htail⟩ := List.cons.inj h
    have htail : bits ++ more = l.ser ++ (r.ser ++ rest) := htail.trans (List.append_assoc ..)
    obtain ⟨fuel, rfl⟩ : ∃ n, fuel = n + 1 := Nat.exists_eq_succ_of_ne_zero (by omega)
    by_cases hleft : s.nnodes + 1 + l.size ≤ Config.nodeCap ∧ l.ser.length ≤ bits.length
    · obtain ⟨hcap, hlen⟩ := hleft
      obtain ⟨tail, rfl⟩ : l.ser <+: bits := List.prefix_of_prefix_length_le ⟨_, htail.symm⟩ ⟨_, rfl⟩ hlen
      obtain ⟨u, k, hbuild, hu⟩ := buildTree_toRight (fuel := fuel + 1) hbits hcap (by omega)
      have hunread : u.unread = tail := by
        have hsplit := hbits.symm.trans hu.bits
        rw [List.flatten_cons, l.serNodes_flatten] at hsplit
        simpa using hsplit.symm
      have hnodes : u.nnodes = s.nnodes + 1 + l.size := by
        rw [hu.nnodes, List.length_cons, l.serNodes_length]
        omega
      rw [List.append_assoc, List.append_cancel_left_eq] at htail
      have hright : ¬ (u.nnodes + r.size ≤ Config.nodeCap ∧ r.ser.length ≤ u.unread.length) := by
        rw [hnodes, hunread]
        rw [hbits, Tree.size, Tree.ser] at hnot
        simp only [List.length_cons, List.length_append] at hnot
        omega
      obtain ⟨t, ht, hstop⟩ := ihr (hunread ▸ htail) (hnodes ▸ hcap) hright fuel (by omega)
      exact ⟨t, by rw [hbuild, ht, Flow.bind_ended], hstop.after hu⟩
    · have hunread : ((s.skip 1).withNew (parentEntry 0 Config.nil Config.nil)).unread = bits :=
        State.unread_skip_of_append (bs := [true]) hbits
      obtain ⟨t, ht, hstop⟩ := ihl (s := (s.skip 1).withNew (parentEntry 0 Config.nil Config.nil)) (hunread ▸ htail) hroom
        (hunread ▸ hleft) fuel (show _ < fuel + 1 + (s.nnodes + 1) by omega)
      refine ⟨t, ?_, (hstop.append r.serNodes).after (passed_flag hbits _)⟩
      rw [buildTree_succ (fuel + 1) hbits hroom, if_pos rfl, ht, Flow.bind_ended]

/-! ## DTREE -/

/-- The state in which DTREE has read `n` nodes of `T`, the memory `m` holding them. -/
def State.readNodes (s : State) (m : Memory) (T : Tree) (n : Nat) : State :=
  { s with node := m, nnodes := n, bitPos := s.bitPos + T.serBefore n }

/-- DTREE where bits or handles do not suffice for all of `T` faults at one of its nodes, `n` having been read before it. -/
theorem exec_dtree_stops {s : State} {T : Tree} {more rest : Bits} (hp : s.phase = .dhdrOk)
    (h : s.unread ++ more = T.ser ++ rest)
    (hnot : ¬ (T.size ≤ Config.nodeCap ∧ T.ser.length ≤ s.unread.length)) :
    ∃ n nd m t, exec .dtree s = .next t ∧ T.serNodes[n]? = some nd ∧
      s.unread.length = T.serBefore n + (s.readNodes m T n).unread.length ∧ NodeFault (s.readNodes m T n) nd t := by
  obtain ⟨t, ht, done, nd, later, u, hsplit, hu, hfault⟩ := buildTree_stopsIn (s := { s with nnodes := 0 }) (fuel := walkFuel) h
    (Nat.zero_le _) (show Config.nodeCap < walkFuel + 0 by decide) (by rwa [Nat.zero_add])
  have hdone : T.serNodes.take done.length = done := by rw [hsplit, List.take_left]
  have hstate : u = s.readNodes u.node T done.length := by
    rw [State.readNodes, Tree.serBefore, hdone, ← Nat.zero_add done.length]
    exact hu.frame
  refine ⟨done.length, nd, u.node, t, ?_, ?_, ?_, hstate ▸ hfault⟩
  · rw [exec_dtree hp, dtreeBody, ht, Flow.bind_ended, Flow.toOutcome_ended]
  · rw [hsplit, List.getElem?_append_right (Nat.le_refl _), Nat.sub_self, List.getElem?_cons_zero]
  · rw [← hstate, Tree.serBefore, hdone, ← List.length_append]
    exact congrArg List.length hu.bits

end Sys2Proof.Machine

namespace Sys2Proof.Safety

open Sys2Proof Sys2Proof.Machine

/-- Settles O38: the node at which DTREE faults is fixed by the bits there are, and by the handles. -/
theorem dtreeFaultsOnCutOrLargeTrees : Obligations.DtreeFaultsOnCutOrLargeTrees := by
  intro s T more rest hp h
  refine ⟨fun hsize hlong => ?_, fun hshort => ?_⟩
  · obtain ⟨n, nd, m, t, hexec, hnd, hlen, hfault⟩ := exec_dtree_stops hp h fun ⟨hcap, _⟩ => Nat.not_lt.mpr hcap hsize
    cases hfault with
    | noFlag hbits hcap =>
      have hle := T.serBefore_mono (show n ≤ 511 from hcap)
      rw [hbits, List.length_nil] at hlen
      omega
    | noHandle hbits hfull =>
      obtain rfl : n = 511 := hfull
      exact ⟨_, hexec, rfl, rfl, rfl, rfl, rfl, rfl⟩
    | noSymbol hbits hroom hnine hfew =>
      have hle := T.serBefore_mono (show n + 1 ≤ 511 from hroom)
      rw [T.serBefore_succ hnd] at hle
      omega
  · obtain ⟨n, nd, m, t, hexec, hnd, hlen, hfault⟩ := exec_dtree_stops hp h fun ⟨hcap, hfit⟩ => by
      have hcap : T.size ≤ 511 := hcap
      omega
    have hnext := T.serBefore_succ hnd
    cases hfault with
    | noFlag hbits hcap =>
      have hpos : 0 < nd.length := List.length_pos_iff.mpr fun hnil =>
        T.nil_not_mem_serNodes (hnil ▸ List.mem_of_getElem? hnd)
      rw [hbits, List.length_nil, Nat.add_zero] at hlen
      refine ⟨_, n, hexec, rfl, rfl, rfl, hlen.ge, by omega, fun _ => ⟨rfl, rfl⟩, fun hlt => by omega, ?_, rfl⟩
      exact (congrArg List.length hbits).trans_lt (by decide)
    | noHandle hbits hfull =>
      obtain rfl : n = 511 := hfull
      have hpos := List.length_pos_iff.mpr hbits
      have hsize : 511 < T.size := T.serNodes_length ▸ (List.getElem?_eq_some_iff.mp hnd).1
      omega
    | noSymbol hbits hroom hnine hfew =>
      have hpos := List.length_pos_iff.mpr hbits
      refine ⟨_, n, hexec, rfl, rfl, rfl, by omega, by omega, fun heq => by omega, fun _ => ⟨rfl, rfl⟩, ?_, rfl⟩
      have hrest := congrArg List.length (State.unread_skip 1 (s.readNodes m T n))
      rw [List.length_drop] at hrest
      exact hrest.trans_lt (by omega)

end Sys2Proof.Safety

/-! PROOFS. The phase table and reset (70_reset_and_hazards.md R180, R184). -/

namespace Sys2Proof.Machine

open Sys2Proof Sys2Proof.Safety

/-! ## Where a command that ends leaves PHASE -/

/-- Pseudocode that ends a command only where it raises a fault. -/
def Flow.EndsInFault (x : Flow Unit) : Prop := x.Spec (fun _ _ => True) (fun t => t.phase = .fault) True

/-- A sequence ends in FAULT if its first part and what follows do. -/
theorem Flow.EndsInFault.bind {x : Flow Unit} {k : Unit → State → Flow Unit} (hx : x.EndsInFault)
    (hk : ∀ a t, (k a t).EndsInFault) : (x.bind k).EndsInFault := Flow.Spec.bind hx fun a t _ => hk a t

theorem Flow.NeverEnds.endsInFault {x : Flow Unit} (h : x.NeverEnds) : x.EndsInFault :=
  h.mono (fun _ _ => id) (fun _ => False.elim) id

theorem LeavesItsPhase.endsInFault {i : Instr} (h : LeavesItsPhase i) (s : State) : (pseudocode i s).EndsInFault :=
  (h s).mono (fun _ _ _ => trivial) (fun _ => id) id

theorem countSymbol_endsInFault (sym : Byte) (s : State) : (countSymbol sym s).EndsInFault :=
  (countSymbol_spec sym s).mono (fun _ _ => id) (fun _ => id) False.elim

theorem encodeSymbol_endsInFault (sym : Byte) (s : State) : (encodeSymbol sym s).EndsInFault :=
  (encodeSymbol_spec sym s).mono (fun _ _ => id) (fun _ => id) False.elim

theorem runAll_endsInFault {is : List Instr} (hx : ∀ i ∈ is, LeavesItsPhase i) (s : State) : (runAll is s).EndsInFault := by
  induction is generalizing s with
  | nil => trivial
  | cons i is ih =>
    obtain ⟨hi, his⟩ := List.forall_mem_cons.mp hx
    exact (hi.endsInFault s).bind fun _ t => ih his t

/-- Only the commands that may end a decompression end elsewhere than in FAULT (R132, R184). -/
theorem pseudocode_endsInFault {i : Instr} (hd : Phase.ddone ∉ leaves i) (s : State) : (pseudocode i s).EndsInFault := by
  cases i with
  | clr => trivial
  | ctl opd => trivial
  | cnt sym => exact (countSymbol_endsInFault sym s).bind fun _ _ => trivial
  | freq => exact leavesItsPhase_freq.endsInFault s
  | list => exact leavesItsPhase_list.endsInFault s
  | merge => exact (Flow.neverEnds_of_ne_ended fun _ => mergeStep_ne_ended).endsInFault
  | tree => exact leavesItsPhase_tree.endsInFault s
  | codes => exact leavesItsPhase_codes.endsInFault s
  | check => exact leavesItsPhase_check.endsInFault s
  | hdr => exact leavesItsPhase_hdr.endsInFault s
  | stree => exact leavesItsPhase_stree.endsInFault s
  | enc sym => exact (encodeSymbol_endsInFault sym s).bind fun _ _ => trivial
  | payload => exact leavesItsPhase_payload.endsInFault s
  | flush => exact leavesItsPhase_flush.endsInFault s
  | comp => exact runAll_endsInFault leavesItsPhase_compSteps s
  | dhdr => exact leavesItsPhase_dhdr.endsInFault s
  | dtree => exact leavesItsPhase_dtree.endsInFault s
  | dsym => exact absurd (by decide) hd
  | dpayload => exact absurd (by decide) hd
  | decomp => exact absurd (by decide) hd

/-- A command that ends raises a fault, or ends the run in a phase of the last column of R184. -/
theorem pseudocode_ended {i : Instr} (hc : i ≠ .clr) (s : State) :
    (pseudocode i s).Spec (fun _ _ => True) (fun t => t.phase = .fault ∨ t.phase ∈ leaves i) True := by
  by_cases hd : Phase.ddone ∈ leaves i
  · exact Flow.Spec.mono (pseudocode_within hc s) (fun _ _ _ => trivial)
      (fun _ ⟨_, hhalt⟩ => hhalt.imp And.left fun ⟨hp, _⟩ => hp ▸ hd) id
  · exact (pseudocode_endsInFault hd s).mono (fun _ _ => id) (fun _ => .inl) id

/-- A legal command comes to FAULT or to a phase of the last column of R184. -/
theorem exec_phase {i : Instr} {s t : State} (hw : i.wellFormed = true) (hl : Legal i s) (h : exec i s = .next t) :
    t.phase = .fault ∨ t.phase ∈ leaves i := by
  by_cases hc : i = .clr
  · subst hc
    rw [exec_clr h]
    exact .inr (List.mem_singleton.mpr rfl)
  · rw [exec_of_legal hc hw hl] at h
    have hspec := (pseudocode_goesTo hl).and (pseudocode_ended hc s)
    exact (hspec.mono (fun _ _ ⟨hgo, _⟩ => .inr hgo) (fun _ => And.right) id).next h

/-! ## Reset -/

/-- A step with reset next in line resets the block (R180). -/
theorem step_reset {s : State} {rest : List HostAct} (hv : s.cfg.valid = true) (hh : s.host = .reset :: rest) :
    step s = .next ({ s with host := rest } : State).assertReset := by
  simp only [step, hv, if_true, hh, takeAct]

/-- Reset is CLR, CTRL cleared and no NODE entry holding a value (R28, R180; log 11). -/
theorem State.assertReset_eq_cleared (s : State) :
    s.assertReset = { s.cleared with force := false, tailskip := 0, node := [] } := rfl

end Sys2Proof.Machine

namespace Sys2Proof.Safety

open Sys2Proof Sys2Proof.Machine

/-- Settles O8: a command that goes on leaves the phase its last part writes, and one that ends is in FAULT or DDONE. -/
theorem commandLeavesItsPhase : Obligations.CommandLeavesItsPhase :=
  fun _ _ _ hw hl h hf => (exec_phase hw hl h).resolve_left hf

/-- Settles O10: the state reset comes to is CLR's but for CTRL and NODE. -/
theorem resetIsClrThatClearsCtrl : Obligations.ResetIsClrThatClearsCtrl :=
  fun s rest hv hh => ⟨_, s.cleared, step_reset hv hh, rfl, State.assertReset_eq_cleared { s with host := rest }⟩

end Sys2Proof.Safety
